-- ==== Sys2Proof/Word.lean ====
section
/-! DEFINITION. The word types of the TXU: 32-bit registers and words (10_state.md R20, 20_memory.md R77), bytes
(R72), and the operand fields of an instruction word (30_encoding.md R103, R104). -/

namespace Sys2Proof

/-- A 32-bit register, CSR or memory word (R20, R26, R77). -/
abbrev Word := BitVec 32

/-- One byte of DMEM (R72). -/
abbrev Byte := BitVec 8

/-- A register field of an instruction word: a 4-bit number naming x0 … x15 (R103). -/
abbrev Reg := BitVec 4

/-- 2^k, as a natural number. -/
def pow2 (k : Nat) : Nat := Nat.pow 2 k

end Sys2Proof
end

