-- ==== Sys2Proof/Syntax.lean ====
section
/-! DEFINITION. The instruction set as one inductive: one constructor for each row of spec/opcode_table.json, in the
table's order, with the operands of 30_encoding.md R102 to R106. A modifier bit (inverse, conjugate, codelet, table or
map kind) selects a constructor; an operand keeps the width of its field, so the only operand value a constructor
admits and the encoding does not is `lg < 3` for TGEN P and TCOPY P (R110; WellFormed.lean). -/

namespace Sys2Proof

/-- One TXU instruction (R106). The constructor's comment gives its mnemonic in the table and its rule. -/
inductive Instr where
  /-- ADDI: R320. -/
  | addi (rd rs1 : Reg) (imm18 : BitVec 18)
  /-- LUI: R321. -/
  | lui (rd : Reg) (imm22 : BitVec 22)
  /-- ADD: R322. -/
  | add (rd rs1 rs2 : Reg)
  /-- SUB: R323. -/
  | sub (rd rs1 rs2 : Reg)
  /-- MUL: R324. -/
  | mul (rd rs1 rs2 : Reg)
  /-- SLLI: R325. -/
  | slli (rd rs1 : Reg) (shamt : BitVec 5)
  /-- SRLI: R326. -/
  | srli (rd rs1 : Reg) (shamt : BitVec 5)
  /-- LW: R327. -/
  | lw (rd rs1 : Reg) (imm18 : BitVec 18)
  /-- SW: R328. -/
  | sw (rd rs1 : Reg) (imm18 : BitVec 18)
  /-- BEQ: R330. -/
  | beq (rs1 rs2 : Reg) (off18 : BitVec 18)
  /-- BNE: R331. -/
  | bne (rs1 rs2 : Reg) (off18 : BitVec 18)
  /-- BLTU: R332. -/
  | bltu (rs1 rs2 : Reg) (off18 : BitVec 18)
  /-- J: R333. -/
  | j (off26 : BitVec 26)
  /-- CSRR: R334. -/
  | csrr (rd : Reg) (csr : BitVec 8)
  /-- CSRW: R335. -/
  | csrw (rs1 : Reg) (csr : BitVec 8)
  /-- HALT: R336. -/
  | halt
  /-- CMULV: R158. -/
  | cmulv (rd rs1 rs2 rs3 : Reg)
  /-- CMULV.c: R158. -/
  | cmulvC (rd rs1 rs2 rs3 : Reg)
  /-- BFV: R159. -/
  | bfv (rs1 rs2 rs3 : Reg)
  /-- SCALEV: R160. -/
  | scalev (rd rs1 rs3 : Reg)
  /-- COPYV: R161. -/
  | copyv (rd rs1 rs3 : Reg)
  /-- FFT2: R175. -/
  | fft2 (rd : Reg)
  /-- FFT4: R176. -/
  | fft4 (rd : Reg)
  /-- FFT8: R177. -/
  | fft8 (rd : Reg)
  /-- SRCOMB: R178. -/
  | srcomb (rd : Reg) (lg : BitVec 5)
  /-- FFTNS: R179. -/
  | fftns (rd : Reg) (lg : BitVec 5)
  /-- FFT: R180. -/
  | fft (rd rs1 : Reg) (lg : BitVec 5)
  /-- FFT.i: R180. -/
  | fftI (rd rs1 : Reg) (lg : BitVec 5)
  /-- FFTL: R181. -/
  | fftl (rd rs1 rs3 : Reg)
  /-- FFTL.i: R181. -/
  | fftlI (rd rs1 rs3 : Reg)
  /-- FFT3: R205. -/
  | fft3 (rd rs1 : Reg)
  /-- FFT3.i: R205. -/
  | fft3I (rd rs1 : Reg)
  /-- FFT5: R205. -/
  | fft5 (rd rs1 : Reg)
  /-- FFT5.i: R205. -/
  | fft5I (rd rs1 : Reg)
  /-- FFT7: R205. -/
  | fft7 (rd rs1 : Reg)
  /-- FFT7.i: R205. -/
  | fft7I (rd rs1 : Reg)
  /-- FFT9: R205. -/
  | fft9 (rd rs1 : Reg)
  /-- FFT9.i: R205. -/
  | fft9I (rd rs1 : Reg)
  /-- FFT15: R205. -/
  | fft15 (rd rs1 : Reg)
  /-- FFT15.i: R205. -/
  | fft15I (rd rs1 : Reg)
  /-- PFA (N1 = 3): R207. -/
  | pfa3 (rd rs1 rs2 : Reg)
  /-- PFA.i (N1 = 3): R207. -/
  | pfa3I (rd rs1 rs2 : Reg)
  /-- PFA (N1 = 5): R207. -/
  | pfa5 (rd rs1 rs2 : Reg)
  /-- PFA.i (N1 = 5): R207. -/
  | pfa5I (rd rs1 rs2 : Reg)
  /-- PFA (N1 = 7): R207. -/
  | pfa7 (rd rs1 rs2 : Reg)
  /-- PFA.i (N1 = 7): R207. -/
  | pfa7I (rd rs1 rs2 : Reg)
  /-- PFA (N1 = 9): R207. -/
  | pfa9 (rd rs1 rs2 : Reg)
  /-- PFA.i (N1 = 9): R207. -/
  | pfa9I (rd rs1 rs2 : Reg)
  /-- PFA (N1 = 15): R207. -/
  | pfa15 (rd rs1 rs2 : Reg)
  /-- PFA.i (N1 = 15): R207. -/
  | pfa15I (rd rs1 rs2 : Reg)
  /-- PMAPSR: R220. -/
  | pmapsr (rd : Reg) (lg : BitVec 5)
  /-- PMAPSR.i: R220. -/
  | pmapsrI (rd : Reg) (lg : BitVec 5)
  /-- PMAPBR: R221. -/
  | pmapbr (rd : Reg) (lg : BitVec 5)
  /-- PMAPCRT: R222. -/
  | pmapcrt (rd rs1 rs2 : Reg)
  /-- PMAPRUR: R223. -/
  | pmaprur (rd rs1 rs2 : Reg)
  /-- PMAPNEG: R224. -/
  | pmapneg (rd rs3 : Reg)
  /-- PGATHER: R226. -/
  | pgather (rd rs1 rs2 rs3 : Reg)
  /-- PSCATTER: R227. -/
  | pscatter (rd rs1 rs2 rs3 : Reg)
  /-- PINV: R228. -/
  | pinv (rd rs1 rs3 : Reg)
  /-- TGEN P: R245. -/
  | tgenP (lg : BitVec 5)
  /-- TGEN T53: R245. -/
  | tgenT53
  /-- TGEN T7: R245. -/
  | tgenT7
  /-- TGEN T9: R245. -/
  | tgenT9
  /-- TCOPY P: R247. -/
  | tcopyP (rd : Reg) (lg : BitVec 5)
  /-- TCOPY T53: R247. -/
  | tcopyT53 (rd : Reg)
  /-- TCOPY T7: R247. -/
  | tcopyT7 (rd : Reg)
  /-- TCOPY T9: R247. -/
  | tcopyT9 (rd : Reg)
  /-- TGMDCT: R250. -/
  | tgmdct (rd rs3 : Reg)
  /-- TGMDCT.i: R250. -/
  | tgmdctI (rd rs3 : Reg)
  /-- TGRDFT: R255. -/
  | tgrdft (rd rs3 : Reg)
  /-- TGDCT: R260. -/
  | tgdct (rd rs3 : Reg)
  /-- MDCTF: R270. -/
  | mdctf (rd rs1 rs2 rs3 : Reg)
  /-- MDCTI: R272. -/
  | mdcti (rd rs1 rs2 rs3 : Reg)
  /-- MDCTIF: R273. -/
  | mdctif (rd rs1 rs2 rs3 : Reg)
  /-- RDFTF: R286. -/
  | rdftf (rd rs1 rs2 rs3 : Reg)
  /-- RDFTI: R288. -/
  | rdfti (rd rs1 rs2 rs3 : Reg)
  /-- RDFTRR: R289. -/
  | rdftrr (rd rs1 rs2 rs3 : Reg)
  /-- RDFTRI: R289. -/
  | rdftri (rd rs1 rs2 rs3 : Reg)
  /-- DCT2: R301. -/
  | dct2 (rd rs1 rs2 rs3 : Reg)
  /-- DCT3: R303. -/
  | dct3 (rd rs1 rs2 rs3 : Reg)
  /-- DCT1: R305. -/
  | dct1 (rd rs1 rs2 rs3 : Reg)
  /-- DST1: R306. -/
  | dst1 (rd rs1 rs2 rs3 : Reg)
deriving DecidableEq, Repr

end Sys2Proof
end

