-- ==== Sys2Proof/WellFormed.lean ====
section
/-! DEFINITION. Which terms of Instr have an encoding. Every operand has its field's width, so the one check left is the
table selector's: sel = 0 with lg < 3 is illegal (30_encoding.md R110, 45_twiddle.md R246). -/

namespace Sys2Proof

/-- Has this term an encoding (R110)? -/
def Instr.wellFormed : Instr → Bool
  | .tgenP lg => decide (3 ≤ lg.toNat)
  | .tcopyP _ lg => decide (3 ≤ lg.toNat)
  | _ => true

end Sys2Proof
end

