-- ==== Sys2Proof/Decode.lean ====
section
/-! DEFINITION. The decoder, total on every 32-bit word (30_encoding.md R100, R109), and the encoder, both written from
the formats of R102 and the opcode map of R106. -/

namespace Sys2Proof

/-- Why a word is illegal (R110). -/
inductive Illegal where
  /-- OP is 0x00 or unassigned. -/
  | unassignedOpcode
  /-- A zero field of the row is not zero. -/
  | nonzeroField
  /-- sel names no codelet or table, or lg does not fit the selected table. -/
  | badSelector
deriving DecidableEq, Repr

/-! Fields of a word (R102). -/

/-- OP = word[31:26] (R101). -/
def opOf (w : Word) : BitVec 6 := w.extractLsb' 26 6
/-- Bits 25:22: rd, or rs1 of the B format. -/
def rdOf (w : Word) : Reg := w.extractLsb' 22 4
/-- Bits 21:18: rs1, or rs2 of the B format. -/
def rs1Of (w : Word) : Reg := w.extractLsb' 18 4
/-- Bits 17:14: rs2. -/
def rs2Of (w : Word) : Reg := w.extractLsb' 14 4
/-- Bits 13:10: rs3. -/
def rs3Of (w : Word) : Reg := w.extractLsb' 10 4
/-- Bits 17:0: imm18 or off18. -/
def imm18Of (w : Word) : BitVec 18 := w.extractLsb' 0 18
/-- Bits 21:0: imm22. -/
def imm22Of (w : Word) : BitVec 22 := w.extractLsb' 0 22
/-- Bits 25:0: off26. -/
def off26Of (w : Word) : BitVec 26 := w.extractLsb' 0 26
/-- Bits 4:0: shamt. -/
def shamtOf (w : Word) : BitVec 5 := w.extractLsb' 0 5
/-- Bits 17:10: csr. -/
def csrOf (w : Word) : BitVec 8 := w.extractLsb' 10 8
/-- Bits 9:5: lg. -/
def lgOf (w : Word) : BitVec 5 := w.extractLsb' 5 5
/-- Bits 4:0: sel (bits 4:1) and inv (bit 0) of the K format, together. -/
def selInvOf (w : Word) : BitVec 5 := w.extractLsb' 0 5
/-- Bits 9:0: fn. -/
def fnOf (w : Word) : BitVec 10 := w.extractLsb' 0 10

/-- The instruction `i` when the zero fields of its row are zero, else illegal (R106, R110). -/
def whenZero (zeros : Bool) (i : Instr) : Except Illegal Instr :=
  if zeros then .ok i else .error .nonzeroField

/-- Two instructions told apart by fn[0], with fn[9:1] = 0 (R104). -/
def byFnBit (w : Word) (zeros : Bool) (i0 i1 : Instr) : Except Illegal Instr :=
  match zeros, fnOf w with
  | true, 0#10 => .ok i0
  | true, 1#10 => .ok i1
  | _, _ => .error .nonzeroField

/-- Two instructions told apart by inv, with sel = 0 (R104). -/
def byInvBit (w : Word) (zeros : Bool) (i0 i1 : Instr) : Except Illegal Instr :=
  match zeros, selInvOf w with
  | true, 0#5 => .ok i0
  | true, 1#5 => .ok i1
  | _, _ => .error .nonzeroField

/-- OP 0x20: the odd codelets, selected by sel ≤ 4 and inv (R106, 43_fft_prime.md R205). -/
def decodeOdd (w : Word) : Except Illegal Instr :=
  let rd := rdOf w
  let rs1 := rs1Of w
  if w.extractLsb' 5 13 = 0#13 then
    match selInvOf w with
    | 0#5 => .ok (.fft3 rd rs1)
    | 1#5 => .ok (.fft3I rd rs1)
    | 2#5 => .ok (.fft5 rd rs1)
    | 3#5 => .ok (.fft5I rd rs1)
    | 4#5 => .ok (.fft7 rd rs1)
    | 5#5 => .ok (.fft7I rd rs1)
    | 6#5 => .ok (.fft9 rd rs1)
    | 7#5 => .ok (.fft9I rd rs1)
    | 8#5 => .ok (.fft15 rd rs1)
    | 9#5 => .ok (.fft15I rd rs1)
    | _ => .error .badSelector
  else .error .nonzeroField

/-- OP 0x21: the prime-factor transform, N1 selected by sel ≤ 4, and inv (R106, 43_fft_prime.md R207). -/
def decodePfa (w : Word) : Except Illegal Instr :=
  let rd := rdOf w
  let rs1 := rs1Of w
  let rs2 := rs2Of w
  if w.extractLsb' 5 9 = 0#9 then
    match selInvOf w with
    | 0#5 => .ok (.pfa3 rd rs1 rs2)
    | 1#5 => .ok (.pfa3I rd rs1 rs2)
    | 2#5 => .ok (.pfa5 rd rs1 rs2)
    | 3#5 => .ok (.pfa5I rd rs1 rs2)
    | 4#5 => .ok (.pfa7 rd rs1 rs2)
    | 5#5 => .ok (.pfa7I rd rs1 rs2)
    | 6#5 => .ok (.pfa9 rd rs1 rs2)
    | 7#5 => .ok (.pfa9I rd rs1 rs2)
    | 8#5 => .ok (.pfa15 rd rs1 rs2)
    | 9#5 => .ok (.pfa15I rd rs1 rs2)
    | _ => .error .badSelector
  else .error .nonzeroField

/-- The table selector of TGEN and TCOPY: sel ≤ 3, inv = 0, lg ≥ 3 when sel = 0 and lg = 0 otherwise
(R106, R110, 45_twiddle.md R246). -/
def bySelector (w : Word) (zeros : Bool) (iP : BitVec 5 → Instr) (i53 i7 i9 : Instr) : Except Illegal Instr :=
  if zeros && !(w.getLsbD 0) then
    match (w.extractLsb' 1 4 : BitVec 4) with
    | 0#4 => if 3 ≤ (lgOf w).toNat then .ok (iP (lgOf w)) else .error .badSelector
    | 1#4 => if lgOf w = 0#5 then .ok i53 else .error .badSelector
    | 2#4 => if lgOf w = 0#5 then .ok i7 else .error .badSelector
    | 3#4 => if lgOf w = 0#5 then .ok i9 else .error .badSelector
    | _ => .error .badSelector
  else .error .nonzeroField

/-- The instruction a word is, or why it is illegal (R106, R109, R110). It depends on the word alone. -/
def decode (w : Word) : Except Illegal Instr :=
  let rd := rdOf w
  let rs1 := rs1Of w
  let rs2 := rs2Of w
  let rs3 := rs3Of w
  match opOf w with
  | 0x01#6 => .ok (.addi rd rs1 (imm18Of w))
  | 0x02#6 => .ok (.lui rd (imm22Of w))
  | 0x03#6 => whenZero (w.extractLsb' 0 14 == 0#14) (.add rd rs1 rs2)
  | 0x04#6 => whenZero (w.extractLsb' 0 14 == 0#14) (.sub rd rs1 rs2)
  | 0x05#6 => whenZero (w.extractLsb' 0 14 == 0#14) (.mul rd rs1 rs2)
  | 0x06#6 => whenZero (w.extractLsb' 5 13 == 0#13) (.slli rd rs1 (shamtOf w))
  | 0x07#6 => whenZero (w.extractLsb' 5 13 == 0#13) (.srli rd rs1 (shamtOf w))
  | 0x08#6 => .ok (.lw rd rs1 (imm18Of w))
  | 0x09#6 => .ok (.sw rd rs1 (imm18Of w))
  | 0x0A#6 => .ok (.beq rd rs1 (imm18Of w))
  | 0x0B#6 => .ok (.bne rd rs1 (imm18Of w))
  | 0x0C#6 => .ok (.bltu rd rs1 (imm18Of w))
  | 0x0D#6 => .ok (.j (off26Of w))
  | 0x0E#6 => whenZero (rs1 == 0#4 && fnOf w == 0#10) (.csrr rd (csrOf w))
  | 0x0F#6 => whenZero (rd == 0#4 && fnOf w == 0#10) (.csrw rs1 (csrOf w))
  | 0x10#6 => whenZero (off26Of w == 0#26) .halt
  | 0x14#6 => byFnBit w true (.cmulv rd rs1 rs2 rs3) (.cmulvC rd rs1 rs2 rs3)
  | 0x15#6 => whenZero (rd == 0#4 && fnOf w == 0#10) (.bfv rs1 rs2 rs3)
  | 0x16#6 => whenZero (rs2 == 0#4 && fnOf w == 0#10) (.scalev rd rs1 rs3)
  | 0x17#6 => whenZero (rs2 == 0#4 && fnOf w == 0#10) (.copyv rd rs1 rs3)
  | 0x18#6 => whenZero (imm22Of w == 0#22) (.fft2 rd)
  | 0x19#6 => whenZero (imm22Of w == 0#22) (.fft4 rd)
  | 0x1A#6 => whenZero (imm22Of w == 0#22) (.fft8 rd)
  | 0x1B#6 => whenZero (w.extractLsb' 10 12 == 0#12 && selInvOf w == 0#5) (.srcomb rd (lgOf w))
  | 0x1C#6 => whenZero (w.extractLsb' 10 12 == 0#12 && selInvOf w == 0#5) (.fftns rd (lgOf w))
  | 0x1D#6 => byInvBit w (w.extractLsb' 10 8 == 0#8) (.fft rd rs1 (lgOf w)) (.fftI rd rs1 (lgOf w))
  | 0x1E#6 => byFnBit w (rs2 == 0#4) (.fftl rd rs1 rs3) (.fftlI rd rs1 rs3)
  | 0x20#6 => decodeOdd w
  | 0x21#6 => decodePfa w
  | 0x24#6 => byInvBit w (w.extractLsb' 10 12 == 0#12) (.pmapsr rd (lgOf w)) (.pmapsrI rd (lgOf w))
  | 0x25#6 => whenZero (w.extractLsb' 10 12 == 0#12 && selInvOf w == 0#5) (.pmapbr rd (lgOf w))
  | 0x26#6 => byFnBit w (rs3 == 0#4) (.pmapcrt rd rs1 rs2) (.pmaprur rd rs1 rs2)
  | 0x27#6 => whenZero (w.extractLsb' 14 8 == 0#8 && fnOf w == 0#10) (.pmapneg rd rs3)
  | 0x28#6 => whenZero (fnOf w == 0#10) (.pgather rd rs1 rs2 rs3)
  | 0x29#6 => whenZero (fnOf w == 0#10) (.pscatter rd rs1 rs2 rs3)
  | 0x2A#6 => whenZero (rs2 == 0#4 && fnOf w == 0#10) (.pinv rd rs1 rs3)
  | 0x2C#6 => bySelector w (w.extractLsb' 10 16 == 0#16) .tgenP .tgenT53 .tgenT7 .tgenT9
  | 0x2D#6 => bySelector w (w.extractLsb' 10 12 == 0#12) (.tcopyP rd) (.tcopyT53 rd) (.tcopyT7 rd) (.tcopyT9 rd)
  | 0x2E#6 => byFnBit w (w.extractLsb' 14 8 == 0#8) (.tgmdct rd rs3) (.tgmdctI rd rs3)
  | 0x2F#6 => whenZero (w.extractLsb' 14 8 == 0#8 && fnOf w == 0#10) (.tgrdft rd rs3)
  | 0x30#6 => whenZero (w.extractLsb' 14 8 == 0#8 && fnOf w == 0#10) (.tgdct rd rs3)
  | 0x32#6 => whenZero (fnOf w == 0#10) (.mdctf rd rs1 rs2 rs3)
  | 0x33#6 => whenZero (fnOf w == 0#10) (.mdcti rd rs1 rs2 rs3)
  | 0x34#6 => whenZero (fnOf w == 0#10) (.mdctif rd rs1 rs2 rs3)
  | 0x36#6 => whenZero (fnOf w == 0#10) (.rdftf rd rs1 rs2 rs3)
  | 0x37#6 => whenZero (fnOf w == 0#10) (.rdfti rd rs1 rs2 rs3)
  | 0x38#6 => byFnBit w true (.rdftrr rd rs1 rs2 rs3) (.rdftri rd rs1 rs2 rs3)
  | 0x3A#6 => whenZero (fnOf w == 0#10) (.dct2 rd rs1 rs2 rs3)
  | 0x3B#6 => whenZero (fnOf w == 0#10) (.dct3 rd rs1 rs2 rs3)
  | 0x3C#6 => whenZero (fnOf w == 0#10) (.dct1 rd rs1 rs2 rs3)
  | 0x3D#6 => whenZero (fnOf w == 0#10) (.dst1 rd rs1 rs2 rs3)
  | _ => .error .unassignedOpcode

/-! The encoder. -/

/-- R format (R102). -/
def encR (op : BitVec 6) (rd rs1 rs2 rs3 : Reg) (fn : BitVec 10) : Word := op ++ rd ++ rs1 ++ rs2 ++ rs3 ++ fn
/-- K format (R102); `selInv` is sel followed by inv. -/
def encK (op : BitVec 6) (rd rs1 rs2 rs3 : Reg) (lg selInv : BitVec 5) : Word :=
  op ++ rd ++ rs1 ++ rs2 ++ rs3 ++ lg ++ selInv
/-- I and B formats (R102): two register fields and 18 bits. -/
def encI (op : BitVec 6) (a b : Reg) (imm : BitVec 18) : Word := op ++ a ++ b ++ imm
/-- SH format (R102). -/
def encSh (op : BitVec 6) (rd rs1 : Reg) (shamt : BitVec 5) : Word := op ++ rd ++ rs1 ++ 0#13 ++ shamt
/-- U format (R102). -/
def encU (op : BitVec 6) (rd : Reg) (imm : BitVec 22) : Word := op ++ rd ++ imm
/-- J and N formats (R102). -/
def encJ (op : BitVec 6) (off : BitVec 26) : Word := op ++ off
/-- C format (R102). -/
def encC (op : BitVec 6) (rd rs1 : Reg) (csr : BitVec 8) : Word := op ++ rd ++ rs1 ++ csr ++ 0#10

/-- The word of an instruction (R102 to R106). -/
def encode : Instr → Word
  | .addi rd rs1 imm => encI 0x01#6 rd rs1 imm
  | .lui rd imm => encU 0x02#6 rd imm
  | .add rd rs1 rs2 => encR 0x03#6 rd rs1 rs2 0 0
  | .sub rd rs1 rs2 => encR 0x04#6 rd rs1 rs2 0 0
  | .mul rd rs1 rs2 => encR 0x05#6 rd rs1 rs2 0 0
  | .slli rd rs1 sh => encSh 0x06#6 rd rs1 sh
  | .srli rd rs1 sh => encSh 0x07#6 rd rs1 sh
  | .lw rd rs1 imm => encI 0x08#6 rd rs1 imm
  | .sw rd rs1 imm => encI 0x09#6 rd rs1 imm
  | .beq rs1 rs2 off => encI 0x0A#6 rs1 rs2 off
  | .bne rs1 rs2 off => encI 0x0B#6 rs1 rs2 off
  | .bltu rs1 rs2 off => encI 0x0C#6 rs1 rs2 off
  | .j off => encJ 0x0D#6 off
  | .csrr rd csr => encC 0x0E#6 rd 0 csr
  | .csrw rs1 csr => encC 0x0F#6 0 rs1 csr
  | .halt => encJ 0x10#6 0
  | .cmulv rd rs1 rs2 rs3 => encR 0x14#6 rd rs1 rs2 rs3 0
  | .cmulvC rd rs1 rs2 rs3 => encR 0x14#6 rd rs1 rs2 rs3 1
  | .bfv rs1 rs2 rs3 => encR 0x15#6 0 rs1 rs2 rs3 0
  | .scalev rd rs1 rs3 => encR 0x16#6 rd rs1 0 rs3 0
  | .copyv rd rs1 rs3 => encR 0x17#6 rd rs1 0 rs3 0
  | .fft2 rd => encK 0x18#6 rd 0 0 0 0 0
  | .fft4 rd => encK 0x19#6 rd 0 0 0 0 0
  | .fft8 rd => encK 0x1A#6 rd 0 0 0 0 0
  | .srcomb rd lg => encK 0x1B#6 rd 0 0 0 lg 0
  | .fftns rd lg => encK 0x1C#6 rd 0 0 0 lg 0
  | .fft rd rs1 lg => encK 0x1D#6 rd rs1 0 0 lg 0
  | .fftI rd rs1 lg => encK 0x1D#6 rd rs1 0 0 lg 1
  | .fftl rd rs1 rs3 => encR 0x1E#6 rd rs1 0 rs3 0
  | .fftlI rd rs1 rs3 => encR 0x1E#6 rd rs1 0 rs3 1
  | .fft3 rd rs1 => encK 0x20#6 rd rs1 0 0 0 0
  | .fft3I rd rs1 => encK 0x20#6 rd rs1 0 0 0 1
  | .fft5 rd rs1 => encK 0x20#6 rd rs1 0 0 0 2
  | .fft5I rd rs1 => encK 0x20#6 rd rs1 0 0 0 3
  | .fft7 rd rs1 => encK 0x20#6 rd rs1 0 0 0 4
  | .fft7I rd rs1 => encK 0x20#6 rd rs1 0 0 0 5
  | .fft9 rd rs1 => encK 0x20#6 rd rs1 0 0 0 6
  | .fft9I rd rs1 => encK 0x20#6 rd rs1 0 0 0 7
  | .fft15 rd rs1 => encK 0x20#6 rd rs1 0 0 0 8
  | .fft15I rd rs1 => encK 0x20#6 rd rs1 0 0 0 9
  | .pfa3 rd rs1 rs2 => encK 0x21#6 rd rs1 rs2 0 0 0
  | .pfa3I rd rs1 rs2 => encK 0x21#6 rd rs1 rs2 0 0 1
  | .pfa5 rd rs1 rs2 => encK 0x21#6 rd rs1 rs2 0 0 2
  | .pfa5I rd rs1 rs2 => encK 0x21#6 rd rs1 rs2 0 0 3
  | .pfa7 rd rs1 rs2 => encK 0x21#6 rd rs1 rs2 0 0 4
  | .pfa7I rd rs1 rs2 => encK 0x21#6 rd rs1 rs2 0 0 5
  | .pfa9 rd rs1 rs2 => encK 0x21#6 rd rs1 rs2 0 0 6
  | .pfa9I rd rs1 rs2 => encK 0x21#6 rd rs1 rs2 0 0 7
  | .pfa15 rd rs1 rs2 => encK 0x21#6 rd rs1 rs2 0 0 8
  | .pfa15I rd rs1 rs2 => encK 0x21#6 rd rs1 rs2 0 0 9
  | .pmapsr rd lg => encK 0x24#6 rd 0 0 0 lg 0
  | .pmapsrI rd lg => encK 0x24#6 rd 0 0 0 lg 1
  | .pmapbr rd lg => encK 0x25#6 rd 0 0 0 lg 0
  | .pmapcrt rd rs1 rs2 => encR 0x26#6 rd rs1 rs2 0 0
  | .pmaprur rd rs1 rs2 => encR 0x26#6 rd rs1 rs2 0 1
  | .pmapneg rd rs3 => encR 0x27#6 rd 0 0 rs3 0
  | .pgather rd rs1 rs2 rs3 => encR 0x28#6 rd rs1 rs2 rs3 0
  | .pscatter rd rs1 rs2 rs3 => encR 0x29#6 rd rs1 rs2 rs3 0
  | .pinv rd rs1 rs3 => encR 0x2A#6 rd rs1 0 rs3 0
  | .tgenP lg => encK 0x2C#6 0 0 0 0 lg 0
  | .tgenT53 => encK 0x2C#6 0 0 0 0 0 2
  | .tgenT7 => encK 0x2C#6 0 0 0 0 0 4
  | .tgenT9 => encK 0x2C#6 0 0 0 0 0 6
  | .tcopyP rd lg => encK 0x2D#6 rd 0 0 0 lg 0
  | .tcopyT53 rd => encK 0x2D#6 rd 0 0 0 0 2
  | .tcopyT7 rd => encK 0x2D#6 rd 0 0 0 0 4
  | .tcopyT9 rd => encK 0x2D#6 rd 0 0 0 0 6
  | .tgmdct rd rs3 => encR 0x2E#6 rd 0 0 rs3 0
  | .tgmdctI rd rs3 => encR 0x2E#6 rd 0 0 rs3 1
  | .tgrdft rd rs3 => encR 0x2F#6 rd 0 0 rs3 0
  | .tgdct rd rs3 => encR 0x30#6 rd 0 0 rs3 0
  | .mdctf rd rs1 rs2 rs3 => encR 0x32#6 rd rs1 rs2 rs3 0
  | .mdcti rd rs1 rs2 rs3 => encR 0x33#6 rd rs1 rs2 rs3 0
  | .mdctif rd rs1 rs2 rs3 => encR 0x34#6 rd rs1 rs2 rs3 0
  | .rdftf rd rs1 rs2 rs3 => encR 0x36#6 rd rs1 rs2 rs3 0
  | .rdfti rd rs1 rs2 rs3 => encR 0x37#6 rd rs1 rs2 rs3 0
  | .rdftrr rd rs1 rs2 rs3 => encR 0x38#6 rd rs1 rs2 rs3 0
  | .rdftri rd rs1 rs2 rs3 => encR 0x38#6 rd rs1 rs2 rs3 1
  | .dct2 rd rs1 rs2 rs3 => encR 0x3A#6 rd rs1 rs2 rs3 0
  | .dct3 rd rs1 rs2 rs3 => encR 0x3B#6 rd rs1 rs2 rs3 0
  | .dct1 rd rs1 rs2 rs3 => encR 0x3C#6 rd rs1 rs2 rs3 0
  | .dst1 rd rs1 rs2 rs3 => encR 0x3D#6 rd rs1 rs2 rs3 0

/-- The decoder on a table word: the instruction's low `nbits` bits are those of `w`, the rest of its one 32-bit word
is zero (R100). -/
def decodeTableWord (nbits w : Nat) : Option Instr :=
  match decode (BitVec.ofNat 32 (w % pow2 nbits)) with
  | .ok i => some i
  | .error _ => none

end Sys2Proof
end

