-- ==== Sys2Proof/Config.lean ====
section
/-! DEFINITION. What an implementation of the TXU fixes: its precisions and the four parameters of 00_scope.md R6.
The spec leaves no value undefined (93_implementation_defined.md), so there is no free value here. -/

namespace Sys2Proof.Machine

/-- The precisions MODE.PREC can name (10_state.md R33, 20_memory.md R76). PREC = 3 is never held. -/
inductive Prec where
  | fp32
  | fp64
  | q31
deriving DecidableEq, Repr

/-- The width in bits of one stored element (R76). -/
def Prec.bits : Prec → Nat
  | .fp32 => 32
  | .fp64 => 64
  | .q31 => 32

/-- One element of precision `p`, as its stored bits (R76). -/
abbrev Elem (p : Prec) := BitVec p.bits

/-- A complex sample: real part, then imaginary part (R76). -/
structure Cplx (p : Prec) where
  re : Elem p
  im : Elem p
deriving DecidableEq, Repr

/-- The implementation parameters of 00_scope.md R6. FP32 is in PRECS always, so only the other two are listed.
DMEM_BYTES and IMEM_WORDS are powers of two and are held as their logarithms, as CFG reports them (R32). -/
structure Params where
  maxLog2 : Nat
  dmemLog2 : Nat
  imemLog2 : Nat
  hasF64 : Bool
  hasQ31 : Bool
deriving DecidableEq, Repr

/-- The legal values of R6. -/
def Params.legal (c : Params) : Bool :=
  decide (4 ≤ c.maxLog2) && decide (c.maxLog2 ≤ 21) &&
  (decide (12 ≤ c.dmemLog2) && decide (c.dmemLog2 ≤ 31)) &&
  (decide (4 ≤ c.imemLog2) && decide (c.imemLog2 ≤ 16))

/-- MAXN = 2^MAXLOG2 (R6). -/
def Params.maxN (c : Params) : Nat := pow2 c.maxLog2

/-- DMEM_BYTES (R6, R72). -/
def Params.dmemBytes (c : Params) : Nat := pow2 c.dmemLog2

/-- IMEM_WORDS (R6, R71). -/
def Params.imemWords (c : Params) : Nat := pow2 c.imemLog2

/-- Is `p` in PRECS (R6)? -/
def Params.has (c : Params) : Prec → Bool
  | .fp32 => true
  | .fp64 => c.hasF64
  | .q31 => c.hasQ31

/-- The reference configuration of R7. -/
def Params.reference : Params :=
  { maxLog2 := 21, dmemLog2 := 16, imemLog2 := 10, hasF64 := true, hasQ31 := true }

end Sys2Proof.Machine
end

