-- ==== Sys2Proof/Machine/State.lean ====
section
/-! DEFINITION. The state of the TXU as plain data (10_state.md), its stop reasons, and the state after power-on reset
(70_reset_and_hazards.md R390 to R393). -/

namespace Sys2Proof.Machine

/-- A memory of `w`-bit units: the units whose value is not the blank one, by strictly rising address. -/
abbrev Store (w : Nat) := List (Nat × BitVec w)

/-- DMEM, a store of bytes by byte address (20_memory.md R72). -/
abbrev Memory := Store 8

/-- IMEM, a store of instruction words by word index (20_memory.md R71). -/
abbrev InstrMemory := Store 32

/-- What a unit that the store does not list reads as. DESIGN CHOICE (log 1): the power-on draw of every location is 0,
as R393 allows a model without nondeterminism; unsafe for a statement about unwritten memory from reset. -/
def blankUnit (w : Nat) : BitVec w := 0

/-- The canonical form of a store: addresses strictly rising, no unit listed that reads as an unlisted one. -/
def Store.wf {w : Nat} : Store w → Bool
  | [] => true
  | [(_, v)] => v != blankUnit w
  | (a, v) :: (b, u) :: rest => v != blankUnit w && decide (a < b) && Store.wf ((b, u) :: rest)

/-- The canonical form of DMEM. -/
def Memory.wf (m : Memory) : Bool := Store.wf m

/-- The run state of the sequencer (R34, R51): BUSY is `running`, DONE is `done`, FAULT is `faulted`, none of them is
`idle`. One value holds the three bits of STATUS, of which at most one is 1. -/
inductive RunState where
  | idle
  | running
  | done
  | faulted
deriving DecidableEq, Repr

/-- The fault causes of 60_exceptions.md R350. Each is recorded in CAUSE by a NEXT state (R351), none stops the model. -/
inductive Cause where
  | illegalInstruction
  | fetchRange
  | dmemRange
  | misaligned
  | illegalCsr
  | unsupportedLength
  | invalidArgument
  | unsupportedCombination
  | resource
  | hostAbort
deriving DecidableEq, Repr

/-- One access of the host to the unit's window (60_exceptions.md R372, R373): its size in bytes and its offset. -/
inductive HostAccess where
  | read (size : Nat) (offset : Word)
  | write (size : Nat) (offset value : Word)
deriving DecidableEq, Repr

/-- Who moves in one step: the sequencer, or the host with one access (R374). -/
inductive Turn where
  | sequencer
  | host (a : HostAccess)
deriving DecidableEq, Repr

/-- The whole state of the unit. -/
structure State where
  /-- The implementation parameters (R6). No step changes them. -/
  params : Params
  /-- x0 … x15 (R20). Entry 0 is never read: x0 reads 0 through `State.reg` (R21). -/
  regs : Vector Word 16
  /-- The program counter, an IMEM word index (R23); HPC reads it (R47). -/
  pc : Word
  /-- MODE.PREC (R33). -/
  prec : Prec
  /-- STATUS.BUSY, DONE and FAULT (R34, R51). -/
  run : RunState
  /-- STATUS.HOSTERR (R34). -/
  hosterr : Bool
  /-- CAUSE[7:0] (R35). -/
  cause : BitVec 8
  /-- FPC (R38). -/
  fpc : Word
  /-- FINFO (R39). -/
  finfo : Word
  /-- SCALE_LO (R36). -/
  scaleLo : Word
  /-- SCALE_HI (R36). -/
  scaleHi : Word
  /-- SCALEF (R37). -/
  scalef : Word
  /-- BCOUNT (R40). -/
  bcount : Word
  /-- ISTRIDE (R41). -/
  istride : Word
  /-- BSTRIDE (R42). -/
  bstride : Word
  /-- OSTRIDE (R43). -/
  ostride : Word
  /-- TVALID_F32 (R44). -/
  tvalidF32 : Word
  /-- TVALID_F64 (R44). -/
  tvalidF64 : Word
  /-- TVALID_Q31 (R44). -/
  tvalidQ31 : Word
  /-- TGENCNT (R45). -/
  tgencnt : Word
  /-- INSTRET (R46). -/
  instret : Word
  /-- CTRL.IE (R47). -/
  ie : Bool
  /-- ENTRY (R47). -/
  entry : Word
  /-- IRQSTAT.DONE (R47, R376). -/
  irqDone : Bool
  /-- IRQSTAT.FAULT (R47, R376). -/
  irqFault : Bool
  /-- IMEM (R71). -/
  imem : InstrMemory
  /-- DMEM (R72). -/
  dmem : Memory
  /-- The model's own: the turns still to come; when none is left the sequencer moves (log 4). -/
  turns : List Turn
  /-- The model's own: what the last host read returned (log 4). -/
  hostReply : Option Word
deriving DecidableEq, Repr

/-- Why the model stops with a fault. The unit's own faults are no such stops: they are recorded in the state (R351). -/
inductive Fault where
  /-- Raised by `step` alone: the state's parameters are not legal values of R6, so there is no such machine (log 6).
  Safe: nothing is claimed of it. -/
  | illegalParameters
deriving DecidableEq, Repr

/-- Why the model refuses an instruction. -/
inductive Refusal where
  /-- The instruction of this mnemonic has no meaning yet. Safe. No arm of `exec` answers so: every row is modelled. -/
  | notModelled (mnemonic : String)
deriving DecidableEq, Repr

/-- The unit of the given parameters right after power-on reset (R391, R392): every register and CSR at the reset value of
10_state.md R20 to R47, the run state idle, every table invalid, both memories unwritten. -/
def State.powerOn (c : Params) : State where
  params := c
  regs := Vector.replicate 16 0
  pc := 0
  prec := .fp32
  run := .idle
  hosterr := false
  cause := 0
  fpc := 0
  finfo := 0
  scaleLo := 0
  scaleHi := 0x3FF00000
  scalef := 0x3F800000
  bcount := 1
  istride := 1
  bstride := 0
  ostride := 1
  tvalidF32 := 0
  tvalidF64 := 0
  tvalidQ31 := 0
  tgencnt := 0
  instret := 0
  ie := false
  entry := 0
  irqDone := false
  irqFault := false
  imem := []
  dmem := []
  turns := []
  hostReply := none

/-- The machine right after reset, in the reference configuration of R7 (log 2). -/
def State.reset : State := State.powerOn Params.reference

end Sys2Proof.Machine
end

