-- ==== Sys2Proof/Machine/Numeric.lean ====
section
/-! DEFINITION. Element and complex arithmetic in the three precisions (41_numeric.md R140 to R153). Every finite
binary32 or binary64 value is an integer multiple of the format's least subnormal, its unit: operands are read as such
integers, the operation is exact, and one rounding ends it (R144). IEEE encodings: log 10. -/

namespace Sys2Proof.Machine

/-! ## IEEE formats -/

/-- A binary interchange format: widths of the exponent and fraction fields. -/
structure Fmt where
  ebits : Nat
  fbits : Nat
deriving DecidableEq, Repr

/-- binary32 (R76). -/
def fmt32 : Fmt := ⟨8, 23⟩
/-- binary64 (R76). -/
def fmt64 : Fmt := ⟨11, 52⟩

/-- The unit of a format is 2^(−unitExp): 2^(−149) in binary32, 2^(−1074) in binary64. -/
def Fmt.unitExp (f : Fmt) : Nat := pow2 (f.ebits - 1) - 2 + f.fbits

/-- The magnitude bits (all but the sign) of infinity. -/
def Fmt.infMag (f : Fmt) : Nat := pow2 f.fbits * (pow2 f.ebits - 1)

/-- The weight of the sign bit. -/
def Fmt.signBit (f : Fmt) : Nat := pow2 (f.ebits + f.fbits)

/-- The canonical quiet NaN (20_memory.md R78): 0x7FC0_0000 and 0x7FF8_0000_0000_0000. -/
def Fmt.qnan (f : Fmt) : Nat := f.infMag + pow2 (f.fbits - 1)

/-- The value of an encoding: NaN, an infinity, or a sign and a magnitude in units. -/
inductive FVal where
  | nan
  | inf (neg : Bool)
  | fin (neg : Bool) (units : Nat)
deriving DecidableEq, Repr

/-- The magnitude in units of finite magnitude bits: subnormals count units, normals 2^(e−1) units per step. -/
def Fmt.magUnits (f : Fmt) (mag : Nat) : Nat :=
  let e := mag / pow2 f.fbits
  if e = 0 then mag else pow2 (e - 1) * (pow2 f.fbits + mag % pow2 f.fbits)

/-- The value of the encoding `b`. -/
def Fmt.decode (f : Fmt) (b : Nat) : FVal :=
  let mag := b % f.signBit
  let neg := decide (f.signBit ≤ b)
  if f.infMag < mag then .nan
  else if mag = f.infMag then .inf neg
  else .fin neg (f.magUnits mag)

/-- The integer nearest to n / 2^d, ties to even. -/
def roundShift (n d : Nat) : Nat :=
  let q := n / pow2 d
  let r := 2 * (n % pow2 d)
  if pow2 d < r then q + 1
  else if r = pow2 d then q + q % 2
  else q

/-- The magnitude bits of the value n / 2^k units, rounded with roundTiesToEven, overflow to infinity (R141, R142,
R154). At least `k` bits are dropped, and as many more as leave fbits + 1 bits; a carry out of the significand moves
into the exponent field by itself. -/
def Fmt.roundMag (f : Fmt) (n k : Nat) : Nat :=
  if n = 0 then 0
  else
    let d := Nat.max k (Nat.log2 n + 1 - (f.fbits + 1))
    Nat.min (pow2 f.fbits * (d - k) + roundShift n d) f.infMag

/-- The encoding with the given sign and magnitude bits. -/
def Fmt.pack (f : Fmt) (neg : Bool) (mag : Nat) : Nat :=
  if neg then f.signBit + mag else mag

/-- add of R141. -/
def Fmt.add (f : Fmt) (a b : Nat) : Nat :=
  match f.decode a, f.decode b with
  | .nan, _ => f.qnan
  | _, .nan => f.qnan
  | .inf s, .inf t => if s = t then f.pack s f.infMag else f.qnan
  | .inf s, .fin _ _ => f.pack s f.infMag
  | .fin _ _, .inf t => f.pack t f.infMag
  | .fin s m, .fin t n =>
    if s = t then f.pack s (f.roundMag (m + n) 0)
    else if m = n then 0
    else if n < m then f.pack s (f.roundMag (m - n) 0)
    else f.pack t (f.roundMag (n - m) 0)

/-- neg of R143: the sign bit flipped. -/
def Fmt.neg (f : Fmt) (a : Nat) : Nat :=
  if f.signBit ≤ a then a % f.signBit else a + f.signBit

/-- sub of R141: a − b is a + (−b), IEEE 754. -/
def Fmt.sub (f : Fmt) (a b : Nat) : Nat := f.add a (f.neg b)

/-- mul of R142: a product of units is a multiple of unit², so unitExp more bits are dropped. -/
def Fmt.mul (f : Fmt) (a b : Nat) : Nat :=
  match f.decode a, f.decode b with
  | .nan, _ => f.qnan
  | _, .nan => f.qnan
  | .inf s, .inf t => f.pack (s != t) f.infMag
  | .inf s, .fin t n => if n = 0 then f.qnan else f.pack (s != t) f.infMag
  | .fin s m, .inf t => if m = 0 then f.qnan else f.pack (s != t) f.infMag
  | .fin s m, .fin t n => f.pack (s != t) (f.roundMag (m * n) f.unitExp)

/-- The encoding a NaN is written as (R78); every other encoding is itself. -/
def Fmt.canon (f : Fmt) (b : Nat) : Nat :=
  match f.decode b with
  | .nan => f.qnan
  | _ => b

/-! ## Q31 -/

/-- asr(v, s) of R8: floor(v / 2^s). -/
def asr (v : Int) (s : Nat) : Int := v >>> s

/-- wrap_32(asr(v + 2^30, 31)): the Q62 to Q31 rounding of R149 and R150. -/
def q31Round (v : Int) : BitVec 32 := BitVec.ofInt 32 (asr (v + 1073741824) 31)

/-- wrap_64 of R8, as an integer. -/
def wrap64 (v : Int) : Int := (BitVec.ofInt 64 v).toInt

/-! ## Element operations of a precision -/

/-- add (R141, R148). -/
def Elem.add : (p : Prec) → Elem p → Elem p → Elem p
  | .fp32, a, b => BitVec.ofNat 32 (fmt32.add a.toNat b.toNat)
  | .fp64, a, b => BitVec.ofNat 64 (fmt64.add a.toNat b.toNat)
  | .q31, a, b => BitVec.add (n := 32) a b

/-- sub (R141, R148). -/
def Elem.sub : (p : Prec) → Elem p → Elem p → Elem p
  | .fp32, a, b => BitVec.ofNat 32 (fmt32.sub a.toNat b.toNat)
  | .fp64, a, b => BitVec.ofNat 64 (fmt64.sub a.toNat b.toNat)
  | .q31, a, b => BitVec.sub (n := 32) a b

/-- neg (R143, R148). -/
def Elem.neg : (p : Prec) → Elem p → Elem p
  | .fp32, a => BitVec.ofNat 32 (fmt32.neg a.toNat)
  | .fp64, a => BitVec.ofNat 64 (fmt64.neg a.toNat)
  | .q31, a => BitVec.neg (n := 32) a

/-- mul (R142, R149). -/
def Elem.mul : (p : Prec) → Elem p → Elem p → Elem p
  | .fp32, a, b => BitVec.ofNat 32 (fmt32.mul a.toNat b.toNat)
  | .fp64, a, b => BitVec.ofNat 64 (fmt64.mul a.toNat b.toNat)
  | .q31, a, b => q31Round (BitVec.toInt (n := 32) a * BitVec.toInt (n := 32) b)

/-- The constant +0 of a precision (Q31: 0). -/
def Elem.zero (p : Prec) : Elem p := 0

/-- What an arithmetic instruction stores for an element (R78, R146). -/
def Elem.canon : (p : Prec) → Elem p → Elem p
  | .fp32, a => BitVec.ofNat 32 (fmt32.canon a.toNat)
  | .fp64, a => BitVec.ofNat 64 (fmt64.canon a.toNat)
  | .q31, a => a

/-- FOLD (R153). -/
def Elem.fold : (p : Prec) → Elem p → Elem p → Elem p
  | .fp32, a, b => Elem.add .fp32 a b
  | .fp64, a, b => Elem.add .fp64 a b
  | .q31, a, b =>
    BitVec.ofInt 32 (asr (BitVec.ofInt 32 (BitVec.toInt (n := 32) a + BitVec.toInt (n := 32) b + 32)).toInt 6)

/-! ## Complex operations (R150 to R152) -/

/-- The complex zero. -/
def Cplx.zero (p : Prec) : Cplx p := ⟨Elem.zero p, Elem.zero p⟩

/-- cadd (R151). -/
def Cplx.add {p : Prec} (a b : Cplx p) : Cplx p := ⟨Elem.add p a.re b.re, Elem.add p a.im b.im⟩

/-- csub (R151). -/
def Cplx.sub {p : Prec} (a b : Cplx p) : Cplx p := ⟨Elem.sub p a.re b.re, Elem.sub p a.im b.im⟩

/-- cneg (R151). -/
def Cplx.neg {p : Prec} (a : Cplx p) : Cplx p := ⟨Elem.neg p a.re, Elem.neg p a.im⟩

/-- rmul (R151). -/
def Cplx.rmul {p : Prec} (c : Elem p) (z : Cplx p) : Cplx p := ⟨Elem.mul p c z.re, Elem.mul p c z.im⟩

/-- conj (R151). -/
def Cplx.conj {p : Prec} (z : Cplx p) : Cplx p := ⟨z.re, Elem.neg p z.im⟩

/-- CMUL in FP32 and FP64: four rounded products and two rounded sums (R150). -/
def Cplx.mulRounded {p : Prec} (a w : Cplx p) : Cplx p :=
  ⟨Elem.sub p (Elem.mul p a.re w.re) (Elem.mul p a.im w.im),
   Elem.add p (Elem.mul p a.re w.im) (Elem.mul p a.im w.re)⟩

/-- CMUL in Q31: exact products, a 64-bit accumulator, one rounding per part (R150). -/
def Cplx.mulQ31 (a w : Cplx .q31) : Cplx .q31 :=
  let ar := BitVec.toInt (n := 32) a.re
  let ai := BitVec.toInt (n := 32) a.im
  let wr := BitVec.toInt (n := 32) w.re
  let wi := BitVec.toInt (n := 32) w.im
  ⟨BitVec.ofInt 32 (asr (wrap64 (wrap64 (ar * wr - ai * wi) + 1073741824)) 31),
   BitVec.ofInt 32 (asr (wrap64 (wrap64 (ar * wi + ai * wr) + 1073741824)) 31)⟩

/-- CMUL (R150). -/
def Cplx.mul : {p : Prec} → Cplx p → Cplx p → Cplx p
  | .fp32, a, w => Cplx.mulRounded a w
  | .fp64, a, w => Cplx.mulRounded a w
  | .q31, a, w => Cplx.mulQ31 a w

/-- BF (R152): the sum first. -/
def Cplx.butterfly {p : Prec} (a b : Cplx p) : Cplx p × Cplx p := (a.add b, a.sub b)

end Sys2Proof.Machine
end

