-- ==== Sys2Proof/Machine/Exact.lean ====
section
/-! DEFINITION. RESCALE, the correctly rounded conversion of an exact real number (41_numeric.md R154), for the exact
reals that the tables and SCALEV name: binary64 values, cosines of rational multiples of π, their products with SCALE or
with sqrt(|SCALE|), and reciprocal sines. An irrational value is enclosed between two dyadic numbers of growing precision
until both round to the same element (log 8). -/

namespace Sys2Proof.Machine

/-- The dyadic number ± num / 2^k. -/
structure Dyadic where
  neg : Bool
  num : Nat
  k : Nat
deriving DecidableEq, Repr

/-- An exact real number of a table rule (45_twiddle.md R244 to R260). Angles are `π·a/b`. -/
inductive Exact where
  /-- The number itself. -/
  | dyadic (d : Dyadic)
  /-- cos(πa/b). -/
  | cosPi (a b : Nat)
  /-- d·cos(πa/b). -/
  | scaledCos (d : Dyadic) (a b : Nat)
  /-- sqrt(|d|)·cos(πa/b). -/
  | rootCos (d : Dyadic) (a b : Nat)
  /-- 1/(2·cos(πa/b)). -/
  | halfSec (a b : Nat)
deriving DecidableEq, Repr

/-- The angle whose cosine is sin(πa/b): sin(πa/b) = cos(π(2a + 3b)/(2b)). -/
def sinAngle (a b : Nat) : Nat × Nat := (2 * a + 3 * b, 2 * b)

/-- sin(πa/b). -/
def Exact.sinPi (a b : Nat) : Exact := .cosPi (sinAngle a b).1 (sinAngle a b).2
/-- d·sin(πa/b). -/
def Exact.scaledSin (d : Dyadic) (a b : Nat) : Exact := .scaledCos d (sinAngle a b).1 (sinAngle a b).2
/-- sqrt(|d|)·sin(πa/b). -/
def Exact.rootSin (d : Dyadic) (a b : Nat) : Exact := .rootCos d (sinAngle a b).1 (sinAngle a b).2
/-- 1/(2·sin(πa/b)). -/
def Exact.halfCsc (a b : Nat) : Exact := .halfSec (sinAngle a b).1 (sinAngle a b).2

/-! ## Rounding a dyadic number -/

/-- ± n / 2^k in a binary format, roundTiesToEven, overflow to infinity, 0 as +0 (R154). -/
def Fmt.ofDyadic (f : Fmt) (d : Dyadic) : Nat :=
  if d.num = 0 then 0 else f.pack d.neg (f.roundMag (pow2 f.unitExp * d.num) d.k)

/-- ± n / 2^k in Q31: clamp(rne(v·2^31), −2^31, 2^31 − 1) (R154). -/
def q31OfDyadic (d : Dyadic) : BitVec 32 :=
  let n := roundShift (pow2 31 * d.num) d.k
  if d.neg then BitVec.ofNat 32 (pow2 32 - Nat.min n (pow2 31)) else BitVec.ofNat 32 (Nat.min n (pow2 31 - 1))

/-- RESCALE of a dyadic number (R154). -/
def rescaleDyadic : (p : Prec) → Dyadic → Elem p
  | .fp32, d => BitVec.ofNat 32 (fmt32.ofDyadic d)
  | .fp64, d => BitVec.ofNat 64 (fmt64.ofDyadic d)
  | .q31, d => q31OfDyadic d

/-! ## Enclosing the irrational values

A magnitude is enclosed by `lo / 2^k ≤ v ≤ hi / 2^k`. -/

/-- An enclosure of a signed real: ± [lo, hi] / 2^k. -/
structure Encl where
  neg : Bool
  lo : Nat
  hi : Nat
  k : Nat
deriving DecidableEq, Repr

/-- arctan(1/n)·2^w by its alternating series: `pw` is 2^w / n^(2j+1), the sums of the even and the odd terms are kept
apart. Each term is short of its exact value by less than 2. -/
def atanLoop (n2 : Nat) : Nat → Nat → Nat → Nat → Nat → Nat
  | 0, _, _, plus, minus => plus - minus
  | fuel + 1, pw, j, plus, minus =>
    if pw = 0 then plus - minus
    else if j % 2 = 0 then atanLoop n2 fuel (pw / n2) (j + 1) (plus + pw / (2 * j + 1)) minus
    else atanLoop n2 fuel (pw / n2) (j + 1) plus (minus + pw / (2 * j + 1))

/-- arctan(1/n)·2^w, within w units. -/
def atanInv (n w : Nat) : Nat := atanLoop (n * n) w (pow2 w / n) 0 0 0

/-- π·2^w by Machin's formula, within 20·w units. -/
def piFixed (w : Nat) : Nat := 16 * atanInv 5 w - 4 * atanInv 239 w

/-- The alternating series 1 − x²/d₁ + x⁴/(d₁d₂) − …, where dⱼ = (2j − 1 + odd)(2j + odd): cos x for odd = 0, and
sin x / x for odd = 1. `t` is the current term and `x2` is x²·2^w. -/
def trigLoop (w x2 odd : Nat) : Nat → Nat → Nat → Nat → Nat → Nat
  | 0, _, _, plus, minus => plus - minus
  | fuel + 1, t, j, plus, minus =>
    if t = 0 then plus - minus
    else
      let t' := t * x2 / pow2 w / ((2 * j + 1 + odd) * (2 * j + 2 + odd))
      if j % 2 = 0 then trigLoop w x2 odd fuel t' (j + 1) (plus + t) minus
      else trigLoop w x2 odd fuel t' (j + 1) plus (minus + t)

/-- How far, in units of 2^−w, the fixed-point cosine or sine of an angle in [0, π/4] may be from the exact one. -/
def trigSlack (w : Nat) : Nat := 64 * w

/-- The cosine of x / 2^w for an angle in [0, π/4]. -/
def cosFixed (w x : Nat) : Nat := trigLoop w (x * x / pow2 w) 0 w (pow2 w) 0 0 0

/-- The sine of x / 2^w for an angle in [0, π/4]. -/
def sinFixed (w x : Nat) : Nat := x * trigLoop w (x * x / pow2 w) 1 w (pow2 w) 0 0 0 / pow2 w

/-- An angle πa/b brought to [0, π/2] by the symmetries of the cosine: whether the cosine is negative, and the numerator
over the same b. -/
def foldAngle (a b : Nat) : Bool × Nat :=
  let r := a % (2 * b)
  let r := if b < r then 2 * b - r else r
  if b < 2 * r then (true, b - r) else (false, r)

/-- Is cos(πa/b) exactly 0? -/
def cosIsZero (a b : Nat) : Bool := 2 * (foldAngle a b).2 == b

/-- cos(πa/b) enclosed at precision w: by the cosine up to π/4 and by the sine of the complement above it. -/
def cosEncl (w a b : Nat) : Encl :=
  let (neg, r) := foldAngle a b
  let c := if 4 * r ≤ b then cosFixed w (piFixed w * r / b) else sinFixed w (piFixed w * (b - 2 * r) / (2 * b))
  { neg := neg, lo := c - trigSlack w, hi := c + trigSlack w, k := w }

/-- Newton's iteration for the integer square root from above. -/
def sqrtLoop (n : Nat) : Nat → Nat → Nat
  | 0, x => x
  | fuel + 1, x =>
    let y := (x + n / x) / 2
    if y < x then sqrtLoop n fuel y else x

/-- floor(sqrt n). -/
def isqrt (n : Nat) : Nat :=
  if n = 0 then 0 else sqrtLoop n (Nat.log2 n + 1) (pow2 (Nat.log2 n / 2 + 1))

/-- sqrt(|d|) enclosed with at least w fraction bits below its leading one. -/
def rootEncl (w : Nat) (d : Dyadic) : Encl :=
  let r := isqrt (pow2 (2 * w + d.k % 2) * d.num)
  { neg := false, lo := r, hi := r + 1, k := w + (d.k + d.k % 2) / 2 }

/-- The product of two enclosures. -/
def Encl.mul (x y : Encl) : Encl :=
  { neg := x.neg != y.neg, lo := x.lo * y.lo, hi := x.hi * y.hi, k := x.k + y.k }

/-- 1/(2v) for an enclosed v, once the enclosure is away from 0. -/
def Encl.halfInv (x : Encl) : Encl :=
  if x.lo = 0 then { neg := x.neg, lo := 0, hi := pow2 (2 * x.k), k := x.k }
  else { neg := x.neg, lo := pow2 (2 * x.k) / (2 * x.hi), hi := pow2 (2 * x.k) / (2 * x.lo) + 1, k := x.k }

/-- A dyadic number as an enclosure of itself. -/
def Dyadic.encl (d : Dyadic) : Encl := { neg := d.neg, lo := d.num, hi := d.num, k := d.k }

/-- An exact real enclosed at precision w. -/
def Exact.encl (w : Nat) : Exact → Encl
  | .dyadic d => d.encl
  | .cosPi a b => cosEncl w a b
  | .scaledCos d a b => d.encl.mul (cosEncl w a b)
  | .rootCos d a b => (rootEncl w d).mul (cosEncl w a b)
  | .halfSec a b => (cosEncl w a b).halfInv

/-- Is the exact real 0? -/
def Exact.isZero : Exact → Bool
  | .dyadic d => d.num == 0
  | .cosPi a b => cosIsZero a b
  | .scaledCos d a b => d.num == 0 || cosIsZero a b
  | .rootCos d a b => d.num == 0 || cosIsZero a b
  | .halfSec _ _ => false

/-- The element both ends of an enclosure round to, if they agree. -/
def Encl.round? (p : Prec) (e : Encl) : Option (Elem p) :=
  let l := rescaleDyadic p ⟨e.neg, e.lo, e.k⟩
  if l = rescaleDyadic p ⟨e.neg, e.hi, e.k⟩ then some l else none

/-- The first precision, doubling from w, whose enclosure decides the rounding. -/
def decideRounding (p : Prec) (x : Exact) : Nat → Nat → Option (Elem p)
  | 0, _ => none
  | fuel + 1, w =>
    match (x.encl w).round? p with
    | some v => some v
    | none => decideRounding p x fuel (2 * w)

/-- RESCALE(v) of R154: the exact value 0 gives +0; otherwise the correctly rounded value. Thirty-two doublings from 192
bits reach beyond every table entry's distance from a rounding boundary (log 8); the last value is what an undecided
search would leave. -/
def rescale (p : Prec) (x : Exact) : Elem p :=
  if x.isZero then Elem.zero p
  else
    match decideRounding p x 32 192 with
    | some v => v
    | none => rescaleDyadic p ⟨(x.encl 192).neg, (x.encl 192).lo, (x.encl 192).k⟩

/-! ## SCALE (10_state.md R36, R37) -/

/-- The encoding of SCALE: SCALE_HI is bits 63:32 (R36). -/
def State.scaleBits (s : State) : Nat := pow2 32 * s.scaleHi.toNat + s.scaleLo.toNat

/-- SCALE as a dyadic number; `none` when it is a NaN or an infinity. -/
def State.scale? (s : State) : Option Dyadic :=
  match fmt64.decode s.scaleBits with
  | .fin neg units => some ⟨neg, units, fmt64.unitExp⟩
  | _ => none

/-- SCALE rounded to binary32, a NaN as 0x7FC0_0000 (R37). -/
def scalefOf (bits : Nat) : Word :=
  match fmt64.decode bits with
  | .nan => BitVec.ofNat 32 fmt32.qnan
  | .inf neg => BitVec.ofNat 32 (fmt32.pack neg fmt32.infMag)
  | .fin neg units => BitVec.ofNat 32 (fmt32.pack neg (fmt32.roundMag (pow2 fmt32.unitExp * units) fmt64.unitExp))

/-- SCALEF recomputed (R37). -/
def State.refreshScalef (s : State) : State := { s with scalef := scalefOf s.scaleBits }

/-- A write of SCALE_LO: its half changes, and SCALEF with it (R36, R37). -/
def State.writeScaleLo (s : State) (v : Word) : State := State.refreshScalef { s with scaleLo := v }

/-- A write of SCALE_HI (R36, R37). -/
def State.writeScaleHi (s : State) (v : Word) : State := State.refreshScalef { s with scaleHi := v }

/-- The scale multiplier sc of SCALEV for a finite SCALE (R155): SCALEF, SCALE, or RESCALE(SCALE). -/
def State.scaleMultiplier (s : State) (d : Dyadic) : (p : Prec) → Elem p
  | .fp32 => s.scalef
  | .fp64 => BitVec.ofNat 64 s.scaleBits
  | .q31 => q31OfDyadic d

end Sys2Proof.Machine
end

