-- ==== Sys2Proof/Machine/Ops.lean ====
section
/-! DEFINITION. The named operations over memory and registers, the fault action, and how an instruction retires. -/

namespace Sys2Proof.Machine

/-! ## Stores (20_memory.md R71, R72) -/

/-- The unit at address `a`. -/
def Store.read {w : Nat} : Store w → Nat → BitVec w
  | [], _ => blankUnit w
  | (b, v) :: rest, a => if a = b then v else if a < b then blankUnit w else Store.read rest a

/-- The store with `v` at address `a`, in canonical form: writing the blank unit unlists the address. -/
def Store.write {w : Nat} : Store w → Nat → BitVec w → Store w
  | [], a, v => if v = blankUnit w then [] else [(a, v)]
  | (b, u) :: rest, a, v =>
    if a = b then (if v = blankUnit w then rest else (a, v) :: rest)
    else if a < b then (if v = blankUnit w then (b, u) :: rest else (a, v) :: (b, u) :: rest)
    else (b, u) :: Store.write rest a v

/-- MemRead(a, n) of 00_scope.md R9: `n` bytes of DMEM as a little-endian number (R75). -/
def Memory.readLE (m : Memory) (a : Nat) : Nat → Nat
  | 0 => 0
  | n + 1 => (Store.read m a).toNat + 256 * Memory.readLE m (a + 1) n

/-- MemWrite(a, n, v) of 00_scope.md R9: the low `8n` bits of `v`, least significant byte first (R75). -/
def Memory.writeLE (m : Memory) (a : Nat) : Nat → Nat → Memory
  | 0, _ => m
  | n + 1, v => Memory.writeLE (Store.write m a (BitVec.ofNat 8 v)) (a + 1) n (v / 256)

/-- The 32-bit word at `a` (R77). -/
def Memory.readWord (m : Memory) (a : Nat) : Word := BitVec.ofNat 32 (m.readLE a 4)

/-- DMEM with the 32-bit word `v` at `a` (R77). -/
def Memory.writeWord (m : Memory) (a : Nat) (v : Word) : Memory := m.writeLE a 4 v.toNat

/-! ## General registers (10_state.md R20, R21) -/

/-- x[r]; x0 reads 0 (R21). -/
def State.reg (s : State) (r : Reg) : Word :=
  if r = 0 then 0 else s.regs[r.toNat]'(r.isLt)

/-- x[r] as an unsigned integer. -/
def State.regNat (s : State) (r : Reg) : Nat := (s.reg r).toNat

/-- x[r] <- v; a write to x0 is discarded (R21). -/
def State.setReg (s : State) (r : Reg) (v : Word) : State :=
  if r = 0 then s else { s with regs := s.regs.set r.toNat v r.isLt }

/-- The state with DMEM `m`. -/
def State.setDmem (s : State) (m : Memory) : State := { s with dmem := m }

/-! ## Faults (60_exceptions.md R350 to R354) -/

/-- The code of a cause in CAUSE[7:0] (R350). -/
def Cause.code : Cause → BitVec 8
  | .illegalInstruction => 1
  | .fetchRange => 2
  | .dmemRange => 3
  | .misaligned => 4
  | .illegalCsr => 5
  | .unsupportedLength => 6
  | .invalidArgument => 7
  | .unsupportedCombination => 8
  | .resource => 9
  | .hostAbort => 10

/-- `raise <Cause>(info)` (R9): a cause and its info word before reduction to 32 bits. -/
structure Trap where
  cause : Cause
  info : Nat
deriving DecidableEq, Repr

/-- The fault action (R351, R352): the run ends, CAUSE, FPC, FINFO and IRQSTAT.FAULT are written, nothing else. -/
def State.raise (s : State) (t : Trap) : State :=
  { s with
    run := .faulted
    cause := t.cause.code
    fpc := s.pc
    finfo := BitVec.ofNat 32 t.info
    irqFault := true }

/-- START (R375). The unit has no return from a fault (R354): the only way back to running is this, from ENTRY. -/
def State.start (s : State) : State :=
  { s with pc := s.entry, run := .running, cause := 0, fpc := 0, finfo := 0 }

/-- The soft reset (R383, 70_reset_and_hazards.md R391, R392): everything at its reset value but the memories. The
parameters and the model's own fields stay. -/
def State.softReset (s : State) : State :=
  { State.powerOn s.params with
    imem := s.imem, dmem := s.dmem, turns := s.turns, hostReply := s.hostReply }

/-! ## Sequencing (49_control.md R329) -/

/-- pc <- target, and the instruction counts in INSTRET (R329, R46). -/
def State.retireTo (s : State) (target : Word) : State :=
  { s with pc := target, instret := s.instret + 1 }

/-- pc <- pc + 1, and the instruction counts in INSTRET (R329, R46). -/
def State.retire (s : State) : State := s.retireTo (s.pc + 1)

/-- How an instruction ends (R329, R351): `r` is either its fault, found before any write, or the state it wrote. -/
def finish (s : State) (r : Except Trap State) : Host.Outcome State Fault Refusal :=
  match r with
  | .error t => .next (s.raise t)
  | .ok s' => .next s'.retire

/-- A check: the trap `t` unless `ok` holds. -/
def require (ok : Bool) (t : Trap) : Except Trap Unit :=
  if ok then .ok () else .error t

/-! ## The table store's valid bits (45_twiddle.md R241, R242) -/

/-- TVALID of precision `p` (R44). -/
def State.tvalid (s : State) : Prec → Word
  | .fp32 => s.tvalidF32
  | .fp64 => s.tvalidF64
  | .q31 => s.tvalidQ31

/-- TVALID of precision `p` replaced. -/
def State.setTvalid (s : State) (p : Prec) (v : Word) : State :=
  match p with
  | .fp32 => { s with tvalidF32 := v }
  | .fp64 => { s with tvalidF64 := v }
  | .q31 => { s with tvalidQ31 := v }

/-- Generation on first use of the slot with valid bit `bit` of the current precision (R242): if it is not valid, its
valid bit is set and TGENCNT counts it. The contents are a pure function of slot and precision (R243). -/
def State.ensureBit (s : State) (bit : Nat) : State :=
  if (s.tvalid s.prec).getLsbD bit then s
  else { s.setTvalid s.prec (s.tvalid s.prec ||| BitVec.ofNat 32 (pow2 bit)) with tgencnt := s.tgencnt + 1 }

/-- `ensureBit` for each slot in turn. -/
def State.ensureBits (s : State) (bits : List Nat) : State := bits.foldl State.ensureBit s

end Sys2Proof.Machine
end

