-- ==== Sys2Proof/Machine/Flags.lean ====
section
/-! DEFINITION. The unit has no condition flags (10_state.md R24). The bits it does compute are the views of this file:
the STATUS, CTRL, IRQSTAT and CFG words (R32, R34, R47) and the IRQ output (60_exceptions.md R358). -/

namespace Sys2Proof.Machine

/-- A word with bit `i` set to `b`, all others 0. -/
def bitWord (i : Nat) (b : Bool) : Word := if b then BitVec.ofNat 32 (pow2 i) else 0

/-- STATUS.BUSY (R34). -/
def State.busy (s : State) : Bool := s.run == .running

/-- The STATUS word (R34): BUSY, DONE, FAULT, HOSTERR in bits 0 to 3. -/
def State.statusWord (s : State) : Word :=
  bitWord 0 s.busy ||| bitWord 1 (s.run == .done) ||| bitWord 2 (s.run == .faulted) ||| bitWord 3 s.hosterr

/-- What a CSRR of STATUS returns (R34): BUSY = 1, DONE = 0, FAULT = 0 and the current HOSTERR. -/
def State.programStatusWord (s : State) : Word := bitWord 0 true ||| bitWord 3 s.hosterr

/-- The CTRL word as the host reads it (R47): IE in bit 2, the command bits 0. -/
def State.ctrlWord (s : State) : Word := bitWord 2 s.ie

/-- The IRQSTAT word as the host reads it (R47). -/
def State.irqstatWord (s : State) : Word := bitWord 0 s.irqDone ||| bitWord 1 s.irqFault

/-- The IRQ output (60_exceptions.md R358). -/
def State.irq (s : State) : Bool := s.ie && (s.irqDone || s.irqFault)

/-- The CFG word of the parameters (R32). -/
def Params.cfgWord (c : Params) : Word :=
  BitVec.ofNat 32 (c.maxLog2 + pow2 8 * c.imemLog2 + pow2 16 * c.dmemLog2) |||
    bitWord 24 true ||| bitWord 25 c.hasF64 ||| bitWord 26 c.hasQ31

end Sys2Proof.Machine
end

