-- ==== Sys2Proof/Machine/Csr.lean ====
section
/-! DEFINITION. The control and status registers (10_state.md R26 to R46), read and written by the program (CSRR, CSRW)
and by the host (60_exceptions.md R377) through the same two operations. -/

namespace Sys2Proof.Machine

/-- The code of MODE.PREC (R33). -/
def Prec.code : Prec → Word
  | .fp32 => 0
  | .fp64 => 1
  | .q31 => 2

/-- The implemented precision that bits 1:0 of a word name, if there is one (R33). -/
def Params.precOf (c : Params) (v : Word) : Option Prec :=
  match (v.extractLsb' 0 2 : BitVec 2) with
  | 0#2 => some .fp32
  | 1#2 => if c.hasF64 then some .fp64 else none
  | 2#2 => if c.hasQ31 then some .q31 else none
  | _ => none

/-- The value of CSR `n`, with STATUS as the true state; `none` for an unassigned number (R27, R30). -/
def State.csr? (s : State) (n : BitVec 8) : Option Word :=
  match n with
  | 0x00#8 => some 0x54580001
  | 0x01#8 => some s.params.cfgWord
  | 0x02#8 => some s.prec.code
  | 0x03#8 => some s.statusWord
  | 0x04#8 => some (s.cause.setWidth 32)
  | 0x05#8 => some s.fpc
  | 0x06#8 => some s.finfo
  | 0x08#8 => some s.scaleLo
  | 0x09#8 => some s.scaleHi
  | 0x0A#8 => some s.scalef
  | 0x0B#8 => some s.bcount
  | 0x0C#8 => some s.istride
  | 0x0D#8 => some s.bstride
  | 0x0E#8 => some s.ostride
  | 0x10#8 => some s.tvalidF32
  | 0x11#8 => some s.tvalidF64
  | 0x12#8 => some s.tvalidQ31
  | 0x13#8 => some s.tgencnt
  | 0x14#8 => some s.instret
  | _ => none

/-- The state after a write of CSR `n`; `none` for an unassigned number, an RO CSR, or a MODE value that names no
implemented precision (R28, R33, R36, R40 to R43). -/
def State.writeCsr? (s : State) (n : BitVec 8) (v : Word) : Option State :=
  match n with
  | 0x02#8 => (s.params.precOf v).map fun p => { s with prec := p }
  | 0x08#8 => some (s.writeScaleLo v)
  | 0x09#8 => some (s.writeScaleHi v)
  | 0x0B#8 => some { s with bcount := v }
  | 0x0C#8 => some { s with istride := v }
  | 0x0D#8 => some { s with bstride := v }
  | 0x0E#8 => some { s with ostride := v }
  | _ => none

/-- What a CSRR returns (R334): as `csr?`, but STATUS reads as R34 says for the program. -/
def State.programCsr? (s : State) (n : BitVec 8) : Option Word :=
  if n = 0x03#8 then some s.programStatusWord else s.csr? n

/-- ILLEGAL_CSR with the CSR number (R28). -/
def illegalCsr (n : BitVec 8) : Trap := ⟨.illegalCsr, n.toNat⟩

/-- CSRR (49_control.md R334). -/
def execCsrr (rd : Reg) (csr : BitVec 8) (s : State) : Host.Outcome State Fault Refusal :=
  finish s <|
    match s.programCsr? csr with
    | some v => .ok (s.setReg rd v)
    | none => .error (illegalCsr csr)

/-- CSRW (49_control.md R335). -/
def execCsrw (rs1 : Reg) (csr : BitVec 8) (s : State) : Host.Outcome State Fault Refusal :=
  finish s <|
    match s.writeCsr? csr (s.reg rs1) with
    | some s' => .ok s'
    | none => .error (illegalCsr csr)

end Sys2Proof.Machine
end

