-- ==== Sys2Proof/Machine/Lengths.lean ====
section
/-! DEFINITION. Transform lengths: the length set S and the canonical split (42_fft_sr.md R185, R186). -/

namespace Sys2Proof.Machine

/-- 2^21, the largest length of S (R185). -/
def lengthCap : Nat := pow2 21

/-- Is L a power of two? -/
def isPow2 (L : Nat) : Bool := L != 0 && pow2 (Nat.log2 L) == L

/-- Is L an odd codelet length (00_scope.md R13)? -/
def isCodelet (L : Nat) : Bool := L == 3 || L == 5 || L == 7 || L == 9 || L == 15

/-- canon(L) (R186): the first factor f of (7, 5, 3, 9) with f dividing L, gcd(f, L/f) = 1 and L/f in S. The fuel bounds
the depth of the recursion on L/f: four factors are the most a length of S has. -/
def canonFuel : Nat → Nat → Option (Nat × Nat)
  | 0, _ => none
  | fuel + 1, L =>
    [7, 5, 3, 9].findSome? fun f =>
      if L % f = 0 ∧ Nat.gcd f (L / f) = 1 ∧
          (isPow2 (L / f) || isCodelet (L / f) || (canonFuel fuel (L / f)).isSome) = true
      then some (f, L / f) else none

/-- canon(L) (R186). -/
def canon (L : Nat) : Option (Nat × Nat) := canonFuel 4 L

/-- Is L in the length set S (R185)? -/
def inS (L : Nat) : Bool :=
  decide (1 ≤ L) && decide (L ≤ lengthCap) && (isPow2 L || isCodelet L || (canon L).isSome)

end Sys2Proof.Machine
end

