-- ==== Sys2Proof/Machine/Tables.lean ====
section
/-! DEFINITION. The table store (45_twiddle.md R240 to R244): its slots, their contents as a pure function of slot and
precision (R243), and generation on first use (R242). -/

namespace Sys2Proof.Machine

/-- A table identity (R240): T_N for N = 2^t, and the three odd tables. -/
inductive Slot where
  | pow (t : Nat)
  | t53
  | t7
  | t9
deriving DecidableEq, Repr

/-- The slot's bit in TVALID (R44, R241). -/
def Slot.bit : Slot → Nat
  | .pow t => t
  | .t53 => 24
  | .t7 => 25
  | .t9 => 26

/-- The number of elements of a slot (R240). -/
def Slot.length : Slot → Nat
  | .pow t => pow2 t / 4 + 1
  | .t53 => 6
  | .t7 => 6
  | .t9 => 8

/-- The exact numbers of a slot (R244). -/
def Slot.exact : Slot → List Exact
  | .pow t => (List.range (pow2 t / 4 + 1)).map fun i => .cosPi (2 * i) (pow2 t)
  | .t53 => [.cosPi 2 5, .cosPi 4 5, .sinPi 2 5, .sinPi 4 5, .cosPi 2 3, .sinPi 2 3]
  | .t7 => [.cosPi 2 7, .cosPi 4 7, .cosPi 6 7, .sinPi 2 7, .sinPi 4 7, .sinPi 6 7]
  | .t9 => [.cosPi 2 9, .cosPi 4 9, .cosPi 6 9, .cosPi 8 9, .sinPi 2 9, .sinPi 4 9, .sinPi 6 9, .sinPi 8 9]

/-- The contents of a slot in precision `p` (R243, R244). -/
def slotTable (p : Prec) (t : Slot) : List (Elem p) := t.exact.map (rescale p)

/-- The slots an instruction reads, each generated first if it is not valid (R242). -/
def State.ensureSlots (s : State) (slots : List Slot) : State := s.ensureBits (slots.map Slot.bit)

end Sys2Proof.Machine
end

