-- ==== Sys2Proof/Machine/Kernels.lean ====
section
/-! DEFINITION. The transform kernels as functions on vectors of complex values: split-radix (42_fft_sr.md R173, R174,
R187 to R189), odd codelets (43_fft_prime.md R200, R201), the prime-factor transform (R206) and the canonical FFT function
(42_fft_sr.md R186), with the table-store slots each one reads. -/

namespace Sys2Proof.Machine

/-- Entry i of a vector of complex values. -/
def atC {p : Prec} (v : List (Cplx p)) (i : Nat) : Cplx p := v.getD i (Cplx.zero p)

/-- Entry i of a vector of elements. -/
def atE {p : Prec} (v : List (Elem p)) (i : Nat) : Elem p := v.getD i (Elem.zero p)

/-- v′[i] = v[(−i) mod N] (R173). -/
def reverseIndex {p : Prec} (n : Nat) (v : List (Cplx p)) : List (Cplx p) :=
  (List.range n).map fun i => atC v ((n - i) % n)

/-- The forward kernel on the vector, or on the reversed-index vector for an inverse (R173). -/
def directed {p : Prec} (inv : Bool) (n : Nat) (kernel : List (Cplx p) → List (Cplx p)) (v : List (Cplx p)) :
    List (Cplx p) :=
  kernel (if inv then reverseIndex n v else v)

/-- The values of `vals` placed at the indices `idx` of a vector, in order: a later one wins. -/
def scatterList {α : Type} (init : List α) (idx : List Nat) (vals : List α) : List α :=
  (idx.zip vals).foldl (fun acc iv => acc.set iv.1 iv.2) init

/-! ## Split radix -/

/-- The split-radix order SR_N for N = 2^lg (R174). -/
def srOrder : Nat → List Nat
  | 0 => [0]
  | 1 => [0, 1]
  | m + 2 =>
    (srOrder (m + 1)).map (fun j => 2 * j) ++ (srOrder m).map (fun j => 4 * j + 1) ++
      (srOrder m).map (fun j => (4 * j + pow2 (m + 2) - 1) % pow2 (m + 2))

/-- The eight outputs of one group of COMB_N, for its four inputs and (t1, t2), (t5, t6) (R187). -/
def combOutputs {p : Prec} (a0 a1 t12 t56 : Cplx p) : Cplx p × Cplx p × Cplx p × Cplx p :=
  let t3 := Elem.sub p t56.re t12.re
  let t5 := Elem.add p t56.re t12.re
  let t4 := Elem.sub p t12.im t56.im
  let t6 := Elem.add p t12.im t56.im
  (⟨Elem.add p a0.re t5, Elem.add p a0.im t6⟩,
   ⟨Elem.add p a1.re t4, Elem.add p a1.im t3⟩,
   ⟨Elem.sub p a0.re t5, Elem.sub p a0.im t6⟩,
   ⟨Elem.sub p a1.re t4, Elem.sub p a1.im t3⟩)

/-- One group of COMB_N with the twiddle (wre, wim), or without a multiply (R187). -/
def combGroup {p : Prec} (tw : Option (Elem p × Elem p)) (a0 a1 a2 a3 : Cplx p) :
    Cplx p × Cplx p × Cplx p × Cplx p :=
  match tw with
  | none => combOutputs a0 a1 a2 a3
  | some (wre, wim) => combOutputs a0 a1 (a2.mul ⟨wre, Elem.neg p wim⟩) (a3.mul ⟨wre, wim⟩)

/-- The twiddles of COMB_N for k in [0, N/4), N = 2^lg: none at k = 0 when N ≤ 8, else T_N[k] and T_N[N/4 − k] (R187).
N = 4 reads no table. -/
def combTwiddles (p : Prec) (lg : Nat) : List (Option (Elem p × Elem p)) :=
  if lg ≤ 2 then [none]
  else
    let t := slotTable p (.pow lg)
    let q := pow2 lg / 4
    (List.range q).map fun k =>
      if lg ≤ 3 ∧ k = 0 then none else some (atE t k, atE t (q - k))

/-- COMB_N for N = 2^lg (R187). Group k reads and writes z[k], z[k+q], z[k+2q] and z[k+3q] only, so the groups are
computed from the input and their outputs laid out by quarter. -/
def comb (p : Prec) (lg : Nat) (z : List (Cplx p)) : List (Cplx p) :=
  let q := pow2 lg / 4
  let tw := combTwiddles p lg
  let groups := (List.range q).map fun k =>
    combGroup (tw.getD k none) (atC z k) (atC z (k + q)) (atC z (k + 2 * q)) (atC z (k + 3 * q))
  groups.map (fun g => g.1) ++ groups.map (fun g => g.2.1) ++ groups.map (fun g => g.2.2.1) ++
    groups.map (fun g => g.2.2.2)

/-- The no-shuffle transform NS_N for N = 2^lg (R188). -/
def noShuffle (p : Prec) : Nat → List (Cplx p) → List (Cplx p)
  | 0, z => z
  | 1, z => [(atC z 0).add (atC z 1), (atC z 0).sub (atC z 1)]
  | m + 2, z =>
    let h := pow2 (m + 1)
    let q := pow2 m
    comb p (m + 2)
      (noShuffle p (m + 1) (z.take h) ++ noShuffle p m ((z.drop h).take q) ++ noShuffle p m (z.drop (h + q)))

/-- The gather z[p] = v[SR_N[p]] (R174, R189). -/
def srGather {p : Prec} (lg : Nat) (v : List (Cplx p)) : List (Cplx p) := (srOrder lg).map (atC v)

/-- FFT2P_N for N = 2^lg (R189). -/
def fftPow2 (p : Prec) (lg : Nat) (v : List (Cplx p)) : List (Cplx p) := noShuffle p lg (srGather lg v)

/-- The slots NS_N reads: T_n for every power of two n with 8 ≤ n ≤ N (R188). -/
def slotsNoShuffle (lg : Nat) : List Slot := (List.range (lg + 1 - 3)).map fun i => .pow (i + 3)

/-- The slots COMB_N reads alone (R178). -/
def slotsComb (lg : Nat) : List Slot := if lg ≤ 2 then [] else [.pow lg]

/-! ## Odd codelets -/

/-- The slot of an odd codelet (R200, R202). -/
def oddSlot (n : Nat) : Slot := if n = 7 then .t7 else if n = 9 then .t9 else .t53

/-- The constants C and S of ODD_P (R200). -/
def oddConstants (p : Prec) (n : Nat) : List (Elem p) × List (Elem p) :=
  let t := slotTable p (oddSlot n)
  if n = 3 then ([atE t 4], [atE t 5])
  else if n = 5 then (t.take 2, (t.drop 2).take 2)
  else if n = 7 then (t.take 3, t.drop 3)
  else (t.take 4, t.drop 4)

/-- One round of the inner loop of ODD_P for output k (R201): `acc` is (A, B). -/
def oddStep {p : Prec} (n k : Nat) (c s : List (Elem p)) (sum diff : List (Cplx p))
    (acc : Cplx p × Option (Cplx p)) (m : Nat) : Cplx p × Option (Cplx p) :=
  let j := m * k % n
  if j = 0 then (acc.1.add (atC sum m), acc.2)
  else
    let r := Nat.min j (n - j)
    let a := acc.1.add (Cplx.rmul (atE c (r - 1)) (atC sum m))
    let t := Cplx.rmul (atE s (r - 1)) (atC diff m)
    match acc.2 with
    | none => (a, some t)
    | some b => (a, some (if j ≤ (n - 1) / 2 then b.add t else b.sub t))

/-- The odd codelet ODD_P for P = n in {3, 5, 7, 9} (R201). Entry 0 of `sum` and `diff` is not read. -/
def oddFft (p : Prec) (n : Nat) (x : List (Cplx p)) : List (Cplx p) :=
  let h := (n - 1) / 2
  let (c, s) := oddConstants p n
  let sum := (List.range (h + 1)).map fun m => (atC x m).add (atC x (n - m))
  let diff := (List.range (h + 1)).map fun m => (atC x m).sub (atC x (n - m))
  let ms := (List.range h).map (· + 1)
  let first := ms.foldl (fun acc m => acc.add (atC sum m)) (atC x 0)
  let ab := ms.map fun k =>
    let r := ms.foldl (oddStep n k c s sum diff) (atC x 0, none)
    (r.1, r.2.getD (Cplx.zero p))
  let low := ab.map fun r => (⟨Elem.add p r.1.re r.2.im, Elem.sub p r.1.im r.2.re⟩ : Cplx p)
  let high := ab.map fun r => (⟨Elem.sub p r.1.re r.2.im, Elem.add p r.1.im r.2.re⟩ : Cplx p)
  first :: (low ++ high.reverse)

/-! ## Prime-factor transform -/

/-- Where the CRT input map puts input i: (i mod N2)·N1 + (i mod N1) (R206, 44_permute.md R222). -/
def crtIndex (n1 n2 i : Nat) : Nat := i % n2 * n1 + i % n1

/-- Where the Ruritanian output map puts G[k1 + N1·k2]: (N2·k1 + N1·k2) mod N (R206, 44_permute.md R223). -/
def rurIndex (n1 n2 k1 k2 : Nat) : Nat := (n2 * k1 + n1 * k2) % (n1 * n2)

/-- PFA_(N1,N2) over the two sub-transforms (R206). -/
def pfaWith {p : Prec} (n1 n2 : Nat) (f1 f2 : List (Cplx p) → List (Cplx p)) (x : List (Cplx p)) : List (Cplx p) :=
  let n := n1 * n2
  let g := scatterList (List.replicate n (Cplx.zero p)) ((List.range n).map (crtIndex n1 n2)) x
  let rows := (List.range n2).flatMap fun r => f1 ((g.drop (r * n1)).take n1)
  let cols := (List.range n1).map fun k1 => f2 ((List.range n2).map fun r => atC rows (k1 + n1 * r))
  scatterList (List.replicate n (Cplx.zero p))
    ((List.range n1).flatMap fun k1 => (List.range n2).map (rurIndex n1 n2 k1))
    (cols.flatMap fun col => (List.range n2).map (atC col))

/-- The canonical FFT function F_N (42_fft_sr.md R186); the fuel bounds the depth of PFA in PFA. -/
def fftFuel (p : Prec) : Nat → Nat → List (Cplx p) → List (Cplx p)
  | 0, _, v => v
  | fuel + 1, n, v =>
    if isPow2 n then fftPow2 p (Nat.log2 n) v
    else if n = 15 then pfaWith 3 5 (fftFuel p fuel 3) (fftFuel p fuel 5) v
    else if isCodelet n then oddFft p n v
    else
      match canon n with
      | some (f, m) => pfaWith f m (fftFuel p fuel f) (fftFuel p fuel m) v
      | none => v

/-- F_N (42_fft_sr.md R186). -/
def fftCanon (p : Prec) (n : Nat) (v : List (Cplx p)) : List (Cplx p) := fftFuel p 6 n v

/-- F_N, or F^inv_N (42_fft_sr.md R186). -/
def fftDirected (p : Prec) (inv : Bool) (n : Nat) (v : List (Cplx p)) : List (Cplx p) :=
  directed inv n (fftCanon p n) v

/-- PFA_(N1,N2) with canonical sub-transforms (R206). -/
def pfa (p : Prec) (n1 n2 : Nat) (x : List (Cplx p)) : List (Cplx p) :=
  pfaWith n1 n2 (fftCanon p n1) (fftCanon p n2) x

/-- The slots F_N reads, by the same recursion (42_fft_sr.md R181). -/
def slotsFuel : Nat → Nat → List Slot
  | 0, _ => []
  | fuel + 1, n =>
    if isPow2 n then slotsNoShuffle (Nat.log2 n)
    else if n = 15 then [.t53]
    else if isCodelet n then [oddSlot n]
    else
      match canon n with
      | some (f, m) => slotsFuel fuel f ++ slotsFuel fuel m
      | none => []

/-- The slots F_N reads (42_fft_sr.md R181). -/
def slotsFft (n : Nat) : List Slot := slotsFuel 6 n

end Sys2Proof.Machine
end

