-- ==== Sys2Proof/Machine/Operands.lean ====
section
/-! DEFINITION. Operand forms: elements and complex samples in DMEM (20_memory.md R76 to R78), immediates
(30_encoding.md R104), linear operands and views, and their alignment and range checks (20_memory.md R79 to R82). -/

namespace Sys2Proof.Machine

/-! ## Immediates (R104) -/

/-- sext of an immediate to 32 bits. -/
def sext32 {n : Nat} (v : BitVec n) : Word := v.signExtend 32

/-! ## Elements (R76) -/

/-- ES, the element size in bytes. -/
def Prec.es : Prec → Nat
  | .fp32 => 4
  | .fp64 => 8
  | .q31 => 4

/-- CS = 2·ES, the complex-sample size in bytes. -/
def Prec.cs (p : Prec) : Nat := 2 * p.es

/-- ElRead(a) (00_scope.md R9). -/
def Memory.readEl (m : Memory) (p : Prec) (a : Nat) : Elem p := BitVec.ofNat p.bits (m.readLE a p.es)

/-- ElWrite(a, v) of an arithmetic instruction: a NaN is stored as the canonical one (R9, R78). -/
def Memory.writeEl (m : Memory) (p : Prec) (a : Nat) (v : Elem p) : Memory := m.writeLE a p.es (Elem.canon p v).toNat

/-- CRead(a) (R9). -/
def Memory.readC (m : Memory) (p : Prec) (a : Nat) : Cplx p := ⟨m.readEl p a, m.readEl p (a + p.es)⟩

/-- CWrite(a, z) (R9). -/
def Memory.writeC (m : Memory) (p : Prec) (a : Nat) (z : Cplx p) : Memory :=
  (m.writeEl p a z.re).writeEl p (a + p.es) z.im

/-- Elements at the given addresses, in order. -/
def Memory.readEls (m : Memory) (p : Prec) (addrs : List Nat) : List (Elem p) := addrs.map (m.readEl p)

/-- Complex samples at the given addresses, in order. -/
def Memory.readCs (m : Memory) (p : Prec) (addrs : List Nat) : List (Cplx p) := addrs.map (m.readC p)

/-- Element writes in the given order: a later one wins (R85). -/
def Memory.writeEls (m : Memory) (p : Prec) (ws : List (Nat × Elem p)) : Memory :=
  ws.foldl (fun m w => m.writeEl p w.1 w.2) m

/-- Complex writes in the given order: a later one wins (R84, R85). -/
def Memory.writeCs (m : Memory) (p : Prec) (ws : List (Nat × Cplx p)) : Memory :=
  ws.foldl (fun m w => m.writeC p w.1 w.2) m

/-- Writes of 32-bit words in the given order (R77, R85). -/
def Memory.writeWords (m : Memory) (ws : List (Nat × Nat)) : Memory :=
  ws.foldl (fun m w => m.writeLE w.1 4 w.2) m

/-- Byte moves of `n` bytes each, in the given order (R78, R85). -/
def Memory.writeRaws (m : Memory) (n : Nat) (ws : List (Nat × Nat)) : Memory :=
  ws.foldl (fun m w => m.writeLE w.1 n w.2) m

/-- The addresses base + j·stride for j in [0, n). -/
def addrsFrom (base n stride : Nat) : List Nat := (List.range n).map fun j => base + j * stride

/-! ## Linear operands (R81) -/

/-- `Lin(base, n, stride, size)`: n accesses of `size` bytes at base + j·stride. -/
structure Lin where
  base : Nat
  n : Nat
  stride : Nat
  size : Nat
deriving DecidableEq, Repr

/-- The addresses of a linear operand. -/
def Lin.addrs (l : Lin) : List Nat := addrsFrom l.base l.n l.stride

/-- The least j·stride with j < n that is at least `u`, if there is one. -/
def leastMultiple (n stride u : Nat) : Option Nat :=
  if n = 0 then none
  else if u = 0 then some 0
  else if stride = 0 then none
  else
    let j := (u + stride - 1) / stride
    if j < n then some (j * stride) else none

/-- The lesser of two optional addresses. -/
def optMin : Option Nat → Option Nat → Option Nat
  | none, y => y
  | x, none => x
  | some a, some b => some (Nat.min a b)

/-- The least of the addresses in a list. -/
def lowest (l : List (Option Nat)) : Option Nat := l.foldl optMin none

/-- The least start address of an access of the operand that leaves [0, bytes), if one does (R80): an access at `a`
leaves exactly when `a` is at least bytes + 1 − size. -/
def Lin.lowestOut (l : Lin) (bytes : Nat) : Option Nat :=
  (leastMultiple l.n l.stride (bytes + 1 - l.size - l.base)).map (l.base + ·)

/-! ## Views of batched instructions (R82) -/

/-- The view of a base address: batch b, point j at base + (b·bstride + j·istride)·cs. -/
structure View where
  base : Nat
  batches : Nat
  points : Nat
  bstride : Nat
  istride : Nat
  cs : Nat
deriving DecidableEq, Repr

/-- addr(base, b, j) of R82. -/
def View.addr (v : View) (b j : Nat) : Nat := v.base + (b * v.bstride + j * v.istride) * v.cs

/-- The addresses of batch b, in point order. -/
def View.batch (v : View) (b : Nat) : List Nat := (List.range v.points).map (v.addr b)

/-- The least i·s + j·t with i < n and j < m that is at least `u`: for each i the least j·t that is enough. -/
def leastSum (n s m t u : Nat) : Option Nat :=
  lowest ((List.range n).map fun i => (leastMultiple m t (u - i * s)).map (i * s + ·))

/-- `leastSum`, walked along the shorter side. -/
def leastOffset (v : View) (u : Nat) : Option Nat :=
  if v.batches ≤ v.points then leastSum v.batches v.bstride v.points v.istride u
  else leastSum v.points v.istride v.batches v.bstride u

/-- The least start address of a point of the view that leaves [0, bytes) (R80, R82): the offset in samples is at least
the number of whole samples that still fit. -/
def View.lowestOut (v : View) (bytes : Nat) : Option Nat :=
  (leastOffset v ((bytes + 1 - v.cs - v.base + v.cs - 1) / v.cs)).map (v.base + · * v.cs)

/-! ## Checks (R79, R80) -/

/-- Alignment of the operands' bases, each with what it must be a multiple of: MISALIGNED with the lowest misaligned
base (R79). -/
def checkAligned (bases : List (Nat × Nat)) : Except Trap Unit :=
  match lowest (bases.map fun b => if b.1 % b.2 = 0 then none else some b.1) with
  | none => .ok ()
  | some a => .error ⟨.misaligned, a⟩

/-- Range of all accesses: DMEM_RANGE with the lowest start address of one that leaves DMEM (R80). -/
def checkRange (outs : List (Option Nat)) : Except Trap Unit :=
  match lowest outs with
  | none => .ok ()
  | some a => .error ⟨.dmemRange, a⟩

/-- `check Lin …, Lin …` of the instruction rules: alignment of every base, then range of every access. -/
def checkLins (s : State) (align : Nat) (ls : List Lin) : Except Trap Unit := do
  checkAligned (ls.map fun l => (l.base, align))
  checkRange (ls.map fun l => l.lowestOut s.params.dmemBytes)

/-- `if c = 0: raise INVALID_ARGUMENT(0)`. -/
def requireNonzero (c : Nat) : Except Trap Unit := require (c != 0) ⟨.invalidArgument, 0⟩

end Sys2Proof.Machine
end

