-- ==== Sys2Proof/Machine/Batched.lean ====
section
/-! DEFINITION. The common sequence of the batched instructions (42_fft_sr.md R170, 20_memory.md R82 to R84), and the
length checks that several families share. -/

namespace Sys2Proof.Machine

/-- The view of `base` for length `n` (20_memory.md R82). -/
def State.view (s : State) (base n : Nat) : View :=
  ⟨base, s.bcount.toNat, n, s.bstride.toNat, s.istride.toNat, s.prec.cs⟩

/-- One batch (R170): read its points, compute, write the results in increasing j (20_memory.md R84). -/
def runBatch {p : Prec} (src dst : View) (kernel : List (Cplx p) → List (Cplx p)) (m : Memory) (b : Nat) : Memory :=
  m.writeCs p ((dst.batch b).zip (kernel (m.readCs p (src.batch b))))

/-- All batches in increasing order (20_memory.md R84). -/
def runBatches {p : Prec} (src dst : View) (kernel : List (Cplx p) → List (Cplx p)) (m : Memory) (count : Nat) :
    Memory :=
  (List.range count).foldl (runBatch src dst kernel) m

/-- The common sequence of R170: BCOUNT, the instruction's own argument, length and resource checks `args`, the views'
alignment and range, then the tables the kernel reads (45_twiddle.md R242), then the batches. -/
def batchedBody (s : State) (n src dst : Nat) (args : Except Trap Unit) (slots : List Slot)
    (kernel : List (Cplx s.prec) → List (Cplx s.prec)) : Except Trap State := do
  requireNonzero s.bcount.toNat
  args
  checkAligned [(src, s.prec.es), (dst, s.prec.es)]
  checkRange [(s.view src n).lowestOut s.params.dmemBytes, (s.view dst n).lowestOut s.params.dmemBytes]
  .ok ((s.ensureSlots slots).setDmem (runBatches (s.view src n) (s.view dst n) kernel s.dmem s.bcount.toNat))

/-- The length checks of a power-of-two length 2^lg (42_fft_sr.md R179, 44_permute.md R220, 45_twiddle.md R246). -/
def checkLg (s : State) (lg : Nat) : Except Trap Unit := do
  require (decide (lg ≤ 21)) ⟨.unsupportedLength, pow2 lg⟩
  require (decide (lg ≤ s.params.maxLog2)) ⟨.resource, pow2 lg⟩

/-- A length parameter `n` whose transform length is `len`: 0 is INVALID_ARGUMENT(0), a length the instruction does not
support UNSUPPORTED_LENGTH(n), one above MAXN RESOURCE(n) (60_exceptions.md R350). -/
def checkLength (s : State) (n len : Nat) (supported : Bool) : Except Trap Unit := do
  requireNonzero n
  require supported ⟨.unsupportedLength, n⟩
  require (decide (len ≤ s.params.maxN)) ⟨.resource, n⟩

end Sys2Proof.Machine
end

