-- ==== Sys2Proof/Machine/FftPrime.lean ====
section
/-! DEFINITION. The odd codelets and the prime-factor transform (43_fft_prime.md R205, R207). -/

namespace Sys2Proof.Machine

/-- An odd codelet of P = n points (R205): ODD_P, or PFA_(3,5) for P = 15, which is what F_P is for these lengths
(42_fft_sr.md R186). -/
def codeletBody (n : Nat) (inv : Bool) (d a : Nat) (s : State) : Except Trap State :=
  batchedBody s n a d (.ok ()) (slotsFft n) (fftDirected s.prec inv n)

/-- FFT3 (R205). -/
def execFft3 (rd rs1 : Reg) (s : State) : Host.Outcome State Fault Refusal :=
  finish s (codeletBody 3 false (s.regNat rd) (s.regNat rs1) s)

/-- FFT3.i (R205). -/
def execFft3I (rd rs1 : Reg) (s : State) : Host.Outcome State Fault Refusal :=
  finish s (codeletBody 3 true (s.regNat rd) (s.regNat rs1) s)

/-- FFT5 (R205). -/
def execFft5 (rd rs1 : Reg) (s : State) : Host.Outcome State Fault Refusal :=
  finish s (codeletBody 5 false (s.regNat rd) (s.regNat rs1) s)

/-- FFT5.i (R205). -/
def execFft5I (rd rs1 : Reg) (s : State) : Host.Outcome State Fault Refusal :=
  finish s (codeletBody 5 true (s.regNat rd) (s.regNat rs1) s)

/-- FFT7 (R205). -/
def execFft7 (rd rs1 : Reg) (s : State) : Host.Outcome State Fault Refusal :=
  finish s (codeletBody 7 false (s.regNat rd) (s.regNat rs1) s)

/-- FFT7.i (R205). -/
def execFft7I (rd rs1 : Reg) (s : State) : Host.Outcome State Fault Refusal :=
  finish s (codeletBody 7 true (s.regNat rd) (s.regNat rs1) s)

/-- FFT9 (R205). -/
def execFft9 (rd rs1 : Reg) (s : State) : Host.Outcome State Fault Refusal :=
  finish s (codeletBody 9 false (s.regNat rd) (s.regNat rs1) s)

/-- FFT9.i (R205). -/
def execFft9I (rd rs1 : Reg) (s : State) : Host.Outcome State Fault Refusal :=
  finish s (codeletBody 9 true (s.regNat rd) (s.regNat rs1) s)

/-- FFT15 (R205). -/
def execFft15 (rd rs1 : Reg) (s : State) : Host.Outcome State Fault Refusal :=
  finish s (codeletBody 15 false (s.regNat rd) (s.regNat rs1) s)

/-- FFT15.i (R205). -/
def execFft15I (rd rs1 : Reg) (s : State) : Host.Outcome State Fault Refusal :=
  finish s (codeletBody 15 true (s.regNat rd) (s.regNat rs1) s)

/-- The argument, length and resource checks of PFA after BCOUNT (R207). -/
def checkPfa (s : State) (n1 n2 : Nat) : Except Trap Unit := do
  requireNonzero n2
  require (Nat.gcd n1 n2 == 1) ⟨.invalidArgument, n2⟩
  require (decide (2 ≤ n2) && inS n2 && decide (n1 * n2 ≤ lengthCap)) ⟨.unsupportedLength, n2⟩
  require (decide (n1 * n2 ≤ s.params.maxN)) ⟨.resource, n1 * n2⟩

/-- PFA and PFA.i with factors n1 and n2 (R207). -/
def pfaBody (n1 : Nat) (inv : Bool) (d a n2 : Nat) (s : State) : Except Trap State :=
  batchedBody s (n1 * n2) a d (checkPfa s n1 n2) (slotsFft n1 ++ slotsFft n2)
    (directed inv (n1 * n2) (pfa s.prec n1 n2))

/-- PFA with N1 = 3 (R207). -/
def execPfa3 (rd rs1 rs2 : Reg) (s : State) : Host.Outcome State Fault Refusal :=
  finish s (pfaBody 3 false (s.regNat rd) (s.regNat rs1) (s.regNat rs2) s)

/-- PFA.i with N1 = 3 (R207). -/
def execPfa3I (rd rs1 rs2 : Reg) (s : State) : Host.Outcome State Fault Refusal :=
  finish s (pfaBody 3 true (s.regNat rd) (s.regNat rs1) (s.regNat rs2) s)

/-- PFA with N1 = 5 (R207). -/
def execPfa5 (rd rs1 rs2 : Reg) (s : State) : Host.Outcome State Fault Refusal :=
  finish s (pfaBody 5 false (s.regNat rd) (s.regNat rs1) (s.regNat rs2) s)

/-- PFA.i with N1 = 5 (R207). -/
def execPfa5I (rd rs1 rs2 : Reg) (s : State) : Host.Outcome State Fault Refusal :=
  finish s (pfaBody 5 true (s.regNat rd) (s.regNat rs1) (s.regNat rs2) s)

/-- PFA with N1 = 7 (R207). -/
def execPfa7 (rd rs1 rs2 : Reg) (s : State) : Host.Outcome State Fault Refusal :=
  finish s (pfaBody 7 false (s.regNat rd) (s.regNat rs1) (s.regNat rs2) s)

/-- PFA.i with N1 = 7 (R207). -/
def execPfa7I (rd rs1 rs2 : Reg) (s : State) : Host.Outcome State Fault Refusal :=
  finish s (pfaBody 7 true (s.regNat rd) (s.regNat rs1) (s.regNat rs2) s)

/-- PFA with N1 = 9 (R207). -/
def execPfa9 (rd rs1 rs2 : Reg) (s : State) : Host.Outcome State Fault Refusal :=
  finish s (pfaBody 9 false (s.regNat rd) (s.regNat rs1) (s.regNat rs2) s)

/-- PFA.i with N1 = 9 (R207). -/
def execPfa9I (rd rs1 rs2 : Reg) (s : State) : Host.Outcome State Fault Refusal :=
  finish s (pfaBody 9 true (s.regNat rd) (s.regNat rs1) (s.regNat rs2) s)

/-- PFA with N1 = 15 (R207). -/
def execPfa15 (rd rs1 rs2 : Reg) (s : State) : Host.Outcome State Fault Refusal :=
  finish s (pfaBody 15 false (s.regNat rd) (s.regNat rs1) (s.regNat rs2) s)

/-- PFA.i with N1 = 15 (R207). -/
def execPfa15I (rd rs1 rs2 : Reg) (s : State) : Host.Outcome State Fault Refusal :=
  finish s (pfaBody 15 true (s.regNat rd) (s.regNat rs1) (s.regNat rs2) s)

end Sys2Proof.Machine
end

