-- ==== Sys2Proof/Machine/FftSplitRadix.lean ====
section
/-! DEFINITION. The split-radix FFT family (42_fft_sr.md R175 to R181). -/

namespace Sys2Proof.Machine

/-- An in-place no-shuffle transform NS_N, N = 2^lg, with its argument checks (R175 to R177, R179). -/
def noShuffleBody (s : State) (base lg : Nat) (args : Except Trap Unit) : Except Trap State :=
  batchedBody s (pow2 lg) base base args (slotsNoShuffle lg) (noShuffle s.prec lg)

/-- FFT2 (R175). -/
def execFft2 (rd : Reg) (s : State) : Host.Outcome State Fault Refusal :=
  finish s (noShuffleBody s (s.regNat rd) 1 (.ok ()))

/-- FFT4 (R176). -/
def execFft4 (rd : Reg) (s : State) : Host.Outcome State Fault Refusal :=
  finish s (noShuffleBody s (s.regNat rd) 2 (.ok ()))

/-- FFT8 (R177). -/
def execFft8 (rd : Reg) (s : State) : Host.Outcome State Fault Refusal :=
  finish s (noShuffleBody s (s.regNat rd) 3 (.ok ()))

/-- The length checks of SRCOMB (R178). -/
def checkSrcomb (s : State) (lg : Nat) : Except Trap Unit := do
  require (decide (2 ≤ lg)) ⟨.unsupportedLength, pow2 lg⟩
  checkLg s lg

/-- SRCOMB (R178). -/
def execSrcomb (rd : Reg) (lg : BitVec 5) (s : State) : Host.Outcome State Fault Refusal :=
  finish s (batchedBody s (pow2 lg.toNat) (s.regNat rd) (s.regNat rd) (checkSrcomb s lg.toNat) (slotsComb lg.toNat)
    (comb s.prec lg.toNat))

/-- FFTNS (R179). -/
def execFftns (rd : Reg) (lg : BitVec 5) (s : State) : Host.Outcome State Fault Refusal :=
  finish s (noShuffleBody s (s.regNat rd) lg.toNat (checkLg s lg.toNat))

/-- FFT and FFT.i of length 2^lg (R180). -/
def fftBody (inv : Bool) (d a lg : Nat) (s : State) : Except Trap State :=
  batchedBody s (pow2 lg) a d (checkLg s lg) (slotsNoShuffle lg) (directed inv (pow2 lg) (fftPow2 s.prec lg))

/-- FFT (R180). -/
def execFft (rd rs1 : Reg) (lg : BitVec 5) (s : State) : Host.Outcome State Fault Refusal :=
  finish s (fftBody false (s.regNat rd) (s.regNat rs1) lg.toNat s)

/-- FFT.i (R180). -/
def execFftI (rd rs1 : Reg) (lg : BitVec 5) (s : State) : Host.Outcome State Fault Refusal :=
  finish s (fftBody true (s.regNat rd) (s.regNat rs1) lg.toNat s)

/-- FFTL and FFTL.i of length n (R181). -/
def fftlBody (inv : Bool) (d a n : Nat) (s : State) : Except Trap State :=
  batchedBody s n a d (checkLength s n n (inS n)) (slotsFft n) (fftDirected s.prec inv n)

/-- FFTL (R181). -/
def execFftl (rd rs1 rs3 : Reg) (s : State) : Host.Outcome State Fault Refusal :=
  finish s (fftlBody false (s.regNat rd) (s.regNat rs1) (s.regNat rs3) s)

/-- FFTL.i (R181). -/
def execFftlI (rd rs1 rs3 : Reg) (s : State) : Host.Outcome State Fault Refusal :=
  finish s (fftlBody true (s.regNat rd) (s.regNat rs1) (s.regNat rs3) s)

end Sys2Proof.Machine
end

