-- ==== Sys2Proof/Machine/Integer.lean ====
section
/-! DEFINITION. Integer arithmetic (49_control.md R320 to R326), loads and stores (R327, R328), branches and jump (R330 to
R333) and HALT (R336). -/

namespace Sys2Proof.Machine

/-- x[rd] <- v, and the instruction retires (R329). -/
def writeBack (s : State) (rd : Reg) (v : Word) : Host.Outcome State Fault Refusal := finish s (.ok (s.setReg rd v))

/-- ADDI (R320). -/
def execAddi (rd rs1 : Reg) (imm18 : BitVec 18) (s : State) : Host.Outcome State Fault Refusal :=
  writeBack s rd (s.reg rs1 + sext32 imm18)

/-- LUI (R321). -/
def execLui (rd : Reg) (imm22 : BitVec 22) (s : State) : Host.Outcome State Fault Refusal :=
  writeBack s rd (imm22 ++ 0#10)

/-- ADD (R322). -/
def execAdd (rd rs1 rs2 : Reg) (s : State) : Host.Outcome State Fault Refusal :=
  writeBack s rd (s.reg rs1 + s.reg rs2)

/-- SUB (R323). -/
def execSub (rd rs1 rs2 : Reg) (s : State) : Host.Outcome State Fault Refusal :=
  writeBack s rd (s.reg rs1 - s.reg rs2)

/-- MUL (R324). -/
def execMul (rd rs1 rs2 : Reg) (s : State) : Host.Outcome State Fault Refusal :=
  writeBack s rd (s.reg rs1 * s.reg rs2)

/-- SLLI (R325). -/
def execSlli (rd rs1 : Reg) (shamt : BitVec 5) (s : State) : Host.Outcome State Fault Refusal :=
  writeBack s rd (s.reg rs1 <<< shamt.toNat)

/-- SRLI (R326). -/
def execSrli (rd rs1 : Reg) (shamt : BitVec 5) (s : State) : Host.Outcome State Fault Refusal :=
  writeBack s rd (s.reg rs1 >>> shamt.toNat)

/-- The effective address of LW and SW, modulo 2^32 (R327). -/
def State.effectiveAddress (s : State) (rs1 : Reg) (imm18 : BitVec 18) : Nat := (s.reg rs1 + sext32 imm18).toNat

/-- The checks of LW and SW (R327, R328). -/
def checkWord (s : State) (ea : Nat) : Except Trap Unit := do
  require (ea % 4 == 0) ⟨.misaligned, ea⟩
  require (decide (ea + 4 ≤ s.params.dmemBytes)) ⟨.dmemRange, ea⟩

/-- LW (R327). -/
def execLw (rd rs1 : Reg) (imm18 : BitVec 18) (s : State) : Host.Outcome State Fault Refusal :=
  finish s do
    checkWord s (s.effectiveAddress rs1 imm18)
    .ok (s.setReg rd (s.dmem.readWord (s.effectiveAddress rs1 imm18)))

/-- SW (R328): the register in the rd field is stored. -/
def execSw (rd rs1 : Reg) (imm18 : BitVec 18) (s : State) : Host.Outcome State Fault Refusal :=
  finish s do
    checkWord s (s.effectiveAddress rs1 imm18)
    .ok (s.setDmem (s.dmem.writeWord (s.effectiveAddress rs1 imm18) (s.reg rd)))

/-- A branch (R330 to R332): to pc + sext(off) when taken, else to the next word. -/
def branch (s : State) (taken : Bool) (off18 : BitVec 18) : Host.Outcome State Fault Refusal :=
  .next (if taken then s.retireTo (s.pc + sext32 off18) else s.retire)

/-- BEQ (R330). -/
def execBeq (rs1 rs2 : Reg) (off18 : BitVec 18) (s : State) : Host.Outcome State Fault Refusal :=
  branch s (s.reg rs1 == s.reg rs2) off18

/-- BNE (R331). -/
def execBne (rs1 rs2 : Reg) (off18 : BitVec 18) (s : State) : Host.Outcome State Fault Refusal :=
  branch s (s.reg rs1 != s.reg rs2) off18

/-- BLTU (R332). -/
def execBltu (rs1 rs2 : Reg) (off18 : BitVec 18) (s : State) : Host.Outcome State Fault Refusal :=
  branch s (decide (s.regNat rs1 < s.regNat rs2)) off18

/-- J (R333). -/
def execJ (off26 : BitVec 26) (s : State) : Host.Outcome State Fault Refusal :=
  .next (s.retireTo (s.pc + sext32 off26))

/-- HALT (R336): the run is done, pc stays, the instruction counts. -/
def execHalt (s : State) : Host.Outcome State Fault Refusal :=
  .next { s.retireTo s.pc with run := .done, irqDone := true }

end Sys2Proof.Machine
end

