-- ==== Sys2Proof/Machine/Vector.lean ====
section
/-! DEFINITION. The vector instructions (41_numeric.md R158 to R161): not batched, contiguous operands, all inputs read
before any output is written (20_memory.md R85). -/

namespace Sys2Proof.Machine

/-- c complex samples at `base` (41_numeric.md section 3). -/
def complexLin (p : Prec) (base c : Nat) : Lin := ⟨base, c, p.cs, p.cs⟩

/-- c real elements at `base` (41_numeric.md section 3). -/
def realLin (p : Prec) (base c : Nat) : Lin := ⟨base, c, p.es, p.es⟩

/-- The complex multiplier of CMULV, or its conjugate for CMULV.c (R158). -/
def cmulvFactor {p : Prec} (conjugate : Bool) (b : Cplx p) : Cplx p := if conjugate then b.conj else b

/-- CMULV and CMULV.c over operand bases and a count (R158). -/
def cmulvBody (conjugate : Bool) (d a b c : Nat) (s : State) : Except Trap State := do
  requireNonzero c
  checkLins s s.prec.es [complexLin s.prec d c, complexLin s.prec a c, complexLin s.prec b c]
  let as := s.dmem.readCs s.prec (complexLin s.prec a c).addrs
  let bs := s.dmem.readCs s.prec (complexLin s.prec b c).addrs
  let out := List.zipWith (fun x y => x.mul (cmulvFactor conjugate y)) as bs
  .ok (s.setDmem (s.dmem.writeCs s.prec ((complexLin s.prec d c).addrs.zip out)))

/-- CMULV (R158). -/
def execCmulv (rd rs1 rs2 rs3 : Reg) (s : State) : Host.Outcome State Fault Refusal :=
  finish s (cmulvBody false (s.regNat rd) (s.regNat rs1) (s.regNat rs2) (s.regNat rs3) s)

/-- CMULV.c (R158). -/
def execCmulvC (rd rs1 rs2 rs3 : Reg) (s : State) : Host.Outcome State Fault Refusal :=
  finish s (cmulvBody true (s.regNat rd) (s.regNat rs1) (s.regNat rs2) (s.regNat rs3) s)

/-- The writes of BFV in order: for each j the sum to A, then the difference to B (R159). -/
def bfvWrites {p : Prec} (aAddrs bAddrs : List Nat) (as bs : List (Cplx p)) : List (Nat × Cplx p) :=
  ((aAddrs.zip bAddrs).zip (as.zip bs)).flatMap fun w =>
    [(w.1.1, (w.2.1.butterfly w.2.2).1), (w.1.2, (w.2.1.butterfly w.2.2).2)]

/-- BFV over operand bases and a count (R159). -/
def bfvBody (a b c : Nat) (s : State) : Except Trap State := do
  requireNonzero c
  let la := complexLin s.prec a c
  let lb := complexLin s.prec b c
  checkLins s s.prec.es [la, lb]
  .ok (s.setDmem (s.dmem.writeCs s.prec
    (bfvWrites la.addrs lb.addrs (s.dmem.readCs s.prec la.addrs) (s.dmem.readCs s.prec lb.addrs))))

/-- BFV (R159). -/
def execBfv (rs1 rs2 rs3 : Reg) (s : State) : Host.Outcome State Fault Refusal :=
  finish s (bfvBody (s.regNat rs1) (s.regNat rs2) (s.regNat rs3) s)

/-- The finite SCALE, or INVALID_ARGUMENT(SCALE_HI) (R160, 45_twiddle.md R248). -/
def requireScale (s : State) : Except Trap Dyadic :=
  match s.scale? with
  | some d => .ok d
  | none => .error ⟨.invalidArgument, s.scaleHi.toNat⟩

/-- SCALEV over operand bases and a count (R160). -/
def scalevBody (d a c : Nat) (s : State) : Except Trap State := do
  requireNonzero c
  let scale ← requireScale s
  checkLins s s.prec.es [realLin s.prec d c, realLin s.prec a c]
  let sc := s.scaleMultiplier scale s.prec
  let out := (s.dmem.readEls s.prec (realLin s.prec a c).addrs).map (Elem.mul s.prec sc)
  .ok (s.setDmem (s.dmem.writeEls s.prec ((realLin s.prec d c).addrs.zip out)))

/-- SCALEV (R160). -/
def execScalev (rd rs1 rs3 : Reg) (s : State) : Host.Outcome State Fault Refusal :=
  finish s (scalevBody (s.regNat rd) (s.regNat rs1) (s.regNat rs3) s)

/-- The bytes of samples of `n` bytes at the given addresses, each as a number (20_memory.md R78: a byte move). -/
def Memory.readRaws (m : Memory) (n : Nat) (addrs : List Nat) : List Nat := addrs.map fun a => m.readLE a n

/-- COPYV over operand bases and a count: bytes move unchanged (R161). -/
def copyvBody (d a c : Nat) (s : State) : Except Trap State := do
  requireNonzero c
  let ld := complexLin s.prec d c
  let la := complexLin s.prec a c
  checkLins s s.prec.es [ld, la]
  .ok (s.setDmem (s.dmem.writeRaws s.prec.cs (ld.addrs.zip (s.dmem.readRaws s.prec.cs la.addrs))))

/-- COPYV (R161). -/
def execCopyv (rd rs1 rs3 : Reg) (s : State) : Host.Outcome State Fault Refusal :=
  finish s (copyvBody (s.regNat rd) (s.regNat rs1) (s.regNat rs3) s)

end Sys2Proof.Machine
end

