-- ==== Sys2Proof/Machine/Permute.lean ====
section
/-! DEFINITION. The permutation maps: generators (44_permute.md R220 to R224), application (R226, R227) and inversion
(R228). -/

namespace Sys2Proof.Machine

/-- n words of 4 bytes at `base` (20_memory.md R77). -/
def mapLin (base n : Nat) : Lin := ⟨base, n, 4, 4⟩

/-- A map generator after its argument checks: the whole map is computed, then written in increasing i (R225). -/
def mapBody (s : State) (d n : Nat) (args : Except Trap Unit) (map : Unit → List Nat) : Except Trap State := do
  args
  checkLins s 4 [mapLin d n]
  .ok (s.setDmem (s.dmem.writeWords ((mapLin d n).addrs.zip (map ()))))

/-- The map of PMAPSR and PMAPSR.i, N = 2^lg (R220). -/
def srMap (inv : Bool) (lg : Nat) : List Nat :=
  if inv then (srOrder lg).map fun j => (pow2 lg - j) % pow2 lg else srOrder lg

/-- PMAPSR (R220). -/
def execPmapsr (rd : Reg) (lg : BitVec 5) (s : State) : Host.Outcome State Fault Refusal :=
  finish s (mapBody s (s.regNat rd) (pow2 lg.toNat) (checkLg s lg.toNat) fun _ => srMap false lg.toNat)

/-- PMAPSR.i (R220). -/
def execPmapsrI (rd : Reg) (lg : BitVec 5) (s : State) : Host.Outcome State Fault Refusal :=
  finish s (mapBody s (s.regNat rd) (pow2 lg.toNat) (checkLg s lg.toNat) fun _ => srMap true lg.toNat)

/-- bitrev_lg(p): the lg low bits of p reversed (R221). -/
def bitrev : Nat → Nat → Nat
  | 0, _ => 0
  | lg + 1, p => pow2 lg * (p % 2) + bitrev lg (p / 2)

/-- PMAPBR (R221). -/
def execPmapbr (rd : Reg) (lg : BitVec 5) (s : State) : Host.Outcome State Fault Refusal :=
  finish s (mapBody s (s.regNat rd) (pow2 lg.toNat) (checkLg s lg.toNat) fun _ =>
    (List.range (pow2 lg.toNat)).map (bitrev lg.toNat))

/-- The argument and resource checks of PMAPCRT and PMAPRUR (R222, R223). -/
def checkFactors (s : State) (n1 n2 : Nat) : Except Trap Unit := do
  requireNonzero n1
  requireNonzero n2
  require (Nat.gcd n1 n2 == 1) ⟨.invalidArgument, n2⟩
  require (decide (n1 * n2 ≤ s.params.maxN)) ⟨.resource, n1 * n2⟩

/-- The CRT map: i stands at (i mod N2)·N1 + (i mod N1) (R222). -/
def crtMap (n1 n2 : Nat) : List Nat :=
  scatterList (List.replicate (n1 * n2) 0) ((List.range (n1 * n2)).map (crtIndex n1 n2)) (List.range (n1 * n2))

/-- The Ruritanian map: entry k1 + N1·k2 is (N2·k1 + N1·k2) mod N (R223). -/
def rurMap (n1 n2 : Nat) : List Nat := (List.range (n1 * n2)).map fun p => rurIndex n1 n2 (p % n1) (p / n1)

/-- PMAPCRT (R222). -/
def execPmapcrt (rd rs1 rs2 : Reg) (s : State) : Host.Outcome State Fault Refusal :=
  finish s (mapBody s (s.regNat rd) (s.regNat rs1 * s.regNat rs2) (checkFactors s (s.regNat rs1) (s.regNat rs2)) fun _ =>
    crtMap (s.regNat rs1) (s.regNat rs2))

/-- PMAPRUR (R223). -/
def execPmaprur (rd rs1 rs2 : Reg) (s : State) : Host.Outcome State Fault Refusal :=
  finish s (mapBody s (s.regNat rd) (s.regNat rs1 * s.regNat rs2) (checkFactors s (s.regNat rs1) (s.regNat rs2)) fun _ =>
    rurMap (s.regNat rs1) (s.regNat rs2))

/-- The argument and resource checks of PMAPNEG (R224). -/
def checkNeg (s : State) (n : Nat) : Except Trap Unit := do
  requireNonzero n
  require (decide (n ≤ s.params.maxN)) ⟨.resource, n⟩

/-- The index-negation map (R224). -/
def negMap (n : Nat) : List Nat := (List.range n).map fun i => (n - i) % n

/-- PMAPNEG (R224). -/
def execPmapneg (rd rs3 : Reg) (s : State) : Host.Outcome State Fault Refusal :=
  finish s (mapBody s (s.regNat rd) (s.regNat rs3) (checkNeg s (s.regNat rs3)) fun _ => negMap (s.regNat rs3))

/-! ## Applying a map -/

/-- The map at `base`: n words of DMEM (20_memory.md R77). -/
def State.readMap (s : State) (base n : Nat) : List Nat := s.dmem.readRaws 4 (mapLin base n).addrs

/-- The addresses base + M[i]·size of a map. -/
def mapAddrs (base size : Nat) (map : List Nat) : List Nat := map.map fun i => base + i * size

/-- The access of `size` bytes at `a`, if it leaves DMEM (20_memory.md R80). -/
def accessOut (s : State) (size a : Nat) : Option Nat := if s.params.dmemBytes < a + size then some a else none

/-- PGATHER over operand bases and a count (R226, checks in the order of R225). -/
def pgatherBody (d a m c : Nat) (s : State) : Except Trap State := do
  requireNonzero c
  checkAligned [(m, 4), (d, s.prec.es), (a, s.prec.es)]
  checkRange [(mapLin m c).lowestOut s.params.dmemBytes]
  let ld := complexLin s.prec d c
  let src := mapAddrs a s.prec.cs (s.readMap m c)
  checkRange (ld.lowestOut s.params.dmemBytes :: src.map (accessOut s s.prec.cs))
  .ok (s.setDmem (s.dmem.writeRaws s.prec.cs (ld.addrs.zip (s.dmem.readRaws s.prec.cs src))))

/-- PGATHER (R226). -/
def execPgather (rd rs1 rs2 rs3 : Reg) (s : State) : Host.Outcome State Fault Refusal :=
  finish s (pgatherBody (s.regNat rd) (s.regNat rs1) (s.regNat rs2) (s.regNat rs3) s)

/-- PSCATTER over operand bases and a count (R227, checks in the order of R225). -/
def pscatterBody (d a m c : Nat) (s : State) : Except Trap State := do
  requireNonzero c
  checkAligned [(m, 4), (d, s.prec.es), (a, s.prec.es)]
  checkRange [(mapLin m c).lowestOut s.params.dmemBytes]
  let la := complexLin s.prec a c
  let dst := mapAddrs d s.prec.cs (s.readMap m c)
  checkRange (la.lowestOut s.params.dmemBytes :: dst.map (accessOut s s.prec.cs))
  .ok (s.setDmem (s.dmem.writeRaws s.prec.cs (dst.zip (s.dmem.readRaws s.prec.cs la.addrs))))

/-- PSCATTER (R227). -/
def execPscatter (rd rs1 rs2 rs3 : Reg) (s : State) : Host.Outcome State Fault Refusal :=
  finish s (pscatterBody (s.regNat rd) (s.regNat rs1) (s.regNat rs2) (s.regNat rs3) s)

/-- PINV over map bases and a count (R228, checks in the order of R225). -/
def pinvBody (d m c : Nat) (s : State) : Except Trap State := do
  requireNonzero c
  checkAligned [(m, 4), (d, 4)]
  checkRange [(mapLin m c).lowestOut s.params.dmemBytes]
  let dst := mapAddrs d 4 (s.readMap m c)
  checkRange (dst.map (accessOut s 4))
  .ok (s.setDmem (s.dmem.writeWords (dst.zip (List.range c))))

/-- PINV (R228). -/
def execPinv (rd rs1 rs3 : Reg) (s : State) : Host.Outcome State Fault Refusal :=
  finish s (pinvBody (s.regNat rd) (s.regNat rs1) (s.regNat rs3) s)

end Sys2Proof.Machine
end

