-- ==== Sys2Proof/Machine/Twiddle.lean ====
section
/-! DEFINITION. The table-store instructions TGEN and TCOPY (45_twiddle.md R245 to R247) and the generators of tables in
DMEM (R248 to R260). -/

namespace Sys2Proof.Machine

/-- TGEN of a slot, after the slot's length faults (R245, R246). -/
def tgenBody (t : Slot) (args : Except Trap Unit) (s : State) : Except Trap State := do
  args
  .ok (s.ensureSlots [t])

/-- TGEN P (R245). -/
def execTgenP (lg : BitVec 5) (s : State) : Host.Outcome State Fault Refusal :=
  finish s (tgenBody (.pow lg.toNat) (checkLg s lg.toNat) s)

/-- TGEN T53 (R245). -/
def execTgenT53 (s : State) : Host.Outcome State Fault Refusal := finish s (tgenBody .t53 (.ok ()) s)

/-- TGEN T7 (R245). -/
def execTgenT7 (s : State) : Host.Outcome State Fault Refusal := finish s (tgenBody .t7 (.ok ()) s)

/-- TGEN T9 (R245). -/
def execTgenT9 (s : State) : Host.Outcome State Fault Refusal := finish s (tgenBody .t9 (.ok ()) s)

/-- TCOPY of a slot to base d, after the slot's length faults (R246, R247). -/
def tcopyBody (t : Slot) (args : Except Trap Unit) (d : Nat) (s : State) : Except Trap State := do
  args
  let ld := realLin s.prec d t.length
  checkLins s s.prec.es [ld]
  .ok ((s.ensureSlots [t]).setDmem (s.dmem.writeEls s.prec (ld.addrs.zip (slotTable s.prec t))))

/-- TCOPY P (R247). -/
def execTcopyP (rd : Reg) (lg : BitVec 5) (s : State) : Host.Outcome State Fault Refusal :=
  finish s (tcopyBody (.pow lg.toNat) (checkLg s lg.toNat) (s.regNat rd) s)

/-- TCOPY T53 (R247). -/
def execTcopyT53 (rd : Reg) (s : State) : Host.Outcome State Fault Refusal :=
  finish s (tcopyBody .t53 (.ok ()) (s.regNat rd) s)

/-- TCOPY T7 (R247). -/
def execTcopyT7 (rd : Reg) (s : State) : Host.Outcome State Fault Refusal :=
  finish s (tcopyBody .t7 (.ok ()) (s.regNat rd) s)

/-- TCOPY T9 (R247). -/
def execTcopyT9 (rd : Reg) (s : State) : Host.Outcome State Fault Refusal :=
  finish s (tcopyBody .t9 (.ok ()) (s.regNat rd) s)

/-! ## Generators of DMEM tables -/

/-- The common checks and writes of the generators (R248): N, SCALE, the length and resource conditions, the destination,
then the table's exact reals, each rounded by RESCALE. `count` is the number of elements. -/
def generatorBody (s : State) (d n len count : Nat) (supported : Bool) (table : Dyadic → List Exact) :
    Except Trap State := do
  requireNonzero n
  let scale ← requireScale s
  checkLength s n len supported
  let ld := realLin s.prec d count
  checkLins s s.prec.es [ld]
  .ok (s.setDmem (s.dmem.writeEls s.prec (ld.addrs.zip ((table scale).map (rescale s.prec)))))

/-- Is N an MDCT length (R250, 46_mdct.md R265)? -/
def mdctLength (n : Nat) : Bool := decide (4 ≤ n) && n % 4 == 0 && inS (n / 2)

/-- Is N a length of the RDFT and of DCT-II and DCT-III (R255, R260, 47_rdft.md R284, 48_dct.md R300)? -/
def evenLength (n : Nat) : Bool := decide (2 ≤ n) && n % 2 == 0 && inS (n / 2)

/-- A dyadic number divided by 2^k. -/
def Dyadic.half (d : Dyadic) (k : Nat) : Dyadic := { d with k := d.k + k }

/-- The exponent table of the MDCT (R250): e[i] is sqrt(|s|)·exp(iα), α = π(i + θ)/N = π(8i + 8θ)/(8N), with 8θ = 1, or
1 + 4N when exactly one of s < 0 and the inverse bit holds. -/
def mdctTable (n : Nat) (inv : Bool) (scale : Dyadic) : List Exact :=
  let shift := if (scale.neg && scale.num != 0) != inv then 4 * n else 0
  (List.range (n / 2)).flatMap fun i =>
    [.rootCos scale (8 * i + 1 + shift) (8 * n), .rootSin scale (8 * i + 1 + shift) (8 * n)]

/-- TGMDCT (R250). -/
def execTgmdct (rd rs3 : Reg) (s : State) : Host.Outcome State Fault Refusal :=
  finish s (generatorBody s (s.regNat rd) (s.regNat rs3) (s.regNat rs3 / 2) (s.regNat rs3) (mdctLength (s.regNat rs3))
    (mdctTable (s.regNat rs3) false))

/-- TGMDCT.i (R250). -/
def execTgmdctI (rd rs3 : Reg) (s : State) : Host.Outcome State Fault Refusal :=
  finish s (generatorBody s (s.regNat rd) (s.regNat rs3) (s.regNat rs3 / 2) (s.regNat rs3) (mdctLength (s.regNat rs3))
    (mdctTable (s.regNat rs3) true))

/-- The RDFT table of length n for scale s (R255): s/2, s, the cosines, the sines. -/
def rdftTable (n : Nat) (scale : Dyadic) : List Exact :=
  [.dyadic (scale.half 1), .dyadic scale] ++ (List.range (n / 2)).map (fun k => .cosPi (2 * k) n) ++
    (List.range (n / 2)).map (fun k => .sinPi (2 * k) n)

/-- TGRDFT (R255). -/
def execTgrdft (rd rs3 : Reg) (s : State) : Host.Outcome State Fault Refusal :=
  finish s (generatorBody s (s.regNat rd) (s.regNat rs3) (s.regNat rs3 / 2) (s.regNat rs3 + 2)
    (evenLength (s.regNat rs3)) (rdftTable (s.regNat rs3)))

/-- The DCT table of length n for scale s (R260): s/2, s/4, 1/2, C, S, S2, R, and the RDFT table for scale 1. -/
def dctTable (n : Nat) (scale : Dyadic) : List Exact :=
  [.dyadic (scale.half 1), .dyadic (scale.half 2), .dyadic ⟨false, 1, 1⟩] ++
    (List.range n).map (fun i => .cosPi i (2 * n)) ++ (List.range n).map (fun i => .sinPi i (2 * n)) ++
    (List.range (n / 2)).map (fun i => .scaledSin scale (2 * i + 1) (2 * n)) ++
    (List.range (n / 2)).map (fun i => .halfCsc (2 * i + 1) (2 * n)) ++ rdftTable n ⟨false, 1, 0⟩

/-- TGDCT (R260). -/
def execTgdct (rd rs3 : Reg) (s : State) : Host.Outcome State Fault Refusal :=
  finish s (generatorBody s (s.regNat rd) (s.regNat rs3) (s.regNat rs3 / 2) (4 * s.regNat rs3 + 5)
    (evenLength (s.regNat rs3)) (dctTable (s.regNat rs3)))

end Sys2Proof.Machine
end

