-- ==== Sys2Proof/Machine/Wrappers.lean ====
section
/-! DEFINITION. The real transforms as functions on vectors: MDCT (46_mdct.md R270, R272, R273), real DFT packing
(47_rdft.md R285, R287), DCT-II and DCT-III passes (48_dct.md R301, R303) and the mirrors of DCT-I and DST-I (R305,
R306). Every operation is of the current precision, in the order the rules write it (41_numeric.md R144). -/

namespace Sys2Proof.Machine

/-- The complex entries of a table of elements: e[i] = (t[2i], t[2i + 1]) (46_mdct.md R265). -/
def pairs {p : Prec} (n : Nat) (t : List (Elem p)) : List (Cplx p) :=
  (List.range n).map fun i => ⟨atE t (2 * i), atE t (2 * i + 1)⟩

/-- The parts of a complex value exchanged. -/
def Cplx.swap {p : Prec} (z : Cplx p) : Cplx p := ⟨z.im, z.re⟩

/-! ## MDCT -/

/-- Fold and pre-rotation of input i (46_mdct.md R270), H = N/2. -/
def mdctFold {p : Prec} (h : Nat) (x : List (Elem p)) (e : List (Cplx p)) (i : Nat) : Cplx p :=
  let k := 2 * i
  let v := atE x
  let neg := Elem.neg p
  let reim : Cplx p :=
    if k < h then
      ⟨Elem.fold p (neg (v (h + k))) (v (h - 1 - k)), Elem.fold p (neg (v (3 * h + k))) (neg (v (3 * h - 1 - k)))⟩
    else
      ⟨Elem.fold p (neg (v (h + k))) (neg (v (5 * h - 1 - k))), Elem.fold p (v (k - h)) (neg (v (3 * h - 1 - k)))⟩
  (reim.mul (atC e i)).swap

/-- The post-rotation product CMUL(z[i], (e[i].im, e[i].re)) (R270). -/
def mdctPost {p : Prec} (z e : List (Cplx p)) (i : Nat) : Cplx p := (atC z i).mul (atC e i).swap

/-- The coefficients of MDCTF with their indices, in write order (R270). -/
def mdctForward {p : Prec} (n : Nat) (x : List (Elem p)) (e : List (Cplx p)) : List (Nat × Elem p) :=
  let h := n / 2
  let q := n / 4
  let z := fftCanon p h ((List.range h).map (mdctFold h x e))
  (List.range q).flatMap fun i =>
    let i0 := q + i
    let i1 := q - 1 - i
    let c0 := mdctPost z e i0
    let c1 := mdctPost z e i1
    [(2 * i1 + 1, c0.re), (2 * i0, c0.im), (2 * i0 + 1, c1.re), (2 * i1, c1.im)]

/-- The N values of MDCTI (R272). Iteration i of the post-rotation takes the pair of indices Q + i and Q − 1 − i, whose
sum is H − 1: with c_j = CMUL((zi[j], zr[j]), (e[j].im, e[j].re)) it leaves zr[j] = c_j.re and zi[j] = c_(H−1−j).im. -/
def mdctInverse {p : Prec} (n : Nat) (x : List (Elem p)) (e : List (Cplx p)) : List (Elem p) :=
  let h := n / 2
  let pre := (List.range h).map fun j => Cplx.mul (p := p) ⟨atE x (n - 1 - 2 * j), atE x (2 * j)⟩ (atC e j)
  let z := fftDirected p true h pre
  let c := (List.range h).map fun j => (atC z j).swap.mul (atC e j).swap
  (List.range h).flatMap fun j => [(atC c j).re, (atC c (h - 1 - j)).im]

/-- The 2N values of MDCTIF with their indices, in write order, from the N values of MDCTI (R273). -/
def mdctMirror {p : Prec} (n : Nat) (y : List (Elem p)) : List (Nat × Elem p) :=
  (List.range n).map (fun j => (n / 2 + j, atE y j)) ++
    (List.range (n / 2)).flatMap fun i =>
      [(i, Elem.neg p (atE y (n / 2 - 1 - i))), (2 * n - 1 - i, atE y (n / 2 + i))]

/-! ## Real DFT -/

/-- R2C_N (47_rdft.md R285): the M + 1 bins of the real sequence x of length n, with table t. -/
def realToComplex {p : Prec} (n : Nat) (x t : List (Elem p)) : List (Cplx p) :=
  let m := n / 2
  let f := atE t 0
  let g := atE t 1
  let add := Elem.add p
  let sub := Elem.sub p
  let mul := Elem.mul p
  let z := fftCanon p m (pairs m x)
  let ends := fun v : Elem p => (⟨mul g v, Elem.zero p⟩ : Cplx p)
  let mid := (List.range (m - 1)).map fun i =>
    let k := i + 1
    let a := atC z k
    let b := atC z (m - k)
    let er := mul f (add a.re b.re)
    let ei := mul f (sub a.im b.im)
    let odd : Cplx p := ⟨mul f (add a.im b.im), mul f (sub b.re a.re)⟩
    let w := odd.mul ⟨atE t (2 + k), Elem.neg p (atE t (2 + m + k))⟩
    (⟨add er w.re, add ei w.im⟩ : Cplx p)
  ends (add (atC z 0).re (atC z 0).im) :: (mid ++ [ends (sub (atC z 0).re (atC z 0).im)])

/-- C2R_N (47_rdft.md R287): the n real values of the M + 1 bins, with table t. -/
def complexToReal {p : Prec} (n : Nat) (bins : List (Cplx p)) (t : List (Elem p)) : List (Elem p) :=
  let m := n / 2
  let g := atE t 1
  let add := Elem.add p
  let sub := Elem.sub p
  let mul := Elem.mul p
  let bin := fun k => if k = 0 ∨ k = m then (⟨(atC bins k).re, Elem.zero p⟩ : Cplx p) else atC bins k
  let z := (List.range m).map fun k =>
    let a := bin k
    let b := bin (m - k)
    let er := mul g (add a.re b.re)
    let ei := mul g (sub a.im b.im)
    let d : Cplx p := ⟨mul g (sub a.re b.re), mul g (add a.im b.im)⟩
    let w := d.mul ⟨atE t (2 + k), atE t (2 + m + k)⟩
    (⟨sub er w.im, add ei w.re⟩ : Cplx p)
  let r := fftDirected p true m z
  (List.range m).flatMap fun k => [(atC r k).re, (atC r k).im]

/-! ## DCT and DST -/

/-- The table of DCT2 and DCT3 (48_dct.md R300). -/
structure DctTable (p : Prec) where
  h2 : Elem p
  q3 : Elem p
  half : Elem p
  c : List (Elem p)
  s : List (Elem p)
  s2 : List (Elem p)
  r : List (Elem p)
  rt : List (Elem p)

/-- The fields of a table of 4N + 5 elements (48_dct.md R300). -/
def dctFields {p : Prec} (n : Nat) (t : List (Elem p)) : DctTable p where
  h2 := atE t 0
  q3 := atE t 1
  half := atE t 2
  c := t.drop 3
  s := t.drop (3 + n)
  s2 := t.drop (3 + 2 * n)
  r := t.drop (3 + 2 * n + n / 2)
  rt := t.drop (3 + 3 * n)

/-- The pre-rotation of DCT2 for the pair i, N − 1 − i (48_dct.md R301). -/
def dct2Pre {p : Prec} (n : Nat) (x : List (Elem p)) (t : DctTable p) (i : Nat) : Elem p × Elem p :=
  let a := atE x i
  let b := atE x (n - 1 - i)
  let s := Elem.mul p (atE t.s2 i) (Elem.sub p a b)
  let u := Elem.mul p t.h2 (Elem.add p a b)
  (Elem.add p u s, Elem.sub p u s)

/-- One round of the post-rotation of DCT2, for the pair e[2k], e[2k + 1] = (inr, ini): `acc` is the outputs after this
pair and the running value nxt (48_dct.md R301). -/
def dct2Post {p : Prec} (t : DctTable p) (acc : List (Elem p) × Elem p) (kv : Nat × Cplx p) : List (Elem p) × Elem p :=
  let c := atE t.c (2 * kv.1)
  let s := atE t.s (2 * kv.1)
  let e := Elem.add p (Elem.mul p c kv.2.re) (Elem.mul p s kv.2.im)
  let d := Elem.sub p (Elem.mul p s kv.2.re) (Elem.mul p c kv.2.im)
  (e :: acc.2 :: acc.1, Elem.add p acc.2 d)

/-- DCT2 of length n (48_dct.md R301). -/
def dct2 {p : Prec} (n : Nat) (x : List (Elem p)) (t : DctTable p) : List (Elem p) :=
  let m := n / 2
  let pre := (List.range m).map (dct2Pre n x t)
  let d := pre.map (·.1) ++ (pre.map (·.2)).reverse
  let bins := realToComplex n d t.rt
  let e1 := (atC bins m).re
  let e := (List.range m).map fun k =>
    (k, if k = 0 then (⟨(atC bins 0).re, Elem.neg p e1⟩ : Cplx p) else atC bins k)
  (e.reverse.foldl (dct2Post t) ([], Elem.mul p t.half e1)).1

/-- Bin k of the pre-rotation of DCT3, for k in [1, M) (48_dct.md R303). Iteration i = 2k reads d[i − 1], d[i] and
d[i + 1], which no earlier iteration has written. -/
def dct3Pre {p : Prec} (d : List (Elem p)) (t : DctTable p) (k : Nat) : Cplx p :=
  let c := atE t.c (2 * k)
  let s := atE t.s (2 * k)
  let v1 := atE d (2 * k)
  let v2 := Elem.sub p (atE d (2 * k - 1)) (atE d (2 * k + 1))
  ⟨Elem.add p (Elem.mul p c v1) (Elem.mul p s v2), Elem.sub p (Elem.mul p s v1) (Elem.mul p c v2)⟩

/-- The post-rotation of DCT3 for the pair i, N − 1 − i (48_dct.md R303). -/
def dct3Post {p : Prec} (n : Nat) (r : List (Elem p)) (t : DctTable p) (i : Nat) : Elem p × Elem p :=
  let t1 := Elem.mul p t.q3 (atE r i)
  let t2 := Elem.mul p t.q3 (atE r (n - 1 - i))
  let c := Elem.mul p (atE t.r i) (Elem.sub p t1 t2)
  let u := Elem.add p t1 t2
  (Elem.add p u c, Elem.sub p u c)

/-- DCT3 of length n (48_dct.md R303). -/
def dct3 {p : Prec} (n : Nat) (d : List (Elem p)) (t : DctTable p) : List (Elem p) :=
  let m := n / 2
  let last := atE d (n - 1)
  let y := (⟨atE d 0, Elem.zero p⟩ : Cplx p) ::
    ((List.range (m - 1)).map (fun i => dct3Pre d t (i + 1)) ++ [⟨Elem.add p last last, Elem.zero p⟩])
  let r := complexToReal n y t.rt
  let post := (List.range m).map (dct3Post n r t)
  post.map (·.1) ++ (post.map (·.2)).reverse

/-- The symmetric mirror of DCT1: 2(N − 1) elements (48_dct.md R305). -/
def dct1Mirror {p : Prec} (n : Nat) (x : List (Elem p)) : List (Elem p) := x ++ ((x.drop 1).take (n - 2)).reverse

/-- The antisymmetric mirror of DST1: 2(N + 1) elements (48_dct.md R306). -/
def dst1Mirror {p : Prec} (x : List (Elem p)) : List (Elem p) :=
  Elem.zero p :: (x ++ Elem.zero p :: (x.map (Elem.neg p)).reverse)

/-- DCT1 of length n (48_dct.md R305). -/
def dct1 {p : Prec} (n : Nat) (x t : List (Elem p)) : List (Elem p) :=
  let y := realToComplex (2 * (n - 1)) (dct1Mirror n x) t
  (List.range n).map fun k => (atC y k).re

/-- DST1 of length n (48_dct.md R306). -/
def dst1 {p : Prec} (n : Nat) (x t : List (Elem p)) : List (Elem p) :=
  let y := realToComplex (2 * (n + 1)) (dst1Mirror x) t
  (List.range n).map fun k => Elem.neg p (atC y (k + 1)).im

end Sys2Proof.Machine
end

