-- ==== Sys2Proof/Machine/RealTransforms.lean ====
section
/-! DEFINITION. The MDCT, real DFT, DCT and DST instructions (46_mdct.md R265 to R273, 47_rdft.md R284 to R289, 48_dct.md
R300 to R306): not batched, all inputs and the table read first (20_memory.md R85). -/

namespace Sys2Proof.Machine

/-- The common shape of these instructions: argument, length and resource checks, the three operands' alignment and range,
the tables of the inner FFT of length `len` (45_twiddle.md R242), then the writes, in order: element indices of the output
operand and values, from the elements of the input and table operands. -/
def transformBody (s : State) (args : Except Trap Unit) (len : Nat) (table input output : Lin)
    (writes : List (Elem s.prec) → List (Elem s.prec) → List (Nat × Elem s.prec)) : Except Trap State := do
  args
  checkLins s s.prec.es [table, input, output]
  let ws := writes (s.dmem.readEls s.prec input.addrs) (s.dmem.readEls s.prec table.addrs)
  .ok ((s.ensureSlots (slotsFft len)).setDmem
    (s.dmem.writeEls s.prec (ws.map fun w => (output.base + w.1 * output.stride, w.2))))

/-- Values written in ascending order of index. -/
def ascending {α : Type} (vs : List α) : List (Nat × α) := (List.range vs.length).zip vs

/-- n coefficients at `base` with the element stride OSTRIDE (10_state.md R43, 46_mdct.md R265). -/
def State.coefficientLin (s : State) (base n : Nat) : Lin := ⟨base, n, s.ostride.toNat * s.prec.es, s.prec.es⟩

/-! ## MDCT -/

/-- The checks of the MDCT instructions (46_mdct.md R265). -/
def checkMdct (s : State) (n : Nat) : Except Trap Unit := checkLength s n (n / 2) (mdctLength n)

/-- MDCTF (46_mdct.md R270). -/
def execMdctf (rd rs1 rs2 rs3 : Reg) (s : State) : Host.Outcome State Fault Refusal :=
  let n := s.regNat rs3
  finish s (transformBody s (checkMdct s n) (n / 2) (realLin s.prec (s.regNat rs2) n)
    (realLin s.prec (s.regNat rs1) (2 * n)) (s.coefficientLin (s.regNat rd) n) fun x t =>
      mdctForward n x (pairs (n / 2) t))

/-- MDCTI (46_mdct.md R272). -/
def execMdcti (rd rs1 rs2 rs3 : Reg) (s : State) : Host.Outcome State Fault Refusal :=
  let n := s.regNat rs3
  finish s (transformBody s (checkMdct s n) (n / 2) (realLin s.prec (s.regNat rs2) n)
    (s.coefficientLin (s.regNat rs1) n) (realLin s.prec (s.regNat rd) n) fun x t =>
      ascending (mdctInverse n x (pairs (n / 2) t)))

/-- MDCTIF (46_mdct.md R273). -/
def execMdctif (rd rs1 rs2 rs3 : Reg) (s : State) : Host.Outcome State Fault Refusal :=
  let n := s.regNat rs3
  finish s (transformBody s (checkMdct s n) (n / 2) (realLin s.prec (s.regNat rs2) n)
    (s.coefficientLin (s.regNat rs1) n) (realLin s.prec (s.regNat rd) (2 * n)) fun x t =>
      mdctMirror n (mdctInverse n x (pairs (n / 2) t)))

/-! ## Real DFT -/

/-- The checks of the real DFT instructions (47_rdft.md R284). -/
def checkRdft (s : State) (n : Nat) : Except Trap Unit := checkLength s n (n / 2) (evenLength n)

/-- RDFTF (47_rdft.md R286). -/
def execRdftf (rd rs1 rs2 rs3 : Reg) (s : State) : Host.Outcome State Fault Refusal :=
  let n := s.regNat rs3
  finish s (transformBody s (checkRdft s n) (n / 2) (realLin s.prec (s.regNat rs2) (n + 2))
    (realLin s.prec (s.regNat rs1) n) (realLin s.prec (s.regNat rd) (2 * (n / 2 + 1))) fun x t =>
      ascending ((realToComplex n x t).flatMap fun z => [z.re, z.im]))

/-- RDFTI (47_rdft.md R288). -/
def execRdfti (rd rs1 rs2 rs3 : Reg) (s : State) : Host.Outcome State Fault Refusal :=
  let n := s.regNat rs3
  finish s (transformBody s (checkRdft s n) (n / 2) (realLin s.prec (s.regNat rs2) (n + 2))
    (realLin s.prec (s.regNat rs1) (2 * (n / 2 + 1))) (realLin s.prec (s.regNat rd) n) fun x t =>
      ascending (complexToReal n (pairs (n / 2 + 1) x) t))

/-- RDFTRR (47_rdft.md R289). -/
def execRdftrr (rd rs1 rs2 rs3 : Reg) (s : State) : Host.Outcome State Fault Refusal :=
  let n := s.regNat rs3
  finish s (transformBody s (checkRdft s n) (n / 2) (realLin s.prec (s.regNat rs2) (n + 2))
    (realLin s.prec (s.regNat rs1) n) (realLin s.prec (s.regNat rd) (n / 2 + 1)) fun x t =>
      ascending ((realToComplex n x t).map fun z => z.re))

/-- RDFTRI (47_rdft.md R289). -/
def execRdftri (rd rs1 rs2 rs3 : Reg) (s : State) : Host.Outcome State Fault Refusal :=
  let n := s.regNat rs3
  finish s (transformBody s (checkRdft s n) (n / 2) (realLin s.prec (s.regNat rs2) (n + 2))
    (realLin s.prec (s.regNat rs1) n) (realLin s.prec (s.regNat rd) (n / 2 + 1)) fun x t =>
      ascending ((realToComplex n x t).map fun z => z.im))

/-! ## DCT and DST -/

/-- DCT2 (48_dct.md R300, R301). -/
def execDct2 (rd rs1 rs2 rs3 : Reg) (s : State) : Host.Outcome State Fault Refusal :=
  let n := s.regNat rs3
  finish s (transformBody s (checkLength s n (n / 2) (evenLength n)) (n / 2)
    (realLin s.prec (s.regNat rs2) (4 * n + 5)) (realLin s.prec (s.regNat rs1) n) (realLin s.prec (s.regNat rd) n)
    fun x t => ascending (dct2 n x (dctFields n t)))

/-- The checks of DCT3: no Q31, then as DCT2 (48_dct.md R300, R303). -/
def checkDct3 (s : State) (n : Nat) : Except Trap Unit := do
  require (s.prec != .q31) ⟨.unsupportedCombination, 2⟩
  checkLength s n (n / 2) (evenLength n)

/-- DCT3 (48_dct.md R300, R303). -/
def execDct3 (rd rs1 rs2 rs3 : Reg) (s : State) : Host.Outcome State Fault Refusal :=
  let n := s.regNat rs3
  finish s (transformBody s (checkDct3 s n) (n / 2)
    (realLin s.prec (s.regNat rs2) (4 * n + 5)) (realLin s.prec (s.regNat rs1) n) (realLin s.prec (s.regNat rd) n)
    fun x t => ascending (dct3 n x (dctFields n t)))

/-- DCT1 (48_dct.md R305): L + 2 = 2N table elements, an inner FFT of N − 1 points. -/
def execDct1 (rd rs1 rs2 rs3 : Reg) (s : State) : Host.Outcome State Fault Refusal :=
  let n := s.regNat rs3
  finish s (transformBody s (checkLength s n (n - 1) (decide (2 ≤ n) && inS (n - 1))) (n - 1)
    (realLin s.prec (s.regNat rs2) (2 * n)) (realLin s.prec (s.regNat rs1) n) (realLin s.prec (s.regNat rd) n)
    fun x t => ascending (dct1 n x t))

/-- DST1 (48_dct.md R306): L + 2 = 2N + 4 table elements, an inner FFT of N + 1 points. -/
def execDst1 (rd rs1 rs2 rs3 : Reg) (s : State) : Host.Outcome State Fault Refusal :=
  let n := s.regNat rs3
  finish s (transformBody s (checkLength s n (n + 1) (inS (n + 1))) (n + 1)
    (realLin s.prec (s.regNat rs2) (2 * n + 4)) (realLin s.prec (s.regNat rs1) n) (realLin s.prec (s.regNat rd) n)
    fun x t => ascending (dst1 n x t))

end Sys2Proof.Machine
end

