-- ==== Sys2Proof/Machine/Dispatch.lean ====
section
/-! DEFINITION. The dispatch: one arm per instruction, each a call of its own meaning. -/

namespace Sys2Proof.Machine

def exec (i : Instr) (s : State) : Host.Outcome State Fault Refusal :=
  match i with
  | .addi rd rs1 imm18 => Sys2Proof.Machine.execAddi rd rs1 imm18 s
  | .lui rd imm22 => Sys2Proof.Machine.execLui rd imm22 s
  | .add rd rs1 rs2 => Sys2Proof.Machine.execAdd rd rs1 rs2 s
  | .sub rd rs1 rs2 => Sys2Proof.Machine.execSub rd rs1 rs2 s
  | .mul rd rs1 rs2 => Sys2Proof.Machine.execMul rd rs1 rs2 s
  | .slli rd rs1 shamt => Sys2Proof.Machine.execSlli rd rs1 shamt s
  | .srli rd rs1 shamt => Sys2Proof.Machine.execSrli rd rs1 shamt s
  | .lw rd rs1 imm18 => Sys2Proof.Machine.execLw rd rs1 imm18 s
  | .sw rd rs1 imm18 => Sys2Proof.Machine.execSw rd rs1 imm18 s
  | .beq rs1 rs2 off18 => Sys2Proof.Machine.execBeq rs1 rs2 off18 s
  | .bne rs1 rs2 off18 => Sys2Proof.Machine.execBne rs1 rs2 off18 s
  | .bltu rs1 rs2 off18 => Sys2Proof.Machine.execBltu rs1 rs2 off18 s
  | .j off26 => Sys2Proof.Machine.execJ off26 s
  | .csrr rd csr => Sys2Proof.Machine.execCsrr rd csr s
  | .csrw rs1 csr => Sys2Proof.Machine.execCsrw rs1 csr s
  | .halt => Sys2Proof.Machine.execHalt s
  | .cmulv rd rs1 rs2 rs3 => Sys2Proof.Machine.execCmulv rd rs1 rs2 rs3 s
  | .cmulvC rd rs1 rs2 rs3 => Sys2Proof.Machine.execCmulvC rd rs1 rs2 rs3 s
  | .bfv rs1 rs2 rs3 => Sys2Proof.Machine.execBfv rs1 rs2 rs3 s
  | .scalev rd rs1 rs3 => Sys2Proof.Machine.execScalev rd rs1 rs3 s
  | .copyv rd rs1 rs3 => Sys2Proof.Machine.execCopyv rd rs1 rs3 s
  | .fft2 rd => Sys2Proof.Machine.execFft2 rd s
  | .fft4 rd => Sys2Proof.Machine.execFft4 rd s
  | .fft8 rd => Sys2Proof.Machine.execFft8 rd s
  | .srcomb rd lg => Sys2Proof.Machine.execSrcomb rd lg s
  | .fftns rd lg => Sys2Proof.Machine.execFftns rd lg s
  | .fft rd rs1 lg => Sys2Proof.Machine.execFft rd rs1 lg s
  | .fftI rd rs1 lg => Sys2Proof.Machine.execFftI rd rs1 lg s
  | .fftl rd rs1 rs3 => Sys2Proof.Machine.execFftl rd rs1 rs3 s
  | .fftlI rd rs1 rs3 => Sys2Proof.Machine.execFftlI rd rs1 rs3 s
  | .fft3 rd rs1 => Sys2Proof.Machine.execFft3 rd rs1 s
  | .fft3I rd rs1 => Sys2Proof.Machine.execFft3I rd rs1 s
  | .fft5 rd rs1 => Sys2Proof.Machine.execFft5 rd rs1 s
  | .fft5I rd rs1 => Sys2Proof.Machine.execFft5I rd rs1 s
  | .fft7 rd rs1 => Sys2Proof.Machine.execFft7 rd rs1 s
  | .fft7I rd rs1 => Sys2Proof.Machine.execFft7I rd rs1 s
  | .fft9 rd rs1 => Sys2Proof.Machine.execFft9 rd rs1 s
  | .fft9I rd rs1 => Sys2Proof.Machine.execFft9I rd rs1 s
  | .fft15 rd rs1 => Sys2Proof.Machine.execFft15 rd rs1 s
  | .fft15I rd rs1 => Sys2Proof.Machine.execFft15I rd rs1 s
  | .pfa3 rd rs1 rs2 => Sys2Proof.Machine.execPfa3 rd rs1 rs2 s
  | .pfa3I rd rs1 rs2 => Sys2Proof.Machine.execPfa3I rd rs1 rs2 s
  | .pfa5 rd rs1 rs2 => Sys2Proof.Machine.execPfa5 rd rs1 rs2 s
  | .pfa5I rd rs1 rs2 => Sys2Proof.Machine.execPfa5I rd rs1 rs2 s
  | .pfa7 rd rs1 rs2 => Sys2Proof.Machine.execPfa7 rd rs1 rs2 s
  | .pfa7I rd rs1 rs2 => Sys2Proof.Machine.execPfa7I rd rs1 rs2 s
  | .pfa9 rd rs1 rs2 => Sys2Proof.Machine.execPfa9 rd rs1 rs2 s
  | .pfa9I rd rs1 rs2 => Sys2Proof.Machine.execPfa9I rd rs1 rs2 s
  | .pfa15 rd rs1 rs2 => Sys2Proof.Machine.execPfa15 rd rs1 rs2 s
  | .pfa15I rd rs1 rs2 => Sys2Proof.Machine.execPfa15I rd rs1 rs2 s
  | .pmapsr rd lg => Sys2Proof.Machine.execPmapsr rd lg s
  | .pmapsrI rd lg => Sys2Proof.Machine.execPmapsrI rd lg s
  | .pmapbr rd lg => Sys2Proof.Machine.execPmapbr rd lg s
  | .pmapcrt rd rs1 rs2 => Sys2Proof.Machine.execPmapcrt rd rs1 rs2 s
  | .pmaprur rd rs1 rs2 => Sys2Proof.Machine.execPmaprur rd rs1 rs2 s
  | .pmapneg rd rs3 => Sys2Proof.Machine.execPmapneg rd rs3 s
  | .pgather rd rs1 rs2 rs3 => Sys2Proof.Machine.execPgather rd rs1 rs2 rs3 s
  | .pscatter rd rs1 rs2 rs3 => Sys2Proof.Machine.execPscatter rd rs1 rs2 rs3 s
  | .pinv rd rs1 rs3 => Sys2Proof.Machine.execPinv rd rs1 rs3 s
  | .tgenP lg => Sys2Proof.Machine.execTgenP lg s
  | .tgenT53 => Sys2Proof.Machine.execTgenT53 s
  | .tgenT7 => Sys2Proof.Machine.execTgenT7 s
  | .tgenT9 => Sys2Proof.Machine.execTgenT9 s
  | .tcopyP rd lg => Sys2Proof.Machine.execTcopyP rd lg s
  | .tcopyT53 rd => Sys2Proof.Machine.execTcopyT53 rd s
  | .tcopyT7 rd => Sys2Proof.Machine.execTcopyT7 rd s
  | .tcopyT9 rd => Sys2Proof.Machine.execTcopyT9 rd s
  | .tgmdct rd rs3 => Sys2Proof.Machine.execTgmdct rd rs3 s
  | .tgmdctI rd rs3 => Sys2Proof.Machine.execTgmdctI rd rs3 s
  | .tgrdft rd rs3 => Sys2Proof.Machine.execTgrdft rd rs3 s
  | .tgdct rd rs3 => Sys2Proof.Machine.execTgdct rd rs3 s
  | .mdctf rd rs1 rs2 rs3 => Sys2Proof.Machine.execMdctf rd rs1 rs2 rs3 s
  | .mdcti rd rs1 rs2 rs3 => Sys2Proof.Machine.execMdcti rd rs1 rs2 rs3 s
  | .mdctif rd rs1 rs2 rs3 => Sys2Proof.Machine.execMdctif rd rs1 rs2 rs3 s
  | .rdftf rd rs1 rs2 rs3 => Sys2Proof.Machine.execRdftf rd rs1 rs2 rs3 s
  | .rdfti rd rs1 rs2 rs3 => Sys2Proof.Machine.execRdfti rd rs1 rs2 rs3 s
  | .rdftrr rd rs1 rs2 rs3 => Sys2Proof.Machine.execRdftrr rd rs1 rs2 rs3 s
  | .rdftri rd rs1 rs2 rs3 => Sys2Proof.Machine.execRdftri rd rs1 rs2 rs3 s
  | .dct2 rd rs1 rs2 rs3 => Sys2Proof.Machine.execDct2 rd rs1 rs2 rs3 s
  | .dct3 rd rs1 rs2 rs3 => Sys2Proof.Machine.execDct3 rd rs1 rs2 rs3 s
  | .dct1 rd rs1 rs2 rs3 => Sys2Proof.Machine.execDct1 rd rs1 rs2 rs3 s
  | .dst1 rd rs1 rs2 rs3 => Sys2Proof.Machine.execDst1 rd rs1 rs2 rs3 s

end Sys2Proof.Machine
end

