-- ==== Sys2Proof/Machine/HostPort.lean ====
section
/-! DEFINITION. The host's window (60_exceptions.md R372 to R384): where an access goes, when it is refused, and what it
does. -/

namespace Sys2Proof.Machine

/-- What an offset of the host window reaches (R372). -/
inductive HostTarget where
  | csr (n : BitVec 8)
  | ctrl
  | entry
  | irqstat
  | hpc
  | reg (r : Reg)
  | imem (w : Nat)
  | dmem (a : Nat)
deriving DecidableEq, Repr

/-- The window map (R372); `none` for another size or alignment than R373 allows and for an unmapped offset. -/
def hostTarget? (c : Params) (size : Nat) (offset : Word) : Option HostTarget :=
  let o := offset.toNat
  if size ≠ 4 ∨ o % 4 ≠ 0 then none
  else if o < 0x400 then some (.csr (BitVec.ofNat 8 (o / 4)))
  else if o = 0x400 then some .ctrl
  else if o = 0x404 then some .entry
  else if o = 0x408 then some .irqstat
  else if o = 0x40C then some .hpc
  else if 0x800 ≤ o ∧ o < 0x840 then some (.reg (BitVec.ofNat 4 ((offset - 0x800).toNat / 4)))
  else if 0x10000 ≤ o ∧ o < 0x10000 + 4 * c.imemWords then some (.imem ((offset - 0x10000).toNat / 4))
  else if 0x80000000 ≤ o ∧ o < 0x80000000 + c.dmemBytes then some (.dmem (offset - 0x80000000).toNat)
  else none

/-- May the host read this while the sequencer runs (R380)? -/
def HostTarget.readableBusy : HostTarget → Bool
  | .csr n => n == 0x03#8
  | .ctrl => true
  | .irqstat => true
  | .hpc => true
  | .entry => false
  | .reg _ => false
  | .imem _ => false
  | .dmem _ => false

/-- May the host write this while the sequencer runs (R380)? -/
def HostTarget.writableBusy : HostTarget → Bool
  | .ctrl => true
  | .irqstat => true
  | .csr _ => false
  | .entry => false
  | .hpc => false
  | .reg _ => false
  | .imem _ => false
  | .dmem _ => false

/-- STATUS.HOSTERR <- 1, the mark of a refused access (R381). -/
def State.refuse (s : State) : State := { s with hosterr := true }

/-- What a host read of a target returns; `none` when it is refused (R377 to R379, R47). -/
def State.hostRead? (s : State) : HostTarget → Option Word
  | .csr n => s.csr? n
  | .ctrl => some s.ctrlWord
  | .entry => some s.entry
  | .irqstat => some s.irqstatWord
  | .hpc => some s.pc
  | .reg r => some (s.reg r)
  | .imem w => some (Store.read s.imem w)
  | .dmem a => some (s.dmem.readWord a)

/-- CTRL.SRESET (R383, R375). -/
def State.ctrlReset (s : State) (v : Word) : State := if v.getLsbD 3 then s.softReset else s

/-- CTRL.ABORT (R382): the fault action with HOST_ABORT while running, nothing while idle. -/
def State.ctrlAbort (s : State) (v : Word) : State :=
  if v.getLsbD 1 && s.busy then s.raise ⟨.hostAbort, 0⟩ else s

/-- CTRL.START (R375): refused while running. -/
def State.ctrlStart (s : State) (v : Word) : State :=
  if v.getLsbD 0 then (if s.busy then s.refuse else s.start) else s

/-- A host write of CTRL: SRESET, ABORT, IE, START in that order (R375); each acts on what the one before left (DEDUCED,
log 11). -/
def State.writeCtrl (s : State) (v : Word) : State :=
  State.ctrlStart { (s.ctrlReset v).ctrlAbort v with ie := v.getLsbD 2 } v

/-- A host write of IRQSTAT: write 1 to clear (R376). -/
def State.writeIrqstat (s : State) (v : Word) : State :=
  { s with
    irqDone := s.irqDone && !v.getLsbD 0
    irqFault := s.irqFault && !v.getLsbD 1
    hosterr := s.hosterr && !v.getLsbD 2 }

/-- The state after a host write of a target; `none` when it is refused (R377 to R379, R47; HPC is read-only, a write of
it is refused: DEDUCED, log 12). -/
def State.hostWrite? (s : State) (t : HostTarget) (v : Word) : Option State :=
  match t with
  | .csr n => s.writeCsr? n v
  | .ctrl => some (s.writeCtrl v)
  | .entry => some { s with entry := v }
  | .irqstat => some (s.writeIrqstat v)
  | .hpc => none
  | .reg r => some (s.setReg r v)
  | .imem w => some { s with imem := Store.write s.imem w v }
  | .dmem a => some (s.setDmem (s.dmem.writeWord a v))

/-- The value a host read returns, or `none` when it is refused (R373, R380). -/
def State.hostReadAt? (s : State) (size : Nat) (offset : Word) : Option Word :=
  match hostTarget? s.params size offset with
  | none => none
  | some t => if s.busy && !t.readableBusy then none else s.hostRead? t

/-- The state after a host write, or `none` when it is refused (R373, R380). -/
def State.hostWriteAt? (s : State) (size : Nat) (offset v : Word) : Option State :=
  match hostTarget? s.params size offset with
  | none => none
  | some t => if s.busy && !t.writableBusy then none else s.hostWrite? t v

/-- One host access (R373, R381): a refused read returns 0 and a refused write changes nothing, and both set HOSTERR. -/
def State.hostAccess (s : State) : HostAccess → State
  | .read size offset =>
    match s.hostReadAt? size offset with
    | some v => { s with hostReply := some v }
    | none => { s.refuse with hostReply := some 0 }
  | .write size offset v =>
    match s.hostWriteAt? size offset v with
    | some s' => s'
    | none => s.refuse

end Sys2Proof.Machine
end

