-- ==== Sys2Proof/Machine/Sequencer.lean ====
section
/-! DEFINITION. One step of the sequencer (00_scope.md R4, 49_control.md R329) and one turn of the machine. -/

namespace Sys2Proof.Machine

/-- The fetch (20_memory.md R71, 60_exceptions.md R350): IMEM[pc], or FETCH_RANGE(pc). -/
def State.fetch (s : State) : Except Trap Word :=
  if s.pc.toNat < s.params.imemWords then .ok (Store.read s.imem s.pc.toNat) else .error ⟨.fetchRange, s.pc.toNat⟩

/-- One instruction of a running sequencer: fetch, decode, execute; an illegal word raises ILLEGAL_INSTRUCTION(word)
(30_encoding.md R110). -/
def runInstruction (s : State) : Host.Outcome State Fault Refusal :=
  match s.fetch with
  | .error t => .next (s.raise t)
  | .ok w =>
    match decode w with
    | .ok i => exec i s
    | .error _ => .next (s.raise ⟨.illegalInstruction, w.toNat⟩)

/-- The sequencer's turn: an instruction while it runs; an idle unit fetches nothing (70_reset_and_hazards.md R394, log
5). -/
def sequencerTurn (s : State) : Host.Outcome State Fault Refusal :=
  if s.busy then runInstruction s else .next s

/-- One turn (60_exceptions.md R374): the next of the pending turns, or the sequencer's when none is pending (log 4). -/
def takeTurn (s : State) : Host.Outcome State Fault Refusal :=
  match s.turns with
  | [] => sequencerTurn s
  | .sequencer :: rest => sequencerTurn { s with turns := rest }
  | .host a :: rest => .next (State.hostAccess { s with turns := rest } a)

/-- The state in which the next turn is the sequencer's and runs the word `w`: IMEM[pc] is `w` (at word 0 when pc is
outside IMEM), the unit runs with a clear fault record, as a host leaves it by R379 and R375, and no host turn is pending
(log 3). -/
def State.placeWord (s : State) (w : Word) : State :=
  let pc := if s.pc.toNat < s.params.imemWords then s.pc else 0
  { s with
    pc := pc
    imem := Store.write s.imem pc.toNat w
    run := .running
    cause := 0
    fpc := 0
    finfo := 0
    turns := [] }

end Sys2Proof.Machine
end

