-- ==== Sys2Proof/Machine/Step.lean ====
section
/-! DEFINITION. One step of the machine, and how a table word is placed where the next step fetches. -/

namespace Sys2Proof.Machine

/-- One step: one turn of a machine whose parameters 00_scope.md R6 allows (log 6). -/
def step (s : State) : Host.Outcome State Fault Refusal :=
  if s.params.legal then takeTurn s else .fault .illegalParameters

/-- The instruction whose low `nbits` bits are `w`, the rest of its one word 0, placed where the next step fetches
(log 3). -/
def State.withFetchWord (s : State) (nbits w : Nat) : State :=
  s.placeWord (BitVec.ofNat 32 (w % pow2 nbits))

end Sys2Proof.Machine
end

