-- ==== Sys2Proof/Safety.lean ====
section
/-! DEFINITION. The terms in which claims about the unit are stated: how an instruction ends, which operands are in order,
what an instruction leaves unchanged, and the invariants of the state. -/

namespace Sys2Proof.Machine

/-! ## How an instruction ends -/

/-- Instruction `i` raises the fault `c` with `info`: exactly the fault action of 60_exceptions.md R351 follows. -/
def Faults (i : Instr) (s : State) (c : Cause) (info : Nat) : Prop := exec i s = .next (s.raise ⟨c, info⟩)

/-- Byte `a` lies in none of the accesses of `size` bytes at `starts`. -/
def Outside (starts : List Nat) (size a : Nat) : Prop := ∀ x ∈ starts, a < x ∨ x + size ≤ a

/-- `m'` reads as `m` does at every byte outside the accesses of `size` bytes at `starts`. -/
def SameOutside (m m' : Memory) (starts : List Nat) (size : Nat) : Prop :=
  ∀ a, Outside starts size a → Store.read m' a = Store.read m a

/-- Instruction `i` completes: DMEM becomes `m`, which differs from the DMEM before only inside the accesses of `size` bytes
at `starts`; the slots are valid, each generated if it was not (45_twiddle.md R242); pc and INSTRET advance (49_control.md
R329); nothing else changes. -/
def Completes (i : Instr) (s : State) (slots : List Slot) (m : Memory) (starts : List Nat) (size : Nat) : Prop :=
  exec i s = .next { s.ensureSlots slots with dmem := m, pc := s.pc + 1, instret := s.instret + 1 } ∧
  (Memory.wf s.dmem = true → SameOutside s.dmem m starts size)

/-- Instruction `i` completes, and the DMEM it leaves has the property `q` whenever the DMEM before was canonical. -/
def CompletesWith (i : Instr) (s : State) (slots : List Slot) (starts : List Nat) (size : Nat) (q : Memory → Prop) : Prop :=
  ∃ m, Completes i s slots m starts size ∧ (Memory.wf s.dmem = true → q m)

/-- Instruction `i` completes and writes `v` to x[rd]: every other register, and x0 whatever rd is, reads as before
(10_state.md R21); pc and INSTRET advance; nothing else changes. -/
def CompletesReg (i : Instr) (s : State) (rd : Reg) (v : Word) : Prop :=
  ∃ t, exec i s = .next t ∧ t = { s with regs := t.regs, pc := s.pc + 1, instret := s.instret + 1 } ∧
    ∀ q, t.reg q = if q = rd ∧ q ≠ 0 then v else s.reg q

/-! ## Operands in order -/

/-- `o` is the least number with property `P`, or `none` when there is none. -/
def IsLowest (P : Nat → Prop) : Option Nat → Prop
  | none => ∀ x, ¬P x
  | some x => P x ∧ ∀ y, P y → x ≤ y

/-- Every access of the linear operand lies in [0, bytes) (20_memory.md R80, R81). -/
def Lin.Fits (l : Lin) (bytes : Nat) : Prop := ∀ j, j < l.n → l.base + j * l.stride + l.size ≤ bytes

/-- Every point of the view lies in [0, bytes) (20_memory.md R80, R82). -/
def View.Fits (v : View) (bytes : Nat) : Prop := ∀ b, b < v.batches → ∀ j, j < v.points → v.addr b j + v.cs ≤ bytes

/-- The start addresses of all points of a view. -/
def View.addrs (v : View) : List Nat := (List.range v.batches).flatMap v.batch

/-- The operands of a batched instruction of length n are in order: both bases aligned, every point of both views in DMEM
(20_memory.md R79, R80, R82), and BCOUNT not 0. -/
def ViewsReady (s : State) (n src dst : Nat) : Prop :=
  s.bcount ≠ 0 ∧ src % s.prec.es = 0 ∧ dst % s.prec.es = 0 ∧
    (s.view src n).Fits s.params.dmemBytes ∧ (s.view dst n).Fits s.params.dmemBytes

/-- A linear operand is in order: base aligned to `align`, every access in DMEM (20_memory.md R79, R80). -/
def LinReady (s : State) (align : Nat) (l : Lin) : Prop := l.base % align = 0 ∧ l.Fits s.params.dmemBytes

/-- SCALE is finite: its binary64 exponent field is not all ones (10_state.md R36, 41_numeric.md R160). -/
def ScaleFinite (s : State) : Prop := (s.scaleHi.extractLsb' 20 11 : BitVec 11) ≠ BitVec.allOnes 11

/-! ## What the completion statements say of DMEM -/

/-- A complex value as an arithmetic instruction stores it (20_memory.md R78). -/
def Cplx.canon {p : Prec} (z : Cplx p) : Cplx p := ⟨Elem.canon p z.re, Elem.canon p z.im⟩

/-- Batch b of a batched instruction of length n takes DMEM from `m` to `m'` (20_memory.md R82, R84): the kernel is applied
to the points read from `m`, no byte outside the destination's points changes, and point j of the destination holds entry j
of the result unless a later point of the batch has its address. -/
def BatchRuns (s : State) (n src dst : Nat) (kernel : List (Cplx s.prec) → List (Cplx s.prec)) (b : Nat) (m m' : Memory) :
    Prop :=
  let addr := fun base j : Nat => base + (b * s.bstride.toNat + j * s.istride.toNat) * s.prec.cs
  let result := kernel ((List.range n).map fun j => m.readC s.prec (addr src j))
  SameOutside m m' ((List.range n).map (addr dst)) s.prec.cs ∧
    ∀ j, j < n → (∀ k, j < k → k < n → addr dst k ≠ addr dst j) → m'.readC s.prec (addr dst j) = (atC result j).canon

/-- A batched instruction of length n completes: the slots its kernel reads are valid, DMEM is what the batches in order
leave (42_fft_sr.md R170, 20_memory.md R84), and with one batch of distinct points the destination's point j is entry j of
the kernel applied to the source's points. For every batch count, stride and overlap there is a sequence of canonical
memories from the DMEM before to the DMEM left, one for each batch in increasing b, each batch run on what the one before
left. -/
def CompletesBatched (i : Instr) (s : State) (n src dst : Nat) (slots : List Slot)
    (kernel : List (Cplx s.prec) → List (Cplx s.prec)) : Prop :=
  let m := runBatches (s.view src n) (s.view dst n) kernel s.dmem s.bcount.toNat
  Completes i s slots m (s.view dst n).addrs s.prec.cs ∧
    (Memory.wf s.dmem = true → s.bcount = 1 → s.istride ≠ 0 → ∀ j, j < n →
      m.readC s.prec ((s.view dst n).addr 0 j) =
        (atC (kernel (s.dmem.readCs s.prec ((s.view src n).batch 0))) j).canon) ∧
    (Memory.wf s.dmem = true → ∃ ms : Nat → Memory, ms 0 = s.dmem ∧ ms s.bcount.toNat = m ∧
      (∀ b, b ≤ s.bcount.toNat → Memory.wf (ms b) = true) ∧
      ∀ b, b < s.bcount.toNat → BatchRuns s n src dst kernel b (ms b) (ms (b + 1)))

/-! ## Which fault an instruction raises for its operands -/

/-- MISALIGNED with the lowest misaligned base of the linear operands, then DMEM_RANGE with the lowest start of an access
that leaves DMEM (20_memory.md R79, R80, R81). -/
def OperandFaults (i : Instr) (s : State) (align : Nat) (ls : List Lin) : Prop :=
  (∀ a, IsLowest (fun x => x % align ≠ 0 ∧ ∃ l ∈ ls, x = l.base) (some a) → Faults i s .misaligned a) ∧
  ((∀ l ∈ ls, l.base % align = 0) → ∀ a,
    IsLowest (fun x => ∃ l ∈ ls, ∃ j < l.n, x = l.base + j * l.stride ∧ s.params.dmemBytes < x + l.size) (some a) →
      Faults i s .dmemRange a)

/-- The same for the two views of a batched instruction of length n (20_memory.md R79, R80, R82). -/
def ViewFaults (i : Instr) (s : State) (n src dst : Nat) : Prop :=
  (∀ a, IsLowest (fun x => x % s.prec.es ≠ 0 ∧ (x = src ∨ x = dst)) (some a) → Faults i s .misaligned a) ∧
  (src % s.prec.es = 0 → dst % s.prec.es = 0 → ∀ a,
    IsLowest (fun x => ∃ base, (base = src ∨ base = dst) ∧ ∃ b < s.bcount.toNat, ∃ j < n,
        x = base + (b * s.bstride.toNat + j * s.istride.toNat) * s.prec.cs ∧ s.params.dmemBytes < x + s.prec.cs) (some a) →
      Faults i s .dmemRange a)

/-- The length checks in order: 0 is INVALID_ARGUMENT(0), a length outside the instruction's set UNSUPPORTED_LENGTH(n), an
inner length above MAXN RESOURCE(n) (60_exceptions.md R350, R353). -/
def LengthFaults (i : Instr) (s : State) (n len : Nat) (supported : Prop) : Prop :=
  (n = 0 → Faults i s .invalidArgument 0) ∧
  (n ≠ 0 → ¬supported → Faults i s .unsupportedLength n) ∧
  (n ≠ 0 → supported → s.params.maxN < len → Faults i s .resource n)

/-! ## Correct rounding (41_numeric.md R141, R142) -/

/-- The finite value of an encoding in units, with its sign. -/
def FVal.toInt? : FVal → Option Int
  | .fin neg m => some (if neg then -(m : Int) else m)
  | _ => none

/-- `r` is the encoding of num / 2^k units rounded with roundTiesToEven: an infinity of its sign exactly when the value is
at or beyond the midpoint of the largest finite value and the next step, otherwise a finite value of its sign such that no
finite value is nearer, and even when another is as near. -/
def Fmt.RoundsTo (f : Fmt) (num : Int) (k r : Nat) : Prop :=
  let bound := pow2 k * (f.magUnits (f.infMag - 1) + f.magUnits f.infMag)
  let dist := fun m : Nat => ((pow2 k * m : Nat) - (num.natAbs : Int)).natAbs
  match f.decode r with
  | .nan => False
  | .inf neg => neg = decide (num < 0) ∧ bound ≤ 2 * num.natAbs
  | .fin neg m =>
    2 * num.natAbs < bound ∧ (num ≠ 0 → neg = decide (num < 0)) ∧
      ∀ x, x < f.infMag → dist m ≤ dist (f.magUnits x) ∧ (f.magUnits x ≠ m → dist (f.magUnits x) = dist m → r % 2 = 0)

/-! ## The encoding, row by row (30_encoding.md R106) -/

/-- The zero fields of the row of an opcode as a mask, `none` for an unassigned opcode. -/
def zeroFields (op : BitVec 6) : Option Word :=
  match op.toNat with
  | 0x01 => some 0
  | 0x02 => some 0
  | 0x03 => some 0x3FFF
  | 0x04 => some 0x3FFF
  | 0x05 => some 0x3FFF
  | 0x06 => some 0x3FFE0
  | 0x07 => some 0x3FFE0
  | 0x08 => some 0
  | 0x09 => some 0
  | 0x0A => some 0
  | 0x0B => some 0
  | 0x0C => some 0
  | 0x0D => some 0
  | 0x0E => some 0x3C03FF
  | 0x0F => some 0x3C003FF
  | 0x10 => some 0x3FFFFFF
  | 0x14 => some 0x3FE
  | 0x15 => some 0x3C003FF
  | 0x16 => some 0x3C3FF
  | 0x17 => some 0x3C3FF
  | 0x18 => some 0x3FFFFF
  | 0x19 => some 0x3FFFFF
  | 0x1A => some 0x3FFFFF
  | 0x1B => some 0x3FFC1F
  | 0x1C => some 0x3FFC1F
  | 0x1D => some 0x3FC1E
  | 0x1E => some 0x3C3FE
  | 0x20 => some 0x3FFE0
  | 0x21 => some 0x3FE0
  | 0x24 => some 0x3FFC1E
  | 0x25 => some 0x3FFC1F
  | 0x26 => some 0x3FFE
  | 0x27 => some 0x3FC3FF
  | 0x28 => some 0x3FF
  | 0x29 => some 0x3FF
  | 0x2A => some 0x3C3FF
  | 0x2C => some 0x3FFFC01
  | 0x2D => some 0x3FFC01
  | 0x2E => some 0x3FC3FE
  | 0x2F => some 0x3FC3FF
  | 0x30 => some 0x3FC3FF
  | 0x32 => some 0x3FF
  | 0x33 => some 0x3FF
  | 0x34 => some 0x3FF
  | 0x36 => some 0x3FF
  | 0x37 => some 0x3FF
  | 0x38 => some 0x3FE
  | 0x3A => some 0x3FF
  | 0x3B => some 0x3FF
  | 0x3C => some 0x3FF
  | 0x3D => some 0x3FF
  | _ => none

/-- The selector conditions of an opcode: sel > 4 for the odd codelets and PFA; sel > 3, or sel = 0 with lg < 3, or sel ≠ 0
with lg ≠ 0 for TGEN and TCOPY (30_encoding.md R110). -/
def badSelector (w : Word) : Prop :=
  let op := (opOf w).toNat
  let sel := (w.extractLsb' 1 4 : BitVec 4).toNat
  let lg := (lgOf w).toNat
  ((op = 0x20 ∨ op = 0x21) ∧ 4 < sel) ∨
  ((op = 0x2C ∨ op = 0x2D) ∧ (3 < sel ∨ (sel = 0 ∧ lg < 3) ∨ (sel ≠ 0 ∧ lg ≠ 0)))

/-! ## Whole-machine terms -/

/-- The destination register of the nine instructions that write one (10_state.md R22). -/
def destination? : Instr → Option Reg
  | .addi rd _ _ => some rd
  | .lui rd _ => some rd
  | .add rd _ _ => some rd
  | .sub rd _ _ => some rd
  | .mul rd _ _ => some rd
  | .slli rd _ _ => some rd
  | .srli rd _ _ => some rd
  | .lw rd _ _ => some rd
  | .csrr rd _ => some rd
  | _ => none

/-- How many valid bits of precision `p` are set in `t` and not in `s`. -/
def newTables (s t : State) (p : Prec) : Nat :=
  ((List.range 32).filter fun b => (t.tvalid p).getLsbD b && !(s.tvalid p).getLsbD b).length

/-- The next turn is a 32-bit host write of `v` at `offset`. -/
def HostWriteNext (s : State) (offset v : Word) : Prop := ∃ rest, s.turns = .host (.write 4 offset v) :: rest

/-! ## Invariants -/

/-- Both memories are canonical and list only addresses that exist (20_memory.md R71, R72). -/
def State.MemoryOk (s : State) : Prop :=
  Store.wf s.imem = true ∧ Memory.wf s.dmem = true ∧ (∀ p ∈ s.imem, p.1 < s.params.imemWords) ∧
    ∀ p ∈ s.dmem, p.1 < s.params.dmemBytes

/-- MODE.PREC names an implemented precision (10_state.md R33). -/
def State.ModeOk (s : State) : Prop := s.params.has s.prec = true

/-- SCALEF is SCALE rounded to binary32 (10_state.md R37). -/
def State.ScaleOk (s : State) : Prop := s.scalef = scalefOf s.scaleBits

/-- The fault record agrees with the run state: a cause of 1 to 10 and FPC = pc = HPC after a fault (10_state.md R35, R38,
60_exceptions.md R352), zeros otherwise (R35, R38, R39). -/
def State.RecordOk (s : State) : Prop :=
  if s.run = .faulted then 1 ≤ s.cause.toNat ∧ s.cause.toNat ≤ 10 ∧ s.fpc = s.pc
  else s.cause = 0 ∧ s.fpc = 0 ∧ s.finfo = 0

/-- Is `bit` a valid bit of a slot that the unit's lengths can need (10_state.md R44, 45_twiddle.md R240)? -/
def Params.slotBit (c : Params) (bit : Nat) : Prop := (3 ≤ bit ∧ bit ≤ c.maxLog2) ∨ bit = 24 ∨ bit = 25 ∨ bit = 26

/-- The TVALID registers: only slots' bits are set, and none for a precision not in PRECS (10_state.md R44). -/
def State.TablesOk (s : State) : Prop :=
  ∀ p bit, (s.tvalid p).getLsbD bit = true → s.params.slotBit bit ∧ s.params.has p = true

/-- All of them, for legal parameters. -/
def State.Inv (s : State) : Prop :=
  s.params.legal = true ∧ s.MemoryOk ∧ s.ModeOk ∧ s.ScaleOk ∧ s.RecordOk ∧ s.TablesOk

end Sys2Proof.Machine
end

