-- ==== Sys2Proof/Certificates/Slice0/Obligations.lean ====
section
/-! DEFINITION. The statements for the provers. Each is about the model of the whole unit; R<n> is a numbered rule of spec/.
Numbers of `decode` and of addresses are as the rules write them. -/

open Sys2Proof Sys2Proof.Machine

/-! ## Encoding -/

/-- R102 to R106: decoding the word of a well-formed instruction gives the instruction back, every operand at every value of
its field. -/
def Obligations.DecodeOfEncodeIsTheInstruction : Prop :=
  ∀ i : Instr, i.wellFormed = true → decode (encode i) = .ok i

/-- R109: a word is the word of exactly one well-formed instruction, which it decodes to, or it is illegal and the word of
none. -/
def Obligations.EveryWordIsOneInstructionOrIllegal : Prop :=
  ∀ w : Word,
    (∃ i, decode w = .ok i ∧ i.wellFormed = true ∧ encode i = w ∧ ∀ j, j.wellFormed = true → encode j = w → j = i) ∨
    ((∃ e, decode w = .error e) ∧ ∀ j, j.wellFormed = true → encode j ≠ w)

/-- R110: the illegal words are those with an unassigned opcode, a nonzero zero field or a bad selector; executing one
raises ILLEGAL_INSTRUCTION with the word. The all-zero word is one. -/
def Obligations.IllegalWordsAreTheseAndFault : Prop :=
  (∀ w : Word, (∃ e, decode w = .error e) ↔
    zeroFields (opOf w) = none ∨ (∃ m, zeroFields (opOf w) = some m ∧ w &&& m ≠ 0) ∨ badSelector w) ∧
  (∃ e, decode 0#32 = .error e) ∧
  ∀ (s : State) (w : Word) (e : Illegal), s.fetch = .ok w → decode w = .error e →
    runInstruction s = .next (s.raise ⟨.illegalInstruction, w.toNat⟩)

/-- The words of R134, which it derives from R102 and R106, decode to the instructions it gives them for. -/
def Obligations.DecodesTheManualsWords : Prop :=
  decode 0x04000000#32 = .ok (.addi 0 0 0) ∧
  decode 0x40000000#32 = .ok .halt ∧
  decode 0x04400100#32 = .ok (.addi 1 0 256) ∧
  decode 0x08800001#32 = .ok (.lui 2 1) ∧
  decode 0x74840060#32 = .ok (.fft 2 1 3) ∧
  decode 0x74880081#32 = .ok (.fftI 2 2 4) ∧
  decode 0x80CC0002#32 = .ok (.fft5 3 3) ∧
  decode 0x850C8008#32 = .ok (.pfa15 4 3 2) ∧
  decode 0x2C4BFFFD#32 = .ok (.bne 1 2 (-3)) ∧
  decode 0x3C040800#32 = .ok (.csrw 1 0x02) ∧
  decode 0x39405000#32 = .ok (.csrr 5 0x14) ∧
  decode 0xB0000080#32 = .ok (.tgenP 4) ∧
  decode 0xC9048C00#32 = .ok (.mdctf 4 1 2 3)

/-! ## Steps -/

/-- A step of a running unit whose turn is the sequencer's executes the instruction that the word at pc decodes to, whether
no turn is pending or a sequencer turn is taken off the list. (The list of turns, and that the sequencer moves when it is
empty, are the model's choice, log 4.) -/
def Obligations.StepRunsTheDecodedInstruction : Prop :=
  ∀ (s : State) (i : Instr), s.params.legal = true → s.run = .running → s.pc.toNat < s.params.imemWords →
    decode (Store.read s.imem s.pc.toNat) = .ok i →
    (s.turns = [] → step s = exec i s) ∧
    ∀ rest, s.turns = .sequencer :: rest → step s = exec i { s with turns := rest }

/-- The other turns, whether no turn is pending or a sequencer turn is taken off the list: a fetch outside IMEM raises
FETCH_RANGE(pc); an illegal word raises ILLEGAL_INSTRUCTION(word) (R110); an idle unit fetches nothing (the stutter is the
model's, log 5). A host turn performs the access between two instructions. (That the head of the list of turns says who
moves, and is taken off, is the model's choice, log 4.) -/
def Obligations.StepOfOtherTurns : Prop :=
  ∀ s : State, s.params.legal = true →
    (∀ t : State, (s.turns = [] ∧ t = s) ∨ (∃ rest, s.turns = .sequencer :: rest ∧ t = { s with turns := rest }) →
      (s.run = .running → s.params.imemWords ≤ s.pc.toNat → step s = .next (t.raise ⟨.fetchRange, s.pc.toNat⟩)) ∧
      (s.run = .running → s.pc.toNat < s.params.imemWords → ∀ e, decode (Store.read s.imem s.pc.toNat) = .error e →
        step s = .next (t.raise ⟨.illegalInstruction, (Store.read s.imem s.pc.toNat).toNat⟩)) ∧
      (s.run ≠ .running → step s = .next t)) ∧
    ∀ a rest, s.turns = .host a :: rest → step s = .next (State.hostAccess { s with turns := rest } a)

/-- R110, R350 and R374: nothing stops the machine. Every state of a legal machine, whatever the word, the operands and the
host's access, has a next state. (That a fault of the unit is a next state is log 7, and the stutter of an idle unit log 5;
who moves is log 4.) -/
def Obligations.EveryStepHasANextState : Prop :=
  ∀ s : State, s.params.legal = true → ∃ t, step s = .next t

/-- R351 and the codes of R350: the fault action ends the run, records code, pc and info, raises IRQSTAT.FAULT, and changes
nothing else. -/
def Obligations.FaultActionRecordsAndNothingElse : Prop :=
  (∀ (s : State) (c : Cause) (info : Nat), s.raise ⟨c, info⟩ =
    { s with run := .faulted, cause := c.code, fpc := s.pc, finfo := BitVec.ofNat 32 info, irqFault := true }) ∧
  [Cause.illegalInstruction, .fetchRange, .dmemRange, .misaligned, .illegalCsr, .unsupportedLength, .invalidArgument,
    .unsupportedCombination, .resource, .hostAbort].map (fun c => c.code.toNat) = [1, 2, 3, 4, 5, 6, 7, 8, 9, 10] ∧
  ∀ s : State, (s.raise ⟨.hostAbort, 0⟩).statusWord = bitWord 2 true ||| bitWord 3 s.hosterr

/-! ## Scalar instructions -/

/-- R320 to R326: encoding, result modulo 2^32, nothing written to x0, no other register or state changed, pc + 1, and the
instruction counts. -/
def Obligations.IntegerInstructionsWriteTheirResult : Prop :=
  ∀ (s : State) (rd rs1 rs2 : Reg) (imm18 : BitVec 18) (imm22 : BitVec 22) (sh : BitVec 5),
    (decode (encI 0x01#6 rd rs1 imm18) = .ok (.addi rd rs1 imm18) ∧
      CompletesReg (.addi rd rs1 imm18) s rd (BitVec.ofInt 32 (s.regNat rs1 + imm18.toInt))) ∧
    (decode (encU 0x02#6 rd imm22) = .ok (.lui rd imm22) ∧
      CompletesReg (.lui rd imm22) s rd (BitVec.ofNat 32 (imm22.toNat * 2 ^ 10))) ∧
    (decode (encR 0x03#6 rd rs1 rs2 0 0) = .ok (.add rd rs1 rs2) ∧
      CompletesReg (.add rd rs1 rs2) s rd (BitVec.ofNat 32 (s.regNat rs1 + s.regNat rs2))) ∧
    (decode (encR 0x04#6 rd rs1 rs2 0 0) = .ok (.sub rd rs1 rs2) ∧
      CompletesReg (.sub rd rs1 rs2) s rd (BitVec.ofInt 32 ((s.regNat rs1 : Int) - s.regNat rs2))) ∧
    (decode (encR 0x05#6 rd rs1 rs2 0 0) = .ok (.mul rd rs1 rs2) ∧
      CompletesReg (.mul rd rs1 rs2) s rd (BitVec.ofNat 32 (s.regNat rs1 * s.regNat rs2))) ∧
    (decode (encSh 0x06#6 rd rs1 sh) = .ok (.slli rd rs1 sh) ∧
      CompletesReg (.slli rd rs1 sh) s rd (BitVec.ofNat 32 (s.regNat rs1 * 2 ^ sh.toNat))) ∧
    (decode (encSh 0x07#6 rd rs1 sh) = .ok (.srli rd rs1 sh) ∧
      CompletesReg (.srli rd rs1 sh) s rd (BitVec.ofNat 32 (s.regNat rs1 / 2 ^ sh.toNat)))

/-- R327, R328: encoding, effective address modulo 2^32, MISALIGNED before DMEM_RANGE. LW reads the little-endian word; SW
writes the four bytes of the register in its rd field, least significant first, and no other byte. -/
def Obligations.LoadAndStoreWord : Prop :=
  ∀ (s : State) (rd rs1 : Reg) (imm18 : BitVec 18),
    let ea := (((s.regNat rs1 : Int) + imm18.toInt) % 4294967296).toNat
    decode (encI 0x08#6 rd rs1 imm18) = .ok (.lw rd rs1 imm18) ∧
    decode (encI 0x09#6 rd rs1 imm18) = .ok (.sw rd rs1 imm18) ∧
    if ea % 4 ≠ 0 then Faults (.lw rd rs1 imm18) s .misaligned ea ∧ Faults (.sw rd rs1 imm18) s .misaligned ea
    else if s.params.dmemBytes < ea + 4 then
      Faults (.lw rd rs1 imm18) s .dmemRange ea ∧ Faults (.sw rd rs1 imm18) s .dmemRange ea
    else
      CompletesReg (.lw rd rs1 imm18) s rd (BitVec.ofNat 32
        ((Store.read s.dmem ea).toNat + 256 * (Store.read s.dmem (ea + 1)).toNat +
          65536 * (Store.read s.dmem (ea + 2)).toNat + 16777216 * (Store.read s.dmem (ea + 3)).toNat)) ∧
      CompletesWith (.sw rd rs1 imm18) s [] [ea] 4 fun m =>
        ∀ k, k < 4 → Store.read m (ea + k) = (s.reg rd).extractLsb' (8 * k) 8

/-- R330 to R333, R336: encoding, the condition, the target pc + sext(offset) modulo 2^32 or pc + 1; HALT ends the run at its
own pc. Nothing else changes but the count, and IRQSTAT.DONE by HALT. -/
def Obligations.BranchesJumpAndHaltSetThePc : Prop :=
  ∀ (s : State) (rs1 rs2 : Reg) (off18 : BitVec 18) (off26 : BitVec 26),
    let target := BitVec.ofInt 32 (s.pc.toNat + off18.toInt)
    let goes := fun pc : Word => { s with pc := pc, instret := s.instret + 1 }
    (decode (encI 0x0A#6 rs1 rs2 off18) = .ok (.beq rs1 rs2 off18) ∧
      exec (.beq rs1 rs2 off18) s = .next (goes (if s.reg rs1 = s.reg rs2 then target else s.pc + 1))) ∧
    (decode (encI 0x0B#6 rs1 rs2 off18) = .ok (.bne rs1 rs2 off18) ∧
      exec (.bne rs1 rs2 off18) s = .next (goes (if s.reg rs1 ≠ s.reg rs2 then target else s.pc + 1))) ∧
    (decode (encI 0x0C#6 rs1 rs2 off18) = .ok (.bltu rs1 rs2 off18) ∧
      exec (.bltu rs1 rs2 off18) s = .next (goes (if s.regNat rs1 < s.regNat rs2 then target else s.pc + 1))) ∧
    (decode (encJ 0x0D#6 off26) = .ok (.j off26) ∧
      exec (.j off26) s = .next (goes (BitVec.ofInt 32 (s.pc.toNat + off26.toInt)))) ∧
    decode 0x40000000#32 = .ok .halt ∧
    exec .halt s = .next { s with run := .done, irqDone := true, instret := s.instret + 1 }

/-- R334 with the CSR map of R27 and R30 to R46: what CSRR returns for each assigned number; ILLEGAL_CSR with the number for
every other; STATUS reads as running. -/
def Obligations.CsrReadsReturnTheRegister : Prop :=
  ∀ (s : State) (rd : Reg), s.params.legal = true →
    let cfg := s.params.maxLog2 + 2 ^ 8 * s.params.imemLog2 + 2 ^ 16 * s.params.dmemLog2 + 2 ^ 24 +
      (if s.params.hasF64 then 2 ^ 25 else 0) + (if s.params.hasQ31 then 2 ^ 26 else 0)
    let mode := match s.prec with | .fp32 => 0 | .fp64 => 1 | .q31 => 2
    let map : List (BitVec 8 × Word) :=
      [(0x00, 0x54580001), (0x01, BitVec.ofNat 32 cfg), (0x02, mode), (0x03, if s.hosterr then 9 else 1),
       (0x04, BitVec.ofNat 32 s.cause.toNat), (0x05, s.fpc), (0x06, s.finfo), (0x08, s.scaleLo), (0x09, s.scaleHi),
       (0x0A, s.scalef), (0x0B, s.bcount), (0x0C, s.istride), (0x0D, s.bstride), (0x0E, s.ostride), (0x10, s.tvalidF32),
       (0x11, s.tvalidF64), (0x12, s.tvalidQ31), (0x13, s.tgencnt), (0x14, s.instret)]
    (∀ n : BitVec 8, decode (encC 0x0E#6 rd 0 n) = .ok (.csrr rd n)) ∧
    (∀ e ∈ map, CompletesReg (.csrr rd e.1) s rd e.2) ∧
    ∀ n : BitVec 8, (∀ e ∈ map, e.1 ≠ n) → Faults (.csrr rd n) s .illegalCsr n.toNat

/-- R335 with R33, R36, R37 and R40 to R43: what CSRW does to each writable CSR; ILLEGAL_CSR with the number for an
unimplemented MODE value and for every other number. -/
def Obligations.CsrWritesTakeEffectOrFault : Prop :=
  ∀ (s : State) (rs1 : Reg),
    let v := s.reg rs1
    let retired := fun t : State => Host.Outcome.next (φ := Fault) (ρ := Refusal)
      { t with pc := s.pc + 1, instret := s.instret + 1 }
    (∀ n : BitVec 8, decode (encC 0x0F#6 0 rs1 n) = .ok (.csrw rs1 n)) ∧
    (v.toNat % 4 = 0 → exec (.csrw rs1 0x02) s = retired { s with prec := .fp32 }) ∧
    (v.toNat % 4 = 1 → s.params.hasF64 = true → exec (.csrw rs1 0x02) s = retired { s with prec := .fp64 }) ∧
    (v.toNat % 4 = 2 → s.params.hasQ31 = true → exec (.csrw rs1 0x02) s = retired { s with prec := .q31 }) ∧
    ((v.toNat % 4 = 1 ∧ s.params.hasF64 = false) ∨ (v.toNat % 4 = 2 ∧ s.params.hasQ31 = false) ∨ v.toNat % 4 = 3 →
      Faults (.csrw rs1 0x02) s .illegalCsr 2) ∧
    exec (.csrw rs1 0x08) s =
      retired { s with scaleLo := v, scalef := scalefOf (s.scaleHi.toNat * 2 ^ 32 + v.toNat) } ∧
    exec (.csrw rs1 0x09) s =
      retired { s with scaleHi := v, scalef := scalefOf (v.toNat * 2 ^ 32 + s.scaleLo.toNat) } ∧
    exec (.csrw rs1 0x0B) s = retired { s with bcount := v } ∧
    exec (.csrw rs1 0x0C) s = retired { s with istride := v } ∧
    exec (.csrw rs1 0x0D) s = retired { s with bstride := v } ∧
    exec (.csrw rs1 0x0E) s = retired { s with ostride := v } ∧
    ∀ n : BitVec 8, n ∉ [0x02#8, 0x08#8, 0x09#8, 0x0B#8, 0x0C#8, 0x0D#8, 0x0E#8] →
      Faults (.csrw rs1 n) s .illegalCsr n.toNat

/-- R37: SCALEF of a NaN is 0x7FC0_0000, of a SCALE at or beyond the rounding bound of binary32 an infinity of its sign, of
a zero the zero of its sign, and of a finite SCALE the binary32 value its binary64 value rounds to, ties to even. (The
encodings of IEEE 754, by which values are read from bits, are taken from the standard, log 10.) -/
def Obligations.ScalefIsScaleRounded : Prop :=
  ∀ bits : Nat, bits < 2 ^ 64 →
    (fmt64.decode bits = .nan → scalefOf bits = 0x7FC00000#32) ∧
    (∀ neg, fmt64.decode bits = .inf neg → scalefOf bits = if neg then 0xFF800000#32 else 0x7F800000#32) ∧
    (∀ neg, fmt64.decode bits = .fin neg 0 → scalefOf bits = if neg then 0x80000000#32 else 0) ∧
    ∀ v : Int, (fmt64.decode bits).toInt? = some v → fmt32.RoundsTo (v * 2 ^ 149) 1074 (scalefOf bits).toNat

/-! ## Every instruction -/

/-- R83, R351: an instruction that faults changes no DMEM byte, no register, no table-store bit and no counter: only the
fault record, with a cause an instruction can raise. -/
def Obligations.FaultingInstructionChangesOnlyTheRecord : Prop :=
  ∀ (i : Instr) (s t : State), s.run = .running → exec i s = .next t → t.run = .faulted →
    t = { s with run := .faulted, cause := t.cause, fpc := s.pc, finfo := t.finfo, irqFault := true } ∧
      3 ≤ t.cause.toNat ∧ t.cause.toNat ≤ 9

/-- R329, R46, R23: an instruction that does not fault counts in INSTRET, moves pc to pc + 1 unless it is a branch, J or
HALT, ends the run only if it is HALT, and leaves the fault record and IRQSTAT.FAULT. -/
def Obligations.CompletingInstructionRetires : Prop :=
  ∀ (i : Instr) (s t : State), s.run = .running → exec i s = .next t → t.run ≠ .faulted →
    t.instret = s.instret + 1 ∧ t.cause = s.cause ∧ t.fpc = s.fpc ∧ t.finfo = s.finfo ∧ t.irqFault = s.irqFault ∧
    match i with
    | .beq _ _ _ => t.run = .running
    | .bne _ _ _ => t.run = .running
    | .bltu _ _ _ => t.run = .running
    | .j _ => t.run = .running
    | .halt => t.run = .done ∧ t.pc = s.pc ∧ t.irqDone = true
    | _ => t.run = .running ∧ t.pc = s.pc + 1 ∧ t.irqDone = s.irqDone

/-- R22, R21: only ADDI, LUI, ADD, SUB, MUL, SLLI, SRLI, LW and CSRR write a register, and only their own; x0 reads 0. -/
def Obligations.OnlyNineInstructionsWriteRegisters : Prop :=
  ∀ (i : Instr) (s t : State), exec i s = .next t →
    (destination? i = none → t.regs = s.regs) ∧ (∀ rd q, destination? i = some rd → q ≠ rd → t.reg q = s.reg q) ∧
      t.reg 0 = 0

/-- R71, R29, R73: no instruction changes the parameters, IMEM, the host's registers, HOSTERR or a pending turn; only CSRW
changes MODE, SCALE, SCALEF or a view CSR; integer, load, branch, CSR, HALT and TGEN instructions change no DMEM byte. -/
def Obligations.InstructionsLeaveTheRestUnchanged : Prop :=
  ∀ (i : Instr) (s t : State), exec i s = .next t →
    (t.params = s.params ∧ t.imem = s.imem ∧ t.hosterr = s.hosterr ∧ t.ie = s.ie ∧ t.entry = s.entry ∧
      t.turns = s.turns ∧ t.hostReply = s.hostReply) ∧
    ((∀ rs1 n, i ≠ .csrw rs1 n) → t.prec = s.prec ∧ t.scaleLo = s.scaleLo ∧ t.scaleHi = s.scaleHi ∧
      t.scalef = s.scalef ∧ t.bcount = s.bcount ∧ t.istride = s.istride ∧ t.bstride = s.bstride ∧
      t.ostride = s.ostride) ∧
    (match i with
      | .addi _ _ _ => t.dmem = s.dmem
      | .lui _ _ => t.dmem = s.dmem
      | .add _ _ _ => t.dmem = s.dmem
      | .sub _ _ _ => t.dmem = s.dmem
      | .mul _ _ _ => t.dmem = s.dmem
      | .slli _ _ _ => t.dmem = s.dmem
      | .srli _ _ _ => t.dmem = s.dmem
      | .lw _ _ _ => t.dmem = s.dmem
      | .beq _ _ _ => t.dmem = s.dmem
      | .bne _ _ _ => t.dmem = s.dmem
      | .bltu _ _ _ => t.dmem = s.dmem
      | .j _ => t.dmem = s.dmem
      | .csrr _ _ => t.dmem = s.dmem
      | .csrw _ _ => t.dmem = s.dmem
      | .halt => t.dmem = s.dmem
      | .tgenP _ => t.dmem = s.dmem
      | .tgenT53 => t.dmem = s.dmem
      | .tgenT7 => t.dmem = s.dmem
      | .tgenT9 => t.dmem = s.dmem
      | _ => True)

/-- R241, R242, R45: an instruction only sets valid bits, only those of the current precision, and TGENCNT rises by exactly
the number of bits it sets. -/
def Obligations.TablesOnlyGrowAndAreCounted : Prop :=
  ∀ (i : Instr) (s t : State), exec i s = .next t →
    (∀ p b, (s.tvalid p).getLsbD b = true → (t.tvalid p).getLsbD b = true) ∧
    (∀ p, p ≠ s.prec → t.tvalid p = s.tvalid p) ∧
    t.tgencnt = s.tgencnt + BitVec.ofNat 32 (newTables s t s.prec)

/-! ## Vector instructions -/

/-- R158: CMULV and CMULV.c complete whenever c is not 0 and the operands are in order; sample j of the destination is the
product of the samples read before any write, stored as R78 says; no byte outside the destination changes. -/
def Obligations.CmulvMultipliesTheVectors : Prop :=
  ∀ (s : State) (rd rs1 rs2 rs3 : Reg),
    let c := s.regNat rs3
    let p := s.prec
    let a := fun j => s.dmem.readC p (s.regNat rs1 + j * p.cs)
    let b := fun j => s.dmem.readC p (s.regNat rs2 + j * p.cs)
    c ≠ 0 → LinReady s p.es (complexLin p (s.regNat rd) c) → LinReady s p.es (complexLin p (s.regNat rs1) c) →
    LinReady s p.es (complexLin p (s.regNat rs2) c) →
    (CompletesWith (.cmulv rd rs1 rs2 rs3) s [] (addrsFrom (s.regNat rd) c p.cs) p.cs fun m =>
      ∀ j, j < c → m.readC p (s.regNat rd + j * p.cs) = ((a j).mul (b j)).canon) ∧
    (CompletesWith (.cmulvC rd rs1 rs2 rs3) s [] (addrsFrom (s.regNat rd) c p.cs) p.cs fun m =>
      ∀ j, j < c → m.readC p (s.regNat rd + j * p.cs) = ((a j).mul ⟨(b j).re, Elem.neg p (b j).im⟩).canon)

/-- R159, R85: BFV completes whenever c is not 0 and the operands are in order. When A and B do not overlap, A holds the sums
and B the differences; when they are the same operand it holds the differences; and in every case an element of A holds its
sum unless a difference is written to it later, and an element of B its difference unless a sum is. -/
def Obligations.BfvAddsAndSubtracts : Prop :=
  ∀ (s : State) (rs1 rs2 rs3 : Reg),
    let c := s.regNat rs3
    let p := s.prec
    let a := fun j => s.dmem.readC p (s.regNat rs1 + j * p.cs)
    let b := fun j => s.dmem.readC p (s.regNat rs2 + j * p.cs)
    c ≠ 0 → LinReady s p.es (complexLin p (s.regNat rs1) c) → LinReady s p.es (complexLin p (s.regNat rs2) c) →
    CompletesWith (.bfv rs1 rs2 rs3) s [] (addrsFrom (s.regNat rs1) c p.cs ++ addrsFrom (s.regNat rs2) c p.cs) p.cs fun m =>
      (s.regNat rs1 + c * p.cs ≤ s.regNat rs2 ∨ s.regNat rs2 + c * p.cs ≤ s.regNat rs1 → ∀ j, j < c →
        m.readC p (s.regNat rs1 + j * p.cs) = ((a j).add (b j)).canon ∧
        m.readC p (s.regNat rs2 + j * p.cs) = ((a j).sub (b j)).canon) ∧
      (s.regNat rs1 = s.regNat rs2 → ∀ j, j < c → m.readC p (s.regNat rs1 + j * p.cs) = ((a j).sub (a j)).canon) ∧
      let part := fun (z : Cplx p) (e : Nat) => Elem.canon p (if e = 0 then z.re else z.im)
      let at' := fun (r : Reg) (j e : Nat) => s.regNat r + j * p.cs + e
      (∀ j e, j < c → e ∈ [0, p.es] → (∀ k e', j ≤ k → k < c → e' ∈ [0, p.es] → at' rs2 k e' ≠ at' rs1 j e) →
        m.readEl p (at' rs1 j e) = part ((a j).add (b j)) e) ∧
      ∀ j e, j < c → e ∈ [0, p.es] → (∀ k e', j < k → k < c → e' ∈ [0, p.es] → at' rs1 k e' ≠ at' rs2 j e) →
        m.readEl p (at' rs2 j e) = part ((a j).sub (b j)) e

/-- R160, R155: SCALEV completes whenever c is not 0, SCALE is finite and the operands are in order; element j of the
destination is the product of the multiplier of the precision and element j of the source. -/
def Obligations.ScalevMultipliesByScale : Prop :=
  ∀ (s : State) (rd rs1 rs3 : Reg),
    let c := s.regNat rs3
    let p := s.prec
    c ≠ 0 → ScaleFinite s → LinReady s p.es (realLin p (s.regNat rd) c) → LinReady s p.es (realLin p (s.regNat rs1) c) →
    ∃ d : Sys2Proof.Machine.Dyadic, (fmt64.decode (s.scaleHi.toNat * 2 ^ 32 + s.scaleLo.toNat)).toInt? =
        some (if d.neg then -(d.num : Int) else d.num) ∧ d.k = 1074 ∧
      let sc : (p : Prec) → Elem p := fun
        | .fp32 => s.scalef
        | .fp64 => BitVec.ofNat 64 (s.scaleHi.toNat * 2 ^ 32 + s.scaleLo.toNat)
        | .q31 => q31OfDyadic d
      CompletesWith (.scalev rd rs1 rs3) s [] (addrsFrom (s.regNat rd) c p.es) p.es fun m =>
        ∀ j, j < c → m.readEl p (s.regNat rd + j * p.es) =
          Elem.canon p (Elem.mul p (sc p) (s.dmem.readEl p (s.regNat rs1 + j * p.es)))

/-- R161: COPYV completes whenever c is not 0 and the operands are in order, and moves the bytes unchanged, whatever the
overlap. -/
def Obligations.CopyvMovesTheBytes : Prop :=
  ∀ (s : State) (rd rs1 rs3 : Reg),
    let c := s.regNat rs3
    let p := s.prec
    c ≠ 0 → LinReady s p.es (complexLin p (s.regNat rd) c) → LinReady s p.es (complexLin p (s.regNat rs1) c) →
    CompletesWith (.copyv rd rs1 rs3) s [] (addrsFrom (s.regNat rd) c p.cs) p.cs fun m =>
      ∀ k, k < c * p.cs → Store.read m (s.regNat rd + k) = Store.read s.dmem (s.regNat rs1 + k)

/-- R158 to R161, R79, R80, R353: a count of 0 is INVALID_ARGUMENT(0), then for SCALEV a SCALE that is not finite is
INVALID_ARGUMENT(SCALE_HI), then come alignment and range with the lowest offending address. -/
def Obligations.VectorInstructionsFaultInOrder : Prop :=
  ∀ (s : State) (rd rs1 rs2 rs3 : Reg),
    let c := s.regNat rs3
    let cl := fun r => complexLin s.prec (s.regNat r) c
    let rl := fun r => realLin s.prec (s.regNat r) c
    (c = 0 → ∀ i ∈ [Instr.cmulv rd rs1 rs2 rs3, .cmulvC rd rs1 rs2 rs3, .bfv rs1 rs2 rs3, .scalev rd rs1 rs3,
      .copyv rd rs1 rs3], Faults i s .invalidArgument 0) ∧
    (c ≠ 0 → ¬ScaleFinite s → Faults (.scalev rd rs1 rs3) s .invalidArgument s.scaleHi.toNat) ∧
    (c ≠ 0 → OperandFaults (.cmulv rd rs1 rs2 rs3) s s.prec.es [cl rd, cl rs1, cl rs2] ∧
      OperandFaults (.cmulvC rd rs1 rs2 rs3) s s.prec.es [cl rd, cl rs1, cl rs2] ∧
      OperandFaults (.bfv rs1 rs2 rs3) s s.prec.es [cl rs1, cl rs2] ∧
      OperandFaults (.copyv rd rs1 rs3) s s.prec.es [cl rd, cl rs1]) ∧
    (c ≠ 0 → ScaleFinite s → OperandFaults (.scalev rd rs1 rs3) s s.prec.es [rl rd, rl rs1])

/-! ## FFT families -/

/-- R170, R175 to R179, R187, R188: FFT2, FFT4, FFT8, SRCOMB and FFTNS complete in place whenever BCOUNT is not 0, the
length is supported and the view is in order; the batches run in order, each on what the one before left (R82, R84). Their
kernels: the recursion of NS, and COMB group by group, with the twiddles
T_N[k] and T_N[N/4 − k] of R244 (`rescale`: log 8). NS_N reads T_n for every power of two n with 8 ≤ n ≤ N. -/
def Obligations.NoShuffleTransformsComplete : Prop :=
  (∀ (s : State) (rd : Reg) (lg : BitVec 5),
    let d := s.regNat rd
    let n := 2 ^ lg.toNat
    (ViewsReady s 2 d d → CompletesBatched (.fft2 rd) s 2 d d [] fun v =>
      [(atC v 0).add (atC v 1), (atC v 0).sub (atC v 1)]) ∧
    (ViewsReady s 4 d d → CompletesBatched (.fft4 rd) s 4 d d [] (noShuffle s.prec 2)) ∧
    (ViewsReady s 8 d d → CompletesBatched (.fft8 rd) s 8 d d [.pow 3] (noShuffle s.prec 3)) ∧
    (2 ≤ lg.toNat → lg.toNat ≤ 21 → lg.toNat ≤ s.params.maxLog2 → ViewsReady s n d d →
      CompletesBatched (.srcomb rd lg) s n d d (if lg.toNat = 2 then [] else [.pow lg.toNat]) (comb s.prec lg.toNat)) ∧
    (lg.toNat ≤ 21 → lg.toNat ≤ s.params.maxLog2 → ViewsReady s n d d →
      CompletesBatched (.fftns rd lg) s n d d (slotsNoShuffle lg.toNat) (noShuffle s.prec lg.toNat))) ∧
  (∀ (lg : Nat) (x : Slot), x ∈ slotsNoShuffle lg ↔ ∃ t, 3 ≤ t ∧ t ≤ lg ∧ x = .pow t) ∧
  ∀ (p : Prec) (z : List (Cplx p)),
    noShuffle p 0 z = z ∧ noShuffle p 1 z = [(atC z 0).add (atC z 1), (atC z 0).sub (atC z 1)] ∧
    (∀ m, noShuffle p (m + 2) z = comb p (m + 2) (noShuffle p (m + 1) (z.take (2 ^ (m + 1))) ++
      noShuffle p m ((z.drop (2 ^ (m + 1))).take (2 ^ m)) ++ noShuffle p m (z.drop (2 ^ (m + 1) + 2 ^ m)))) ∧
    ∀ lg k, 2 ≤ lg → k < 2 ^ lg / 4 →
      let n := 2 ^ lg
      let q := n / 4
      let a0 := atC z k
      let a1 := atC z (k + q)
      let wre := rescale p (.cosPi (2 * k) n)
      let wim := rescale p (.cosPi (2 * (q - k)) n)
      let u := if n ≤ 8 ∧ k = 0 then atC z (k + 2 * q) else (atC z (k + 2 * q)).mul ⟨wre, Elem.neg p wim⟩
      let v := if n ≤ 8 ∧ k = 0 then atC z (k + 3 * q) else (atC z (k + 3 * q)).mul ⟨wre, wim⟩
      let t3 := Elem.sub p v.re u.re
      let t5 := Elem.add p v.re u.re
      let t4 := Elem.sub p u.im v.im
      let t6 := Elem.add p u.im v.im
      (comb p lg z).length = n ∧
      atC (comb p lg z) k = ⟨Elem.add p a0.re t5, Elem.add p a0.im t6⟩ ∧
      atC (comb p lg z) (k + q) = ⟨Elem.add p a1.re t4, Elem.add p a1.im t3⟩ ∧
      atC (comb p lg z) (k + 2 * q) = ⟨Elem.sub p a0.re t5, Elem.sub p a0.im t6⟩ ∧
      atC (comb p lg z) (k + 3 * q) = ⟨Elem.sub p a1.re t4, Elem.sub p a1.im t3⟩

/-- R170, R173, R174, R180, R181, R186, R189: FFT, FFT.i, FFTL and FFTL.i complete whenever BCOUNT is not 0, the length is
supported and both views are in order; the batches run in order (R82, R84); an inverse applies the forward function to the
vector of reversed index. Their functions: NS of the vector in split-radix order, and the canonical function by its cases and
the canonical split. The tables read: those of F_l's recursion. Generation on first use (R242, R45), as every completion
statement uses it: of the slots an instruction reads, the valid bits of the current precision are set, TGENCNT counts each
slot that was not valid once, and nothing else changes. -/
def Obligations.FftInstructionsComplete : Prop :=
  (∀ (s : State) (rd rs1 rs3 : Reg) (lg : BitVec 5),
    let d := s.regNat rd
    let a := s.regNat rs1
    let n := 2 ^ lg.toNat
    let l := s.regNat rs3
    (lg.toNat ≤ 21 → lg.toNat ≤ s.params.maxLog2 → ViewsReady s n a d →
      CompletesBatched (.fft rd rs1 lg) s n a d (slotsNoShuffle lg.toNat) (fftPow2 s.prec lg.toNat) ∧
      CompletesBatched (.fftI rd rs1 lg) s n a d (slotsNoShuffle lg.toNat) fun v =>
        fftPow2 s.prec lg.toNat ((List.range n).map fun i => atC v ((n - i) % n))) ∧
    (inS l = true → l ≤ s.params.maxN → ViewsReady s l a d →
      CompletesBatched (.fftl rd rs1 rs3) s l a d (slotsFft l) (fftCanon s.prec l) ∧
      CompletesBatched (.fftlI rd rs1 rs3) s l a d (slotsFft l) fun v =>
        fftCanon s.prec l ((List.range l).map fun i => atC v ((l - i) % l)))) ∧
  (∀ (s : State) (slots : List Slot), (∀ x ∈ slots, x ∈ [.t53, .t7, .t9] ∨ ∃ t, 3 ≤ t ∧ t ≤ 21 ∧ x = .pow t) →
    let bit : Slot → Nat := fun
      | .pow t => t
      | .t53 => 24
      | .t7 => 25
      | .t9 => 26
    let t := s.ensureSlots slots
    t = { s with tvalidF32 := t.tvalidF32, tvalidF64 := t.tvalidF64, tvalidQ31 := t.tvalidQ31, tgencnt := t.tgencnt } ∧
    (∀ p b, (t.tvalid p).getLsbD b = true ↔
      (s.tvalid p).getLsbD b = true ∨ (p = s.prec ∧ ∃ x ∈ slots, bit x = b)) ∧
    t.tgencnt = s.tgencnt +
      BitVec.ofNat 32 (slots.dedup.filter fun x => !(s.tvalid s.prec).getLsbD (bit x)).length) ∧
  (∀ l : Nat, inS l = true → (∀ lg, l = 2 ^ lg → slotsFft l = slotsNoShuffle lg) ∧
    (l ∈ [3, 5, 15] → slotsFft l = [.t53]) ∧ (l = 7 → slotsFft l = [.t7]) ∧ (l = 9 → slotsFft l = [.t9]) ∧
    ((∀ lg, l ≠ 2 ^ lg) → l ∉ [3, 5, 7, 9, 15] →
      ∃ n1 n2, canon l = some (n1, n2) ∧ slotsFft l = slotsFft n1 ++ slotsFft n2)) ∧
  (srOrder 0 = [0] ∧ srOrder 1 = [0, 1] ∧ ∀ m, srOrder (m + 2) = (srOrder (m + 1)).map (fun j => 2 * j) ++
    (srOrder m).map (fun j => 4 * j + 1) ++ (srOrder m).map fun j => (4 * j + 2 ^ (m + 2) - 1) % 2 ^ (m + 2)) ∧
  (∀ l : Nat, l ≤ 2 ^ 21 → canon l = (([7, 5, 3, 9].filter fun f =>
    decide (f ∣ l) && decide (Nat.gcd f (l / f) = 1) && inS (l / f)).head?).map fun f => (f, l / f)) ∧
  ∀ (p : Prec) (v : List (Cplx p)),
    (∀ lg, fftPow2 p lg v = noShuffle p lg ((List.range (2 ^ lg)).map fun i => atC v ((srOrder lg).getD i 0))) ∧
    ∀ l : Nat, inS l = true → (fftCanon p l v).length = l ∧
      (∀ lg, l = 2 ^ lg → fftCanon p l v = fftPow2 p lg v) ∧
      (l ∈ [3, 5, 7, 9] → fftCanon p l v = oddFft p l v) ∧
      (l = 15 → fftCanon p l v = pfaWith 3 5 (fftCanon p 3) (fftCanon p 5) v) ∧
      (isPow2 l = false → l ∉ [3, 5, 7, 9, 15] → ∃ n1 n2, canon l = some (n1, n2) ∧
        fftCanon p l v = pfaWith n1 n2 (fftCanon p n1) (fftCanon p n2) v)

/-- R170, R200 to R203, R205: the odd codelets and their inverses complete whenever BCOUNT is not 0 and both views are in
order, each with its own table; the batches run in order (R82, R84). ODD_P by its rule: the sums and differences, then for each k the accumulations A and B in
increasing m, with the constants of R200 (`rescale`: log 8). -/
def Obligations.OddCodeletsComplete : Prop :=
  (∀ (s : State) (rd rs1 : Reg),
    let d := s.regNat rd
    let a := s.regNat rs1
    let back := fun (n : Nat) (v : List (Cplx s.prec)) => (List.range n).map fun i => atC v ((n - i) % n)
    (ViewsReady s 3 a d → CompletesBatched (.fft3 rd rs1) s 3 a d [.t53] (oddFft s.prec 3) ∧
      CompletesBatched (.fft3I rd rs1) s 3 a d [.t53] fun v => oddFft s.prec 3 (back 3 v)) ∧
    (ViewsReady s 5 a d → CompletesBatched (.fft5 rd rs1) s 5 a d [.t53] (oddFft s.prec 5) ∧
      CompletesBatched (.fft5I rd rs1) s 5 a d [.t53] fun v => oddFft s.prec 5 (back 5 v)) ∧
    (ViewsReady s 7 a d → CompletesBatched (.fft7 rd rs1) s 7 a d [.t7] (oddFft s.prec 7) ∧
      CompletesBatched (.fft7I rd rs1) s 7 a d [.t7] fun v => oddFft s.prec 7 (back 7 v)) ∧
    (ViewsReady s 9 a d → CompletesBatched (.fft9 rd rs1) s 9 a d [.t9] (oddFft s.prec 9) ∧
      CompletesBatched (.fft9I rd rs1) s 9 a d [.t9] fun v => oddFft s.prec 9 (back 9 v)) ∧
    (ViewsReady s 15 a d →
      CompletesBatched (.fft15 rd rs1) s 15 a d [.t53] (pfaWith 3 5 (oddFft s.prec 3) (oddFft s.prec 5)) ∧
      CompletesBatched (.fft15I rd rs1) s 15 a d [.t53] fun v =>
        pfaWith 3 5 (oddFft s.prec 3) (oddFft s.prec 5) (back 15 v))) ∧
  ∀ (p : Prec) (x : List (Cplx p)), ∀ n ∈ [3, 5, 7, 9],
    let h := (n - 1) / 2
    let sum := fun m => (atC x m).add (atC x (n - m))
    let diff := fun m => (atC x m).sub (atC x (n - m))
    let c := fun r => rescale p (.cosPi (2 * r) n)
    let s := fun r => rescale p (Exact.sinPi (2 * r) n)
    let out := oddFft p n x
    out.length = n ∧
    (∃ X : Nat → Cplx p, X 0 = atC x 0 ∧ (∀ m, 1 ≤ m → m ≤ h → X m = (X (m - 1)).add (sum m)) ∧ atC out 0 = X h) ∧
    ∀ k, 1 ≤ k → k ≤ h → ∃ A B : Nat → Cplx p,
      A 0 = atC x 0 ∧ B 1 = Cplx.rmul (s k) (diff 1) ∧
      (∀ m, 1 ≤ m → m ≤ h →
        let j := m * k % n
        A m = (A (m - 1)).add (if j = 0 then sum m else Cplx.rmul (c (min j (n - j))) (sum m))) ∧
      (∀ m, 2 ≤ m → m ≤ h →
        let j := m * k % n
        let t := Cplx.rmul (s (min j (n - j))) (diff m)
        B m = if j = 0 then B (m - 1) else if j ≤ h then (B (m - 1)).add t else (B (m - 1)).sub t) ∧
      atC out k = ⟨Elem.add p (A h).re (B h).im, Elem.sub p (A h).im (B h).re⟩ ∧
      atC out (n - k) = ⟨Elem.sub p (A h).re (B h).im, Elem.add p (A h).im (B h).re⟩

/-- R170, R206, R207: PFA and PFA.i complete for each N1 whenever BCOUNT is not 0, N2 ≥ 2 is in S and coprime to N1, N1·N2
is within 2^21 and MAXN, and both views are in order; the batches run in order (R82, R84). PFA by its rule: the CRT input map, N2 rows of N1 points, N1 columns of
N2 points, and the Ruritanian output map. -/
def Obligations.PrimeFactorTransformsComplete : Prop :=
  (∀ (s : State) (rd rs1 rs2 : Reg) (n1 : Nat) (fwd inv : Instr),
    (n1, fwd, inv) ∈ [(3, Instr.pfa3 rd rs1 rs2, Instr.pfa3I rd rs1 rs2), (5, .pfa5 rd rs1 rs2, .pfa5I rd rs1 rs2),
      (7, .pfa7 rd rs1 rs2, .pfa7I rd rs1 rs2), (9, .pfa9 rd rs1 rs2, .pfa9I rd rs1 rs2),
      (15, .pfa15 rd rs1 rs2, .pfa15I rd rs1 rs2)] →
    let d := s.regNat rd
    let a := s.regNat rs1
    let n2 := s.regNat rs2
    let n := n1 * n2
    2 ≤ n2 → Nat.gcd n1 n2 = 1 → inS n2 = true → n ≤ 2 ^ 21 → n ≤ s.params.maxN → ViewsReady s n a d →
    let kernel := pfaWith n1 n2 (fftCanon s.prec n1) (fftCanon s.prec n2)
    CompletesBatched fwd s n a d (slotsFft n1 ++ slotsFft n2) kernel ∧
    CompletesBatched inv s n a d (slotsFft n1 ++ slotsFft n2) fun v =>
      kernel ((List.range n).map fun i => atC v ((n - i) % n))) ∧
  ∀ (p : Prec) (x : List (Cplx p)) (n1 n2 : Nat), inS n1 = true → inS n2 = true → Nat.gcd n1 n2 = 1 →
    let n := n1 * n2
    let out := pfaWith n1 n2 (fftCanon p n1) (fftCanon p n2) x
    out.length = n ∧ ∃ G H K : Nat → Cplx p,
      (∀ i, i < n → G (i % n2 * n1 + i % n1) = atC x i) ∧
      (∀ r k, r < n2 → k < n1 → H (r * n1 + k) = atC (fftCanon p n1 ((List.range n1).map fun i => G (r * n1 + i))) k) ∧
      (∀ k1 k2, k1 < n1 → k2 < n2 →
        K (k1 + n1 * k2) = atC (fftCanon p n2 ((List.range n2).map fun r => H (k1 + n1 * r))) k2) ∧
      ∀ k1 k2, k1 < n1 → k2 < n2 → atC out ((n2 * k1 + n1 * k2) % n) = K (k1 + n1 * k2)

/-- R40, R82, R170, R178 to R181, R207, R353: the argument and length faults of the batched instructions, in their order:
BCOUNT = 0 first. -/
def Obligations.BatchedInstructionsFaultInOrder : Prop :=
  ∀ (s : State) (rd rs1 rs2 rs3 : Reg) (lg : BitVec 5),
    let n := 2 ^ lg.toNat
    (s.bcount = 0 → ∀ i ∈ [Instr.fft2 rd, .fft4 rd, .fft8 rd, .srcomb rd lg, .fftns rd lg, .fft rd rs1 lg, .fftI rd rs1 lg,
      .fftl rd rs1 rs3, .fftlI rd rs1 rs3, .fft3 rd rs1, .fft3I rd rs1, .fft5 rd rs1, .fft5I rd rs1, .fft7 rd rs1,
      .fft7I rd rs1, .fft9 rd rs1, .fft9I rd rs1, .fft15 rd rs1, .fft15I rd rs1, .pfa3 rd rs1 rs2, .pfa3I rd rs1 rs2,
      .pfa5 rd rs1 rs2, .pfa5I rd rs1 rs2, .pfa7 rd rs1 rs2, .pfa7I rd rs1 rs2, .pfa9 rd rs1 rs2, .pfa9I rd rs1 rs2,
      .pfa15 rd rs1 rs2, .pfa15I rd rs1 rs2], Faults i s .invalidArgument 0) ∧
    (s.bcount ≠ 0 → lg.toNat < 2 → Faults (.srcomb rd lg) s .unsupportedLength n) ∧
    (s.bcount ≠ 0 → ∀ i ∈ [Instr.srcomb rd lg, .fftns rd lg, .fft rd rs1 lg, .fftI rd rs1 lg],
      (21 < lg.toNat → Faults i s .unsupportedLength n) ∧
      (2 ≤ lg.toNat → lg.toNat ≤ 21 → s.params.maxLog2 < lg.toNat → Faults i s .resource n)) ∧
    (s.bcount ≠ 0 → ∀ i ∈ [Instr.fftl rd rs1 rs3, .fftlI rd rs1 rs3],
      LengthFaults i s (s.regNat rs3) (s.regNat rs3) (inS (s.regNat rs3) = true)) ∧
    (s.bcount ≠ 0 → ∀ e ∈ [(3, Instr.pfa3 rd rs1 rs2), (3, .pfa3I rd rs1 rs2), (5, .pfa5 rd rs1 rs2),
        (5, .pfa5I rd rs1 rs2), (7, .pfa7 rd rs1 rs2), (7, .pfa7I rd rs1 rs2), (9, .pfa9 rd rs1 rs2),
        (9, .pfa9I rd rs1 rs2), (15, .pfa15 rd rs1 rs2), (15, .pfa15I rd rs1 rs2)],
      let n2 := s.regNat rs2
      (n2 = 0 → Faults e.2 s .invalidArgument 0) ∧
      (n2 ≠ 0 → Nat.gcd e.1 n2 ≠ 1 → Faults e.2 s .invalidArgument n2) ∧
      (n2 ≠ 0 → Nat.gcd e.1 n2 = 1 → (n2 < 2 ∨ inS n2 = false ∨ 2 ^ 21 < e.1 * n2) →
        Faults e.2 s .unsupportedLength n2) ∧
      (2 ≤ n2 → Nat.gcd e.1 n2 = 1 → inS n2 = true → e.1 * n2 ≤ 2 ^ 21 → s.params.maxN < e.1 * n2 →
        Faults e.2 s .resource (e.1 * n2)))

/-- R79, R80, R82, R170: after its argument checks a batched instruction raises MISALIGNED with the lowest misaligned base,
else DMEM_RANGE with the lowest start of a point that leaves DMEM, over both views. -/
def Obligations.BatchedInstructionsCheckTheirViews : Prop :=
  ∀ (s : State) (rd rs1 rs3 : Reg) (lg : BitVec 5), s.bcount ≠ 0 →
    let d := s.regNat rd
    let a := s.regNat rs1
    let n := 2 ^ lg.toNat
    let l := s.regNat rs3
    ViewFaults (.fft2 rd) s 2 d d ∧ ViewFaults (.fft4 rd) s 4 d d ∧ ViewFaults (.fft8 rd) s 8 d d ∧
    (lg.toNat ≤ 21 → lg.toNat ≤ s.params.maxLog2 → (2 ≤ lg.toNat → ViewFaults (.srcomb rd lg) s n d d) ∧
      ViewFaults (.fftns rd lg) s n d d ∧ ViewFaults (.fft rd rs1 lg) s n a d ∧ ViewFaults (.fftI rd rs1 lg) s n a d) ∧
    (inS l = true → l ≤ s.params.maxN → ViewFaults (.fftl rd rs1 rs3) s l a d ∧ ViewFaults (.fftlI rd rs1 rs3) s l a d) ∧
    (∀ e ∈ [(3, Instr.fft3 rd rs1), (3, .fft3I rd rs1), (5, .fft5 rd rs1), (5, .fft5I rd rs1), (7, .fft7 rd rs1),
      (7, .fft7I rd rs1), (9, .fft9 rd rs1), (9, .fft9I rd rs1), (15, .fft15 rd rs1), (15, .fft15I rd rs1)],
      ViewFaults e.2 s e.1 a d) ∧
    ∀ e ∈ [(3, Instr.pfa3 rd rs1 rs3), (3, .pfa3I rd rs1 rs3), (5, .pfa5 rd rs1 rs3), (5, .pfa5I rd rs1 rs3),
      (7, .pfa7 rd rs1 rs3), (7, .pfa7I rd rs1 rs3), (9, .pfa9 rd rs1 rs3), (9, .pfa9I rd rs1 rs3),
      (15, .pfa15 rd rs1 rs3), (15, .pfa15I rd rs1 rs3)],
      2 ≤ l → Nat.gcd e.1 l = 1 → inS l = true → e.1 * l ≤ 2 ^ 21 → e.1 * l ≤ s.params.maxN →
        ViewFaults e.2 s (e.1 * l) a d

/-- R181, R207: FFTL has the same next state, faults and all, as FFT of that power of two, as the codelet of that length, and
as PFA with the canonical factors; PFA with 3 and 5 as FFT15. -/
def Obligations.FftlIsTheMatchingTransform : Prop :=
  ∀ (s : State) (rd rs1 rs2 rs3 : Reg) (lg : BitVec 5), s.params.legal = true →
    let l := s.regNat rs3
    (l = 2 ^ lg.toNat → lg.toNat ≤ 21 → exec (.fftl rd rs1 rs3) s = exec (.fft rd rs1 lg) s ∧
      exec (.fftlI rd rs1 rs3) s = exec (.fftI rd rs1 lg) s) ∧
    (l = 3 → exec (.fftl rd rs1 rs3) s = exec (.fft3 rd rs1) s ∧ exec (.fftlI rd rs1 rs3) s = exec (.fft3I rd rs1) s) ∧
    (l = 5 → exec (.fftl rd rs1 rs3) s = exec (.fft5 rd rs1) s ∧ exec (.fftlI rd rs1 rs3) s = exec (.fft5I rd rs1) s) ∧
    (l = 7 → exec (.fftl rd rs1 rs3) s = exec (.fft7 rd rs1) s ∧ exec (.fftlI rd rs1 rs3) s = exec (.fft7I rd rs1) s) ∧
    (l = 9 → exec (.fftl rd rs1 rs3) s = exec (.fft9 rd rs1) s ∧ exec (.fftlI rd rs1 rs3) s = exec (.fft9I rd rs1) s) ∧
    (l = 15 → exec (.fftl rd rs1 rs3) s = exec (.fft15 rd rs1) s ∧
      exec (.fftlI rd rs1 rs3) s = exec (.fft15I rd rs1) s) ∧
    (inS l = true → isPow2 l = false → isCodelet l = false → ∀ e ∈ [(3, Instr.pfa3 rd rs1 rs2, Instr.pfa3I rd rs1 rs2),
        (5, .pfa5 rd rs1 rs2, .pfa5I rd rs1 rs2), (7, .pfa7 rd rs1 rs2, .pfa7I rd rs1 rs2),
        (9, .pfa9 rd rs1 rs2, .pfa9I rd rs1 rs2)], canon l = some (e.1, s.regNat rs2) →
      exec (.fftl rd rs1 rs3) s = exec e.2.1 s ∧ exec (.fftlI rd rs1 rs3) s = exec e.2.2 s) ∧
    (s.regNat rs2 = 5 → exec (.pfa3 rd rs1 rs2) s = exec (.fft15 rd rs1) s ∧
      exec (.pfa3I rd rs1 rs2) s = exec (.fft15I rd rs1) s)

/-- R185, its second form: the length set is the set of products 2^a·m up to 2^21, m one of the twelve odd parts. -/
def Obligations.LengthSetIsTheListedProducts : Prop :=
  ∀ l : Nat, inS l = true ↔
    l ≤ 2 ^ 21 ∧ ∃ a m, m ∈ [1, 3, 5, 7, 9, 15, 21, 35, 45, 63, 105, 315] ∧ l = 2 ^ a * m

/-! ## Permutation maps -/

/-- R220, R221, R225, R174: PMAPSR, PMAPSR.i and PMAPBR complete whenever the length is supported and the map is in order;
the words written are SR_N, its negation modulo N, and the bit reversal. -/
def Obligations.PowerOfTwoMapsAreWritten : Prop :=
  ∀ (s : State) (rd : Reg) (lg : BitVec 5),
    let d := s.regNat rd
    let n := 2 ^ lg.toNat
    lg.toNat ≤ 21 → lg.toNat ≤ s.params.maxLog2 → LinReady s 4 (mapLin d n) →
    (CompletesWith (.pmapsr rd lg) s [] (addrsFrom d n 4) 4 fun m =>
      ∀ i, i < n → m.readLE (d + 4 * i) 4 = (srOrder lg.toNat).getD i 0) ∧
    (CompletesWith (.pmapsrI rd lg) s [] (addrsFrom d n 4) 4 fun m =>
      ∀ i, i < n → m.readLE (d + 4 * i) 4 = (n - (srOrder lg.toNat).getD i 0) % n) ∧
    (CompletesWith (.pmapbr rd lg) s [] (addrsFrom d n 4) 4 fun m =>
      ∀ i, i < n → m.readLE (d + 4 * i) 4 < n ∧
        ∀ b, b < lg.toNat → (m.readLE (d + 4 * i) 4).testBit b = i.testBit (lg.toNat - 1 - b))

/-- R222 to R225: PMAPCRT, PMAPRUR and PMAPNEG complete whenever their arguments are nonzero, coprime where there are two,
within MAXN, and the map is in order; the words written are those of the rules. -/
def Obligations.FactorAndNegationMapsAreWritten : Prop :=
  ∀ (s : State) (rd rs1 rs2 rs3 : Reg), s.params.legal = true →
    let d := s.regNat rd
    let n1 := s.regNat rs1
    let n2 := s.regNat rs2
    let n := s.regNat rs3
    (n1 ≠ 0 → n2 ≠ 0 → Nat.gcd n1 n2 = 1 → n1 * n2 ≤ s.params.maxN → LinReady s 4 (mapLin d (n1 * n2)) →
      (CompletesWith (.pmapcrt rd rs1 rs2) s [] (addrsFrom d (n1 * n2) 4) 4 fun m =>
        ∀ i, i < n1 * n2 → m.readLE (d + 4 * (i % n2 * n1 + i % n1)) 4 = i) ∧
      (CompletesWith (.pmaprur rd rs1 rs2) s [] (addrsFrom d (n1 * n2) 4) 4 fun m =>
        ∀ k1 k2, k1 < n1 → k2 < n2 → m.readLE (d + 4 * (k1 + n1 * k2)) 4 = (n2 * k1 + n1 * k2) % (n1 * n2))) ∧
    (n ≠ 0 → n ≤ s.params.maxN → LinReady s 4 (mapLin d n) →
      CompletesWith (.pmapneg rd rs3) s [] (addrsFrom d n 4) 4 fun m =>
        ∀ i, i < n → m.readLE (d + 4 * i) 4 = (n - i) % n)

/-- R225 to R228: PGATHER, PSCATTER and PINV complete whenever the count is not 0, the bases are aligned, and the map, the
linear operand and every map-addressed access lie in DMEM. A gather reads through the map as it was; of two equal entries
of a scatter or an inversion the later one wins. -/
def Obligations.MapsAreApplied : Prop :=
  ∀ (s : State) (rd rs1 rs2 rs3 : Reg),
    let c := s.regNat rs3
    let p := s.prec
    let d := s.regNat rd
    let a := s.regNat rs1
    let word := fun base i => s.dmem.readLE (base + 4 * i) 4
    let map := word (s.regNat rs2)
    let last := fun (f : Nat → Nat) i => ∀ j, i < j → j < c → f j ≠ f i
    c ≠ 0 →
    (d % p.es = 0 → a % p.es = 0 → LinReady s 4 (mapLin (s.regNat rs2) c) → (complexLin p d c).Fits s.params.dmemBytes →
      (∀ i, i < c → a + map i * p.cs + p.cs ≤ s.params.dmemBytes) →
      CompletesWith (.pgather rd rs1 rs2 rs3) s [] (addrsFrom d c p.cs) p.cs fun m =>
        ∀ i k, i < c → k < p.cs → Store.read m (d + i * p.cs + k) = Store.read s.dmem (a + map i * p.cs + k)) ∧
    (d % p.es = 0 → a % p.es = 0 → LinReady s 4 (mapLin (s.regNat rs2) c) → (complexLin p a c).Fits s.params.dmemBytes →
      (∀ i, i < c → d + map i * p.cs + p.cs ≤ s.params.dmemBytes) →
      CompletesWith (.pscatter rd rs1 rs2 rs3) s [] ((List.range c).map fun i => d + map i * p.cs) p.cs fun m =>
        ∀ i k, i < c → k < p.cs → last map i →
          Store.read m (d + map i * p.cs + k) = Store.read s.dmem (a + i * p.cs + k)) ∧
    (d % 4 = 0 → LinReady s 4 (mapLin a c) → (∀ i, i < c → d + 4 * word a i + 4 ≤ s.params.dmemBytes) →
      CompletesWith (.pinv rd rs1 rs3) s [] ((List.range c).map fun i => d + 4 * word a i) 4 fun m =>
        ∀ i, i < c → last (word a) i → m.readLE (d + 4 * word a i) 4 = i)

/-- Every map the generators write for a length N is a bijection of [0, N): the property R229 derives. -/
def Obligations.GeneratedMapsAreBijections : Prop :=
  (∀ (inv : Bool) (lg : Nat), (srMap inv lg).Perm (List.range (2 ^ lg))) ∧
  (∀ lg : Nat, ((List.range (2 ^ lg)).map (bitrev lg)).Perm (List.range (2 ^ lg))) ∧
  (∀ n1 n2 : Nat, 0 < n1 → 0 < n2 → Nat.gcd n1 n2 = 1 →
    (crtMap n1 n2).Perm (List.range (n1 * n2)) ∧ (rurMap n1 n2).Perm (List.range (n1 * n2))) ∧
  ∀ n : Nat, (negMap n).Perm (List.range n)

/-- R220 to R225, R353: the faults of the map generators and of the map applications, in their order; the map's own range is
checked before the accesses it addresses. -/
def Obligations.MapInstructionsFaultInOrder : Prop :=
  ∀ (s : State) (rd rs1 rs2 rs3 : Reg) (lg : BitVec 5),
    let n1 := s.regNat rs1
    let n2 := s.regNat rs2
    let c := s.regNat rs3
    let p := s.prec
    (∀ i ∈ [Instr.pmapsr rd lg, .pmapsrI rd lg, .pmapbr rd lg],
      (21 < lg.toNat → Faults i s .unsupportedLength (2 ^ lg.toNat)) ∧
      (lg.toNat ≤ 21 → s.params.maxLog2 < lg.toNat → Faults i s .resource (2 ^ lg.toNat)) ∧
      (lg.toNat ≤ 21 → lg.toNat ≤ s.params.maxLog2 → OperandFaults i s 4 [mapLin (s.regNat rd) (2 ^ lg.toNat)])) ∧
    (∀ i ∈ [Instr.pmapcrt rd rs1 rs2, .pmaprur rd rs1 rs2],
      (n1 = 0 ∨ n2 = 0 → Faults i s .invalidArgument 0) ∧
      (n1 ≠ 0 → n2 ≠ 0 → Nat.gcd n1 n2 ≠ 1 → Faults i s .invalidArgument n2) ∧
      (n1 ≠ 0 → n2 ≠ 0 → Nat.gcd n1 n2 = 1 → s.params.maxN < n1 * n2 → Faults i s .resource (n1 * n2)) ∧
      (n1 ≠ 0 → n2 ≠ 0 → Nat.gcd n1 n2 = 1 → n1 * n2 ≤ s.params.maxN →
        OperandFaults i s 4 [mapLin (s.regNat rd) (n1 * n2)])) ∧
    ((c = 0 → Faults (.pmapneg rd rs3) s .invalidArgument 0) ∧
      (c ≠ 0 → s.params.maxN < c → Faults (.pmapneg rd rs3) s .resource c) ∧
      (c ≠ 0 → c ≤ s.params.maxN → OperandFaults (.pmapneg rd rs3) s 4 [mapLin (s.regNat rd) c])) ∧
    ∀ e ∈ [(Instr.pgather rd rs1 rs2 rs3, n2, p.es, complexLin p (s.regNat rd) c, n1, p.cs),
        (.pscatter rd rs1 rs2 rs3, n2, p.es, complexLin p n1 c, s.regNat rd, p.cs),
        (.pinv rd rs1 rs3, n1, 4, ⟨s.regNat rd, 0, 0, 0⟩, s.regNat rd, 4)],
      let i := e.1
      let map := e.2.1
      let align := e.2.2.1
      let lin := e.2.2.2.1
      let target := e.2.2.2.2.1
      let size := e.2.2.2.2.2
      let aligned := map % 4 = 0 ∧ lin.base % align = 0 ∧ target % align = 0
      (c = 0 → Faults i s .invalidArgument 0) ∧
      (c ≠ 0 → ∀ x, IsLowest (fun x => (x = map ∧ x % 4 ≠ 0) ∨ ((x = lin.base ∨ x = target) ∧ x % align ≠ 0)) (some x) →
        Faults i s .misaligned x) ∧
      (c ≠ 0 → aligned → ∀ x, IsLowest (fun x => ∃ j < c, x = map + 4 * j ∧ s.params.dmemBytes < x + 4) (some x) →
        Faults i s .dmemRange x) ∧
      (c ≠ 0 → aligned → (mapLin map c).Fits s.params.dmemBytes → ∀ x,
        IsLowest (fun x => (∃ j < lin.n, x = lin.base + j * lin.stride ∧ s.params.dmemBytes < x + lin.size) ∨
          ∃ j < c, x = target + s.dmem.readLE (map + 4 * j) 4 * size ∧ s.params.dmemBytes < x + size) (some x) →
        Faults i s .dmemRange x)

/-! ## Tables -/

/-- R242, R245, R246: TGEN completes for each slot the unit's lengths can need: its valid bit is set in the current
precision, TGENCNT counts it if it was not valid, and a second TGEN of a valid slot only retires. -/
def Obligations.TgenValidatesItsSlot : Prop :=
  ∀ (s : State) (lg : BitVec 5), ∀ e ∈ [(lg.toNat, Instr.tgenP lg), (24, .tgenT53), (25, .tgenT7), (26, .tgenT9)],
    (e.2 = .tgenP lg → 3 ≤ lg.toNat ∧ lg.toNat ≤ 21 ∧ lg.toNat ≤ s.params.maxLog2) →
    ∃ t, exec e.2 s = .next t ∧
      t = { s with tvalidF32 := t.tvalidF32, tvalidF64 := t.tvalidF64, tvalidQ31 := t.tvalidQ31, tgencnt := t.tgencnt,
                   pc := s.pc + 1, instret := s.instret + 1 } ∧
      (∀ p b, (t.tvalid p).getLsbD b = ((s.tvalid p).getLsbD b || (decide (p = s.prec) && decide (b = e.1)))) ∧
      t.tgencnt = if (s.tvalid s.prec).getLsbD e.1 then s.tgencnt else s.tgencnt + 1

/-- R244, R246, R247: TCOPY completes for each slot, generating it if needed, and writes the slot's elements exactly: element
i is RESCALE of the exact number R244 gives (`rescale`: log 8). -/
def Obligations.TcopyCopiesItsSlot : Prop :=
  ∀ (s : State) (rd : Reg) (lg : BitVec 5),
    let d := s.regNat rd
    let p := s.prec
    let n := 2 ^ lg.toNat
    ∀ e ∈ [(Slot.pow lg.toNat, (List.range (n / 4 + 1)).map fun i => Exact.cosPi (2 * i) n, Instr.tcopyP rd lg),
        (.t53, [.cosPi 2 5, .cosPi 4 5, Exact.sinPi 2 5, Exact.sinPi 4 5, .cosPi 2 3, Exact.sinPi 2 3], .tcopyT53 rd),
        (.t7, [.cosPi 2 7, .cosPi 4 7, .cosPi 6 7, Exact.sinPi 2 7, Exact.sinPi 4 7, Exact.sinPi 6 7], .tcopyT7 rd),
        (.t9, [.cosPi 2 9, .cosPi 4 9, .cosPi 6 9, .cosPi 8 9, Exact.sinPi 2 9, Exact.sinPi 4 9, Exact.sinPi 6 9,
          Exact.sinPi 8 9], .tcopyT9 rd)],
      let count := e.2.1.length
      (e.2.2 = .tcopyP rd lg → 3 ≤ lg.toNat ∧ lg.toNat ≤ 21 ∧ lg.toNat ≤ s.params.maxLog2) →
      LinReady s p.es (realLin p d count) →
      CompletesWith e.2.2 s [e.1] (addrsFrom d count p.es) p.es fun m =>
        ∀ j, j < count → m.readEl p (d + j * p.es) = atE (e.2.1.map (rescale p)) j ∧
          m.readEl p (d + j * p.es) = atE (slotTable p e.1) j

/-- R244: for every precision and every T_N, N = 2^t: N/4 + 1 elements, element i RESCALE of cos(2πi/N), the first
RESCALE(1), the last +0, the one of index N/8 that of T_8, cos(π/4); and the elements of T53, T7 and T9 (`rescale`: log 8). -/
def Obligations.PowerOfTwoTablesHaveTheirFixedEntries : Prop :=
  ∀ t : Nat, 3 ≤ t → t ≤ 21 →
    (∀ p : Prec, (slotTable p (.pow t)).length = 2 ^ t / 4 + 1 ∧ atE (slotTable p (.pow t)) (2 ^ t / 4) = 0 ∧
      (∀ i, i ≤ 2 ^ t / 4 → atE (slotTable p (.pow t)) i = rescale p (.cosPi (2 * i) (2 ^ t))) ∧
      (∀ i, i < 2 → atE (slotTable p .t53) i = rescale p (.cosPi (2 * (i + 1)) 5) ∧
        atE (slotTable p .t53) (2 + i) = rescale p (Exact.sinPi (2 * (i + 1)) 5)) ∧
      atE (slotTable p .t53) 4 = rescale p (.cosPi 2 3) ∧ atE (slotTable p .t53) 5 = rescale p (Exact.sinPi 2 3) ∧
      (∀ i, i < 3 → atE (slotTable p .t7) i = rescale p (.cosPi (2 * (i + 1)) 7) ∧
        atE (slotTable p .t7) (3 + i) = rescale p (Exact.sinPi (2 * (i + 1)) 7)) ∧
      (∀ i, i < 4 → atE (slotTable p .t9) i = rescale p (.cosPi (2 * (i + 1)) 9) ∧
        atE (slotTable p .t9) (4 + i) = rescale p (Exact.sinPi (2 * (i + 1)) 9)) ∧
      atE (slotTable p (.pow t)) (2 ^ t / 8) = atE (slotTable p (.pow 3)) 1) ∧
    atE (slotTable .fp32 (.pow t)) 0 = 0x3F800000#32 ∧ atE (slotTable .fp64 (.pow t)) 0 = 0x3FF0000000000000#64 ∧
    atE (slotTable .q31 (.pow t)) 0 = 0x7FFFFFFF#32 ∧ atE (slotTable .fp32 (.pow t)) (2 ^ t / 8) = 0x3F3504F3#32

/-- R248, R250, R255, R260: the four generators complete whenever N is supported, SCALE is finite and the table is in order;
each element is `rescale` of the rule's exact real in SCALE, and the table store is not touched. (That `rescale` rounds an
irrational number correctly is log 8; RescaleRoundsDyadicNumbers states it of dyadic ones.) -/
def Obligations.GeneratorsWriteTheirTables : Prop :=
  ∀ (s : State) (rd rs3 : Reg) (scale : Sys2Proof.Machine.Dyadic), s.scale? = some scale →
    let d := s.regNat rd
    let n := s.regNat rs3
    let p := s.prec
    let writes := fun (i : Instr) (count : Nat) (table : List Exact) =>
      CompletesWith i s [] (addrsFrom d count p.es) p.es fun m =>
        ∀ j, j < count → m.readEl p (d + j * p.es) = atE (table.map (rescale p)) j
    let negative := scale.neg && scale.num != 0
    let exponents := fun (inv : Bool) => (List.range (n / 2)).flatMap fun i =>
      let a := 8 * i + 1 + if negative != inv then 4 * n else 0
      [Exact.rootCos scale a (8 * n), Exact.rootSin scale a (8 * n)]
    let half := fun k : Nat => Exact.dyadic ⟨scale.neg, scale.num, scale.k + k⟩
    let turns := (List.range (n / 2)).map (fun k => Exact.cosPi (2 * k) n) ++
      (List.range (n / 2)).map (fun k => Exact.sinPi (2 * k) n)
    (4 ≤ n → n % 4 = 0 → inS (n / 2) = true → n / 2 ≤ s.params.maxN → LinReady s p.es (realLin p d n) →
      writes (.tgmdct rd rs3) n (exponents false) ∧ writes (.tgmdctI rd rs3) n (exponents true)) ∧
    (2 ≤ n → n % 2 = 0 → inS (n / 2) = true → n / 2 ≤ s.params.maxN → LinReady s p.es (realLin p d (n + 2)) →
      writes (.tgrdft rd rs3) (n + 2) ([half 1, half 0] ++ turns)) ∧
    (2 ≤ n → n % 2 = 0 → inS (n / 2) = true → n / 2 ≤ s.params.maxN → LinReady s p.es (realLin p d (4 * n + 5)) →
      writes (.tgdct rd rs3) (4 * n + 5) ([half 1, half 2, .dyadic ⟨false, 1, 1⟩] ++
        (List.range n).map (fun i => .cosPi i (2 * n)) ++ (List.range n).map (fun i => Exact.sinPi i (2 * n)) ++
        (List.range (n / 2)).map (fun i => Exact.scaledSin scale (2 * i + 1) (2 * n)) ++
        (List.range (n / 2)).map (fun i => Exact.halfCsc (2 * i + 1) (2 * n)) ++
        ([.dyadic ⟨false, 1, 1⟩, .dyadic ⟨false, 1, 0⟩] ++ turns)))

/-- R246 to R248, R353: the faults of TGEN, TCOPY and the generators, in their order. -/
def Obligations.TableInstructionsFaultInOrder : Prop :=
  ∀ (s : State) (rd rs3 : Reg) (lg : BitVec 5),
    let d := s.regNat rd
    let n := s.regNat rs3
    let p := s.prec
    (∀ i ∈ [Instr.tgenP lg, .tcopyP rd lg],
      (21 < lg.toNat → Faults i s .unsupportedLength (2 ^ lg.toNat)) ∧
      (lg.toNat ≤ 21 → s.params.maxLog2 < lg.toNat → Faults i s .resource (2 ^ lg.toNat))) ∧
    (lg.toNat ≤ 21 → lg.toNat ≤ s.params.maxLog2 →
      OperandFaults (.tcopyP rd lg) s p.es [realLin p d (2 ^ lg.toNat / 4 + 1)]) ∧
    OperandFaults (.tcopyT53 rd) s p.es [realLin p d 6] ∧ OperandFaults (.tcopyT7 rd) s p.es [realLin p d 6] ∧
    OperandFaults (.tcopyT9 rd) s p.es [realLin p d 8] ∧
    ∀ e ∈ [(Instr.tgmdct rd rs3, 4, n), (.tgmdctI rd rs3, 4, n), (.tgrdft rd rs3, 2, n + 2), (.tgdct rd rs3, 2, 4 * n + 5)],
      let supported := e.2.1 ≤ n ∧ n % e.2.1 = 0 ∧ inS (n / 2) = true
      (n = 0 → Faults e.1 s .invalidArgument 0) ∧
      (n ≠ 0 → ¬ScaleFinite s → Faults e.1 s .invalidArgument s.scaleHi.toNat) ∧
      (ScaleFinite s → LengthFaults e.1 s n (n / 2) supported) ∧
      (ScaleFinite s → supported → n / 2 ≤ s.params.maxN → OperandFaults e.1 s p.es [realLin p d e.2.2])

/-! ## Real transforms -/

/-- R265, R270, R272, R273, R85: MDCTF, MDCTI and MDCTIF complete whenever the length is supported and the operands are in
order; each output element is the one its rule names, computed by the fold, the rotations and the FFT of the rule. With
OSTRIDE = 0 coefficient 0 of MDCTF is the last written. -/
def Obligations.MdctInstructionsComplete : Prop :=
  (∀ (s : State) (rd rs1 rs2 rs3 : Reg),
    let n := s.regNat rs3
    let p := s.prec
    let d := s.regNat rd
    let stride := s.ostride.toNat * p.es
    let els := fun base count step => s.dmem.readEls p (addrsFrom base count step)
    let e := pairs (n / 2) (els (s.regNat rs2) n p.es)
    let forward := mdctForward n (els (s.regNat rs1) (2 * n) p.es) e
    let inverse := mdctInverse n (els (s.regNat rs1) n stride) e
    4 ≤ n → n % 4 = 0 → inS (n / 2) = true → n / 2 ≤ s.params.maxN → LinReady s p.es (realLin p (s.regNat rs2) n) →
    (LinReady s p.es (realLin p (s.regNat rs1) (2 * n)) → LinReady s p.es ⟨d, n, stride, p.es⟩ →
      CompletesWith (.mdctf rd rs1 rs2 rs3) s (slotsFft (n / 2)) (addrsFrom d n stride) p.es fun m =>
        (s.ostride ≠ 0 → ∀ j, j < n → ∃ v, (j, v) ∈ forward ∧ m.readEl p (d + j * stride) = Elem.canon p v) ∧
        (s.ostride = 0 → ∃ v, (0, v) ∈ forward ∧ m.readEl p d = Elem.canon p v)) ∧
    (LinReady s p.es ⟨s.regNat rs1, n, stride, p.es⟩ → LinReady s p.es (realLin p d n) →
      CompletesWith (.mdcti rd rs1 rs2 rs3) s (slotsFft (n / 2)) (addrsFrom d n p.es) p.es fun m =>
        ∀ j, j < n → m.readEl p (d + j * p.es) = Elem.canon p (atE inverse j)) ∧
    (LinReady s p.es ⟨s.regNat rs1, n, stride, p.es⟩ → LinReady s p.es (realLin p d (2 * n)) →
      CompletesWith (.mdctif rd rs1 rs2 rs3) s (slotsFft (n / 2)) (addrsFrom d (2 * n) p.es) p.es fun m =>
        (∀ j, j < n → m.readEl p (d + (n / 2 + j) * p.es) = Elem.canon p (atE inverse j)) ∧
        ∀ i, i < n / 2 →
          m.readEl p (d + i * p.es) = Elem.canon p (Elem.neg p (atE inverse (n / 2 - 1 - i))) ∧
          m.readEl p (d + (2 * n - 1 - i) * p.es) = Elem.canon p (atE inverse (n / 2 + i)))) ∧
  ∀ (p : Prec) (n : Nat) (x : List (Elem p)) (e : List (Cplx p)), 4 ≤ n → n % 4 = 0 → inS (n / 2) = true →
    let h := n / 2
    let q := n / 4
    let v := atE x
    let neg := Elem.neg p
    let fold := Elem.fold p
    let swap := fun z : Cplx p => (⟨z.im, z.re⟩ : Cplx p)
    let folded := (List.range h).map fun i =>
      let k := 2 * i
      swap ((if k < h then (⟨fold (neg (v (h + k))) (v (h - 1 - k)), fold (neg (v (3 * h + k))) (neg (v (3 * h - 1 - k)))⟩ : Cplx p)
        else ⟨fold (neg (v (h + k))) (neg (v (5 * h - 1 - k))), fold (v (k - h)) (neg (v (3 * h - 1 - k)))⟩).mul (atC e i))
    let rotated := fun (z : List (Cplx p)) i => (atC z i).mul (swap (atC e i))
    let c := rotated (fftCanon p h folded)
    mdctForward n x e = ((List.range q).flatMap fun i =>
      let i0 := q + i
      let i1 := q - 1 - i
      [(2 * i1 + 1, (c i0).re), (2 * i0, (c i0).im), (2 * i0 + 1, (c i1).re), (2 * i1, (c i1).im)]) ∧
    let pre := fun j => (⟨v (n - 1 - 2 * j), v (2 * j)⟩ : Cplx p).mul (atC e j)
    let z := fftCanon p h ((List.range h).map fun j => pre ((h - j) % h))
    let d := fun i => (swap (atC z i)).mul (swap (atC e i))
    (mdctInverse n x e).length = n ∧ ∀ i, i < q →
      let i0 := q + i
      let i1 := q - 1 - i
      atE (mdctInverse n x e) (2 * i1) = (d i1).re ∧ atE (mdctInverse n x e) (2 * i0 + 1) = (d i1).im ∧
      atE (mdctInverse n x e) (2 * i0) = (d i0).re ∧ atE (mdctInverse n x e) (2 * i1 + 1) = (d i0).im

/-- R284 to R289: RDFTF, RDFTI, RDFTRR and RDFTRI complete whenever the length is supported and the operands are in order;
the bins, the samples, or one part of the bins are written. R2C_N and C2R_N are those of R285 and R287. -/
def Obligations.RealDftInstructionsComplete : Prop :=
  (∀ (s : State) (rd rs1 rs2 rs3 : Reg),
    let n := s.regNat rs3
    let p := s.prec
    let d := s.regNat rd
    let els := fun base count => s.dmem.readEls p (addrsFrom base count p.es)
    let t := els (s.regNat rs2) (n + 2)
    let bins := realToComplex n (els (s.regNat rs1) n) t
    2 ≤ n → n % 2 = 0 → inS (n / 2) = true → n / 2 ≤ s.params.maxN → LinReady s p.es (realLin p (s.regNat rs2) (n + 2)) →
    (LinReady s p.es (realLin p (s.regNat rs1) n) →
      (LinReady s p.es (realLin p d (2 * (n / 2 + 1))) →
        CompletesWith (.rdftf rd rs1 rs2 rs3) s (slotsFft (n / 2)) (addrsFrom d (2 * (n / 2 + 1)) p.es) p.es fun m =>
          ∀ k, k ≤ n / 2 → m.readC p (d + k * p.cs) = (atC bins k).canon) ∧
      (LinReady s p.es (realLin p d (n / 2 + 1)) →
        (CompletesWith (.rdftrr rd rs1 rs2 rs3) s (slotsFft (n / 2)) (addrsFrom d (n / 2 + 1) p.es) p.es fun m =>
          ∀ k, k ≤ n / 2 → m.readEl p (d + k * p.es) = Elem.canon p (atC bins k).re) ∧
        (CompletesWith (.rdftri rd rs1 rs2 rs3) s (slotsFft (n / 2)) (addrsFrom d (n / 2 + 1) p.es) p.es fun m =>
          (∀ k, k ≤ n / 2 → m.readEl p (d + k * p.es) = Elem.canon p (atC bins k).im) ∧
          m.readEl p d = 0 ∧ m.readEl p (d + n / 2 * p.es) = 0))) ∧
    (LinReady s p.es (realLin p (s.regNat rs1) (2 * (n / 2 + 1))) → LinReady s p.es (realLin p d n) →
      CompletesWith (.rdfti rd rs1 rs2 rs3) s (slotsFft (n / 2)) (addrsFrom d n p.es) p.es fun m =>
        ∀ j, j < n → m.readEl p (d + j * p.es) = Elem.canon p
          (atE (complexToReal n (pairs (n / 2 + 1) (els (s.regNat rs1) (2 * (n / 2 + 1)))) t) j))) ∧
  ∀ (p : Prec) (n : Nat) (x t : List (Elem p)) (bins : List (Cplx p)), 2 ≤ n → n % 2 = 0 → inS (n / 2) = true →
    let m := n / 2
    let f := atE t 0
    let g := atE t 1
    let tc := fun k => atE t (2 + k)
    let ts := fun k => atE t (2 + m + k)
    let add := Elem.add p
    let sub := Elem.sub p
    let mul := Elem.mul p
    let z := fftCanon p m ((List.range m).map fun i => ⟨atE x (2 * i), atE x (2 * i + 1)⟩)
    let out := realToComplex n x t
    (out.length = m + 1 ∧ atC out 0 = ⟨mul g (add (atC z 0).re (atC z 0).im), 0⟩ ∧
      atC out m = ⟨mul g (sub (atC z 0).re (atC z 0).im), 0⟩ ∧
      ∀ k, 1 ≤ k → k < m →
        let a := atC z k
        let b := atC z (m - k)
        let w := (⟨mul f (add a.im b.im), mul f (sub b.re a.re)⟩ : Cplx p).mul ⟨tc k, Elem.neg p (ts k)⟩
        atC out k = ⟨add (mul f (add a.re b.re)) w.re, add (mul f (sub a.im b.im)) w.im⟩) ∧
    let bin := fun k => if k = 0 ∨ k = m then (⟨(atC bins k).re, 0⟩ : Cplx p) else atC bins k
    let packed := fun k =>
      let a := bin k
      let b := bin (m - k)
      let w := (⟨mul g (sub a.re b.re), mul g (add a.im b.im)⟩ : Cplx p).mul ⟨tc k, ts k⟩
      (⟨sub (mul g (add a.re b.re)) w.im, add (mul g (sub a.im b.im)) w.re⟩ : Cplx p)
    let r := fftCanon p m ((List.range m).map fun k => packed ((m - k) % m))
    (complexToReal n bins t).length = n ∧ ∀ k, k < m →
      atE (complexToReal n bins t) (2 * k) = (atC r k).re ∧ atE (complexToReal n bins t) (2 * k + 1) = (atC r k).im

/-- R300, R301, R303, R305, R306: DCT2, DCT3, DCT1 and DST1 complete whenever the length is supported, the operands are in
order and, for DCT3, the precision is not Q31; the N results are written in ascending order. Their functions are those of the
rules around R2C and C2R: the pre-rotations and post-rotations with the table fields of R300, and the mirrors. -/
def Obligations.CosineAndSineTransformsComplete : Prop :=
  (∀ (s : State) (rd rs1 rs2 rs3 : Reg),
    let n := s.regNat rs3
    let p := s.prec
    let d := s.regNat rd
    let els := fun base count => s.dmem.readEls p (addrsFrom base count p.es)
    let x := els (s.regNat rs1) n
    let t := fun count => els (s.regNat rs2) count
    let table := fun count => LinReady s p.es (realLin p (s.regNat rs2) count)
    let writes := fun (i : Instr) (len : Nat) (out : List (Elem p)) =>
      CompletesWith i s (slotsFft len) (addrsFrom d n p.es) p.es fun m =>
        ∀ j, j < n → m.readEl p (d + j * p.es) = Elem.canon p (atE out j)
    LinReady s p.es (realLin p (s.regNat rs1) n) → LinReady s p.es (realLin p d n) →
    (2 ≤ n → n % 2 = 0 → inS (n / 2) = true → n / 2 ≤ s.params.maxN → table (4 * n + 5) →
      writes (.dct2 rd rs1 rs2 rs3) (n / 2) (dct2 n x (dctFields n (t (4 * n + 5)))) ∧
      (p ≠ .q31 → writes (.dct3 rd rs1 rs2 rs3) (n / 2) (dct3 n x (dctFields n (t (4 * n + 5)))))) ∧
    (2 ≤ n → inS (n - 1) = true → n - 1 ≤ s.params.maxN → table (2 * (n - 1) + 2) →
      writes (.dct1 rd rs1 rs2 rs3) (n - 1) (dct1 n x (t (2 * (n - 1) + 2)))) ∧
    (1 ≤ n → inS (n + 1) = true → n + 1 ≤ s.params.maxN → table (2 * (n + 1) + 2) →
      writes (.dst1 rd rs1 rs2 rs3) (n + 1) (dst1 n x (t (2 * (n + 1) + 2))))) ∧
  ∀ (p : Prec) (n : Nat) (x t : List (Elem p)), x.length = n →
    let m := n / 2
    let v := atE x
    let add := Elem.add p
    let sub := Elem.sub p
    let mul := Elem.mul p
    let field := fun (offset i : Nat) => atE t (offset + i)
    let c := field 3
    let s := field (3 + n)
    let rt := t.drop (3 + 3 * n)
    (2 ≤ n → n % 2 = 0 →
      let out := dct2 n x (dctFields n t)
      let rotated := fun (i j : Nat) (op : Elem p → Elem p → Elem p) =>
        op (mul (field 0 0) (add (v i) (v j))) (mul (field (3 + 2 * n) i) (sub (v i) (v j)))
      let bins := realToComplex n ((List.range n).map fun i =>
        if i < m then rotated i (n - 1 - i) add else rotated (n - 1 - i) i sub) rt
      out.length = n ∧ ∃ next : Nat → Elem p, next m = mul (field 2 0) (atC bins m).re ∧ ∀ k, k < m →
        let inr := (atC bins k).re
        let ini := if k = 0 then Elem.neg p (atC bins m).re else (atC bins k).im
        next k = add (next (k + 1)) (sub (mul (s (2 * k)) inr) (mul (c (2 * k)) ini)) ∧
        atE out (2 * k) = add (mul (c (2 * k)) inr) (mul (s (2 * k)) ini) ∧ atE out (2 * k + 1) = next (k + 1)) ∧
    (2 ≤ n → n % 2 = 0 →
      let out := dct3 n x (dctFields n t)
      let bins := (List.range (m + 1)).map fun k =>
        if k = 0 then (⟨v 0, 0⟩ : Cplx p) else if k = m then ⟨add (v (n - 1)) (v (n - 1)), 0⟩
        else
          let w := sub (v (2 * k - 1)) (v (2 * k + 1))
          ⟨add (mul (c (2 * k)) (v (2 * k))) (mul (s (2 * k)) w), sub (mul (s (2 * k)) (v (2 * k))) (mul (c (2 * k)) w)⟩
      let r := complexToReal n bins rt
      out.length = n ∧ ∀ i, i < m →
        let t1 := mul (field 1 0) (atE r i)
        let t2 := mul (field 1 0) (atE r (n - 1 - i))
        let w := mul (field (3 + 2 * n + m) i) (sub t1 t2)
        atE out i = add (add t1 t2) w ∧ atE out (n - 1 - i) = sub (add t1 t2) w) ∧
    (2 ≤ n → dct1 n x t = (List.range n).map fun k => (atC (realToComplex (2 * (n - 1)) ((List.range (2 * (n - 1))).map fun i =>
      if i < n then v i else v (2 * (n - 1) - i)) t) k).re) ∧
    (1 ≤ n → dst1 n x t = (List.range n).map fun k => Elem.neg p (atC (realToComplex (2 * (n + 1))
      ((List.range (2 * (n + 1))).map fun i => if i = 0 ∨ i = n + 1 then 0 else if i ≤ n then v (i - 1)
        else Elem.neg p (v (2 * n + 1 - i))) t) (k + 1)).im)

/-- R265, R284, R300, R305, R306, R353: the faults of the MDCT, real DFT, DCT and DST instructions, in their order; DCT3 in
Q31 is UNSUPPORTED_COMBINATION(2) before everything else. -/
def Obligations.RealTransformsFaultInOrder : Prop :=
  ∀ (s : State) (rd rs1 rs2 rs3 : Reg),
    let n := s.regNat rs3
    let p := s.prec
    let lin := fun r count => realLin p (s.regNat r) count
    let coefficients := fun r => (⟨s.regNat r, n, s.ostride.toNat * p.es, p.es⟩ : Lin)
    let checks := fun (i : Instr) (len : Nat) (supported : Prop) (table input output : Lin) =>
      LengthFaults i s n len supported ∧
      (supported → n ≠ 0 → len ≤ s.params.maxN → OperandFaults i s p.es [table, input, output])
    let fourfold := 4 ≤ n ∧ n % 4 = 0 ∧ inS (n / 2) = true
    let even := 2 ≤ n ∧ n % 2 = 0 ∧ inS (n / 2) = true
    checks (.mdctf rd rs1 rs2 rs3) (n / 2) fourfold (lin rs2 n) (lin rs1 (2 * n)) (coefficients rd) ∧
    checks (.mdcti rd rs1 rs2 rs3) (n / 2) fourfold (lin rs2 n) (coefficients rs1) (lin rd n) ∧
    checks (.mdctif rd rs1 rs2 rs3) (n / 2) fourfold (lin rs2 n) (coefficients rs1) (lin rd (2 * n)) ∧
    checks (.rdftf rd rs1 rs2 rs3) (n / 2) even (lin rs2 (n + 2)) (lin rs1 n) (lin rd (2 * (n / 2 + 1))) ∧
    checks (.rdfti rd rs1 rs2 rs3) (n / 2) even (lin rs2 (n + 2)) (lin rs1 (2 * (n / 2 + 1))) (lin rd n) ∧
    checks (.rdftrr rd rs1 rs2 rs3) (n / 2) even (lin rs2 (n + 2)) (lin rs1 n) (lin rd (n / 2 + 1)) ∧
    checks (.rdftri rd rs1 rs2 rs3) (n / 2) even (lin rs2 (n + 2)) (lin rs1 n) (lin rd (n / 2 + 1)) ∧
    checks (.dct2 rd rs1 rs2 rs3) (n / 2) even (lin rs2 (4 * n + 5)) (lin rs1 n) (lin rd n) ∧
    (p ≠ .q31 → checks (.dct3 rd rs1 rs2 rs3) (n / 2) even (lin rs2 (4 * n + 5)) (lin rs1 n) (lin rd n)) ∧
    (p = .q31 → Faults (.dct3 rd rs1 rs2 rs3) s .unsupportedCombination 2) ∧
    checks (.dct1 rd rs1 rs2 rs3) (n - 1) (2 ≤ n ∧ inS (n - 1) = true) (lin rs2 (2 * (n - 1) + 2)) (lin rs1 n) (lin rd n) ∧
    checks (.dst1 rd rs1 rs2 rs3) (n + 1) (inS (n + 1) = true) (lin rs2 (2 * (n + 1) + 2)) (lin rs1 n) (lin rd n)

/-! ## Arithmetic -/

/-- R141 to R143 (marked there as from general knowledge; the IEEE 754 encodings are log 10), R146, R78: in binary32 and
binary64, add and mul of two finite values give the exact result rounded with roundTiesToEven, overflow to infinity; an exact
zero sum is +0 but for (−0) + (−0), and a zero product has the product of the signs; the valid operations on infinities give
infinities; neg flips the sign bit; sub is add of the negation. A NaN operand or an invalid operation gives a NaN (R146), and
the only NaN that is stored is the canonical one (R78); that add and mul themselves already give the canonical NaN is the
model's choice, log 13. The element operations of FP32 and FP64 are these, and CMUL (R150), R151 and FOLD (R153)
are their compositions. -/
def Obligations.FloatOperationsRoundToNearestEven : Prop :=
  (∀ f ∈ [fmt32, fmt64], ∀ a b : Nat, a < 2 * f.signBit → b < 2 * f.signBit →
    (∀ x y : Int, (f.decode a).toInt? = some x → (f.decode b).toInt? = some y →
      f.RoundsTo (x + y) 0 (f.add a b) ∧ f.RoundsTo (x * y) f.unitExp (f.mul a b) ∧
      (x + y = 0 → f.add a b = if a = f.signBit ∧ b = f.signBit then f.signBit else 0) ∧
      (x * y = 0 → f.mul a b = if (f.signBit ≤ a ↔ f.signBit ≤ b) then 0 else f.signBit) ∧
      (f.decode (f.neg b)).toInt? = some (-y)) ∧
    (f.neg a = if f.signBit ≤ a then a - f.signBit else a + f.signBit) ∧
    f.sub a b = f.add a (f.neg b) ∧
    (f.decode a = .nan ∨ f.decode b = .nan → f.add a b = f.qnan ∧ f.mul a b = f.qnan) ∧
    (∀ s, f.decode a = .inf s → f.decode b = .inf (!s) → f.add a b = f.qnan) ∧
    (∀ s, f.decode a = .inf s → (f.decode b = .inf s ∨ ∃ t m, f.decode b = .fin t m) →
      f.decode (f.add a b) = .inf s ∧ f.decode (f.add b a) = .inf s) ∧
    (∀ s t, f.decode a = .inf s → f.decode b = .fin t 0 → f.mul a b = f.qnan ∧ f.mul b a = f.qnan) ∧
    (∀ s t, f.decode a = .inf s → (f.decode b = .inf t ∨ ∃ m, m ≠ 0 ∧ f.decode b = .fin t m) →
      f.decode (f.mul a b) = .inf (s != t) ∧ f.decode (f.mul b a) = .inf (s != t)) ∧
    f.decode f.qnan = .nan ∧ (f.decode (f.canon a) = .nan → f.canon a = f.qnan) ∧ (f.decode a ≠ .nan → f.canon a = a)) ∧
  (∀ a b : BitVec 32, (Elem.add .fp32 a b).toNat = fmt32.add a.toNat b.toNat ∧
    (Elem.sub .fp32 a b).toNat = fmt32.sub a.toNat b.toNat ∧ (Elem.mul .fp32 a b).toNat = fmt32.mul a.toNat b.toNat ∧
    (Elem.neg .fp32 a).toNat = fmt32.neg a.toNat ∧ (Elem.canon .fp32 a).toNat = fmt32.canon a.toNat) ∧
  (∀ a b : BitVec 64, (Elem.add .fp64 a b).toNat = fmt64.add a.toNat b.toNat ∧
    (Elem.sub .fp64 a b).toNat = fmt64.sub a.toNat b.toNat ∧ (Elem.mul .fp64 a b).toNat = fmt64.mul a.toNat b.toNat ∧
    (Elem.neg .fp64 a).toNat = fmt64.neg a.toNat ∧ (Elem.canon .fp64 a).toNat = fmt64.canon a.toNat) ∧
  ∀ p ∈ [Prec.fp32, .fp64], ∀ (x y : Elem p) (z w : Cplx p),
    z.mul w = ⟨Elem.sub p (Elem.mul p z.re w.re) (Elem.mul p z.im w.im),
      Elem.add p (Elem.mul p z.re w.im) (Elem.mul p z.im w.re)⟩ ∧
    z.add w = ⟨Elem.add p z.re w.re, Elem.add p z.im w.im⟩ ∧ z.sub w = ⟨Elem.sub p z.re w.re, Elem.sub p z.im w.im⟩ ∧
    z.neg = ⟨Elem.neg p z.re, Elem.neg p z.im⟩ ∧ z.conj = ⟨z.re, Elem.neg p z.im⟩ ∧
    Cplx.rmul x z = ⟨Elem.mul p x z.re, Elem.mul p x z.im⟩ ∧ Elem.fold p x y = Elem.add p x y

/-- R148 to R150 and R153 (marked there as from general knowledge), R151: the Q31 operations on the integers sext_32 of the
stored bits, wrapped to 32 bits, the products rounded with ties up; the accumulator of CMUL wraps at 64 bits; FOLD is
asr(wrap_32(a + b + 32), 6). -/
def Obligations.Q31OperationsWrapAndRound : Prop :=
  ∀ a b : BitVec 32, ∀ z w : Cplx .q31,
    let rounded := fun v : Int => ((v + 1073741824) / 2147483648).bmod 4294967296
    let int := fun v : Elem .q31 => BitVec.toInt (n := 32) v
    let wide := fun v : Int => ((v.bmod 18446744073709551616 + 1073741824).bmod 18446744073709551616 / 2147483648).bmod 4294967296
    int (Elem.add .q31 a b) = (a.toInt + b.toInt).bmod 4294967296 ∧
    int (Elem.sub .q31 a b) = (a.toInt - b.toInt).bmod 4294967296 ∧
    int (Elem.neg .q31 a) = (-a.toInt).bmod 4294967296 ∧
    int (Elem.mul .q31 a b) = rounded (a.toInt * b.toInt) ∧
    int (z.mul w).re = wide (int z.re * int w.re - int z.im * int w.im) ∧
    int (z.mul w).im = wide (int z.re * int w.im + int z.im * int w.re) ∧
    int (Elem.fold .q31 a b) = (a.toInt + b.toInt + 32).bmod 4294967296 / 64 ∧
    z.add w = ⟨Elem.add .q31 z.re w.re, Elem.add .q31 z.im w.im⟩ ∧ z.sub w = ⟨Elem.sub .q31 z.re w.re, Elem.sub .q31 z.im w.im⟩ ∧
    z.neg = ⟨Elem.neg .q31 z.re, Elem.neg .q31 z.im⟩ ∧ z.conj = ⟨z.re, Elem.neg .q31 z.im⟩ ∧
    Cplx.rmul (p := .q31) a z = ⟨Elem.mul .q31 a z.re, Elem.mul .q31 a z.im⟩ ∧ Elem.canon .q31 a = a

/-! ## The host -/

/-- R380, R381: while the unit runs, every host access is refused but reads of CTRL, IRQSTAT, HPC and STATUS and writes of
CTRL and IRQSTAT: a refused read returns 0, a refused write changes nothing, and both set HOSTERR. -/
def Obligations.HostIsRefusedWhileRunning : Prop :=
  ∀ (s : State) (size : Nat) (offset v : Word), s.run = .running →
    let o := offset.toNat
    (¬(size = 4 ∧ (o = 0x400 ∨ o = 0x408 ∨ o = 0x40C ∨ o = 0x0C)) →
      s.hostAccess (.read size offset) = { s with hosterr := true, hostReply := some 0 }) ∧
    (¬(size = 4 ∧ (o = 0x400 ∨ o = 0x408)) → s.hostAccess (.write size offset v) = { s with hosterr := true }) ∧
    s.hostAccess (.read 4 0x400) = { s with hostReply := some (if s.ie then 4 else 0) } ∧
    s.hostAccess (.read 4 0x408) =
      { s with hostReply := some ((if s.irqDone then 1 else 0) + (if s.irqFault then 2 else 0)) } ∧
    s.hostAccess (.read 4 0x40C) = { s with hostReply := some s.pc } ∧
    s.hostAccess (.read 4 0x0C) = { s with hostReply := some (if s.hosterr then 9 else 1) }

/-- R375, R382, R383, R391, R392: a host write of CTRL with one command bit: START from idle, START refused while running,
ABORT, SRESET; IE is written each time. (What several commands in one write do is read by inference, log 11.) -/
def Obligations.HostControlWritesAct : Prop :=
  ∀ (s : State) (v : Word),
    let write := s.hostAccess (.write 4 0x400 v)
    let ie := v.getLsbD 2
    let start := v.getLsbD 0
    let abort := v.getLsbD 1
    let sreset := v.getLsbD 3
    (start = false → abort = false → sreset = false → write = { s with ie := ie }) ∧
    (start = true → sreset = false → s.run ≠ .running → write =
      { s with pc := s.entry, run := .running, cause := 0, fpc := 0, finfo := 0, ie := ie }) ∧
    (start = true → abort = false → sreset = false → s.run = .running → write = { s with hosterr := true, ie := ie }) ∧
    (start = false → abort = true → sreset = false → s.run = .running → write =
      { s with run := .faulted, cause := 10, fpc := s.pc, finfo := 0, irqFault := true, ie := ie }) ∧
    (start = false → abort = true → sreset = false → s.run ≠ .running → write = { s with ie := ie }) ∧
    (start = false → sreset = true → write = { State.powerOn s.params with
      imem := s.imem, dmem := s.dmem, turns := s.turns, hostReply := s.hostReply, ie := ie })

/-- R34, R358, R372, R373, R376 to R379, R381: the windows of an idle unit (IRQSTAT: any time): what each register reads as,
with the true STATUS, and what each write does; the refusal of every unmapped, misaligned or other-sized access, of
unassigned CSRs and of writes of read-only ones; and the IRQ output. (That a write of HPC, which is read-only, is refused is
read by inference, log 12.) -/
def Obligations.HostWindowsReachTheState : Prop :=
  ∀ (s : State) (v : Word), s.params.legal = true →
    let reads := fun (o : Nat) (x : Word) => s.hostAccess (.read 4 (BitVec.ofNat 32 o)) = { s with hostReply := some x }
    let writes := fun (o : Nat) (t : State) => s.hostAccess (.write 4 (BitVec.ofNat 32 o) v) = t
    let refusesRead := fun (size : Nat) (offset : Word) =>
      s.hostAccess (.read size offset) = { s with hosterr := true, hostReply := some 0 }
    let refusesWrite := fun (size : Nat) (offset : Word) =>
      s.hostAccess (.write size offset v) = { s with hosterr := true }
    let bit := fun (b : Bool) (value : Nat) => if b then value else 0
    (writes 0x408 { s with irqDone := s.irqDone && !v.getLsbD 0, irqFault := s.irqFault && !v.getLsbD 1,
                           hosterr := s.hosterr && !v.getLsbD 2 }) ∧
    s.irq = (s.ie && (s.irqDone || s.irqFault)) ∧
    (s.run ≠ .running →
      (let cfg := s.params.maxLog2 + 2 ^ 8 * s.params.imemLog2 + 2 ^ 16 * s.params.dmemLog2 + 2 ^ 24 +
          bit s.params.hasF64 (2 ^ 25) + bit s.params.hasQ31 (2 ^ 26)
        let mode := match s.prec with | .fp32 => 0 | .fp64 => 1 | .q31 => 2
        let status := bit (s.run == .done) 2 + bit (s.run == .faulted) 4 + bit s.hosterr 8
        let map : List (Nat × Word) :=
          [(0x00, 0x54580001), (0x01, BitVec.ofNat 32 cfg), (0x02, mode), (0x03, BitVec.ofNat 32 status),
           (0x04, BitVec.ofNat 32 s.cause.toNat), (0x05, s.fpc), (0x06, s.finfo), (0x08, s.scaleLo), (0x09, s.scaleHi),
           (0x0A, s.scalef), (0x0B, s.bcount), (0x0C, s.istride), (0x0D, s.bstride), (0x0E, s.ostride),
           (0x10, s.tvalidF32), (0x11, s.tvalidF64), (0x12, s.tvalidQ31), (0x13, s.tgencnt), (0x14, s.instret)]
        (∀ e ∈ map, reads (4 * e.1) e.2) ∧
        ∀ n, n < 256 → (∀ e ∈ map, e.1 ≠ n) → refusesRead 4 (BitVec.ofNat 32 (4 * n))) ∧
      ((v.toNat % 4 = 0 → writes (4 * 0x02) { s with prec := .fp32 }) ∧
        (v.toNat % 4 = 1 → s.params.hasF64 = true → writes (4 * 0x02) { s with prec := .fp64 }) ∧
        (v.toNat % 4 = 2 → s.params.hasQ31 = true → writes (4 * 0x02) { s with prec := .q31 }) ∧
        ((v.toNat % 4 = 1 ∧ s.params.hasF64 = false) ∨ (v.toNat % 4 = 2 ∧ s.params.hasQ31 = false) ∨ v.toNat % 4 = 3 →
          refusesWrite 4 (BitVec.ofNat 32 (4 * 0x02))) ∧
        writes (4 * 0x08) { s with scaleLo := v, scalef := scalefOf (s.scaleHi.toNat * 2 ^ 32 + v.toNat) } ∧
        writes (4 * 0x09) { s with scaleHi := v, scalef := scalefOf (v.toNat * 2 ^ 32 + s.scaleLo.toNat) } ∧
        writes (4 * 0x0B) { s with bcount := v } ∧ writes (4 * 0x0C) { s with istride := v } ∧
        writes (4 * 0x0D) { s with bstride := v } ∧ writes (4 * 0x0E) { s with ostride := v } ∧
        ∀ n, n < 256 → n ∉ [0x02, 0x08, 0x09, 0x0B, 0x0C, 0x0D, 0x0E] → refusesWrite 4 (BitVec.ofNat 32 (4 * n))) ∧
      (∀ n : BitVec 8, (∀ x, s.csr? n = some x → reads (4 * n.toNat) x) ∧
        (∀ t, s.writeCsr? n v = some t → writes (4 * n.toNat) t)) ∧
      reads 0x400 (BitVec.ofNat 32 (bit s.ie 4)) ∧
      reads 0x408 (BitVec.ofNat 32 (bit s.irqDone 1 + bit s.irqFault 2)) ∧
      (reads 0x404 s.entry ∧ writes 0x404 { s with entry := v }) ∧
      (reads 0x40C s.pc ∧ refusesWrite 4 0x40C) ∧
      (∀ r : Reg, reads (0x800 + 4 * r.toNat) (s.reg r) ∧
        ∃ t, writes (0x800 + 4 * r.toNat) t ∧ t = { s with regs := t.regs } ∧
          ∀ q, t.reg q = if q = r ∧ q ≠ 0 then v else s.reg q) ∧
      (∀ w, w < s.params.imemWords → reads (0x10000 + 4 * w) (Store.read s.imem w) ∧
        ∃ t, writes (0x10000 + 4 * w) t ∧ t = { s with imem := t.imem } ∧
          (Store.wf s.imem = true → ∀ x, Store.read t.imem x = if x = w then v else Store.read s.imem x)) ∧
      (∀ a, a < s.params.dmemBytes → a % 4 = 0 →
        reads (0x80000000 + a) (BitVec.ofNat 32 (s.dmem.readLE a 4)) ∧
        ∃ t, writes (0x80000000 + a) t ∧ t = { s with dmem := t.dmem } ∧
          (Memory.wf s.dmem = true → t.dmem.readLE a 4 = v.toNat ∧ SameOutside s.dmem t.dmem [a] 4))) ∧
    ∀ (size : Nat) (offset : Word),
      let unmapped := size ≠ 4 ∨ offset.toNat % 4 ≠ 0 ∨
        ¬(offset.toNat ≤ 0x40C ∨ (0x800 ≤ offset.toNat ∧ offset.toNat < 0x840) ∨
          (0x10000 ≤ offset.toNat ∧ offset.toNat < 0x10000 + 4 * s.params.imemWords) ∨
          (0x80000000 ≤ offset.toNat ∧ offset.toNat < 0x80000000 + s.params.dmemBytes))
      (hostTarget? s.params size offset = none ↔ unmapped) ∧
      (unmapped → refusesRead size offset ∧ refusesWrite size offset)

/-- R394, R395, R366: a unit that does not run starts running only by a host write of CTRL with START = 1. (The turns are the
model's, log 4.) -/
def Obligations.OnlyStartMakesTheUnitRun : Prop :=
  ∀ s t : State, step s = .next t → s.run ≠ .running → t.run = .running →
    ∃ v : Word, HostWriteNext s 0x400 v ∧ v.getLsbD 0 = true

/-- R241, R391, R45, R46: a valid bit that goes to 0, or a counter that does not keep or advance its value, comes only from a
host write of CTRL with SRESET = 1. (The turns are the model's, log 4.) -/
def Obligations.OnlyResetClearsTablesAndCounters : Prop :=
  ∀ s t : State, step s = .next t →
    (∃ p b, (s.tvalid p).getLsbD b = true ∧ (t.tvalid p).getLsbD b = false) ∨
      (t.instret ≠ s.instret ∧ t.instret ≠ s.instret + 1) ∨
      (∀ p, t.tgencnt ≠ s.tgencnt + BitVec.ofNat 32 (newTables s t p)) →
    ∃ v : Word, HostWriteNext s 0x400 v ∧ v.getLsbD 3 = true

/-- R71, R89, R412, R380: IMEM changes only by a host write in its window while the unit does not run; and a host access
while it runs changes no register, memory, writable CSR, SCALEF, table bit, counter or ENTRY, but for SRESET. (What it may
change, by CTRL and IRQSTAT, is in HostControlWritesAct and HostWindowsReachTheState; the turns are the model's, log 4.) -/
def Obligations.OnlyAnIdleHostChangesImem : Prop :=
  ∀ s t : State, step s = .next t →
    (t.imem ≠ s.imem → s.run ≠ .running ∧ ∃ (offset v : Word), HostWriteNext s offset v ∧
      0x10000 ≤ offset.toNat ∧ offset.toNat < 0x10000 + 4 * s.params.imemWords) ∧
    (s.run = .running → ∀ a rest, s.turns = .host a :: rest → (∀ v : Word, HostWriteNext s 0x400 v → v.getLsbD 3 = false) →
      t.regs = s.regs ∧ t.dmem = s.dmem ∧ t.imem = s.imem ∧ t.entry = s.entry ∧ t.prec = s.prec ∧
      t.scaleLo = s.scaleLo ∧ t.scaleHi = s.scaleHi ∧ t.scalef = s.scalef ∧ t.bcount = s.bcount ∧
      t.istride = s.istride ∧ t.bstride = s.bstride ∧ t.ostride = s.ostride ∧ t.tvalidF32 = s.tvalidF32 ∧
      t.tvalidF64 = s.tvalidF64 ∧ t.tvalidQ31 = s.tvalidQ31 ∧ t.tgencnt = s.tgencnt ∧ t.instret = s.instret)

/-! ## Reset and invariants -/

/-- R391 with R20 to R47: what reset leaves. (That State.reset takes the reference parameters of R7 and empty memories is the
model's choice, logs 1 and 2; the statement is of every parameter choice, and of the soft reset.) -/
def Obligations.ResetLeavesTheStatedValues : Prop :=
  ∀ (c : Params) (s : State), ∀ t ∈ [State.powerOn c, s.softReset],
    (∀ r : Reg, t.reg r = 0) ∧ t.pc = 0 ∧ t.prec = .fp32 ∧ t.statusWord = 0 ∧ t.cause = 0 ∧ t.fpc = 0 ∧ t.finfo = 0 ∧
    t.scaleLo = 0 ∧ t.scaleHi = 0x3FF00000 ∧ t.scalef = 0x3F800000 ∧ t.bcount = 1 ∧ t.istride = 1 ∧ t.bstride = 0 ∧
    t.ostride = 1 ∧ (∀ p, t.tvalid p = 0) ∧ t.tgencnt = 0 ∧ t.instret = 0 ∧ t.ctrlWord = 0 ∧ t.entry = 0 ∧
    t.irqstatWord = 0 ∧ t.irq = false ∧ t.csr? 0x00 = some 0x54580001 ∧
    ((State.powerOn c).params = c ∧ s.softReset.params = s.params ∧ s.softReset.imem = s.imem ∧
      s.softReset.dmem = s.dmem)

/-- The invariants hold at State.reset. (The reference parameters and the blank memories are the model's choice, logs 1
and 2.) -/
def Obligations.ResetMeetsTheInvariants : Prop := State.reset.Inv

/-- Logs 1 and 4, R71, R72, R80: every step keeps both memories canonical and inside the addresses that exist. -/
def Obligations.StepKeepsTheMemories : Prop :=
  ∀ s t : State, s.MemoryOk → step s = .next t → t.MemoryOk ∧ t.params = s.params

/-- R33, R34, R35, R37 to R39, R51, R352, R385: every step keeps MODE.PREC implemented, SCALEF consistent with SCALE, and the
fault record in agreement with the run state. (Steps are turns, log 4.) -/
def Obligations.StepKeepsModeScaleAndRecord : Prop :=
  ∀ s t : State, step s = .next t →
    (s.ModeOk → t.ModeOk) ∧ (s.ScaleOk → t.ScaleOk) ∧ (s.RecordOk → t.RecordOk)

/-- R44, R240, R241: every step keeps the valid bits within the slots that the unit's lengths can need, and none set for a
precision that is not implemented. (Steps are turns, log 4.) -/
def Obligations.StepKeepsTheTableBits : Prop :=
  ∀ s t : State, s.ModeOk → s.TablesOk → step s = .next t → t.TablesOk

/-! ## RESCALE -/

/-- R154: RESCALE of the dyadic number v / 2^k. In FP32 and FP64 it is correctly rounded with roundTiesToEven, with overflow
to infinity, and 0 gives +0; in Q31 it is clamp(rne(v·2^31 / 2^k), −2^31, 2^31 − 1). (Of irrational numbers see log 8; the
encodings of IEEE 754 are log 10.) -/
def Obligations.RescaleRoundsDyadicNumbers : Prop :=
  ∀ d : Sys2Proof.Machine.Dyadic,
    let v : Int := if d.neg then -(d.num : Int) else d.num
    (v = 0 → ∀ p, rescale p (.dyadic d) = 0) ∧
    fmt32.RoundsTo (v * 2 ^ 149) d.k (rescale .fp32 (.dyadic d)).toNat ∧
    fmt64.RoundsTo (v * 2 ^ 1074) d.k (rescale .fp64 (.dyadic d)).toNat ∧
    ∃ r : Int, 2 * (v * 2 ^ 31 - r * 2 ^ d.k).natAbs ≤ 2 ^ d.k ∧
      (2 * (v * 2 ^ 31 - r * 2 ^ d.k).natAbs = 2 ^ d.k → r % 2 = 0) ∧
      BitVec.toInt (n := 32) (rescale .q31 (.dyadic d)) = max (-2147483648) (min r 2147483647)
end

