-- ==== Sys2Proof/Laws/State.lean ====
section
/-! SUPPORT. One lemma per field per update of the state: what each named update does to each field. -/

namespace Sys2Proof.Machine

/-! ## DMEM replaced -/

@[simp] theorem State.setDmem_params (s : State) (m : Memory) : (s.setDmem m).params = s.params := rfl
@[simp] theorem State.setDmem_regs (s : State) (m : Memory) : (s.setDmem m).regs = s.regs := rfl
@[simp] theorem State.setDmem_pc (s : State) (m : Memory) : (s.setDmem m).pc = s.pc := rfl
@[simp] theorem State.setDmem_prec (s : State) (m : Memory) : (s.setDmem m).prec = s.prec := rfl
@[simp] theorem State.setDmem_run (s : State) (m : Memory) : (s.setDmem m).run = s.run := rfl
@[simp] theorem State.setDmem_hosterr (s : State) (m : Memory) : (s.setDmem m).hosterr = s.hosterr := rfl
@[simp] theorem State.setDmem_cause (s : State) (m : Memory) : (s.setDmem m).cause = s.cause := rfl
@[simp] theorem State.setDmem_fpc (s : State) (m : Memory) : (s.setDmem m).fpc = s.fpc := rfl
@[simp] theorem State.setDmem_finfo (s : State) (m : Memory) : (s.setDmem m).finfo = s.finfo := rfl
@[simp] theorem State.setDmem_scaleLo (s : State) (m : Memory) : (s.setDmem m).scaleLo = s.scaleLo := rfl
@[simp] theorem State.setDmem_scaleHi (s : State) (m : Memory) : (s.setDmem m).scaleHi = s.scaleHi := rfl
@[simp] theorem State.setDmem_scalef (s : State) (m : Memory) : (s.setDmem m).scalef = s.scalef := rfl
@[simp] theorem State.setDmem_bcount (s : State) (m : Memory) : (s.setDmem m).bcount = s.bcount := rfl
@[simp] theorem State.setDmem_istride (s : State) (m : Memory) : (s.setDmem m).istride = s.istride := rfl
@[simp] theorem State.setDmem_bstride (s : State) (m : Memory) : (s.setDmem m).bstride = s.bstride := rfl
@[simp] theorem State.setDmem_ostride (s : State) (m : Memory) : (s.setDmem m).ostride = s.ostride := rfl
@[simp] theorem State.setDmem_tvalidF32 (s : State) (m : Memory) : (s.setDmem m).tvalidF32 = s.tvalidF32 := rfl
@[simp] theorem State.setDmem_tvalidF64 (s : State) (m : Memory) : (s.setDmem m).tvalidF64 = s.tvalidF64 := rfl
@[simp] theorem State.setDmem_tvalidQ31 (s : State) (m : Memory) : (s.setDmem m).tvalidQ31 = s.tvalidQ31 := rfl
@[simp] theorem State.setDmem_tgencnt (s : State) (m : Memory) : (s.setDmem m).tgencnt = s.tgencnt := rfl
@[simp] theorem State.setDmem_instret (s : State) (m : Memory) : (s.setDmem m).instret = s.instret := rfl
@[simp] theorem State.setDmem_ie (s : State) (m : Memory) : (s.setDmem m).ie = s.ie := rfl
@[simp] theorem State.setDmem_entry (s : State) (m : Memory) : (s.setDmem m).entry = s.entry := rfl
@[simp] theorem State.setDmem_irqDone (s : State) (m : Memory) : (s.setDmem m).irqDone = s.irqDone := rfl
@[simp] theorem State.setDmem_irqFault (s : State) (m : Memory) : (s.setDmem m).irqFault = s.irqFault := rfl
@[simp] theorem State.setDmem_imem (s : State) (m : Memory) : (s.setDmem m).imem = s.imem := rfl
@[simp] theorem State.setDmem_dmem (s : State) (m : Memory) : (s.setDmem m).dmem = m := rfl
@[simp] theorem State.setDmem_turns (s : State) (m : Memory) : (s.setDmem m).turns = s.turns := rfl
@[simp] theorem State.setDmem_hostReply (s : State) (m : Memory) : (s.setDmem m).hostReply = s.hostReply := rfl

/-! ## The fault action (60_exceptions.md R351) -/

@[simp] theorem State.raise_params (s : State) (t : Trap) : (s.raise t).params = s.params := rfl
@[simp] theorem State.raise_regs (s : State) (t : Trap) : (s.raise t).regs = s.regs := rfl
@[simp] theorem State.raise_pc (s : State) (t : Trap) : (s.raise t).pc = s.pc := rfl
@[simp] theorem State.raise_prec (s : State) (t : Trap) : (s.raise t).prec = s.prec := rfl
@[simp] theorem State.raise_run (s : State) (t : Trap) : (s.raise t).run = .faulted := rfl
@[simp] theorem State.raise_hosterr (s : State) (t : Trap) : (s.raise t).hosterr = s.hosterr := rfl
@[simp] theorem State.raise_cause (s : State) (t : Trap) : (s.raise t).cause = t.cause.code := rfl
@[simp] theorem State.raise_fpc (s : State) (t : Trap) : (s.raise t).fpc = s.pc := rfl
@[simp] theorem State.raise_finfo (s : State) (t : Trap) : (s.raise t).finfo = BitVec.ofNat 32 t.info := rfl
@[simp] theorem State.raise_scaleLo (s : State) (t : Trap) : (s.raise t).scaleLo = s.scaleLo := rfl
@[simp] theorem State.raise_scaleHi (s : State) (t : Trap) : (s.raise t).scaleHi = s.scaleHi := rfl
@[simp] theorem State.raise_scalef (s : State) (t : Trap) : (s.raise t).scalef = s.scalef := rfl
@[simp] theorem State.raise_bcount (s : State) (t : Trap) : (s.raise t).bcount = s.bcount := rfl
@[simp] theorem State.raise_istride (s : State) (t : Trap) : (s.raise t).istride = s.istride := rfl
@[simp] theorem State.raise_bstride (s : State) (t : Trap) : (s.raise t).bstride = s.bstride := rfl
@[simp] theorem State.raise_ostride (s : State) (t : Trap) : (s.raise t).ostride = s.ostride := rfl
@[simp] theorem State.raise_tvalidF32 (s : State) (t : Trap) : (s.raise t).tvalidF32 = s.tvalidF32 := rfl
@[simp] theorem State.raise_tvalidF64 (s : State) (t : Trap) : (s.raise t).tvalidF64 = s.tvalidF64 := rfl
@[simp] theorem State.raise_tvalidQ31 (s : State) (t : Trap) : (s.raise t).tvalidQ31 = s.tvalidQ31 := rfl
@[simp] theorem State.raise_tgencnt (s : State) (t : Trap) : (s.raise t).tgencnt = s.tgencnt := rfl
@[simp] theorem State.raise_instret (s : State) (t : Trap) : (s.raise t).instret = s.instret := rfl
@[simp] theorem State.raise_ie (s : State) (t : Trap) : (s.raise t).ie = s.ie := rfl
@[simp] theorem State.raise_entry (s : State) (t : Trap) : (s.raise t).entry = s.entry := rfl
@[simp] theorem State.raise_irqDone (s : State) (t : Trap) : (s.raise t).irqDone = s.irqDone := rfl
@[simp] theorem State.raise_irqFault (s : State) (t : Trap) : (s.raise t).irqFault = true := rfl
@[simp] theorem State.raise_imem (s : State) (t : Trap) : (s.raise t).imem = s.imem := rfl
@[simp] theorem State.raise_dmem (s : State) (t : Trap) : (s.raise t).dmem = s.dmem := rfl
@[simp] theorem State.raise_turns (s : State) (t : Trap) : (s.raise t).turns = s.turns := rfl
@[simp] theorem State.raise_hostReply (s : State) (t : Trap) : (s.raise t).hostReply = s.hostReply := rfl

/-! ## START (60_exceptions.md R375) -/

@[simp] theorem State.start_params (s : State) : (s.start).params = s.params := rfl
@[simp] theorem State.start_regs (s : State) : (s.start).regs = s.regs := rfl
@[simp] theorem State.start_pc (s : State) : (s.start).pc = s.entry := rfl
@[simp] theorem State.start_prec (s : State) : (s.start).prec = s.prec := rfl
@[simp] theorem State.start_run (s : State) : (s.start).run = .running := rfl
@[simp] theorem State.start_hosterr (s : State) : (s.start).hosterr = s.hosterr := rfl
@[simp] theorem State.start_cause (s : State) : (s.start).cause = 0 := rfl
@[simp] theorem State.start_fpc (s : State) : (s.start).fpc = 0 := rfl
@[simp] theorem State.start_finfo (s : State) : (s.start).finfo = 0 := rfl
@[simp] theorem State.start_scaleLo (s : State) : (s.start).scaleLo = s.scaleLo := rfl
@[simp] theorem State.start_scaleHi (s : State) : (s.start).scaleHi = s.scaleHi := rfl
@[simp] theorem State.start_scalef (s : State) : (s.start).scalef = s.scalef := rfl
@[simp] theorem State.start_bcount (s : State) : (s.start).bcount = s.bcount := rfl
@[simp] theorem State.start_istride (s : State) : (s.start).istride = s.istride := rfl
@[simp] theorem State.start_bstride (s : State) : (s.start).bstride = s.bstride := rfl
@[simp] theorem State.start_ostride (s : State) : (s.start).ostride = s.ostride := rfl
@[simp] theorem State.start_tvalidF32 (s : State) : (s.start).tvalidF32 = s.tvalidF32 := rfl
@[simp] theorem State.start_tvalidF64 (s : State) : (s.start).tvalidF64 = s.tvalidF64 := rfl
@[simp] theorem State.start_tvalidQ31 (s : State) : (s.start).tvalidQ31 = s.tvalidQ31 := rfl
@[simp] theorem State.start_tgencnt (s : State) : (s.start).tgencnt = s.tgencnt := rfl
@[simp] theorem State.start_instret (s : State) : (s.start).instret = s.instret := rfl
@[simp] theorem State.start_ie (s : State) : (s.start).ie = s.ie := rfl
@[simp] theorem State.start_entry (s : State) : (s.start).entry = s.entry := rfl
@[simp] theorem State.start_irqDone (s : State) : (s.start).irqDone = s.irqDone := rfl
@[simp] theorem State.start_irqFault (s : State) : (s.start).irqFault = s.irqFault := rfl
@[simp] theorem State.start_imem (s : State) : (s.start).imem = s.imem := rfl
@[simp] theorem State.start_dmem (s : State) : (s.start).dmem = s.dmem := rfl
@[simp] theorem State.start_turns (s : State) : (s.start).turns = s.turns := rfl
@[simp] theorem State.start_hostReply (s : State) : (s.start).hostReply = s.hostReply := rfl

/-! ## Retiring to a target (49_control.md R329) -/

@[simp] theorem State.retireTo_params (s : State) (target : Word) : (s.retireTo target).params = s.params := rfl
@[simp] theorem State.retireTo_regs (s : State) (target : Word) : (s.retireTo target).regs = s.regs := rfl
@[simp] theorem State.retireTo_pc (s : State) (target : Word) : (s.retireTo target).pc = target := rfl
@[simp] theorem State.retireTo_prec (s : State) (target : Word) : (s.retireTo target).prec = s.prec := rfl
@[simp] theorem State.retireTo_run (s : State) (target : Word) : (s.retireTo target).run = s.run := rfl
@[simp] theorem State.retireTo_hosterr (s : State) (target : Word) : (s.retireTo target).hosterr = s.hosterr := rfl
@[simp] theorem State.retireTo_cause (s : State) (target : Word) : (s.retireTo target).cause = s.cause := rfl
@[simp] theorem State.retireTo_fpc (s : State) (target : Word) : (s.retireTo target).fpc = s.fpc := rfl
@[simp] theorem State.retireTo_finfo (s : State) (target : Word) : (s.retireTo target).finfo = s.finfo := rfl
@[simp] theorem State.retireTo_scaleLo (s : State) (target : Word) : (s.retireTo target).scaleLo = s.scaleLo := rfl
@[simp] theorem State.retireTo_scaleHi (s : State) (target : Word) : (s.retireTo target).scaleHi = s.scaleHi := rfl
@[simp] theorem State.retireTo_scalef (s : State) (target : Word) : (s.retireTo target).scalef = s.scalef := rfl
@[simp] theorem State.retireTo_bcount (s : State) (target : Word) : (s.retireTo target).bcount = s.bcount := rfl
@[simp] theorem State.retireTo_istride (s : State) (target : Word) : (s.retireTo target).istride = s.istride := rfl
@[simp] theorem State.retireTo_bstride (s : State) (target : Word) : (s.retireTo target).bstride = s.bstride := rfl
@[simp] theorem State.retireTo_ostride (s : State) (target : Word) : (s.retireTo target).ostride = s.ostride := rfl
@[simp] theorem State.retireTo_tvalidF32 (s : State) (target : Word) : (s.retireTo target).tvalidF32 = s.tvalidF32 := rfl
@[simp] theorem State.retireTo_tvalidF64 (s : State) (target : Word) : (s.retireTo target).tvalidF64 = s.tvalidF64 := rfl
@[simp] theorem State.retireTo_tvalidQ31 (s : State) (target : Word) : (s.retireTo target).tvalidQ31 = s.tvalidQ31 := rfl
@[simp] theorem State.retireTo_tgencnt (s : State) (target : Word) : (s.retireTo target).tgencnt = s.tgencnt := rfl
@[simp] theorem State.retireTo_instret (s : State) (target : Word) : (s.retireTo target).instret = s.instret + 1 := rfl
@[simp] theorem State.retireTo_ie (s : State) (target : Word) : (s.retireTo target).ie = s.ie := rfl
@[simp] theorem State.retireTo_entry (s : State) (target : Word) : (s.retireTo target).entry = s.entry := rfl
@[simp] theorem State.retireTo_irqDone (s : State) (target : Word) : (s.retireTo target).irqDone = s.irqDone := rfl
@[simp] theorem State.retireTo_irqFault (s : State) (target : Word) : (s.retireTo target).irqFault = s.irqFault := rfl
@[simp] theorem State.retireTo_imem (s : State) (target : Word) : (s.retireTo target).imem = s.imem := rfl
@[simp] theorem State.retireTo_dmem (s : State) (target : Word) : (s.retireTo target).dmem = s.dmem := rfl
@[simp] theorem State.retireTo_turns (s : State) (target : Word) : (s.retireTo target).turns = s.turns := rfl
@[simp] theorem State.retireTo_hostReply (s : State) (target : Word) : (s.retireTo target).hostReply = s.hostReply := rfl

/-! ## Retiring to the next word (49_control.md R329) -/

@[simp] theorem State.retire_params (s : State) : (s.retire).params = s.params := rfl
@[simp] theorem State.retire_regs (s : State) : (s.retire).regs = s.regs := rfl
@[simp] theorem State.retire_pc (s : State) : (s.retire).pc = s.pc + 1 := rfl
@[simp] theorem State.retire_prec (s : State) : (s.retire).prec = s.prec := rfl
@[simp] theorem State.retire_run (s : State) : (s.retire).run = s.run := rfl
@[simp] theorem State.retire_hosterr (s : State) : (s.retire).hosterr = s.hosterr := rfl
@[simp] theorem State.retire_cause (s : State) : (s.retire).cause = s.cause := rfl
@[simp] theorem State.retire_fpc (s : State) : (s.retire).fpc = s.fpc := rfl
@[simp] theorem State.retire_finfo (s : State) : (s.retire).finfo = s.finfo := rfl
@[simp] theorem State.retire_scaleLo (s : State) : (s.retire).scaleLo = s.scaleLo := rfl
@[simp] theorem State.retire_scaleHi (s : State) : (s.retire).scaleHi = s.scaleHi := rfl
@[simp] theorem State.retire_scalef (s : State) : (s.retire).scalef = s.scalef := rfl
@[simp] theorem State.retire_bcount (s : State) : (s.retire).bcount = s.bcount := rfl
@[simp] theorem State.retire_istride (s : State) : (s.retire).istride = s.istride := rfl
@[simp] theorem State.retire_bstride (s : State) : (s.retire).bstride = s.bstride := rfl
@[simp] theorem State.retire_ostride (s : State) : (s.retire).ostride = s.ostride := rfl
@[simp] theorem State.retire_tvalidF32 (s : State) : (s.retire).tvalidF32 = s.tvalidF32 := rfl
@[simp] theorem State.retire_tvalidF64 (s : State) : (s.retire).tvalidF64 = s.tvalidF64 := rfl
@[simp] theorem State.retire_tvalidQ31 (s : State) : (s.retire).tvalidQ31 = s.tvalidQ31 := rfl
@[simp] theorem State.retire_tgencnt (s : State) : (s.retire).tgencnt = s.tgencnt := rfl
@[simp] theorem State.retire_instret (s : State) : (s.retire).instret = s.instret + 1 := rfl
@[simp] theorem State.retire_ie (s : State) : (s.retire).ie = s.ie := rfl
@[simp] theorem State.retire_entry (s : State) : (s.retire).entry = s.entry := rfl
@[simp] theorem State.retire_irqDone (s : State) : (s.retire).irqDone = s.irqDone := rfl
@[simp] theorem State.retire_irqFault (s : State) : (s.retire).irqFault = s.irqFault := rfl
@[simp] theorem State.retire_imem (s : State) : (s.retire).imem = s.imem := rfl
@[simp] theorem State.retire_dmem (s : State) : (s.retire).dmem = s.dmem := rfl
@[simp] theorem State.retire_turns (s : State) : (s.retire).turns = s.turns := rfl
@[simp] theorem State.retire_hostReply (s : State) : (s.retire).hostReply = s.hostReply := rfl

/-! ## A refused host access (60_exceptions.md R381) -/

@[simp] theorem State.refuse_params (s : State) : (s.refuse).params = s.params := rfl
@[simp] theorem State.refuse_regs (s : State) : (s.refuse).regs = s.regs := rfl
@[simp] theorem State.refuse_pc (s : State) : (s.refuse).pc = s.pc := rfl
@[simp] theorem State.refuse_prec (s : State) : (s.refuse).prec = s.prec := rfl
@[simp] theorem State.refuse_run (s : State) : (s.refuse).run = s.run := rfl
@[simp] theorem State.refuse_hosterr (s : State) : (s.refuse).hosterr = true := rfl
@[simp] theorem State.refuse_cause (s : State) : (s.refuse).cause = s.cause := rfl
@[simp] theorem State.refuse_fpc (s : State) : (s.refuse).fpc = s.fpc := rfl
@[simp] theorem State.refuse_finfo (s : State) : (s.refuse).finfo = s.finfo := rfl
@[simp] theorem State.refuse_scaleLo (s : State) : (s.refuse).scaleLo = s.scaleLo := rfl
@[simp] theorem State.refuse_scaleHi (s : State) : (s.refuse).scaleHi = s.scaleHi := rfl
@[simp] theorem State.refuse_scalef (s : State) : (s.refuse).scalef = s.scalef := rfl
@[simp] theorem State.refuse_bcount (s : State) : (s.refuse).bcount = s.bcount := rfl
@[simp] theorem State.refuse_istride (s : State) : (s.refuse).istride = s.istride := rfl
@[simp] theorem State.refuse_bstride (s : State) : (s.refuse).bstride = s.bstride := rfl
@[simp] theorem State.refuse_ostride (s : State) : (s.refuse).ostride = s.ostride := rfl
@[simp] theorem State.refuse_tvalidF32 (s : State) : (s.refuse).tvalidF32 = s.tvalidF32 := rfl
@[simp] theorem State.refuse_tvalidF64 (s : State) : (s.refuse).tvalidF64 = s.tvalidF64 := rfl
@[simp] theorem State.refuse_tvalidQ31 (s : State) : (s.refuse).tvalidQ31 = s.tvalidQ31 := rfl
@[simp] theorem State.refuse_tgencnt (s : State) : (s.refuse).tgencnt = s.tgencnt := rfl
@[simp] theorem State.refuse_instret (s : State) : (s.refuse).instret = s.instret := rfl
@[simp] theorem State.refuse_ie (s : State) : (s.refuse).ie = s.ie := rfl
@[simp] theorem State.refuse_entry (s : State) : (s.refuse).entry = s.entry := rfl
@[simp] theorem State.refuse_irqDone (s : State) : (s.refuse).irqDone = s.irqDone := rfl
@[simp] theorem State.refuse_irqFault (s : State) : (s.refuse).irqFault = s.irqFault := rfl
@[simp] theorem State.refuse_imem (s : State) : (s.refuse).imem = s.imem := rfl
@[simp] theorem State.refuse_dmem (s : State) : (s.refuse).dmem = s.dmem := rfl
@[simp] theorem State.refuse_turns (s : State) : (s.refuse).turns = s.turns := rfl
@[simp] theorem State.refuse_hostReply (s : State) : (s.refuse).hostReply = s.hostReply := rfl

/-! ## A host write of IRQSTAT (60_exceptions.md R376) -/

@[simp] theorem State.writeIrqstat_params (s : State) (v : Word) : (s.writeIrqstat v).params = s.params := rfl
@[simp] theorem State.writeIrqstat_regs (s : State) (v : Word) : (s.writeIrqstat v).regs = s.regs := rfl
@[simp] theorem State.writeIrqstat_pc (s : State) (v : Word) : (s.writeIrqstat v).pc = s.pc := rfl
@[simp] theorem State.writeIrqstat_prec (s : State) (v : Word) : (s.writeIrqstat v).prec = s.prec := rfl
@[simp] theorem State.writeIrqstat_run (s : State) (v : Word) : (s.writeIrqstat v).run = s.run := rfl
@[simp] theorem State.writeIrqstat_hosterr (s : State) (v : Word) : (s.writeIrqstat v).hosterr = (s.hosterr && !v.getLsbD 2) := rfl
@[simp] theorem State.writeIrqstat_cause (s : State) (v : Word) : (s.writeIrqstat v).cause = s.cause := rfl
@[simp] theorem State.writeIrqstat_fpc (s : State) (v : Word) : (s.writeIrqstat v).fpc = s.fpc := rfl
@[simp] theorem State.writeIrqstat_finfo (s : State) (v : Word) : (s.writeIrqstat v).finfo = s.finfo := rfl
@[simp] theorem State.writeIrqstat_scaleLo (s : State) (v : Word) : (s.writeIrqstat v).scaleLo = s.scaleLo := rfl
@[simp] theorem State.writeIrqstat_scaleHi (s : State) (v : Word) : (s.writeIrqstat v).scaleHi = s.scaleHi := rfl
@[simp] theorem State.writeIrqstat_scalef (s : State) (v : Word) : (s.writeIrqstat v).scalef = s.scalef := rfl
@[simp] theorem State.writeIrqstat_bcount (s : State) (v : Word) : (s.writeIrqstat v).bcount = s.bcount := rfl
@[simp] theorem State.writeIrqstat_istride (s : State) (v : Word) : (s.writeIrqstat v).istride = s.istride := rfl
@[simp] theorem State.writeIrqstat_bstride (s : State) (v : Word) : (s.writeIrqstat v).bstride = s.bstride := rfl
@[simp] theorem State.writeIrqstat_ostride (s : State) (v : Word) : (s.writeIrqstat v).ostride = s.ostride := rfl
@[simp] theorem State.writeIrqstat_tvalidF32 (s : State) (v : Word) : (s.writeIrqstat v).tvalidF32 = s.tvalidF32 := rfl
@[simp] theorem State.writeIrqstat_tvalidF64 (s : State) (v : Word) : (s.writeIrqstat v).tvalidF64 = s.tvalidF64 := rfl
@[simp] theorem State.writeIrqstat_tvalidQ31 (s : State) (v : Word) : (s.writeIrqstat v).tvalidQ31 = s.tvalidQ31 := rfl
@[simp] theorem State.writeIrqstat_tgencnt (s : State) (v : Word) : (s.writeIrqstat v).tgencnt = s.tgencnt := rfl
@[simp] theorem State.writeIrqstat_instret (s : State) (v : Word) : (s.writeIrqstat v).instret = s.instret := rfl
@[simp] theorem State.writeIrqstat_ie (s : State) (v : Word) : (s.writeIrqstat v).ie = s.ie := rfl
@[simp] theorem State.writeIrqstat_entry (s : State) (v : Word) : (s.writeIrqstat v).entry = s.entry := rfl
@[simp] theorem State.writeIrqstat_irqDone (s : State) (v : Word) : (s.writeIrqstat v).irqDone = (s.irqDone && !v.getLsbD 0) := rfl
@[simp] theorem State.writeIrqstat_irqFault (s : State) (v : Word) : (s.writeIrqstat v).irqFault = (s.irqFault && !v.getLsbD 1) := rfl
@[simp] theorem State.writeIrqstat_imem (s : State) (v : Word) : (s.writeIrqstat v).imem = s.imem := rfl
@[simp] theorem State.writeIrqstat_dmem (s : State) (v : Word) : (s.writeIrqstat v).dmem = s.dmem := rfl
@[simp] theorem State.writeIrqstat_turns (s : State) (v : Word) : (s.writeIrqstat v).turns = s.turns := rfl
@[simp] theorem State.writeIrqstat_hostReply (s : State) (v : Word) : (s.writeIrqstat v).hostReply = s.hostReply := rfl

/-! ## A write of SCALE_LO (10_state.md R36, R37) -/

@[simp] theorem State.writeScaleLo_params (s : State) (v : Word) : (s.writeScaleLo v).params = s.params := rfl
@[simp] theorem State.writeScaleLo_regs (s : State) (v : Word) : (s.writeScaleLo v).regs = s.regs := rfl
@[simp] theorem State.writeScaleLo_pc (s : State) (v : Word) : (s.writeScaleLo v).pc = s.pc := rfl
@[simp] theorem State.writeScaleLo_prec (s : State) (v : Word) : (s.writeScaleLo v).prec = s.prec := rfl
@[simp] theorem State.writeScaleLo_run (s : State) (v : Word) : (s.writeScaleLo v).run = s.run := rfl
@[simp] theorem State.writeScaleLo_hosterr (s : State) (v : Word) : (s.writeScaleLo v).hosterr = s.hosterr := rfl
@[simp] theorem State.writeScaleLo_cause (s : State) (v : Word) : (s.writeScaleLo v).cause = s.cause := rfl
@[simp] theorem State.writeScaleLo_fpc (s : State) (v : Word) : (s.writeScaleLo v).fpc = s.fpc := rfl
@[simp] theorem State.writeScaleLo_finfo (s : State) (v : Word) : (s.writeScaleLo v).finfo = s.finfo := rfl
@[simp] theorem State.writeScaleLo_scaleLo (s : State) (v : Word) : (s.writeScaleLo v).scaleLo = v := rfl
@[simp] theorem State.writeScaleLo_scaleHi (s : State) (v : Word) : (s.writeScaleLo v).scaleHi = s.scaleHi := rfl
@[simp] theorem State.writeScaleLo_scalef (s : State) (v : Word) : (s.writeScaleLo v).scalef = scalefOf (State.scaleBits { s with scaleLo := v }) := rfl
@[simp] theorem State.writeScaleLo_bcount (s : State) (v : Word) : (s.writeScaleLo v).bcount = s.bcount := rfl
@[simp] theorem State.writeScaleLo_istride (s : State) (v : Word) : (s.writeScaleLo v).istride = s.istride := rfl
@[simp] theorem State.writeScaleLo_bstride (s : State) (v : Word) : (s.writeScaleLo v).bstride = s.bstride := rfl
@[simp] theorem State.writeScaleLo_ostride (s : State) (v : Word) : (s.writeScaleLo v).ostride = s.ostride := rfl
@[simp] theorem State.writeScaleLo_tvalidF32 (s : State) (v : Word) : (s.writeScaleLo v).tvalidF32 = s.tvalidF32 := rfl
@[simp] theorem State.writeScaleLo_tvalidF64 (s : State) (v : Word) : (s.writeScaleLo v).tvalidF64 = s.tvalidF64 := rfl
@[simp] theorem State.writeScaleLo_tvalidQ31 (s : State) (v : Word) : (s.writeScaleLo v).tvalidQ31 = s.tvalidQ31 := rfl
@[simp] theorem State.writeScaleLo_tgencnt (s : State) (v : Word) : (s.writeScaleLo v).tgencnt = s.tgencnt := rfl
@[simp] theorem State.writeScaleLo_instret (s : State) (v : Word) : (s.writeScaleLo v).instret = s.instret := rfl
@[simp] theorem State.writeScaleLo_ie (s : State) (v : Word) : (s.writeScaleLo v).ie = s.ie := rfl
@[simp] theorem State.writeScaleLo_entry (s : State) (v : Word) : (s.writeScaleLo v).entry = s.entry := rfl
@[simp] theorem State.writeScaleLo_irqDone (s : State) (v : Word) : (s.writeScaleLo v).irqDone = s.irqDone := rfl
@[simp] theorem State.writeScaleLo_irqFault (s : State) (v : Word) : (s.writeScaleLo v).irqFault = s.irqFault := rfl
@[simp] theorem State.writeScaleLo_imem (s : State) (v : Word) : (s.writeScaleLo v).imem = s.imem := rfl
@[simp] theorem State.writeScaleLo_dmem (s : State) (v : Word) : (s.writeScaleLo v).dmem = s.dmem := rfl
@[simp] theorem State.writeScaleLo_turns (s : State) (v : Word) : (s.writeScaleLo v).turns = s.turns := rfl
@[simp] theorem State.writeScaleLo_hostReply (s : State) (v : Word) : (s.writeScaleLo v).hostReply = s.hostReply := rfl

/-! ## A write of SCALE_HI (10_state.md R36, R37) -/

@[simp] theorem State.writeScaleHi_params (s : State) (v : Word) : (s.writeScaleHi v).params = s.params := rfl
@[simp] theorem State.writeScaleHi_regs (s : State) (v : Word) : (s.writeScaleHi v).regs = s.regs := rfl
@[simp] theorem State.writeScaleHi_pc (s : State) (v : Word) : (s.writeScaleHi v).pc = s.pc := rfl
@[simp] theorem State.writeScaleHi_prec (s : State) (v : Word) : (s.writeScaleHi v).prec = s.prec := rfl
@[simp] theorem State.writeScaleHi_run (s : State) (v : Word) : (s.writeScaleHi v).run = s.run := rfl
@[simp] theorem State.writeScaleHi_hosterr (s : State) (v : Word) : (s.writeScaleHi v).hosterr = s.hosterr := rfl
@[simp] theorem State.writeScaleHi_cause (s : State) (v : Word) : (s.writeScaleHi v).cause = s.cause := rfl
@[simp] theorem State.writeScaleHi_fpc (s : State) (v : Word) : (s.writeScaleHi v).fpc = s.fpc := rfl
@[simp] theorem State.writeScaleHi_finfo (s : State) (v : Word) : (s.writeScaleHi v).finfo = s.finfo := rfl
@[simp] theorem State.writeScaleHi_scaleLo (s : State) (v : Word) : (s.writeScaleHi v).scaleLo = s.scaleLo := rfl
@[simp] theorem State.writeScaleHi_scaleHi (s : State) (v : Word) : (s.writeScaleHi v).scaleHi = v := rfl
@[simp] theorem State.writeScaleHi_scalef (s : State) (v : Word) : (s.writeScaleHi v).scalef = scalefOf (State.scaleBits { s with scaleHi := v }) := rfl
@[simp] theorem State.writeScaleHi_bcount (s : State) (v : Word) : (s.writeScaleHi v).bcount = s.bcount := rfl
@[simp] theorem State.writeScaleHi_istride (s : State) (v : Word) : (s.writeScaleHi v).istride = s.istride := rfl
@[simp] theorem State.writeScaleHi_bstride (s : State) (v : Word) : (s.writeScaleHi v).bstride = s.bstride := rfl
@[simp] theorem State.writeScaleHi_ostride (s : State) (v : Word) : (s.writeScaleHi v).ostride = s.ostride := rfl
@[simp] theorem State.writeScaleHi_tvalidF32 (s : State) (v : Word) : (s.writeScaleHi v).tvalidF32 = s.tvalidF32 := rfl
@[simp] theorem State.writeScaleHi_tvalidF64 (s : State) (v : Word) : (s.writeScaleHi v).tvalidF64 = s.tvalidF64 := rfl
@[simp] theorem State.writeScaleHi_tvalidQ31 (s : State) (v : Word) : (s.writeScaleHi v).tvalidQ31 = s.tvalidQ31 := rfl
@[simp] theorem State.writeScaleHi_tgencnt (s : State) (v : Word) : (s.writeScaleHi v).tgencnt = s.tgencnt := rfl
@[simp] theorem State.writeScaleHi_instret (s : State) (v : Word) : (s.writeScaleHi v).instret = s.instret := rfl
@[simp] theorem State.writeScaleHi_ie (s : State) (v : Word) : (s.writeScaleHi v).ie = s.ie := rfl
@[simp] theorem State.writeScaleHi_entry (s : State) (v : Word) : (s.writeScaleHi v).entry = s.entry := rfl
@[simp] theorem State.writeScaleHi_irqDone (s : State) (v : Word) : (s.writeScaleHi v).irqDone = s.irqDone := rfl
@[simp] theorem State.writeScaleHi_irqFault (s : State) (v : Word) : (s.writeScaleHi v).irqFault = s.irqFault := rfl
@[simp] theorem State.writeScaleHi_imem (s : State) (v : Word) : (s.writeScaleHi v).imem = s.imem := rfl
@[simp] theorem State.writeScaleHi_dmem (s : State) (v : Word) : (s.writeScaleHi v).dmem = s.dmem := rfl
@[simp] theorem State.writeScaleHi_turns (s : State) (v : Word) : (s.writeScaleHi v).turns = s.turns := rfl
@[simp] theorem State.writeScaleHi_hostReply (s : State) (v : Word) : (s.writeScaleHi v).hostReply = s.hostReply := rfl

/-! ## The soft reset (70_reset_and_hazards.md R391, R392) -/

@[simp] theorem State.softReset_params (s : State) : (s.softReset).params = s.params := rfl
@[simp] theorem State.softReset_regs (s : State) : (s.softReset).regs = Vector.replicate 16 0 := rfl
@[simp] theorem State.softReset_pc (s : State) : (s.softReset).pc = 0 := rfl
@[simp] theorem State.softReset_prec (s : State) : (s.softReset).prec = .fp32 := rfl
@[simp] theorem State.softReset_run (s : State) : (s.softReset).run = .idle := rfl
@[simp] theorem State.softReset_hosterr (s : State) : (s.softReset).hosterr = false := rfl
@[simp] theorem State.softReset_cause (s : State) : (s.softReset).cause = 0 := rfl
@[simp] theorem State.softReset_fpc (s : State) : (s.softReset).fpc = 0 := rfl
@[simp] theorem State.softReset_finfo (s : State) : (s.softReset).finfo = 0 := rfl
@[simp] theorem State.softReset_scaleLo (s : State) : (s.softReset).scaleLo = 0 := rfl
@[simp] theorem State.softReset_scaleHi (s : State) : (s.softReset).scaleHi = 0x3FF00000 := rfl
@[simp] theorem State.softReset_scalef (s : State) : (s.softReset).scalef = 0x3F800000 := rfl
@[simp] theorem State.softReset_bcount (s : State) : (s.softReset).bcount = 1 := rfl
@[simp] theorem State.softReset_istride (s : State) : (s.softReset).istride = 1 := rfl
@[simp] theorem State.softReset_bstride (s : State) : (s.softReset).bstride = 0 := rfl
@[simp] theorem State.softReset_ostride (s : State) : (s.softReset).ostride = 1 := rfl
@[simp] theorem State.softReset_tvalidF32 (s : State) : (s.softReset).tvalidF32 = 0 := rfl
@[simp] theorem State.softReset_tvalidF64 (s : State) : (s.softReset).tvalidF64 = 0 := rfl
@[simp] theorem State.softReset_tvalidQ31 (s : State) : (s.softReset).tvalidQ31 = 0 := rfl
@[simp] theorem State.softReset_tgencnt (s : State) : (s.softReset).tgencnt = 0 := rfl
@[simp] theorem State.softReset_instret (s : State) : (s.softReset).instret = 0 := rfl
@[simp] theorem State.softReset_ie (s : State) : (s.softReset).ie = false := rfl
@[simp] theorem State.softReset_entry (s : State) : (s.softReset).entry = 0 := rfl
@[simp] theorem State.softReset_irqDone (s : State) : (s.softReset).irqDone = false := rfl
@[simp] theorem State.softReset_irqFault (s : State) : (s.softReset).irqFault = false := rfl
@[simp] theorem State.softReset_imem (s : State) : (s.softReset).imem = s.imem := rfl
@[simp] theorem State.softReset_dmem (s : State) : (s.softReset).dmem = s.dmem := rfl
@[simp] theorem State.softReset_turns (s : State) : (s.softReset).turns = s.turns := rfl
@[simp] theorem State.softReset_hostReply (s : State) : (s.softReset).hostReply = s.hostReply := rfl

/-! ## A register written (10_state.md R21) -/

@[simp] theorem State.setReg_params (s : State) (r : Reg) (v : Word) : (s.setReg r v).params = s.params := by
  unfold State.setReg; split <;> rfl
@[simp] theorem State.setReg_pc (s : State) (r : Reg) (v : Word) : (s.setReg r v).pc = s.pc := by
  unfold State.setReg; split <;> rfl
@[simp] theorem State.setReg_prec (s : State) (r : Reg) (v : Word) : (s.setReg r v).prec = s.prec := by
  unfold State.setReg; split <;> rfl
@[simp] theorem State.setReg_run (s : State) (r : Reg) (v : Word) : (s.setReg r v).run = s.run := by
  unfold State.setReg; split <;> rfl
@[simp] theorem State.setReg_hosterr (s : State) (r : Reg) (v : Word) : (s.setReg r v).hosterr = s.hosterr := by
  unfold State.setReg; split <;> rfl
@[simp] theorem State.setReg_cause (s : State) (r : Reg) (v : Word) : (s.setReg r v).cause = s.cause := by
  unfold State.setReg; split <;> rfl
@[simp] theorem State.setReg_fpc (s : State) (r : Reg) (v : Word) : (s.setReg r v).fpc = s.fpc := by
  unfold State.setReg; split <;> rfl
@[simp] theorem State.setReg_finfo (s : State) (r : Reg) (v : Word) : (s.setReg r v).finfo = s.finfo := by
  unfold State.setReg; split <;> rfl
@[simp] theorem State.setReg_scaleLo (s : State) (r : Reg) (v : Word) : (s.setReg r v).scaleLo = s.scaleLo := by
  unfold State.setReg; split <;> rfl
@[simp] theorem State.setReg_scaleHi (s : State) (r : Reg) (v : Word) : (s.setReg r v).scaleHi = s.scaleHi := by
  unfold State.setReg; split <;> rfl
@[simp] theorem State.setReg_scalef (s : State) (r : Reg) (v : Word) : (s.setReg r v).scalef = s.scalef := by
  unfold State.setReg; split <;> rfl
@[simp] theorem State.setReg_bcount (s : State) (r : Reg) (v : Word) : (s.setReg r v).bcount = s.bcount := by
  unfold State.setReg; split <;> rfl
@[simp] theorem State.setReg_istride (s : State) (r : Reg) (v : Word) : (s.setReg r v).istride = s.istride := by
  unfold State.setReg; split <;> rfl
@[simp] theorem State.setReg_bstride (s : State) (r : Reg) (v : Word) : (s.setReg r v).bstride = s.bstride := by
  unfold State.setReg; split <;> rfl
@[simp] theorem State.setReg_ostride (s : State) (r : Reg) (v : Word) : (s.setReg r v).ostride = s.ostride := by
  unfold State.setReg; split <;> rfl
@[simp] theorem State.setReg_tvalidF32 (s : State) (r : Reg) (v : Word) : (s.setReg r v).tvalidF32 = s.tvalidF32 := by
  unfold State.setReg; split <;> rfl
@[simp] theorem State.setReg_tvalidF64 (s : State) (r : Reg) (v : Word) : (s.setReg r v).tvalidF64 = s.tvalidF64 := by
  unfold State.setReg; split <;> rfl
@[simp] theorem State.setReg_tvalidQ31 (s : State) (r : Reg) (v : Word) : (s.setReg r v).tvalidQ31 = s.tvalidQ31 := by
  unfold State.setReg; split <;> rfl
@[simp] theorem State.setReg_tgencnt (s : State) (r : Reg) (v : Word) : (s.setReg r v).tgencnt = s.tgencnt := by
  unfold State.setReg; split <;> rfl
@[simp] theorem State.setReg_instret (s : State) (r : Reg) (v : Word) : (s.setReg r v).instret = s.instret := by
  unfold State.setReg; split <;> rfl
@[simp] theorem State.setReg_ie (s : State) (r : Reg) (v : Word) : (s.setReg r v).ie = s.ie := by
  unfold State.setReg; split <;> rfl
@[simp] theorem State.setReg_entry (s : State) (r : Reg) (v : Word) : (s.setReg r v).entry = s.entry := by
  unfold State.setReg; split <;> rfl
@[simp] theorem State.setReg_irqDone (s : State) (r : Reg) (v : Word) : (s.setReg r v).irqDone = s.irqDone := by
  unfold State.setReg; split <;> rfl
@[simp] theorem State.setReg_irqFault (s : State) (r : Reg) (v : Word) : (s.setReg r v).irqFault = s.irqFault := by
  unfold State.setReg; split <;> rfl
@[simp] theorem State.setReg_imem (s : State) (r : Reg) (v : Word) : (s.setReg r v).imem = s.imem := by
  unfold State.setReg; split <;> rfl
@[simp] theorem State.setReg_dmem (s : State) (r : Reg) (v : Word) : (s.setReg r v).dmem = s.dmem := by
  unfold State.setReg; split <;> rfl
@[simp] theorem State.setReg_turns (s : State) (r : Reg) (v : Word) : (s.setReg r v).turns = s.turns := by
  unfold State.setReg; split <;> rfl
@[simp] theorem State.setReg_hostReply (s : State) (r : Reg) (v : Word) : (s.setReg r v).hostReply = s.hostReply := by
  unfold State.setReg; split <;> rfl

@[simp] theorem State.setReg_zero (s : State) (v : Word) : s.setReg 0 v = s := by simp [State.setReg]

/-- A register write changes that register alone, and x0 never (10_state.md R21). -/
theorem State.reg_setReg (s : State) (r : Reg) (v : Word) (q : Reg) :
    (s.setReg r v).reg q = if q = r ∧ q ≠ 0 then v else s.reg q := by
  unfold State.setReg State.reg
  by_cases hq : q = 0
  · simp [hq]
  by_cases hr : r = 0
  · have : q ≠ r := fun h => hq (h.trans hr)
    simp [hr]
  simp only [hr, hq, if_false, Vector.getElem_set, ne_eq, not_false_eq_true, and_true, BitVec.toNat_inj]
  by_cases h : r = q
  · simp [h]
  · simp [h, Ne.symm h]

/-! ## Valid bits (45_twiddle.md R242) -/

@[simp] theorem State.setTvalid_params (s : State) (p : Prec) (v : Word) : (s.setTvalid p v).params = s.params := by
  cases p <;> rfl
@[simp] theorem State.setTvalid_regs (s : State) (p : Prec) (v : Word) : (s.setTvalid p v).regs = s.regs := by
  cases p <;> rfl
@[simp] theorem State.setTvalid_pc (s : State) (p : Prec) (v : Word) : (s.setTvalid p v).pc = s.pc := by
  cases p <;> rfl
@[simp] theorem State.setTvalid_prec (s : State) (p : Prec) (v : Word) : (s.setTvalid p v).prec = s.prec := by
  cases p <;> rfl
@[simp] theorem State.setTvalid_run (s : State) (p : Prec) (v : Word) : (s.setTvalid p v).run = s.run := by
  cases p <;> rfl
@[simp] theorem State.setTvalid_hosterr (s : State) (p : Prec) (v : Word) : (s.setTvalid p v).hosterr = s.hosterr := by
  cases p <;> rfl
@[simp] theorem State.setTvalid_cause (s : State) (p : Prec) (v : Word) : (s.setTvalid p v).cause = s.cause := by
  cases p <;> rfl
@[simp] theorem State.setTvalid_fpc (s : State) (p : Prec) (v : Word) : (s.setTvalid p v).fpc = s.fpc := by
  cases p <;> rfl
@[simp] theorem State.setTvalid_finfo (s : State) (p : Prec) (v : Word) : (s.setTvalid p v).finfo = s.finfo := by
  cases p <;> rfl
@[simp] theorem State.setTvalid_scaleLo (s : State) (p : Prec) (v : Word) : (s.setTvalid p v).scaleLo = s.scaleLo := by
  cases p <;> rfl
@[simp] theorem State.setTvalid_scaleHi (s : State) (p : Prec) (v : Word) : (s.setTvalid p v).scaleHi = s.scaleHi := by
  cases p <;> rfl
@[simp] theorem State.setTvalid_scalef (s : State) (p : Prec) (v : Word) : (s.setTvalid p v).scalef = s.scalef := by
  cases p <;> rfl
@[simp] theorem State.setTvalid_bcount (s : State) (p : Prec) (v : Word) : (s.setTvalid p v).bcount = s.bcount := by
  cases p <;> rfl
@[simp] theorem State.setTvalid_istride (s : State) (p : Prec) (v : Word) : (s.setTvalid p v).istride = s.istride := by
  cases p <;> rfl
@[simp] theorem State.setTvalid_bstride (s : State) (p : Prec) (v : Word) : (s.setTvalid p v).bstride = s.bstride := by
  cases p <;> rfl
@[simp] theorem State.setTvalid_ostride (s : State) (p : Prec) (v : Word) : (s.setTvalid p v).ostride = s.ostride := by
  cases p <;> rfl
@[simp] theorem State.setTvalid_tgencnt (s : State) (p : Prec) (v : Word) : (s.setTvalid p v).tgencnt = s.tgencnt := by
  cases p <;> rfl
@[simp] theorem State.setTvalid_instret (s : State) (p : Prec) (v : Word) : (s.setTvalid p v).instret = s.instret := by
  cases p <;> rfl
@[simp] theorem State.setTvalid_ie (s : State) (p : Prec) (v : Word) : (s.setTvalid p v).ie = s.ie := by
  cases p <;> rfl
@[simp] theorem State.setTvalid_entry (s : State) (p : Prec) (v : Word) : (s.setTvalid p v).entry = s.entry := by
  cases p <;> rfl
@[simp] theorem State.setTvalid_irqDone (s : State) (p : Prec) (v : Word) : (s.setTvalid p v).irqDone = s.irqDone := by
  cases p <;> rfl
@[simp] theorem State.setTvalid_irqFault (s : State) (p : Prec) (v : Word) : (s.setTvalid p v).irqFault = s.irqFault := by
  cases p <;> rfl
@[simp] theorem State.setTvalid_imem (s : State) (p : Prec) (v : Word) : (s.setTvalid p v).imem = s.imem := by
  cases p <;> rfl
@[simp] theorem State.setTvalid_dmem (s : State) (p : Prec) (v : Word) : (s.setTvalid p v).dmem = s.dmem := by
  cases p <;> rfl
@[simp] theorem State.setTvalid_turns (s : State) (p : Prec) (v : Word) : (s.setTvalid p v).turns = s.turns := by
  cases p <;> rfl
@[simp] theorem State.setTvalid_hostReply (s : State) (p : Prec) (v : Word) : (s.setTvalid p v).hostReply = s.hostReply := by
  cases p <;> rfl

/-- TVALID of each precision after a write of one of them. -/
theorem State.tvalid_setTvalid (s : State) (p q : Prec) (v : Word) :
    (s.setTvalid p v).tvalid q = if q = p then v else s.tvalid q := by
  cases p <;> cases q <;> rfl

@[simp] theorem State.ensureBit_params (s : State) (b : Nat) : (s.ensureBit b).params = s.params := by
  unfold State.ensureBit; split <;> simp
@[simp] theorem State.ensureBit_regs (s : State) (b : Nat) : (s.ensureBit b).regs = s.regs := by
  unfold State.ensureBit; split <;> simp
@[simp] theorem State.ensureBit_pc (s : State) (b : Nat) : (s.ensureBit b).pc = s.pc := by
  unfold State.ensureBit; split <;> simp
@[simp] theorem State.ensureBit_prec (s : State) (b : Nat) : (s.ensureBit b).prec = s.prec := by
  unfold State.ensureBit; split <;> simp
@[simp] theorem State.ensureBit_run (s : State) (b : Nat) : (s.ensureBit b).run = s.run := by
  unfold State.ensureBit; split <;> simp
@[simp] theorem State.ensureBit_hosterr (s : State) (b : Nat) : (s.ensureBit b).hosterr = s.hosterr := by
  unfold State.ensureBit; split <;> simp
@[simp] theorem State.ensureBit_cause (s : State) (b : Nat) : (s.ensureBit b).cause = s.cause := by
  unfold State.ensureBit; split <;> simp
@[simp] theorem State.ensureBit_fpc (s : State) (b : Nat) : (s.ensureBit b).fpc = s.fpc := by
  unfold State.ensureBit; split <;> simp
@[simp] theorem State.ensureBit_finfo (s : State) (b : Nat) : (s.ensureBit b).finfo = s.finfo := by
  unfold State.ensureBit; split <;> simp
@[simp] theorem State.ensureBit_scaleLo (s : State) (b : Nat) : (s.ensureBit b).scaleLo = s.scaleLo := by
  unfold State.ensureBit; split <;> simp
@[simp] theorem State.ensureBit_scaleHi (s : State) (b : Nat) : (s.ensureBit b).scaleHi = s.scaleHi := by
  unfold State.ensureBit; split <;> simp
@[simp] theorem State.ensureBit_scalef (s : State) (b : Nat) : (s.ensureBit b).scalef = s.scalef := by
  unfold State.ensureBit; split <;> simp
@[simp] theorem State.ensureBit_bcount (s : State) (b : Nat) : (s.ensureBit b).bcount = s.bcount := by
  unfold State.ensureBit; split <;> simp
@[simp] theorem State.ensureBit_istride (s : State) (b : Nat) : (s.ensureBit b).istride = s.istride := by
  unfold State.ensureBit; split <;> simp
@[simp] theorem State.ensureBit_bstride (s : State) (b : Nat) : (s.ensureBit b).bstride = s.bstride := by
  unfold State.ensureBit; split <;> simp
@[simp] theorem State.ensureBit_ostride (s : State) (b : Nat) : (s.ensureBit b).ostride = s.ostride := by
  unfold State.ensureBit; split <;> simp
@[simp] theorem State.ensureBit_instret (s : State) (b : Nat) : (s.ensureBit b).instret = s.instret := by
  unfold State.ensureBit; split <;> simp
@[simp] theorem State.ensureBit_ie (s : State) (b : Nat) : (s.ensureBit b).ie = s.ie := by
  unfold State.ensureBit; split <;> simp
@[simp] theorem State.ensureBit_entry (s : State) (b : Nat) : (s.ensureBit b).entry = s.entry := by
  unfold State.ensureBit; split <;> simp
@[simp] theorem State.ensureBit_irqDone (s : State) (b : Nat) : (s.ensureBit b).irqDone = s.irqDone := by
  unfold State.ensureBit; split <;> simp
@[simp] theorem State.ensureBit_irqFault (s : State) (b : Nat) : (s.ensureBit b).irqFault = s.irqFault := by
  unfold State.ensureBit; split <;> simp
@[simp] theorem State.ensureBit_imem (s : State) (b : Nat) : (s.ensureBit b).imem = s.imem := by
  unfold State.ensureBit; split <;> simp
@[simp] theorem State.ensureBit_dmem (s : State) (b : Nat) : (s.ensureBit b).dmem = s.dmem := by
  unfold State.ensureBit; split <;> simp
@[simp] theorem State.ensureBit_turns (s : State) (b : Nat) : (s.ensureBit b).turns = s.turns := by
  unfold State.ensureBit; split <;> simp
@[simp] theorem State.ensureBit_hostReply (s : State) (b : Nat) : (s.ensureBit b).hostReply = s.hostReply := by
  unfold State.ensureBit; split <;> simp

@[simp] theorem State.ensureBits_params (s : State) (l : List Nat) : (s.ensureBits l).params = s.params := by
  unfold State.ensureBits; induction l generalizing s <;> simp_all
@[simp] theorem State.ensureBits_regs (s : State) (l : List Nat) : (s.ensureBits l).regs = s.regs := by
  unfold State.ensureBits; induction l generalizing s <;> simp_all
@[simp] theorem State.ensureBits_pc (s : State) (l : List Nat) : (s.ensureBits l).pc = s.pc := by
  unfold State.ensureBits; induction l generalizing s <;> simp_all
@[simp] theorem State.ensureBits_prec (s : State) (l : List Nat) : (s.ensureBits l).prec = s.prec := by
  unfold State.ensureBits; induction l generalizing s <;> simp_all
@[simp] theorem State.ensureBits_run (s : State) (l : List Nat) : (s.ensureBits l).run = s.run := by
  unfold State.ensureBits; induction l generalizing s <;> simp_all
@[simp] theorem State.ensureBits_hosterr (s : State) (l : List Nat) : (s.ensureBits l).hosterr = s.hosterr := by
  unfold State.ensureBits; induction l generalizing s <;> simp_all
@[simp] theorem State.ensureBits_cause (s : State) (l : List Nat) : (s.ensureBits l).cause = s.cause := by
  unfold State.ensureBits; induction l generalizing s <;> simp_all
@[simp] theorem State.ensureBits_fpc (s : State) (l : List Nat) : (s.ensureBits l).fpc = s.fpc := by
  unfold State.ensureBits; induction l generalizing s <;> simp_all
@[simp] theorem State.ensureBits_finfo (s : State) (l : List Nat) : (s.ensureBits l).finfo = s.finfo := by
  unfold State.ensureBits; induction l generalizing s <;> simp_all
@[simp] theorem State.ensureBits_scaleLo (s : State) (l : List Nat) : (s.ensureBits l).scaleLo = s.scaleLo := by
  unfold State.ensureBits; induction l generalizing s <;> simp_all
@[simp] theorem State.ensureBits_scaleHi (s : State) (l : List Nat) : (s.ensureBits l).scaleHi = s.scaleHi := by
  unfold State.ensureBits; induction l generalizing s <;> simp_all
@[simp] theorem State.ensureBits_scalef (s : State) (l : List Nat) : (s.ensureBits l).scalef = s.scalef := by
  unfold State.ensureBits; induction l generalizing s <;> simp_all
@[simp] theorem State.ensureBits_bcount (s : State) (l : List Nat) : (s.ensureBits l).bcount = s.bcount := by
  unfold State.ensureBits; induction l generalizing s <;> simp_all
@[simp] theorem State.ensureBits_istride (s : State) (l : List Nat) : (s.ensureBits l).istride = s.istride := by
  unfold State.ensureBits; induction l generalizing s <;> simp_all
@[simp] theorem State.ensureBits_bstride (s : State) (l : List Nat) : (s.ensureBits l).bstride = s.bstride := by
  unfold State.ensureBits; induction l generalizing s <;> simp_all
@[simp] theorem State.ensureBits_ostride (s : State) (l : List Nat) : (s.ensureBits l).ostride = s.ostride := by
  unfold State.ensureBits; induction l generalizing s <;> simp_all
@[simp] theorem State.ensureBits_instret (s : State) (l : List Nat) : (s.ensureBits l).instret = s.instret := by
  unfold State.ensureBits; induction l generalizing s <;> simp_all
@[simp] theorem State.ensureBits_ie (s : State) (l : List Nat) : (s.ensureBits l).ie = s.ie := by
  unfold State.ensureBits; induction l generalizing s <;> simp_all
@[simp] theorem State.ensureBits_entry (s : State) (l : List Nat) : (s.ensureBits l).entry = s.entry := by
  unfold State.ensureBits; induction l generalizing s <;> simp_all
@[simp] theorem State.ensureBits_irqDone (s : State) (l : List Nat) : (s.ensureBits l).irqDone = s.irqDone := by
  unfold State.ensureBits; induction l generalizing s <;> simp_all
@[simp] theorem State.ensureBits_irqFault (s : State) (l : List Nat) : (s.ensureBits l).irqFault = s.irqFault := by
  unfold State.ensureBits; induction l generalizing s <;> simp_all
@[simp] theorem State.ensureBits_imem (s : State) (l : List Nat) : (s.ensureBits l).imem = s.imem := by
  unfold State.ensureBits; induction l generalizing s <;> simp_all
@[simp] theorem State.ensureBits_dmem (s : State) (l : List Nat) : (s.ensureBits l).dmem = s.dmem := by
  unfold State.ensureBits; induction l generalizing s <;> simp_all
@[simp] theorem State.ensureBits_turns (s : State) (l : List Nat) : (s.ensureBits l).turns = s.turns := by
  unfold State.ensureBits; induction l generalizing s <;> simp_all
@[simp] theorem State.ensureBits_hostReply (s : State) (l : List Nat) : (s.ensureBits l).hostReply = s.hostReply := by
  unfold State.ensureBits; induction l generalizing s <;> simp_all

@[simp] theorem State.ensureSlots_params (s : State) (l : List Slot) : (s.ensureSlots l).params = s.params :=
  State.ensureBits_params s _
@[simp] theorem State.ensureSlots_regs (s : State) (l : List Slot) : (s.ensureSlots l).regs = s.regs :=
  State.ensureBits_regs s _
@[simp] theorem State.ensureSlots_pc (s : State) (l : List Slot) : (s.ensureSlots l).pc = s.pc :=
  State.ensureBits_pc s _
@[simp] theorem State.ensureSlots_prec (s : State) (l : List Slot) : (s.ensureSlots l).prec = s.prec :=
  State.ensureBits_prec s _
@[simp] theorem State.ensureSlots_run (s : State) (l : List Slot) : (s.ensureSlots l).run = s.run :=
  State.ensureBits_run s _
@[simp] theorem State.ensureSlots_hosterr (s : State) (l : List Slot) : (s.ensureSlots l).hosterr = s.hosterr :=
  State.ensureBits_hosterr s _
@[simp] theorem State.ensureSlots_cause (s : State) (l : List Slot) : (s.ensureSlots l).cause = s.cause :=
  State.ensureBits_cause s _
@[simp] theorem State.ensureSlots_fpc (s : State) (l : List Slot) : (s.ensureSlots l).fpc = s.fpc :=
  State.ensureBits_fpc s _
@[simp] theorem State.ensureSlots_finfo (s : State) (l : List Slot) : (s.ensureSlots l).finfo = s.finfo :=
  State.ensureBits_finfo s _
@[simp] theorem State.ensureSlots_scaleLo (s : State) (l : List Slot) : (s.ensureSlots l).scaleLo = s.scaleLo :=
  State.ensureBits_scaleLo s _
@[simp] theorem State.ensureSlots_scaleHi (s : State) (l : List Slot) : (s.ensureSlots l).scaleHi = s.scaleHi :=
  State.ensureBits_scaleHi s _
@[simp] theorem State.ensureSlots_scalef (s : State) (l : List Slot) : (s.ensureSlots l).scalef = s.scalef :=
  State.ensureBits_scalef s _
@[simp] theorem State.ensureSlots_bcount (s : State) (l : List Slot) : (s.ensureSlots l).bcount = s.bcount :=
  State.ensureBits_bcount s _
@[simp] theorem State.ensureSlots_istride (s : State) (l : List Slot) : (s.ensureSlots l).istride = s.istride :=
  State.ensureBits_istride s _
@[simp] theorem State.ensureSlots_bstride (s : State) (l : List Slot) : (s.ensureSlots l).bstride = s.bstride :=
  State.ensureBits_bstride s _
@[simp] theorem State.ensureSlots_ostride (s : State) (l : List Slot) : (s.ensureSlots l).ostride = s.ostride :=
  State.ensureBits_ostride s _
@[simp] theorem State.ensureSlots_instret (s : State) (l : List Slot) : (s.ensureSlots l).instret = s.instret :=
  State.ensureBits_instret s _
@[simp] theorem State.ensureSlots_ie (s : State) (l : List Slot) : (s.ensureSlots l).ie = s.ie :=
  State.ensureBits_ie s _
@[simp] theorem State.ensureSlots_entry (s : State) (l : List Slot) : (s.ensureSlots l).entry = s.entry :=
  State.ensureBits_entry s _
@[simp] theorem State.ensureSlots_irqDone (s : State) (l : List Slot) : (s.ensureSlots l).irqDone = s.irqDone :=
  State.ensureBits_irqDone s _
@[simp] theorem State.ensureSlots_irqFault (s : State) (l : List Slot) : (s.ensureSlots l).irqFault = s.irqFault :=
  State.ensureBits_irqFault s _
@[simp] theorem State.ensureSlots_imem (s : State) (l : List Slot) : (s.ensureSlots l).imem = s.imem :=
  State.ensureBits_imem s _
@[simp] theorem State.ensureSlots_dmem (s : State) (l : List Slot) : (s.ensureSlots l).dmem = s.dmem :=
  State.ensureBits_dmem s _
@[simp] theorem State.ensureSlots_turns (s : State) (l : List Slot) : (s.ensureSlots l).turns = s.turns :=
  State.ensureBits_turns s _
@[simp] theorem State.ensureSlots_hostReply (s : State) (l : List Slot) : (s.ensureSlots l).hostReply = s.hostReply :=
  State.ensureBits_hostReply s _

end Sys2Proof.Machine
end

