-- ==== Sys2Proof/Laws/Ops.lean ====
section
/-! SUPPORT. What each shared operation can do, said once. -/

namespace Sys2Proof.Machine

/-! ## How an instruction ends -/

/-- `finish` gives the fault action of a trap, or the written state retired; nothing else (49_control.md R329,
60_exceptions.md R351). -/
theorem finish_eq_next_iff (s : State) (r : Except Trap State) (t : State) :
    finish s r = .next t ↔ (∃ x, r = .error x ∧ t = s.raise x) ∨ ∃ u, r = .ok u ∧ t = u.retire := by
  cases r <;> simp [finish, eq_comm]

@[simp] theorem finish_ok (s u : State) : finish s (.ok u) = .next u.retire := rfl

@[simp] theorem finish_error (s : State) (x : Trap) : finish s (.error x) = .next (s.raise x) := rfl

/-- The state an instruction with a linear destination leaves, in the form of `Completes`. -/
theorem State.retire_setDmem (s : State) (m : Memory) :
    (s.setDmem m).retire = { s with dmem := m, pc := s.pc + 1, instret := s.instret + 1 } := rfl

/-! ## The zero register and register reads (10_state.md R21) -/

@[simp] theorem State.reg_zero (s : State) : s.reg 0 = 0 := rfl

@[simp] theorem State.regNat_zero (s : State) : s.regNat 0 = 0 := rfl

/-- A register reads the same in two states with the same register file. -/
theorem State.reg_congr {s t : State} (h : t.regs = s.regs) (r : Reg) : t.reg r = s.reg r := by
  unfold State.reg; rw [h]

/-! ## Generation on first use (45_twiddle.md R242) -/

@[simp] theorem State.ensureSlots_nil (s : State) : s.ensureSlots [] = s := rfl

/-- A slot's bit is one of those TVALID has (10_state.md R44). -/
theorem Slot.bit_cases (t : Slot) : (∃ n, t = .pow n ∧ t.bit = n) ∨ t.bit = 24 ∨ t.bit = 25 ∨ t.bit = 26 := by
  cases t <;> simp [Slot.bit]

/-- Bit `i` of the word whose only bit is `b`. -/
theorem getLsbD_pow2 {b : Nat} (hb : b < 32) (i : Nat) : (BitVec.ofNat 32 (pow2 b)).getLsbD i = decide (i = b) := by
  have h : BitVec.ofNat 32 (pow2 b) = BitVec.twoPow 32 b := by
    apply BitVec.eq_of_toNat_eq
    have h2 : pow2 b = 2 ^ b := rfl
    simp [BitVec.toNat_twoPow, h2]
  rw [h, BitVec.getLsbD_twoPow]
  by_cases hib : i = b
  · simp [hib, hb]
  · simp [hib, Ne.symm hib]

/-- After `ensureBit b` the current precision's TVALID has bit b as well, every other bit is as before (45_twiddle.md R242;
the bits are those of a 32-bit register). -/
theorem State.tvalid_ensureBit (s : State) {b : Nat} (hb : b < 32) (p : Prec) (i : Nat) :
    ((s.ensureBit b).tvalid p).getLsbD i = ((s.tvalid p).getLsbD i || (decide (p = s.prec) && decide (i = b))) := by
  unfold State.ensureBit
  split
  · next h =>
    by_cases hp : p = s.prec
    · by_cases hi : i = b
      · subst hi; subst hp; simp [h]
      · simp [hi]
    · simp [hp]
  · have ht : ({ s.setTvalid s.prec (s.tvalid s.prec ||| BitVec.ofNat 32 (pow2 b)) with
        tgencnt := s.tgencnt + 1 } : State).tvalid p =
        (s.setTvalid s.prec (s.tvalid s.prec ||| BitVec.ofNat 32 (pow2 b))).tvalid p := by
      cases p <;> rfl
    rw [ht, State.tvalid_setTvalid]
    by_cases hp : p = s.prec
    · subst hp
      simp [BitVec.getLsbD_or, getLsbD_pow2 hb]
    · simp [hp]

/-- `ensureBit` counts exactly the bits it sets in TGENCNT (10_state.md R45). -/
theorem State.tgencnt_ensureBit (s : State) (b : Nat) :
    (s.ensureBit b).tgencnt = if (s.tvalid s.prec).getLsbD b then s.tgencnt else s.tgencnt + 1 := by
  unfold State.ensureBit; split <;> rfl

/-- `ensureBits` changes nothing but the valid bits and TGENCNT. -/
theorem State.ensureBits_frame (s : State) (l : List Nat) : s.ensureBits l =
    { s with
      tvalidF32 := (s.ensureBits l).tvalidF32
      tvalidF64 := (s.ensureBits l).tvalidF64
      tvalidQ31 := (s.ensureBits l).tvalidQ31
      tgencnt := (s.ensureBits l).tgencnt } := by
  induction l generalizing s with
  | nil => rfl
  | cons b l ih =>
    have hb : s.ensureBit b = { s with
        tvalidF32 := (s.ensureBit b).tvalidF32
        tvalidF64 := (s.ensureBit b).tvalidF64
        tvalidQ31 := (s.ensureBit b).tvalidQ31
        tgencnt := (s.ensureBit b).tgencnt } := by
      unfold State.ensureBit State.setTvalid
      split
      · rfl
      · split <;> rfl
    change (s.ensureBit b).ensureBits l = { s with
        tvalidF32 := ((s.ensureBit b).ensureBits l).tvalidF32
        tvalidF64 := ((s.ensureBit b).ensureBits l).tvalidF64
        tvalidQ31 := ((s.ensureBit b).ensureBits l).tvalidQ31
        tgencnt := ((s.ensureBit b).ensureBits l).tgencnt }
    have h := ih (s.ensureBit b)
    generalize s.ensureBit b = t at *
    generalize t.ensureBits l = u at *
    rw [h, hb]

/-- `ensureBits` sets exactly the bits of the list, in the current precision. -/
theorem State.tvalid_ensureBits (s : State) {l : List Nat} (hl : ∀ b ∈ l, b < 32) (p : Prec) (i : Nat) :
    ((s.ensureBits l).tvalid p).getLsbD i = ((s.tvalid p).getLsbD i || (decide (p = s.prec) && decide (i ∈ l))) := by
  induction l generalizing s with
  | nil => simp [State.ensureBits]
  | cons b l ih =>
    have h := ih (s.ensureBit b) fun c hc => hl c (by simp [hc])
    have hs : s.ensureBits (b :: l) = (s.ensureBit b).ensureBits l := rfl
    rw [hs, h, State.tvalid_ensureBit s (hl b (by simp)), State.ensureBit_prec]
    by_cases hp : p = s.prec <;> by_cases hi : i = b <;> simp [hp, hi]

/-- Ensuring a bit that is already valid changes nothing (45_twiddle.md R242). -/
theorem State.ensureBit_of_valid {s : State} {b : Nat} (h : (s.tvalid s.prec).getLsbD b = true) : s.ensureBit b = s := by
  unfold State.ensureBit; simp [h]

/-! ## CSR writes (10_state.md R28) -/

/-- A CSR write changes nothing but MODE, the SCALE registers and the view registers. -/
theorem State.writeCsr?_eq_some {s t : State} {n : BitVec 8} {v : Word} (h : s.writeCsr? n v = some t) :
    t = { s with prec := t.prec, scaleLo := t.scaleLo, scaleHi := t.scaleHi, scalef := t.scalef, bcount := t.bcount,
                 istride := t.istride, bstride := t.bstride, ostride := t.ostride } := by
  unfold State.writeCsr? at h
  split at h <;> first
    | (cases h <;> rfl)
    | (obtain ⟨p, -, rfl⟩ := Option.map_eq_some_iff.1 h; rfl)

/-- A precision that a MODE write accepts is implemented (10_state.md R33). -/
theorem Params.has_of_precOf {c : Params} {v : Word} {p : Prec} (h : c.precOf v = some p) : c.has p = true := by
  unfold Params.precOf at h
  split at h
  · cases h; rfl
  · split at h
    · next hf => cases h; exact hf
    · exact absurd h nofun
  · split at h
    · next hq => cases h; exact hq
    · exact absurd h nofun
  · exact absurd h nofun

end Sys2Proof.Machine
end

