-- ==== Sys2Proof/Laws/Memory.lean ====
section
/-! SUPPORT. The laws of memory: what a read returns after a write, and that every memory operation keeps the canonical
form. -/

namespace Sys2Proof.Machine

variable {w : Nat}

/-! ## The canonical form -/

theorem Store.wf_nil : Store.wf ([] : Store w) = true := rfl

theorem Store.wf_cons (a : Nat) (v : BitVec w) (m : Store w) :
    Store.wf ((a, v) :: m) = true ↔ v ≠ blankUnit w ∧ (∀ p ∈ m, a < p.1) ∧ Store.wf m = true := by
  induction m generalizing a v with
  | nil => simp [Store.wf]
  | cons p rest ih =>
    obtain ⟨b, u⟩ := p
    have hb := ih b u
    simp only [Store.wf, Bool.and_eq_true, bne_iff_ne, ne_eq, decide_eq_true_eq, List.mem_cons, forall_eq_or_imp]
    constructor
    · rintro ⟨⟨hv, hab⟩, hw⟩
      exact ⟨hv, ⟨hab, fun q hq => lt_trans hab ((hb.1 hw).2.1 q hq)⟩, hw⟩
    · rintro ⟨hv, ⟨hab, -⟩, hw⟩
      exact ⟨⟨hv, hab⟩, hw⟩

/-- Below every listed address a store reads blank. -/
theorem Store.read_of_lt (m : Store w) (a : Nat) (h : ∀ p ∈ m, a < p.1) : Store.read m a = blankUnit w := by
  cases m with
  | nil => rfl
  | cons p rest =>
    have hp : a < p.1 := h p (by simp)
    simp [Store.read, hp, Nat.ne_of_lt hp]

/-- An address is listed after a write only if it was listed before or is the one written. -/
theorem Store.mem_write {m : Store w} {a : Nat} {v : BitVec w} {p : Nat × BitVec w} (h : p ∈ Store.write m a v) :
    p ∈ m ∨ p = (a, v) := by
  induction m with
  | nil =>
    simp only [Store.write] at h
    split at h <;> simp_all
  | cons q rest ih =>
    obtain ⟨b, u⟩ := q
    simp only [Store.write] at h
    split at h
    · split at h
      · exact .inl (by simp [h])
      · rcases List.mem_cons.1 h with h | h
        · exact .inr h
        · exact .inl (by simp [h])
    · split at h
      · split at h
        · exact .inl h
        · rcases List.mem_cons.1 h with h | h
          · exact .inr h
          · exact .inl h
      · rcases List.mem_cons.1 h with h | h
        · exact .inl (by simp [h])
        · rcases ih h with h | h
          · exact .inl (by simp [h])
          · exact .inr h

/-- A write keeps the canonical form. -/
theorem Store.wf_write {m : Store w} (h : Store.wf m = true) (a : Nat) (v : BitVec w) :
    Store.wf (Store.write m a v) = true := by
  induction m with
  | nil =>
    simp only [Store.write]
    split
    · rfl
    · next hv => simpa [Store.wf] using hv
  | cons q rest ih =>
    obtain ⟨b, u⟩ := q
    obtain ⟨hu, hlt, hr⟩ := (Store.wf_cons b u rest).1 h
    simp only [Store.write]
    split
    · next hab =>
      split
      · exact hr
      · next hv => exact (Store.wf_cons a v rest).2 ⟨hv, fun p hp => hab ▸ hlt p hp, hr⟩
    · next hab =>
      split
      · next hlt' =>
        split
        · exact h
        · next hv =>
          refine (Store.wf_cons a v _).2 ⟨hv, fun p hp => ?_, h⟩
          rcases List.mem_cons.1 hp with rfl | hp
          · exact hlt'
          · exact lt_trans hlt' (hlt p hp)
      · refine (Store.wf_cons b u _).2 ⟨hu, fun p hp => ?_, ih hr⟩
        rcases Store.mem_write hp with hp | rfl
        · exact hlt p hp
        · show b < a
          omega

/-! ## Reading after writing -/

/-- A read of a canonical store after a write: the value at the address written, the old value elsewhere. -/
theorem Store.read_write {m : Store w} (h : Store.wf m = true) (a : Nat) (v : BitVec w) (b : Nat) :
    Store.read (Store.write m a v) b = if b = a then v else Store.read m b := by
  induction m with
  | nil =>
    simp only [Store.write, Store.read]
    split
    · next hv => split <;> simp_all [Store.read]
    · simp only [Store.read]
      split <;> simp
  | cons q rest ih =>
    obtain ⟨c, u⟩ := q
    obtain ⟨hu, hlt, hr⟩ := (Store.wf_cons c u rest).1 h
    simp only [Store.write]
    by_cases hac : a = c
    · subst hac
      simp only [if_true]
      by_cases hv : v = blankUnit w
      · simp only [hv, if_true]
        by_cases hba : b = a
        · subst hba
          simp [Store.read_of_lt rest b (fun p hp => hlt p hp)]
        · simp only [hba, if_false, Store.read]
          by_cases hlt' : b < a
          · simp [hlt', Store.read_of_lt rest b (fun p hp => lt_trans hlt' (hlt p hp))]
          · simp [hlt']
      · simp only [hv, if_false, Store.read]
        split <;> simp_all
    · simp only [hac, if_false]
      by_cases hac' : a < c
      · simp only [hac', if_true]
        by_cases hv : v = blankUnit w
        · simp only [hv, if_true]
          by_cases hba : b = a
          · subst hba
            simp [Store.read, hac, hac']
          · simp [hba]
        · simp only [hv, if_false]
          by_cases hba : b = a
          · subst hba; simp [Store.read]
          · by_cases hlt' : b < a
            · have h1 : b ≠ c := by omega
              have h2 : b < c := by omega
              simp [Store.read, hba, hlt', h1, h2]
            · simp [Store.read, hba, hlt']
      · simp only [hac', if_false, Store.read]
        rw [ih hr]
        by_cases hbc : b = c
        · subst hbc
          simp [Ne.symm hac]
        · simp only [hbc, if_false]
          by_cases hbc' : b < c
          · have h1 : b ≠ a := by omega
            simp [hbc', h1]
          · simp [hbc']

/-! ## Little-endian accesses (20_memory.md R75) -/

theorem Memory.wf_writeLE {m : Memory} (h : Memory.wf m = true) (a n v : Nat) : Memory.wf (m.writeLE a n v) = true := by
  induction n generalizing m a v with
  | zero => exact h
  | succ n ih => exact ih (Store.wf_write h a _) _ _

/-- A byte after a little-endian write: byte a + i is byte i of the value, every other byte is unchanged. -/
theorem Memory.read_writeLE {m : Memory} (h : Memory.wf m = true) (a n v b : Nat) :
    Store.read (m.writeLE a n v) b =
      if a ≤ b ∧ b < a + n then BitVec.ofNat 8 (v / 256 ^ (b - a)) else Store.read m b := by
  induction n generalizing m a v with
  | zero =>
    simp only [Memory.writeLE, Nat.add_zero]
    rw [if_neg (by omega)]
  | succ n ih =>
    rw [Memory.writeLE, ih (Store.wf_write h a _), Store.read_write h]
    by_cases hab : b = a
    · subst hab
      simp
    · by_cases hin : a ≤ b ∧ b < a + (n + 1)
      · have h1 : a + 1 ≤ b ∧ b < a + 1 + n := by omega
        have h2 : b - a = (b - (a + 1)) + 1 := by omega
        rw [if_pos h1, if_pos hin, h2, Nat.pow_succ', Nat.div_div_eq_div_mul]
      · have h1 : ¬(a + 1 ≤ b ∧ b < a + 1 + n) := by omega
        rw [if_neg h1, if_neg hin, if_neg hab]

/-- A little-endian read depends on its own bytes only. -/
theorem Memory.readLE_congr {m m' : Memory} {a n : Nat}
    (h : ∀ b, a ≤ b → b < a + n → Store.read m' b = Store.read m b) : m'.readLE a n = m.readLE a n := by
  induction n generalizing a with
  | zero => rfl
  | succ n ih =>
    simp only [Memory.readLE]
    rw [h a (Nat.le_refl a) (by omega), ih fun b hb hb' => h b (by omega) (by omega)]

/-- Reading what was written gives the value reduced to the bytes written. -/
theorem Memory.readLE_writeLE {m : Memory} (h : Memory.wf m = true) (a n v : Nat) :
    (m.writeLE a n v).readLE a n = v % 256 ^ n := by
  induction n generalizing m a v with
  | zero => simp [Memory.readLE, Nat.mod_one]
  | succ n ih =>
    have hb : Store.read (m.writeLE a (n + 1) v) a = BitVec.ofNat 8 v := by
      rw [Memory.read_writeLE h]; simp
    simp only [Memory.readLE]
    rw [hb, Memory.writeLE, ih (Store.wf_write h a _), Nat.pow_succ', Nat.mod_mul]
    simp

/-- A write elsewhere leaves a little-endian read unchanged. -/
theorem Memory.readLE_writeLE_of_disjoint {m : Memory} (h : Memory.wf m = true) {a n b k : Nat} (v : Nat)
    (hd : b + k ≤ a ∨ a + n ≤ b) : (m.writeLE a n v).readLE b k = m.readLE b k := by
  refine Memory.readLE_congr fun c hc hc' => ?_
  rw [Memory.read_writeLE h, if_neg (by omega)]

/-- A little-endian number of n bytes is below 256^n. -/
theorem Memory.readLE_lt (m : Memory) (a n : Nat) : m.readLE a n < 256 ^ n := by
  induction n generalizing a with
  | zero => simp [Memory.readLE]
  | succ n ih =>
    simp only [Memory.readLE]
    have h1 := ih (a + 1)
    have h2 := (Store.read m a).isLt
    rw [Nat.pow_succ']
    have : 256 * m.readLE (a + 1) n + 256 ≤ 256 * 256 ^ n := by
      have := Nat.mul_le_mul_left 256 (Nat.succ_le_of_lt h1)
      simpa [Nat.mul_succ] using this
    omega

/-! ## Words and elements -/

theorem Memory.wf_writeWord {m : Memory} (h : Memory.wf m = true) (a : Nat) (v : Word) :
    Memory.wf (m.writeWord a v) = true := Memory.wf_writeLE h _ _ _

theorem Memory.readWord_writeWord {m : Memory} (h : Memory.wf m = true) (a : Nat) (v : Word) :
    (m.writeWord a v).readWord a = v := by
  unfold Memory.readWord Memory.writeWord
  rw [Memory.readLE_writeLE h]
  apply BitVec.eq_of_toNat_eq
  simpa using v.isLt

theorem Memory.wf_writeEl {m : Memory} (h : Memory.wf m = true) (p : Prec) (a : Nat) (v : Elem p) :
    Memory.wf (m.writeEl p a v) = true := Memory.wf_writeLE h _ _ _

/-- 256^ES is 2 to the element's width. -/
theorem Prec.pow_es (p : Prec) : 256 ^ p.es = 2 ^ p.bits := by cases p <;> decide +kernel

theorem Prec.es_pos (p : Prec) : 0 < p.es := by cases p <;> decide

theorem Prec.cs_pos (p : Prec) : 0 < p.cs := by cases p <;> decide

/-- An element reads as what was written, a NaN as the canonical one (20_memory.md R78). -/
theorem Memory.readEl_writeEl {m : Memory} (h : Memory.wf m = true) (p : Prec) (a : Nat) (v : Elem p) :
    (m.writeEl p a v).readEl p a = Elem.canon p v := by
  unfold Memory.readEl Memory.writeEl
  rw [Memory.readLE_writeLE h, Prec.pow_es]
  have := (Elem.canon p v).isLt
  apply BitVec.eq_of_toNat_eq
  simp

theorem Memory.wf_writeC {m : Memory} (h : Memory.wf m = true) (p : Prec) (a : Nat) (z : Cplx p) :
    Memory.wf (m.writeC p a z) = true := Memory.wf_writeEl (Memory.wf_writeEl h _ _ _) _ _ _

/-! ## Lists of writes -/

/-- A fold of writes that each keep the form keeps it. -/
theorem Memory.wf_foldl {α : Type} (f : Memory → α → Memory) (hf : ∀ m x, Memory.wf m = true → Memory.wf (f m x) = true)
    {m : Memory} (h : Memory.wf m = true) (l : List α) : Memory.wf (l.foldl f m) = true := by
  induction l generalizing m with
  | nil => exact h
  | cons x l ih => exact ih (hf m x h)

theorem Memory.wf_writeEls {m : Memory} (h : Memory.wf m = true) (p : Prec) (ws : List (Nat × Elem p)) :
    Memory.wf (m.writeEls p ws) = true := Memory.wf_foldl _ (fun _ _ h => Memory.wf_writeEl h _ _ _) h ws

theorem Memory.wf_writeCs {m : Memory} (h : Memory.wf m = true) (p : Prec) (ws : List (Nat × Cplx p)) :
    Memory.wf (m.writeCs p ws) = true := Memory.wf_foldl _ (fun _ _ h => Memory.wf_writeC h _ _ _) h ws

theorem Memory.wf_writeWords {m : Memory} (h : Memory.wf m = true) (ws : List (Nat × Nat)) :
    Memory.wf (m.writeWords ws) = true := Memory.wf_foldl _ (fun _ _ h => Memory.wf_writeLE h _ _ _) h ws

theorem Memory.wf_writeRaws {m : Memory} (h : Memory.wf m = true) (n : Nat) (ws : List (Nat × Nat)) :
    Memory.wf (m.writeRaws n ws) = true := Memory.wf_foldl _ (fun _ _ h => Memory.wf_writeLE h _ _ _) h ws

/-- A fold of writes leaves a byte alone that each of them leaves alone. -/
theorem Memory.read_foldl {α : Type} (f : Memory → α → Memory) (b : Nat)
    (hf : ∀ m x, Memory.wf m = true → Memory.wf (f m x) = true) (l : List α)
    (hb : ∀ m, ∀ x ∈ l, Memory.wf m = true → Store.read (f m x) b = Store.read m b)
    {m : Memory} (h : Memory.wf m = true) : Store.read (l.foldl f m) b = Store.read m b := by
  induction l generalizing m with
  | nil => rfl
  | cons x l ih =>
    rw [List.foldl_cons, ih (fun m y hy => hb m y (by simp [hy])) (hf m x h), hb m x (by simp) h]

/-- Element writes leave every byte outside the elements written alone. -/
theorem Memory.read_writeEls {m : Memory} (h : Memory.wf m = true) (p : Prec) (ws : List (Nat × Elem p)) (b : Nat)
    (hb : ∀ x ∈ ws, b < x.1 ∨ x.1 + p.es ≤ b) : Store.read (m.writeEls p ws) b = Store.read m b := by
  refine Memory.read_foldl _ b (fun _ _ h => Memory.wf_writeEl h _ _ _) ws (fun m x hx h => ?_) h
  have := hb x hx
  exact (Memory.read_writeLE h _ _ _ _).trans (if_neg (by omega))

/-- Complex writes leave every byte outside the samples written alone. -/
theorem Memory.read_writeCs {m : Memory} (h : Memory.wf m = true) (p : Prec) (ws : List (Nat × Cplx p)) (b : Nat)
    (hb : ∀ x ∈ ws, b < x.1 ∨ x.1 + p.cs ≤ b) : Store.read (m.writeCs p ws) b = Store.read m b := by
  refine Memory.read_foldl _ b (fun _ _ h => Memory.wf_writeC h _ _ _) ws (fun m x hx h => ?_) h
  have := hb x hx
  have hc : p.cs = 2 * p.es := rfl
  unfold Memory.writeC Memory.writeEl
  rw [Memory.read_writeLE (Memory.wf_writeLE h _ _ _), if_neg (by omega), Memory.read_writeLE h, if_neg (by omega)]

/-- Word writes leave every byte outside the words written alone. -/
theorem Memory.read_writeWords {m : Memory} (h : Memory.wf m = true) (ws : List (Nat × Nat)) (b : Nat)
    (hb : ∀ x ∈ ws, b < x.1 ∨ x.1 + 4 ≤ b) : Store.read (m.writeWords ws) b = Store.read m b := by
  refine Memory.read_foldl _ b (fun _ _ h => Memory.wf_writeLE h _ _ _) ws (fun m x hx h => ?_) h
  have := hb x hx
  exact (Memory.read_writeLE h _ _ _ _).trans (if_neg (by omega))

/-- Byte moves leave every byte outside the destinations alone. -/
theorem Memory.read_writeRaws {m : Memory} (h : Memory.wf m = true) (n : Nat) (ws : List (Nat × Nat)) (b : Nat)
    (hb : ∀ x ∈ ws, b < x.1 ∨ x.1 + n ≤ b) : Store.read (m.writeRaws n ws) b = Store.read m b := by
  refine Memory.read_foldl _ b (fun _ _ h => Memory.wf_writeLE h _ _ _) ws (fun m x hx h => ?_) h
  have := hb x hx
  exact (Memory.read_writeLE h _ _ _ _).trans (if_neg (by omega))

/-! ## Where the listed addresses lie -/

/-- A little-endian write lists no address outside its own bytes that was not listed before. -/
theorem Memory.mem_writeLE {m : Memory} {a n v : Nat} {p : Nat × BitVec 8} (h : p ∈ m.writeLE a n v) :
    p ∈ m ∨ (a ≤ p.1 ∧ p.1 < a + n) := by
  induction n generalizing m a v with
  | zero => exact .inl h
  | succ n ih =>
    rcases ih h with h | h
    · rcases Store.mem_write h with h | rfl
      · exact .inl h
      · exact .inr ⟨Nat.le_refl a, by simp⟩
    · exact .inr (by omega)

/-- The power-on memories are canonical. -/
theorem State.wf_reset : Store.wf State.reset.imem = true ∧ Memory.wf State.reset.dmem = true := ⟨rfl, rfl⟩

end Sys2Proof.Machine
end

