-- ==== Sys2Proof/Laws/Operands.lean ====
section
/-! SUPPORT. What the operand checks of 20_memory.md R79 to R82 decide: they pass exactly when every base is aligned and
every access is in range, and otherwise they report the lowest offending address. -/

namespace Sys2Proof.Machine

/-! ## Lowest elements -/

theorem IsLowest.congr {P Q : Nat → Prop} {o : Option Nat} (h : IsLowest P o) (hpq : ∀ x, P x ↔ Q x) : IsLowest Q o := by
  cases o with
  | none => exact fun x hx => h x ((hpq x).2 hx)
  | some x => exact ⟨(hpq x).1 h.1, fun y hy => h.2 y ((hpq y).2 hy)⟩

theorem IsLowest.none_iff {P : Nat → Prop} {o : Option Nat} (h : IsLowest P o) : o = none ↔ ∀ x, ¬P x := by
  cases o with
  | none => exact ⟨fun _ => h, fun _ => rfl⟩
  | some x => exact ⟨nofun, fun hn => absurd h.1 (hn x)⟩

/-- There is only one lowest element. -/
theorem IsLowest.unique {P : Nat → Prop} {o o' : Option Nat} (h : IsLowest P o) (h' : IsLowest P o') : o = o' := by
  cases o with
  | none => exact ((h'.none_iff).2 h).symm
  | some x =>
    cases o' with
    | none => exact absurd h.1 (h' x)
    | some y => exact congrArg some (Nat.le_antisymm (h.2 y h'.1) (h'.2 x h.1))

/-- The lowest element under a strictly monotone map. -/
theorem IsLowest.map {P : Nat → Prop} {o : Option Nat} (h : IsLowest P o) (f : Nat → Nat)
    (hf : ∀ x y, x ≤ y → f x ≤ f y) : IsLowest (fun z => ∃ x, P x ∧ f x = z) (o.map f) := by
  cases o with
  | none => rintro z ⟨x, hx, -⟩; exact h x hx
  | some x => exact ⟨⟨x, h.1, rfl⟩, by rintro z ⟨y, hy, rfl⟩; exact hf x y (h.2 y hy)⟩

theorem isLowest_optMin {P Q : Nat → Prop} {o o' : Option Nat} (h : IsLowest P o) (h' : IsLowest Q o') :
    IsLowest (fun x => P x ∨ Q x) (optMin o o') := by
  cases o with
  | none =>
    cases o' with
    | none => rintro x (hx | hx); exacts [h x hx, h' x hx]
    | some b => exact ⟨.inr h'.1, by rintro y (hy | hy); exacts [absurd hy (h y), h'.2 y hy]⟩
  | some a =>
    cases o' with
    | none => exact ⟨.inl h.1, by rintro y (hy | hy); exacts [h.2 y hy, absurd hy (h' y)]⟩
    | some b =>
      refine ⟨?_, ?_⟩
      · rcases Nat.le_total a b with hab | hab
        · simpa [Nat.min_def, hab] using Or.inl h.1
        · rcases Nat.eq_or_lt_of_le hab with rfl | hlt
          · simpa [Nat.min_def] using Or.inl h.1
          · simpa [Nat.min_def, Nat.not_le.2 hlt] using Or.inr h'.1
      · rintro y (hy | hy)
        · exact Nat.le_trans (Nat.min_le_left a b) (h.2 y hy)
        · exact Nat.le_trans (Nat.min_le_right a b) (h'.2 y hy)

/-- `lowest` is the lowest address in the list. -/
theorem isLowest_lowest (l : List (Option Nat)) : IsLowest (fun x => some x ∈ l) (lowest l) := by
  suffices H : ∀ (l : List (Option Nat)) (o : Option Nat) (P : Nat → Prop), IsLowest P o →
      IsLowest (fun x => P x ∨ some x ∈ l) (l.foldl optMin o) from
    (H l none (fun _ => False) (fun _ h => h)).congr (by simp)
  intro l
  induction l with
  | nil => intro o P h; exact h.congr (by simp)
  | cons a l ih =>
    intro o P h
    have ha : IsLowest (fun x => some x = a) a := by
      cases a with
      | none => simp [IsLowest]
      | some a => simp [IsLowest]
    refine (ih _ _ (isLowest_optMin h ha)).congr fun x => ?_
    simp [or_assoc]

theorem isLowest_leastMultiple (n stride u : Nat) :
    IsLowest (fun x => ∃ j, j < n ∧ x = j * stride ∧ u ≤ x) (leastMultiple n stride u) := by
  unfold leastMultiple
  split
  · rintro x ⟨j, hj, -⟩; omega
  split
  · exact ⟨⟨0, by omega, by simp, by omega⟩, fun y _ => Nat.zero_le y⟩
  split
  · next hs => rintro x ⟨j, -, rfl, hu⟩; subst hs; omega
  next hn hu hs =>
  have hpos : 0 < stride := Nat.pos_of_ne_zero hs
  have hceil : ∀ j, u ≤ j * stride ↔ (u + stride - 1) / stride ≤ j := by
    intro j
    have h1 := Nat.lt_div_mul_add (a := u + stride - 1) hpos
    have h2 := Nat.div_mul_le_self (u + stride - 1) stride
    constructor
    · intro h
      by_contra hc
      have h3 : (j + 1) * stride ≤ (u + stride - 1) / stride * stride := Nat.mul_le_mul_right _ (by omega)
      rw [Nat.succ_mul] at h3
      omega
    · intro h
      have h3 := Nat.mul_le_mul_right stride h
      omega
  dsimp only
  split
  · next hj =>
    refine ⟨⟨_, hj, rfl, (hceil _).2 (Nat.le_refl _)⟩, ?_⟩
    rintro y ⟨j, -, rfl, hy⟩
    exact Nat.mul_le_mul_right _ ((hceil j).1 hy)
  · next hj =>
    rintro x ⟨j, hjn, rfl, hx⟩
    exact hj (Nat.lt_of_le_of_lt ((hceil j).1 hx) hjn)

theorem isLowest_leastSum (n s m t u : Nat) :
    IsLowest (fun x => ∃ i, i < n ∧ ∃ j, j < m ∧ x = i * s + j * t ∧ u ≤ x) (leastSum n s m t u) := by
  have hrow : ∀ i, IsLowest (fun x => ∃ j, j < m ∧ x = i * s + j * t ∧ u ≤ x)
      ((leastMultiple m t (u - i * s)).map (i * s + ·)) := fun i =>
    ((isLowest_leastMultiple m t (u - i * s)).map (i * s + ·) (fun _ _ h => Nat.add_le_add_left h _)).congr fun x => by
      constructor
      · rintro ⟨y, ⟨j, hj, rfl, hy⟩, rfl⟩; exact ⟨j, hj, rfl, by omega⟩
      · rintro ⟨j, hj, rfl, hx⟩; exact ⟨j * t, ⟨j, hj, rfl, by omega⟩, rfl⟩
  have hl := isLowest_lowest ((List.range n).map fun i => (leastMultiple m t (u - i * s)).map (i * s + ·))
  unfold leastSum
  cases ho : lowest ((List.range n).map fun i => (leastMultiple m t (u - i * s)).map (i * s + ·)) with
  | none =>
    rw [ho] at hl
    rintro x ⟨i, hi, hx⟩
    have hr := hrow i
    cases hm : (leastMultiple m t (u - i * s)).map (i * s + ·) with
    | none => rw [hm] at hr; exact hr x hx
    | some y => exact hl y (List.mem_map.2 ⟨i, List.mem_range.2 hi, hm⟩)
  | some z =>
    rw [ho] at hl
    obtain ⟨i, hi, hz⟩ := List.mem_map.1 hl.1
    refine ⟨⟨i, List.mem_range.1 hi, ?_⟩, ?_⟩
    · have hr := hrow i
      rw [hz] at hr
      exact hr.1
    · rintro y ⟨k, hk, hy⟩
      have hr := hrow k
      cases hm : (leastMultiple m t (u - k * s)).map (k * s + ·) with
      | none => rw [hm] at hr; exact absurd hy (hr y)
      | some v =>
        rw [hm] at hr
        exact Nat.le_trans (hl.2 v (List.mem_map.2 ⟨k, List.mem_range.2 hk, hm⟩)) (hr.2 y hy)

/-! ## Linear operands and views -/

/-- `Lin.lowestOut` is the lowest start address of an access that leaves [0, bytes) (20_memory.md R80, R81). -/
theorem Lin.isLowest_lowestOut (l : Lin) (bytes : Nat) :
    IsLowest (fun x => ∃ j, j < l.n ∧ x = l.base + j * l.stride ∧ bytes < x + l.size) (l.lowestOut bytes) :=
  ((isLowest_leastMultiple l.n l.stride (bytes + 1 - l.size - l.base)).map (l.base + ·)
    (fun _ _ h => Nat.add_le_add_left h _)).congr fun x => by
      constructor
      · rintro ⟨y, ⟨j, hj, rfl, hy⟩, rfl⟩; exact ⟨j, hj, rfl, by omega⟩
      · rintro ⟨j, hj, rfl, hx⟩; exact ⟨j * l.stride, ⟨j, hj, rfl, by omega⟩, rfl⟩

theorem Lin.lowestOut_eq_none_iff (l : Lin) (bytes : Nat) : l.lowestOut bytes = none ↔ l.Fits bytes := by
  rw [(l.isLowest_lowestOut bytes).none_iff]
  constructor
  · intro h j hj
    by_contra hc
    exact h _ ⟨j, hj, rfl, by omega⟩
  · rintro h x ⟨j, hj, rfl, hx⟩
    have := h j hj
    omega

theorem isLowest_leastOffset (v : View) (u : Nat) :
    IsLowest (fun x => ∃ b, b < v.batches ∧ ∃ j, j < v.points ∧ x = b * v.bstride + j * v.istride ∧ u ≤ x)
      (leastOffset v u) := by
  unfold leastOffset
  split
  · exact isLowest_leastSum _ _ _ _ _
  · refine (isLowest_leastSum _ _ _ _ _).congr fun x => ?_
    constructor
    · rintro ⟨j, hj, b, hb, rfl, hu⟩; exact ⟨b, hb, j, hj, Nat.add_comm _ _, hu⟩
    · rintro ⟨b, hb, j, hj, rfl, hu⟩; exact ⟨j, hj, b, hb, Nat.add_comm _ _, hu⟩

/-- `View.lowestOut` is the lowest start address of a point that leaves [0, bytes) (20_memory.md R80, R82). -/
theorem View.isLowest_lowestOut (v : View) (bytes : Nat) (hcs : 0 < v.cs) :
    IsLowest (fun x => ∃ b, b < v.batches ∧ ∃ j, j < v.points ∧ x = v.addr b j ∧ bytes < x + v.cs)
      (v.lowestOut bytes) := by
  have hceil : ∀ o, (bytes + 1 - v.cs - v.base + v.cs - 1) / v.cs ≤ o ↔ bytes < v.base + o * v.cs + v.cs := by
    intro o
    have h1 := Nat.lt_div_mul_add (a := bytes + 1 - v.cs - v.base + v.cs - 1) hcs
    have h2 := Nat.div_mul_le_self (bytes + 1 - v.cs - v.base + v.cs - 1) v.cs
    constructor
    · intro h
      have h3 := Nat.mul_le_mul_right v.cs h
      omega
    · intro h
      by_contra hc
      have h3 : (o + 1) * v.cs ≤ (bytes + 1 - v.cs - v.base + v.cs - 1) / v.cs * v.cs :=
        Nat.mul_le_mul_right _ (by omega)
      rw [Nat.succ_mul] at h3
      omega
  refine ((isLowest_leastOffset v _).map (v.base + · * v.cs)
    (fun _ _ h => Nat.add_le_add_left (Nat.mul_le_mul_right _ h) _)).congr fun x => ?_
  constructor
  · rintro ⟨y, ⟨b, hb, j, hj, rfl, hy⟩, rfl⟩; exact ⟨b, hb, j, hj, rfl, (hceil _).1 hy⟩
  · rintro ⟨b, hb, j, hj, rfl, hx⟩; exact ⟨_, ⟨b, hb, j, hj, rfl, (hceil _).2 hx⟩, rfl⟩

theorem View.lowestOut_eq_none_iff (v : View) (bytes : Nat) (hcs : 0 < v.cs) :
    v.lowestOut bytes = none ↔ v.Fits bytes := by
  rw [(v.isLowest_lowestOut bytes hcs).none_iff]
  constructor
  · intro h b hb j hj
    by_contra hc
    exact h _ ⟨b, hb, j, hj, rfl, by omega⟩
  · rintro h x ⟨b, hb, j, hj, rfl, hx⟩
    have := h b hb j hj
    omega

/-! ## Checks -/

theorem require_eq_ok_iff (ok : Bool) (t : Trap) : require ok t = .ok () ↔ ok = true := by
  unfold require; split <;> simp_all

theorem require_eq_error_iff (ok : Bool) (t t' : Trap) : require ok t = .error t' ↔ ok = false ∧ t' = t := by
  unfold require; split <;> simp_all [eq_comm]

theorem requireNonzero_eq_ok_iff (c : Nat) : requireNonzero c = .ok () ↔ c ≠ 0 := by
  simp [requireNonzero, require_eq_ok_iff]

/-- The alignment check passes exactly when every base is a multiple of its alignment (20_memory.md R79). -/
theorem checkAligned_eq_ok_iff (bases : List (Nat × Nat)) :
    checkAligned bases = .ok () ↔ ∀ b ∈ bases, b.1 % b.2 = 0 := by
  have h := isLowest_lowest (bases.map fun b => if b.1 % b.2 = 0 then none else some b.1)
  unfold checkAligned
  split
  · next ho =>
    rw [ho] at h
    refine ⟨fun _ b hb => ?_, fun _ => rfl⟩
    by_contra hc
    exact h b.1 (List.mem_map.2 ⟨b, hb, by simp [hc]⟩)
  · next a ho =>
    rw [ho] at h
    refine ⟨nofun, fun hall => ?_⟩
    obtain ⟨b, hb, hba⟩ := List.mem_map.1 h.1
    simp [hall b hb] at hba

/-- A failed alignment check reports MISALIGNED with the lowest misaligned base (20_memory.md R79). -/
theorem checkAligned_eq_error {bases : List (Nat × Nat)} {t : Trap} (h : checkAligned bases = .error t) :
    t.cause = .misaligned ∧ IsLowest (fun x => ∃ b ∈ bases, b.1 = x ∧ b.1 % b.2 ≠ 0) (some t.info) := by
  have hl := isLowest_lowest (bases.map fun b => if b.1 % b.2 = 0 then none else some b.1)
  have hiff : ∀ x, some x ∈ (bases.map fun b => if b.1 % b.2 = 0 then none else some b.1) ↔
      ∃ b ∈ bases, b.1 = x ∧ b.1 % b.2 ≠ 0 := fun x => by
    simp only [List.mem_map]
    constructor
    · rintro ⟨b, hb, hx⟩
      split at hx
      · exact absurd hx nofun
      · next hc => exact ⟨b, hb, by simpa using hx, hc⟩
    · rintro ⟨b, hb, rfl, hc⟩; exact ⟨b, hb, by simp [hc]⟩
  unfold checkAligned at h
  split at h
  · exact absurd h nofun
  · next a ho =>
    rw [ho] at hl
    cases h
    exact ⟨rfl, hl.congr hiff⟩

/-- The range check passes exactly when no access is out of range (20_memory.md R80). -/
theorem checkRange_eq_ok_iff (outs : List (Option Nat)) : checkRange outs = .ok () ↔ ∀ o ∈ outs, o = none := by
  have h := isLowest_lowest outs
  unfold checkRange
  split
  · next ho =>
    rw [ho] at h
    refine ⟨fun _ o hm => ?_, fun _ => rfl⟩
    cases o with
    | none => rfl
    | some a => exact absurd hm (h a)
  · next a ho =>
    rw [ho] at h
    exact ⟨nofun, fun hall => absurd (hall _ h.1) nofun⟩

/-- A failed range check reports DMEM_RANGE with the lowest offending address (20_memory.md R80). -/
theorem checkRange_eq_error {outs : List (Option Nat)} {t : Trap} (h : checkRange outs = .error t) :
    t.cause = .dmemRange ∧ IsLowest (fun x => some x ∈ outs) (some t.info) := by
  have hl := isLowest_lowest outs
  unfold checkRange at h
  split at h
  · exact absurd h nofun
  · next a ho =>
    rw [ho] at hl
    cases h
    exact ⟨rfl, hl⟩

/-- Sequencing of two checks: both pass. -/
theorem check_then_eq_ok_iff {α : Type} (x : Except Trap Unit) (f : Unit → Except Trap α) (a : α) :
    (x >>= f) = .ok a ↔ x = .ok () ∧ f () = .ok a := by
  cases x with
  | error t => exact ⟨nofun, fun h => absurd h.1 nofun⟩
  | ok u => exact ⟨fun h => ⟨rfl, h⟩, fun h => h.2⟩

/-- A check that passes is no obstacle. -/
theorem check_then_of_ok {α : Type} {x : Except Trap Unit} (h : x = .ok ()) (f : Unit → Except Trap α) :
    (x >>= f) = f () := by rw [h]; rfl

/-- A check that fails ends the instruction. -/
theorem check_then_of_error {α : Type} {x : Except Trap Unit} {t : Trap} (h : x = .error t)
    (f : Unit → Except Trap α) : (x >>= f) = .error t := by rw [h]; rfl

/-- The check of linear operands passes exactly when each of them is in order (20_memory.md R79 to R81). -/
theorem checkLins_eq_ok_iff (s : State) (align : Nat) (ls : List Lin) :
    checkLins s align ls = .ok () ↔ ∀ l ∈ ls, LinReady s align l := by
  unfold checkLins
  rw [check_then_eq_ok_iff, checkAligned_eq_ok_iff, checkRange_eq_ok_iff]
  simp only [List.mem_map, forall_exists_index, and_imp, forall_apply_eq_imp_iff₂, Lin.lowestOut_eq_none_iff, LinReady]
  exact ⟨fun h l hl => ⟨h.1 l hl, h.2 l hl⟩, fun h => ⟨fun l hl => (h l hl).1, fun l hl => (h l hl).2⟩⟩

/-- A failed check of linear operands: MISALIGNED with the lowest misaligned base if there is one, else DMEM_RANGE with the
lowest address of an access that leaves DMEM (20_memory.md R79, R80, 60_exceptions.md R353). -/
theorem checkLins_eq_error {s : State} {align : Nat} {ls : List Lin} {t : Trap} (h : checkLins s align ls = .error t) :
    (t.cause = .misaligned ∧ IsLowest (fun x => ∃ l ∈ ls, l.base = x ∧ l.base % align ≠ 0) (some t.info)) ∨
      ((∀ l ∈ ls, l.base % align = 0) ∧ t.cause = .dmemRange ∧
        IsLowest (fun x => ∃ l ∈ ls, ∃ j, j < l.n ∧ x = l.base + j * l.stride ∧ s.params.dmemBytes < x + l.size)
          (some t.info)) := by
  unfold checkLins at h
  cases ha : checkAligned (ls.map fun l => (l.base, align)) with
  | error t' =>
    rw [check_then_of_error ha] at h
    cases h
    obtain ⟨hc, hl⟩ := checkAligned_eq_error ha
    refine .inl ⟨hc, hl.congr fun x => ?_⟩
    simp only [List.mem_map]
    constructor
    · rintro ⟨b, ⟨l, hl, rfl⟩, hx, hne⟩; exact ⟨l, hl, hx, hne⟩
    · rintro ⟨l, hl, hx, hne⟩; exact ⟨_, ⟨l, hl, rfl⟩, hx, hne⟩
  | ok u =>
    rw [check_then_of_ok ha] at h
    obtain ⟨hc, hl⟩ := checkRange_eq_error h
    refine .inr ⟨fun l hlm => ?_, hc, ?_⟩
    · exact (checkAligned_eq_ok_iff _).1 ha (l.base, align) (List.mem_map.2 ⟨l, hlm, rfl⟩)
    · refine ⟨?_, ?_⟩
      · obtain ⟨l, hlm, hx⟩ := List.mem_map.1 hl.1
        have := l.isLowest_lowestOut s.params.dmemBytes
        rw [hx] at this
        exact ⟨l, hlm, this.1⟩
      · rintro y ⟨l, hlm, hy⟩
        have hlow := l.isLowest_lowestOut s.params.dmemBytes
        cases ho : l.lowestOut s.params.dmemBytes with
        | none => rw [ho] at hlow; exact absurd hy (hlow y)
        | some z =>
          rw [ho] at hlow
          exact Nat.le_trans (hl.2 z (List.mem_map.2 ⟨l, hlm, ho⟩)) (hlow.2 y hy)

/-! ## Addresses of operands -/

theorem Lin.mem_addrs (l : Lin) (x : Nat) : x ∈ l.addrs ↔ ∃ j, j < l.n ∧ l.base + j * l.stride = x := by
  simp [Lin.addrs, addrsFrom]

theorem View.mem_batch (v : View) (b x : Nat) : x ∈ v.batch b ↔ ∃ j, j < v.points ∧ v.addr b j = x := by
  simp [View.batch]

theorem View.mem_addrs (v : View) (x : Nat) : x ∈ v.addrs ↔ ∃ b, b < v.batches ∧ ∃ j, j < v.points ∧ v.addr b j = x := by
  simp [View.addrs, View.mem_batch]

end Sys2Proof.Machine
end

