-- ==== Sys2Proof/Laws/Writes.lean ====
section
/-! SUPPORT. What a list of writes leaves in DMEM: every kind of write list is a list of little-endian writes of one size,
and the last write to a place is what is read back from it (20_memory.md R84, R85). -/

namespace Sys2Proof.Machine

/-! ## One form for all lists of writes -/

theorem Memory.writeWords_eq (m : Memory) (ws : List (Nat × Nat)) : m.writeWords ws = m.writeRaws 4 ws := rfl

theorem Memory.writeEls_eq (m : Memory) (p : Prec) (ws : List (Nat × Elem p)) :
    m.writeEls p ws = m.writeRaws p.es (ws.map fun w => (w.1, (Elem.canon p w.2).toNat)) := by
  unfold Memory.writeEls Memory.writeRaws
  rw [List.foldl_map]
  rfl

/-- A complex write is its two element writes, the real part first (00_scope.md R9). -/
theorem Memory.writeCs_eq (m : Memory) (p : Prec) (ws : List (Nat × Cplx p)) :
    m.writeCs p ws = m.writeEls p (ws.flatMap fun w => [(w.1, w.2.re), (w.1 + p.es, w.2.im)]) := by
  unfold Memory.writeCs Memory.writeEls
  induction ws generalizing m with
  | nil => rfl
  | cons w ws ih => rw [List.foldl_cons, ih]; rfl

theorem Memory.writeRaws_append (m : Memory) (n : Nat) (l r : List (Nat × Nat)) :
    m.writeRaws n (l ++ r) = (m.writeRaws n l).writeRaws n r := List.foldl_append

/-! ## Reading back -/

/-- A read disjoint from every write of a list sees none of them. -/
theorem Memory.readLE_writeRaws_of_disjoint {m : Memory} (h : Memory.wf m = true) {n a k : Nat} {ws : List (Nat × Nat)}
    (hd : ∀ x ∈ ws, a + k ≤ x.1 ∨ x.1 + n ≤ a) : (m.writeRaws n ws).readLE a k = m.readLE a k := by
  apply Memory.readLE_congr
  intro i hi hi2
  apply Memory.read_writeRaws h
  intro x hx
  have := hd x hx
  omega

/-- The last write that touches a place is what is read back from it. -/
theorem Memory.readLE_writeRaws_last {m : Memory} (h : Memory.wf m = true) {n a v : Nat} {l r : List (Nat × Nat)}
    (hd : ∀ x ∈ r, a + n ≤ x.1 ∨ x.1 + n ≤ a) : (m.writeRaws n (l ++ (a, v) :: r)).readLE a n = v % 256 ^ n := by
  have h1 := Memory.wf_writeRaws h n l
  rw [Memory.writeRaws_append]
  show (((m.writeRaws n l).writeLE a n v).writeRaws n r).readLE a n = _
  rw [Memory.readLE_writeRaws_of_disjoint (Memory.wf_writeLE h1 a n v) hd, Memory.readLE_writeLE h1]

/-- The list of writes split at entry j. -/
theorem split_at_getElem {α : Type} (l : List α) (j : Nat) (hj : j < l.length) :
    l = l.take j ++ l[j] :: l.drop (j + 1) := by
  rw [← List.drop_eq_getElem_cons hj, List.take_append_drop]

/-- Entry j of a list of writes is read back when no later write touches its bytes. -/
theorem Memory.readLE_writeRaws_getElem {m : Memory} (h : Memory.wf m = true) {n : Nat} {ws : List (Nat × Nat)} {j : Nat}
    (hj : j < ws.length)
    (hd : ∀ k (hk : k < ws.length), j < k → ws[j].1 + n ≤ ws[k].1 ∨ ws[k].1 + n ≤ ws[j].1) :
    (m.writeRaws n ws).readLE ws[j].1 n = ws[j].2 % 256 ^ n := by
  have hs := split_at_getElem ws j hj
  have hr : ∀ x ∈ ws.drop (j + 1), ws[j].1 + n ≤ x.1 ∨ x.1 + n ≤ ws[j].1 := by
    intro x hx
    obtain ⟨k, hk, rfl⟩ := List.mem_iff_getElem.1 hx
    rw [List.length_drop] at hk
    have := hd (j + 1 + k) (by omega) (by omega)
    simpa [List.getElem_drop] using this
  have := Memory.readLE_writeRaws_last (v := ws[j].2) (l := ws.take j) h hr
  rw [show ((ws[j].1, ws[j].2) : Nat × Nat) = ws[j] from rfl, ← hs] at this
  exact this

/-- Writes of `size` bytes at evenly spaced addresses that do not overlap: each is read back. -/
theorem Memory.readLE_writeRaws_addrsFrom {m : Memory} (h : Memory.wf m = true) {base n stride size : Nat}
    (hs : size ≤ stride) (vals : List Nat) {j : Nat} (hj : j < n) (hv : j < vals.length) :
    (m.writeRaws size ((addrsFrom base n stride).zip vals)).readLE (base + j * stride) size = vals[j] % 256 ^ size := by
  have hl : j < ((addrsFrom base n stride).zip vals).length := by simp [addrsFrom]; omega
  have := Memory.readLE_writeRaws_getElem h (n := size) hl (fun k hk hjk => by
    simp only [List.getElem_zip, addrsFrom, List.getElem_map, List.getElem_range]
    left
    have : (j + 1) * stride ≤ k * stride := Nat.mul_le_mul_right _ hjk
    rw [Nat.add_mul] at this
    omega)
  simpa [List.getElem_zip, addrsFrom] using this

/-- Elements written at evenly spaced addresses that do not overlap: each is read back, a NaN as the canonical one. -/
theorem Memory.readEl_writeEls_addrsFrom {m : Memory} (h : Memory.wf m = true) (p : Prec) {base n stride : Nat}
    (hs : p.es ≤ stride) (vals : List (Elem p)) {j : Nat} (hj : j < n) (hv : j < vals.length) :
    (m.writeEls p ((addrsFrom base n stride).zip vals)).readEl p (base + j * stride) = Elem.canon p vals[j] := by
  rw [Memory.writeEls_eq, Memory.readEl]
  have : ((addrsFrom base n stride).zip vals).map (fun w => (w.1, (Elem.canon p w.2).toNat)) =
      (addrsFrom base n stride).zip (vals.map fun v => (Elem.canon p v).toNat) := by
    rw [List.zip_map_right]; rfl
  rw [this, Memory.readLE_writeRaws_addrsFrom h hs _ hj (by simpa using hv), List.getElem_map, Prec.pow_es]
  have := (Elem.canon p vals[j]).isLt
  apply BitVec.eq_of_toNat_eq
  simp

/-- The element writes of complex samples, split at sample j. -/
theorem Memory.readC_writeCs_getElem {m : Memory} (h : Memory.wf m = true) (p : Prec) {ws : List (Nat × Cplx p)} {j : Nat}
    (hj : j < ws.length)
    (hd : ∀ k (hk : k < ws.length), j < k → ws[j].1 + p.cs ≤ ws[k].1 ∨ ws[k].1 + p.cs ≤ ws[j].1) :
    (m.writeCs p ws).readC p ws[j].1 = ws[j].2.canon := by
  have hcs : p.cs = 2 * p.es := rfl
  have hr : ∀ x ∈ ws.drop (j + 1), ws[j].1 + p.cs ≤ x.1 ∨ x.1 + p.cs ≤ ws[j].1 := by
    intro x hx
    obtain ⟨k, hk, rfl⟩ := List.mem_iff_getElem.1 hx
    rw [List.length_drop] at hk
    have := hd (j + 1 + k) (by omega) (by omega)
    simpa [List.getElem_drop] using this
  have hsplit := split_at_getElem ws j hj
  generalize ws.drop (j + 1) = r at hr hsplit
  generalize ws.take j = l at hsplit
  generalize ws[j] = w at hr hsplit ⊢
  subst hsplit
  have h1 := Memory.wf_writeCs h p l
  have hw : m.writeCs p (l ++ w :: r) = ((m.writeCs p l).writeC p w.1 w.2).writeCs p r := by
    unfold Memory.writeCs; rw [List.foldl_append, List.foldl_cons]
  have h2 := Memory.wf_writeC h1 p w.1 w.2
  have hel : ∀ a, a = w.1 ∨ a = w.1 + p.es →
      (m.writeCs p (l ++ w :: r)).readEl p a = ((m.writeCs p l).writeC p w.1 w.2).readEl p a := by
    intro a ha
    rw [hw, Memory.readEl, Memory.readEl]
    congr 1
    apply Memory.readLE_congr
    intro i hi hi2
    apply Memory.read_writeCs h2
    intro x hx
    have := hr x hx
    omega
  have hre : ((m.writeCs p l).writeC p w.1 w.2).readEl p w.1 = Elem.canon p w.2.re := by
    have h3 := Memory.wf_writeEl h1 p w.1 w.2.re
    rw [← Memory.readEl_writeEl h1 p w.1 w.2.re, Memory.readEl, Memory.readEl]
    congr 1
    apply Memory.readLE_congr
    intro i hi hi2
    exact (Memory.read_writeLE h3 _ _ _ _).trans (if_neg (by omega))
  have him : ((m.writeCs p l).writeC p w.1 w.2).readEl p (w.1 + p.es) = Elem.canon p w.2.im :=
    Memory.readEl_writeEl (Memory.wf_writeEl h1 p w.1 w.2.re) p _ _
  unfold Memory.readC Cplx.canon
  rw [hel _ (.inl rfl), hel _ (.inr rfl), hre, him]

/-- Complex samples written at evenly spaced addresses that do not overlap: each is read back. -/
theorem Memory.readC_writeCs_addrsFrom {m : Memory} (h : Memory.wf m = true) (p : Prec) {base n stride : Nat}
    (hs : p.cs ≤ stride) (vals : List (Cplx p)) {j : Nat} (hj : j < n) (hv : j < vals.length) :
    (m.writeCs p ((addrsFrom base n stride).zip vals)).readC p (base + j * stride) = vals[j].canon := by
  have hl : j < ((addrsFrom base n stride).zip vals).length := by simp [addrsFrom]; omega
  have := Memory.readC_writeCs_getElem h p hl (fun k hk hjk => by
    simp only [List.getElem_zip, addrsFrom, List.getElem_map, List.getElem_range]
    left
    have : (j + 1) * stride ≤ k * stride := Nat.mul_le_mul_right _ hjk
    rw [Nat.add_mul] at this
    omega)
  simpa [List.getElem_zip, addrsFrom] using this

/-! ## What a list of writes leaves alone -/

theorem SameOutside.of_writeRaws {m : Memory} (h : Memory.wf m = true) {n : Nat} {ws : List (Nat × Nat)} {starts : List Nat}
    (hs : ∀ w ∈ ws, w.1 ∈ starts) : SameOutside m (m.writeRaws n ws) starts n := fun a ha =>
  Memory.read_writeRaws h n ws a fun x hx => ha _ (hs x hx)

theorem SameOutside.of_writeEls {m : Memory} (h : Memory.wf m = true) {p : Prec} {ws : List (Nat × Elem p)}
    {starts : List Nat} (hs : ∀ w ∈ ws, w.1 ∈ starts) : SameOutside m (m.writeEls p ws) starts p.es := fun a ha =>
  Memory.read_writeEls h p ws a fun x hx => ha _ (hs x hx)

theorem SameOutside.of_writeCs {m : Memory} (h : Memory.wf m = true) {p : Prec} {ws : List (Nat × Cplx p)}
    {starts : List Nat} (hs : ∀ w ∈ ws, w.1 ∈ starts) : SameOutside m (m.writeCs p ws) starts p.cs := fun a ha =>
  Memory.read_writeCs h p ws a fun x hx => ha _ (hs x hx)

theorem SameOutside.refl (m : Memory) (starts : List Nat) (size : Nat) : SameOutside m m starts size := fun _ _ => rfl

theorem SameOutside.trans {m₁ m₂ m₃ : Memory} {starts : List Nat} {size : Nat} (h₁ : SameOutside m₁ m₂ starts size)
    (h₂ : SameOutside m₂ m₃ starts size) : SameOutside m₁ m₃ starts size := fun a ha => (h₂ a ha).trans (h₁ a ha)

end Sys2Proof.Machine
end

