-- ==== Sys2Proof/Laws/Bodies.lean ====
section
/-! SUPPORT. What each shared instruction body can do: exactly when it completes and what it leaves, and which fault it gives
otherwise. A proof about an instruction cites these and unfolds no body. -/

namespace Sys2Proof.Machine

/-! ## Checks -/

/-- A failed check of a sequence is the first to fail. -/
theorem check_then_eq_error {α : Type} {x : Except Trap Unit} {f : Unit → Except Trap α} {t : Trap}
    (h : (x >>= f) = .error t) : x = .error t ∨ (x = .ok () ∧ f () = .error t) := by
  cases x with
  | error e => exact .inl (by cases h; rfl)
  | ok u => exact .inr ⟨rfl, h⟩

theorem requireNonzero_of_ne {c : Nat} (h : c ≠ 0) : requireNonzero c = .ok () := (requireNonzero_eq_ok_iff c).2 h

theorem requireNonzero_zero : requireNonzero 0 = .error ⟨.invalidArgument, 0⟩ := rfl

theorem requireNonzero_eq_error {c : Nat} {t : Trap} (h : requireNonzero c = .error t) :
    c = 0 ∧ t = ⟨.invalidArgument, 0⟩ := by
  rw [requireNonzero, require_eq_error_iff] at h
  simpa using h

theorem checkLg_eq_ok_iff (s : State) (lg : Nat) : checkLg s lg = .ok () ↔ lg ≤ 21 ∧ lg ≤ s.params.maxLog2 := by
  simp [checkLg, check_then_eq_ok_iff, require_eq_ok_iff]

theorem checkLg_of_gt {s : State} {lg : Nat} (h : 21 < lg) : checkLg s lg = .error ⟨.unsupportedLength, pow2 lg⟩ := by
  have : ¬lg ≤ 21 := by omega
  simp [checkLg, require, this, bind, Except.bind]

theorem checkLg_of_maxLog2_lt {s : State} {lg : Nat} (h : lg ≤ 21) (h2 : s.params.maxLog2 < lg) :
    checkLg s lg = .error ⟨.resource, pow2 lg⟩ := by
  have : ¬lg ≤ s.params.maxLog2 := by omega
  simp [checkLg, require, h, this, bind, Except.bind]

theorem checkLength_eq_ok_iff (s : State) (n len : Nat) (supported : Bool) :
    checkLength s n len supported = .ok () ↔ n ≠ 0 ∧ supported = true ∧ len ≤ s.params.maxN := by
  simp [checkLength, check_then_eq_ok_iff, require_eq_ok_iff, requireNonzero_eq_ok_iff]

theorem checkLength_zero (s : State) (len : Nat) (supported : Bool) :
    checkLength s 0 len supported = .error ⟨.invalidArgument, 0⟩ := rfl

theorem checkLength_of_unsupported {s : State} {n len : Nat} (h : n ≠ 0) :
    checkLength s n len false = .error ⟨.unsupportedLength, n⟩ := by
  simp [checkLength, requireNonzero_of_ne h, require, bind, Except.bind]

theorem checkLength_of_maxN_lt {s : State} {n len : Nat} (h : n ≠ 0) (h2 : s.params.maxN < len) :
    checkLength s n len true = .error ⟨.resource, n⟩ := by
  have : ¬len ≤ s.params.maxN := by omega
  simp [checkLength, requireNonzero_of_ne h, require, this, bind, Except.bind]

/-- A check of SCALE before the rest passes exactly when SCALE is finite (41_numeric.md R152). -/
theorem requireScale_then_eq_ok_iff {α : Type} (s : State) (f : Sys2Proof.Machine.Dyadic → Except Trap α) (t : α) :
    (requireScale s >>= f) = .ok t ↔ ∃ x, s.scale? = some x ∧ f x = .ok t := by
  unfold requireScale
  cases s.scale? with
  | none => simp [bind, Except.bind]
  | some x => simp [bind, Except.bind]

/-- The check of linear operands, as the obligation terms say it: the lowest misaligned base. -/
theorem checkLins_of_misaligned {s : State} {align : Nat} {ls : List Lin} {a : Nat}
    (h : IsLowest (fun x => x % align ≠ 0 ∧ ∃ l ∈ ls, x = l.base) (some a)) :
    checkLins s align ls = .error ⟨.misaligned, a⟩ := by
  cases hc : checkLins s align ls with
  | ok u =>
    obtain ⟨⟨hne, l, hl, rfl⟩, -⟩ := h
    exact absurd ((checkLins_eq_ok_iff s align ls).1 (by cases u; exact hc) l hl).1 hne
  | error t =>
    rcases checkLins_eq_error hc with ⟨hm, hlow⟩ | ⟨hall, -, -⟩
    · have h' : IsLowest (fun x => x % align ≠ 0 ∧ ∃ l ∈ ls, x = l.base) (some t.info) := hlow.congr fun x => by
        constructor
        · rintro ⟨l, hl, rfl, hne⟩; exact ⟨hne, l, hl, rfl⟩
        · rintro ⟨hne, l, hl, rfl⟩; exact ⟨l, hl, rfl, hne⟩
      have := h'.unique h
      cases t; cases hm; cases this; rfl
    · obtain ⟨⟨hne, l, hl, rfl⟩, -⟩ := h
      exact absurd (hall l hl) hne

/-- The check of aligned linear operands: the lowest start of an access that leaves DMEM. -/
theorem checkLins_of_outside {s : State} {align : Nat} {ls : List Lin} {a : Nat} (ha : ∀ l ∈ ls, l.base % align = 0)
    (h : IsLowest (fun x => ∃ l ∈ ls, ∃ j < l.n, x = l.base + j * l.stride ∧ s.params.dmemBytes < x + l.size) (some a)) :
    checkLins s align ls = .error ⟨.dmemRange, a⟩ := by
  cases hc : checkLins s align ls with
  | ok u =>
    obtain ⟨⟨l, hl, j, hj, rfl, hlt⟩, -⟩ := h
    have := ((checkLins_eq_ok_iff s align ls).1 (by cases u; exact hc) l hl).2 j hj
    omega
  | error t =>
    rcases checkLins_eq_error hc with ⟨-, hlow⟩ | ⟨-, hm, hlow⟩
    · obtain ⟨⟨l, hl, -, hne⟩, -⟩ := hlow
      exact absurd (ha l hl) hne
    · have := (hlow.congr fun x => by simp).unique h
      cases t; cases hm; cases this; rfl

/-- A body that ends by setting one register and retiring. -/
theorem CompletesReg.of_setReg {i : Instr} {s : State} {rd : Reg} {v : Word}
    (h : exec i s = .next (s.setReg rd v).retire) : CompletesReg i s rd v := by
  refine ⟨_, h, ?_, fun q => State.reg_setReg s rd v q⟩
  unfold State.setReg; split <;> rfl

/-- An instruction whose checks before the operands pass faults as its operand check does. -/
theorem OperandFaults.of_body {i : Instr} {s : State} {align : Nat} {ls : List Lin} {r : Unit → Except Trap State}
    (h : exec i s = finish s (checkLins s align ls >>= r)) : OperandFaults i s align ls := by
  refine ⟨fun a ha => ?_, fun hal a ha => ?_⟩ <;> unfold Faults
  · rw [h, check_then_of_error (checkLins_of_misaligned ha)]; rfl
  · rw [h, check_then_of_error (checkLins_of_outside hal ha)]; rfl

/-! ## Batched instructions -/

/-- A batched body completes exactly when BCOUNT is not 0, its own checks pass and both views are in order; it leaves the
slots valid and DMEM as the batches leave it (42_fft_sr.md R170). -/
theorem batchedBody_eq_ok_iff (s : State) (n src dst : Nat) (args : Except Trap Unit) (slots : List Slot)
    (kernel : List (Cplx s.prec) → List (Cplx s.prec)) (t : State) :
    batchedBody s n src dst args slots kernel = .ok t ↔ args = .ok () ∧ ViewsReady s n src dst ∧
      t = (s.ensureSlots slots).setDmem
        (runBatches (s.view src n) (s.view dst n) kernel s.dmem s.bcount.toNat) := by
  have hcs : 0 < s.prec.cs := Prec.cs_pos _
  have h0 : s.bcount.toNat ≠ 0 ↔ s.bcount ≠ 0 := by
    rw [not_iff_not]; exact ⟨fun h => BitVec.eq_of_toNat_eq h, fun h => by rw [h]; rfl⟩
  unfold batchedBody
  simp only [check_then_eq_ok_iff, requireNonzero_eq_ok_iff, checkAligned_eq_ok_iff, checkRange_eq_ok_iff, h0, ViewsReady]
  simp only [List.mem_cons, List.not_mem_nil, or_false, forall_eq_or_imp, forall_eq,
    View.lowestOut_eq_none_iff _ _ (show 0 < (s.view src n).cs from hcs),
    View.lowestOut_eq_none_iff _ _ (show 0 < (s.view dst n).cs from hcs), Except.ok.injEq]
  constructor
  · rintro ⟨h1, h2, ⟨h3, h4⟩, ⟨h5, h6⟩, h7⟩; exact ⟨h2, ⟨h1, h3, h4, h5, h6⟩, h7.symm⟩
  · rintro ⟨h2, ⟨h1, h3, h4, h5, h6⟩, h7⟩; exact ⟨h1, h2, ⟨h3, h4⟩, ⟨h5, h6⟩, h7.symm⟩

theorem batchedBody_of_bcount {s : State} (h : s.bcount = 0) (n src dst : Nat) (args : Except Trap Unit)
    (slots : List Slot) (kernel : List (Cplx s.prec) → List (Cplx s.prec)) :
    batchedBody s n src dst args slots kernel = .error ⟨.invalidArgument, 0⟩ := by
  unfold batchedBody; rw [h]; rfl

theorem batchedBody_of_args {s : State} (h : s.bcount ≠ 0) {n src dst : Nat} {args : Except Trap Unit} {x : Trap}
    (ha : args = .error x) (slots : List Slot) (kernel : List (Cplx s.prec) → List (Cplx s.prec)) :
    batchedBody s n src dst args slots kernel = .error x := by
  have h0 : s.bcount.toNat ≠ 0 := fun hc => h (BitVec.eq_of_toNat_eq hc)
  unfold batchedBody
  rw [check_then_of_ok (requireNonzero_of_ne h0), ha]; rfl

theorem runBatches_succ {p : Prec} (src dst : View) (kernel : List (Cplx p) → List (Cplx p)) (m : Memory) (k : Nat) :
    runBatches src dst kernel m (k + 1) = runBatch src dst kernel (runBatches src dst kernel m k) k := by
  unfold runBatches
  rw [List.range_succ, List.foldl_append]
  rfl

/-- Two points of one batch have one address or do not overlap. -/
theorem View.addr_apart (v : View) (b : Nat) {j k : Nat} (hjk : j < k) (hne : v.addr b k ≠ v.addr b j) :
    v.addr b j + v.cs ≤ v.addr b k := by
  unfold View.addr at *
  have hi : v.istride ≠ 0 := fun h => hne (by simp [h])
  have h1 : j * v.istride + 1 ≤ k * v.istride := by
    have : (j + 1) * v.istride ≤ k * v.istride := Nat.mul_le_mul_right _ hjk
    rw [Nat.add_mul] at this
    omega
  have h2 := Nat.mul_le_mul_right v.cs (show b * v.bstride + j * v.istride + 1 ≤ b * v.bstride + k * v.istride by omega)
  rw [Nat.add_mul] at h2
  omega

/-- One batch does what BatchRuns says, when its kernel gives as many points as it takes. -/
theorem BatchRuns.of_runBatch {s : State} {n src dst : Nat} {kernel : List (Cplx s.prec) → List (Cplx s.prec)}
    (hk : ∀ v, v.length = n → (kernel v).length = n) {m : Memory} (h : Memory.wf m = true) (b : Nat) :
    BatchRuns s n src dst kernel b m (runBatch (s.view src n) (s.view dst n) kernel m b) := by
  refine ⟨SameOutside.of_writeCs h fun w hw => (List.of_mem_zip hw).1, fun j hj hlast => ?_⟩
  have hread : m.readCs s.prec ((s.view src n).batch b) = (List.range n).map fun j =>
      m.readC s.prec (src + (b * s.bstride.toNat + j * s.istride.toNat) * s.prec.cs) := by
    simp only [Memory.readCs, View.batch, List.map_map]
    rfl
  unfold runBatch
  rw [hread]
  generalize hr : kernel ((List.range n).map fun j =>
    m.readC s.prec (src + (b * s.bstride.toNat + j * s.istride.toNat) * s.prec.cs)) = result
  have hlen : result.length = n := by rw [← hr]; exact hk _ (by simp)
  have hw : j < (((s.view dst n).batch b).zip result).length := by simp [View.batch, State.view]; omega
  have := Memory.readC_writeCs_getElem h s.prec hw (fun k hkl hjk => by
    simp only [View.batch, List.length_zip, List.length_map, List.length_range, State.view] at hkl
    simp only [List.getElem_zip, View.batch, List.getElem_map, List.getElem_range]
    exact .inl (View.addr_apart (s.view dst n) b hjk (hlast k hjk (by omega))))
  simp only [List.getElem_zip, View.batch, List.getElem_map, List.getElem_range] at this
  refine this.trans ?_
  rw [atC, List.getD_eq_getElem?_getD, List.getElem?_eq_getElem (by omega)]
  rfl

/-- The addresses a batch writes are its view's. -/
theorem sameOutside_runBatches {p : Prec} {src dst : View}
    (kernel : List (Cplx p) → List (Cplx p)) {m : Memory} (h : Memory.wf m = true) {count : Nat} (hc : count ≤ dst.batches) :
    SameOutside m (runBatches src dst kernel m count) dst.addrs p.cs ∧ Memory.wf (runBatches src dst kernel m count) = true := by
  induction count with
  | zero => exact ⟨SameOutside.refl _ _ _, h⟩
  | succ k ih =>
    obtain ⟨h1, h2⟩ := ih (by omega)
    rw [runBatches_succ]
    refine ⟨h1.trans (SameOutside.of_writeCs h2 fun w hw => ?_), Memory.wf_writeCs h2 p _⟩
    have := (List.of_mem_zip hw).1
    obtain ⟨j, hj, hw⟩ := (View.mem_batch _ _ _).1 this
    exact (View.mem_addrs _ _).2 ⟨k, by omega, j, hj, hw⟩

/-- An instruction that is a batched body completes as CompletesBatched says, when its kernel gives as many points as it
takes. -/
theorem CompletesBatched.of_body {i : Instr} {s : State} {n src dst : Nat} {args : Except Trap Unit} {slots : List Slot}
    {kernel : List (Cplx s.prec) → List (Cplx s.prec)}
    (h : exec i s = finish s (batchedBody s n src dst args slots kernel)) (ha : args = .ok ())
    (hv : ViewsReady s n src dst) (hk : ∀ v, v.length = n → (kernel v).length = n) :
    CompletesBatched i s n src dst slots kernel := by
  have hok := (batchedBody_eq_ok_iff s n src dst args slots kernel _).2 ⟨ha, hv, rfl⟩
  refine ⟨⟨?_, fun hwf => (sameOutside_runBatches kernel hwf (Nat.le_refl _)).1⟩, fun hwf hb hi j hj => ?_, fun hwf => ?_⟩
  · rw [h, hok, finish_ok]
    congr 1
    simp [State.retire, State.retireTo, State.setDmem]
  · have h1 : s.bcount.toNat = 1 := by rw [hb]; rfl
    have hr : runBatches (s.view src n) (s.view dst n) kernel s.dmem s.bcount.toNat =
        runBatch (s.view src n) (s.view dst n) kernel s.dmem 0 := by
      rw [h1]; rfl
    have hist : s.istride.toNat ≠ 0 := fun hc => hi (BitVec.eq_of_toNat_eq hc)
    have hcs : 0 < s.prec.cs := Prec.cs_pos _
    have hread : s.dmem.readCs s.prec ((s.view src n).batch 0) = (List.range n).map fun j =>
        s.dmem.readC s.prec (src + (0 * s.bstride.toNat + j * s.istride.toNat) * s.prec.cs) := by
      simp only [Memory.readCs, View.batch, List.map_map]
      rfl
    simp only [hr]
    rw [hread]
    refine (BatchRuns.of_runBatch hk hwf 0).2 j hj fun k hjk _ he => ?_
    have := Nat.mul_lt_mul_of_pos_right (Nat.mul_lt_mul_of_pos_right hjk (Nat.pos_of_ne_zero hist)) hcs
    simp only [Nat.zero_mul, Nat.zero_add] at he
    omega
  · have hms : ∀ b, b ≤ s.bcount.toNat →
        Memory.wf (runBatches (s.view src n) (s.view dst n) kernel s.dmem b) = true := fun b hb =>
      (sameOutside_runBatches kernel hwf (dst := s.view dst n) hb).2
    refine ⟨runBatches (s.view src n) (s.view dst n) kernel s.dmem, rfl, rfl, hms, fun b hb => ?_⟩
    rw [runBatches_succ]
    exact BatchRuns.of_runBatch hk (hms b (by omega)) b

/-- Its faults once its own checks pass. -/
theorem ViewFaults.of_body {i : Instr} {s : State} {n src dst : Nat} {args : Except Trap Unit} {slots : List Slot}
    {kernel : List (Cplx s.prec) → List (Cplx s.prec)}
    (h : exec i s = finish s (batchedBody s n src dst args slots kernel)) (hb : s.bcount ≠ 0) (ha : args = .ok ()) :
    ViewFaults i s n src dst := by
  have hcs : 0 < s.prec.cs := Prec.cs_pos _
  have h0 : s.bcount.toNat ≠ 0 := fun hc => hb (BitVec.eq_of_toNat_eq hc)
  have hbody : ∀ r : Except Trap Unit, r = (do
      checkAligned [(src, s.prec.es), (dst, s.prec.es)]
      checkRange [(s.view src n).lowestOut s.params.dmemBytes, (s.view dst n).lowestOut s.params.dmemBytes]) →
      ∀ x, r = .error x → Faults i s x.cause x.info := by
    rintro r rfl x hx
    unfold Faults
    rw [h]
    unfold batchedBody
    rw [check_then_of_ok (requireNonzero_of_ne h0), check_then_of_ok ha]
    rcases check_then_eq_error hx with hx | ⟨hx, hy⟩
    · rw [check_then_of_error hx]; rfl
    · rw [check_then_of_ok hx, check_then_of_error hy]; rfl
  refine ⟨fun a hlow => ?_, fun hs hd a hlow => ?_⟩
  · cases hc : checkAligned [(src, s.prec.es), (dst, s.prec.es)] with
    | ok u =>
      have hall := (checkAligned_eq_ok_iff _).1 (by cases u; exact hc)
      obtain ⟨⟨hne, rfl | rfl⟩, -⟩ := hlow
      · exact absurd (hall (a, s.prec.es) (by simp)) hne
      · exact absurd (hall (a, s.prec.es) (by simp)) hne
    | error x =>
      have h2 := hbody _ rfl x (check_then_of_error hc _)
      obtain ⟨hm, hl⟩ := checkAligned_eq_error hc
      have := (hl.congr fun y => by
        constructor
        · rintro ⟨b, hb, rfl, hne⟩
          simp only [List.mem_cons, List.not_mem_nil, or_false] at hb
          rcases hb with rfl | rfl
          · exact ⟨hne, .inl rfl⟩
          · exact ⟨hne, .inr rfl⟩
        · rintro ⟨hne, rfl | rfl⟩
          · exact ⟨(y, s.prec.es), by simp, rfl, hne⟩
          · exact ⟨(y, s.prec.es), by simp, rfl, hne⟩ : IsLowest _ _).unique hlow
      cases this
      rw [hm] at h2
      exact h2
  · have hok : checkAligned [(src, s.prec.es), (dst, s.prec.es)] = .ok () :=
      (checkAligned_eq_ok_iff _).2 (by simp [hs, hd])
    have hl1 := (s.view src n).isLowest_lowestOut s.params.dmemBytes hcs
    have hl2 := (s.view dst n).isLowest_lowestOut s.params.dmemBytes hcs
    cases hc : checkRange [(s.view src n).lowestOut s.params.dmemBytes, (s.view dst n).lowestOut s.params.dmemBytes] with
    | ok u =>
      exfalso
      have hall := (checkRange_eq_ok_iff _).1 (by cases u; exact hc)
      rw [hall ((s.view src n).lowestOut s.params.dmemBytes) (by simp)] at hl1
      rw [hall ((s.view dst n).lowestOut s.params.dmemBytes) (by simp)] at hl2
      obtain ⟨⟨base, rfl | rfl, b, hb, j, hj, rfl, hlt⟩, -⟩ := hlow
      · exact hl1 _ ⟨b, hb, j, hj, rfl, hlt⟩
      · exact hl2 _ ⟨b, hb, j, hj, rfl, hlt⟩
    | error x =>
      have h2 := hbody _ rfl x (by rw [check_then_of_ok hok]; exact hc)
      obtain ⟨hm, hl⟩ := checkRange_eq_error hc
      have : IsLowest (fun x => ∃ base, (base = src ∨ base = dst) ∧ ∃ b < s.bcount.toNat, ∃ j < n,
          x = base + (b * s.bstride.toNat + j * s.istride.toNat) * s.prec.cs ∧
            s.params.dmemBytes < x + s.prec.cs) (some x.info) := by
        constructor
        · have hmem := hl.1
          simp only [List.mem_cons, List.not_mem_nil, or_false] at hmem
          rcases hmem with hmem | hmem
          · rw [← hmem] at hl1
            obtain ⟨b, hb, j, hj, he, hlt⟩ := hl1.1
            exact ⟨src, .inl rfl, b, hb, j, hj, he, hlt⟩
          · rw [← hmem] at hl2
            obtain ⟨b, hb, j, hj, he, hlt⟩ := hl2.1
            exact ⟨dst, .inr rfl, b, hb, j, hj, he, hlt⟩
        · rintro y ⟨base, rfl | rfl, b, hb, j, hj, he, hlt⟩
          · cases ho : (s.view base n).lowestOut s.params.dmemBytes with
            | none => rw [ho] at hl1; exact absurd ⟨b, hb, j, hj, he, hlt⟩ (hl1 y)
            | some z =>
              rw [ho] at hl1
              exact Nat.le_trans (hl.2 z (by simp [ho])) (hl1.2 y ⟨b, hb, j, hj, he, hlt⟩)
          · cases ho : (s.view base n).lowestOut s.params.dmemBytes with
            | none => rw [ho] at hl2; exact absurd ⟨b, hb, j, hj, he, hlt⟩ (hl2 y)
            | some z =>
              rw [ho] at hl2
              exact Nat.le_trans (hl.2 z (by simp [ho])) (hl2.2 y ⟨b, hb, j, hj, he, hlt⟩)
      have := this.unique hlow
      cases this
      rw [hm] at h2
      exact h2

/-! ## The other bodies -/

/-- An instruction that writes DMEM only completes as CompletesWith says. -/
theorem CompletesWith.of_ok {i : Instr} {s : State} {slots : List Slot} {starts : List Nat} {size : Nat} {m : Memory}
    {q : Memory → Prop} (h : exec i s = finish s (.ok ((s.ensureSlots slots).setDmem m)))
    (hm : Memory.wf s.dmem = true → SameOutside s.dmem m starts size) (hq : Memory.wf s.dmem = true → q m) :
    CompletesWith i s slots starts size q := by
  refine ⟨m, ⟨?_, hm⟩, hq⟩
  rw [h, finish_ok]
  congr 1
  simp [State.retire, State.retireTo, State.setDmem]

/-- A map generator completes exactly when its own checks pass and the map is in order (44_permute.md R225). -/
theorem mapBody_eq_ok_iff (s : State) (d n : Nat) (args : Except Trap Unit) (map : Unit → List Nat) (t : State) :
    mapBody s d n args map = .ok t ↔ args = .ok () ∧ LinReady s 4 (mapLin d n) ∧
      t = s.setDmem (s.dmem.writeWords ((mapLin d n).addrs.zip (map ()))) := by
  unfold mapBody
  rw [check_then_eq_ok_iff, check_then_eq_ok_iff, checkLins_eq_ok_iff]
  simp only [Except.ok.injEq, List.mem_singleton, forall_eq, @eq_comm State t]

/-- A generator completes exactly when N is supported, SCALE is finite and the table is in order (45_twiddle.md R248). -/
theorem generatorBody_eq_ok_iff (s : State) (d n len count : Nat) (supported : Bool)
    (table : Sys2Proof.Machine.Dyadic → List Exact) (t : State) :
    generatorBody s d n len count supported table = .ok t ↔ n ≠ 0 ∧ supported = true ∧ len ≤ s.params.maxN ∧
      LinReady s s.prec.es (realLin s.prec d count) ∧ ∃ scale, s.scale? = some scale ∧
      t = s.setDmem (s.dmem.writeEls s.prec
        ((realLin s.prec d count).addrs.zip ((table scale).map (rescale s.prec)))) := by
  unfold generatorBody
  rw [check_then_eq_ok_iff, requireNonzero_eq_ok_iff, requireScale_then_eq_ok_iff]
  simp only [check_then_eq_ok_iff, checkLength_eq_ok_iff, checkLins_eq_ok_iff, List.mem_singleton, forall_eq,
    Except.ok.injEq, @eq_comm State t]
  constructor
  · rintro ⟨h1, x, h2, ⟨-, h3, h4⟩, h5, h6⟩; exact ⟨h1, h3, h4, h5, x, h2, h6⟩
  · rintro ⟨h1, h3, h4, h5, x, h2, h6⟩; exact ⟨h1, x, h2, ⟨h1, h3, h4⟩, h5, h6⟩

/-- A real transform completes exactly when its own checks pass and its three operands are in order (46_mdct.md R265,
47_rdft.md R284, 48_dct.md R300). -/
theorem transformBody_eq_ok_iff (s : State) (args : Except Trap Unit) (len : Nat) (table input output : Lin)
    (writes : List (Elem s.prec) → List (Elem s.prec) → List (Nat × Elem s.prec)) (t : State) :
    transformBody s args len table input output writes = .ok t ↔ args = .ok () ∧
      (∀ l ∈ [table, input, output], LinReady s s.prec.es l) ∧
      t = (s.ensureSlots (slotsFft len)).setDmem (s.dmem.writeEls s.prec
        ((writes (s.dmem.readEls s.prec input.addrs) (s.dmem.readEls s.prec table.addrs)).map
          fun w => (output.base + w.1 * output.stride, w.2))) := by
  unfold transformBody
  rw [check_then_eq_ok_iff, check_then_eq_ok_iff, checkLins_eq_ok_iff]
  simp only [Except.ok.injEq, @eq_comm State t]

/-- TCOPY completes exactly when its own checks pass and its destination is in order (45_twiddle.md R247). -/
theorem tcopyBody_eq_ok_iff (x : Slot) (args : Except Trap Unit) (d : Nat) (s t : State) :
    tcopyBody x args d s = .ok t ↔ args = .ok () ∧ LinReady s s.prec.es (realLin s.prec d x.length) ∧
      t = (s.ensureSlots [x]).setDmem
        (s.dmem.writeEls s.prec ((realLin s.prec d x.length).addrs.zip (slotTable s.prec x))) := by
  unfold tcopyBody
  rw [check_then_eq_ok_iff, check_then_eq_ok_iff, checkLins_eq_ok_iff]
  simp only [Except.ok.injEq, List.mem_singleton, forall_eq, @eq_comm State t]

/-- CMULV completes exactly when c is not 0 and its operands are in order (41_numeric.md R158). -/
theorem cmulvBody_eq_ok_iff (conjugate : Bool) (d a b c : Nat) (s t : State) :
    cmulvBody conjugate d a b c s = .ok t ↔ c ≠ 0 ∧
      (∀ l ∈ [complexLin s.prec d c, complexLin s.prec a c, complexLin s.prec b c], LinReady s s.prec.es l) ∧
      t = s.setDmem (s.dmem.writeCs s.prec ((complexLin s.prec d c).addrs.zip
        (List.zipWith (fun x y => x.mul (cmulvFactor conjugate y)) (s.dmem.readCs s.prec (complexLin s.prec a c).addrs)
          (s.dmem.readCs s.prec (complexLin s.prec b c).addrs)))) := by
  unfold cmulvBody
  rw [check_then_eq_ok_iff, check_then_eq_ok_iff, checkLins_eq_ok_iff, requireNonzero_eq_ok_iff]
  simp only [Except.ok.injEq, @eq_comm State t]

/-- BFV completes exactly when c is not 0 and its operands are in order (41_numeric.md R159). -/
theorem bfvBody_eq_ok_iff (a b c : Nat) (s t : State) :
    bfvBody a b c s = .ok t ↔ c ≠ 0 ∧
      (∀ l ∈ [complexLin s.prec a c, complexLin s.prec b c], LinReady s s.prec.es l) ∧
      t = s.setDmem (s.dmem.writeCs s.prec (bfvWrites (complexLin s.prec a c).addrs (complexLin s.prec b c).addrs
        (s.dmem.readCs s.prec (complexLin s.prec a c).addrs) (s.dmem.readCs s.prec (complexLin s.prec b c).addrs))) := by
  unfold bfvBody
  rw [check_then_eq_ok_iff, check_then_eq_ok_iff, checkLins_eq_ok_iff, requireNonzero_eq_ok_iff]
  simp only [Except.ok.injEq, @eq_comm State t]

/-- SCALEV completes exactly when c is not 0, SCALE is finite and its operands are in order (41_numeric.md R160). -/
theorem scalevBody_eq_ok_iff (d a c : Nat) (s t : State) :
    scalevBody d a c s = .ok t ↔ c ≠ 0 ∧
      (∀ l ∈ [realLin s.prec d c, realLin s.prec a c], LinReady s s.prec.es l) ∧ ∃ scale, s.scale? = some scale ∧
      t = s.setDmem (s.dmem.writeEls s.prec ((realLin s.prec d c).addrs.zip
        ((s.dmem.readEls s.prec (realLin s.prec a c).addrs).map (Elem.mul s.prec (s.scaleMultiplier scale s.prec))))) := by
  unfold scalevBody
  rw [check_then_eq_ok_iff, requireNonzero_eq_ok_iff, requireScale_then_eq_ok_iff]
  simp only [check_then_eq_ok_iff, checkLins_eq_ok_iff, Except.ok.injEq, @eq_comm State t]
  constructor
  · rintro ⟨h1, x, h2, h3, h4⟩; exact ⟨h1, h3, x, h2, h4⟩
  · rintro ⟨h1, h3, x, h2, h4⟩; exact ⟨h1, x, h2, h3, h4⟩

/-- COPYV completes exactly when c is not 0 and its operands are in order (41_numeric.md R161). -/
theorem copyvBody_eq_ok_iff (d a c : Nat) (s t : State) :
    copyvBody d a c s = .ok t ↔ c ≠ 0 ∧
      (∀ l ∈ [complexLin s.prec d c, complexLin s.prec a c], LinReady s s.prec.es l) ∧
      t = s.setDmem (s.dmem.writeRaws s.prec.cs ((complexLin s.prec d c).addrs.zip
        (s.dmem.readRaws s.prec.cs (complexLin s.prec a c).addrs))) := by
  unfold copyvBody
  rw [check_then_eq_ok_iff, check_then_eq_ok_iff, checkLins_eq_ok_iff, requireNonzero_eq_ok_iff]
  simp only [Except.ok.injEq, @eq_comm State t]

theorem accessOut_eq_none_iff (s : State) (size a : Nat) : accessOut s size a = none ↔ a + size ≤ s.params.dmemBytes := by
  unfold accessOut; split <;> simp <;> omega

/-- PGATHER completes exactly when c is not 0, the bases are aligned, and map, destination and every gathered sample lie in
DMEM (44_permute.md R225, R226). -/
theorem pgatherBody_eq_ok_iff (d a m c : Nat) (s t : State) :
    pgatherBody d a m c s = .ok t ↔ c ≠ 0 ∧ m % 4 = 0 ∧ d % s.prec.es = 0 ∧ a % s.prec.es = 0 ∧
      (mapLin m c).Fits s.params.dmemBytes ∧ (complexLin s.prec d c).Fits s.params.dmemBytes ∧
      (∀ x ∈ mapAddrs a s.prec.cs (s.readMap m c), x + s.prec.cs ≤ s.params.dmemBytes) ∧
      t = s.setDmem (s.dmem.writeRaws s.prec.cs ((complexLin s.prec d c).addrs.zip
        (s.dmem.readRaws s.prec.cs (mapAddrs a s.prec.cs (s.readMap m c))))) := by
  unfold pgatherBody
  rw [check_then_eq_ok_iff, check_then_eq_ok_iff, check_then_eq_ok_iff, check_then_eq_ok_iff, requireNonzero_eq_ok_iff,
    checkAligned_eq_ok_iff, checkRange_eq_ok_iff, checkRange_eq_ok_iff]
  simp [Lin.lowestOut_eq_none_iff, accessOut_eq_none_iff, @eq_comm State t]
  tauto

/-- PSCATTER completes exactly when c is not 0, the bases are aligned, and map, source and every scattered sample lie in
DMEM (44_permute.md R225, R227). -/
theorem pscatterBody_eq_ok_iff (d a m c : Nat) (s t : State) :
    pscatterBody d a m c s = .ok t ↔ c ≠ 0 ∧ m % 4 = 0 ∧ d % s.prec.es = 0 ∧ a % s.prec.es = 0 ∧
      (mapLin m c).Fits s.params.dmemBytes ∧ (complexLin s.prec a c).Fits s.params.dmemBytes ∧
      (∀ x ∈ mapAddrs d s.prec.cs (s.readMap m c), x + s.prec.cs ≤ s.params.dmemBytes) ∧
      t = s.setDmem (s.dmem.writeRaws s.prec.cs ((mapAddrs d s.prec.cs (s.readMap m c)).zip
        (s.dmem.readRaws s.prec.cs (complexLin s.prec a c).addrs))) := by
  unfold pscatterBody
  rw [check_then_eq_ok_iff, check_then_eq_ok_iff, check_then_eq_ok_iff, check_then_eq_ok_iff, requireNonzero_eq_ok_iff,
    checkAligned_eq_ok_iff, checkRange_eq_ok_iff, checkRange_eq_ok_iff]
  simp [Lin.lowestOut_eq_none_iff, accessOut_eq_none_iff, @eq_comm State t]
  tauto

/-- PINV completes exactly when c is not 0, the bases are aligned, and the map and every word it names lie in DMEM
(44_permute.md R225, R228). -/
theorem pinvBody_eq_ok_iff (d m c : Nat) (s t : State) :
    pinvBody d m c s = .ok t ↔ c ≠ 0 ∧ m % 4 = 0 ∧ d % 4 = 0 ∧ (mapLin m c).Fits s.params.dmemBytes ∧
      (∀ x ∈ mapAddrs d 4 (s.readMap m c), x + 4 ≤ s.params.dmemBytes) ∧
      t = s.setDmem (s.dmem.writeWords ((mapAddrs d 4 (s.readMap m c)).zip (List.range c))) := by
  unfold pinvBody
  rw [check_then_eq_ok_iff, check_then_eq_ok_iff, check_then_eq_ok_iff, check_then_eq_ok_iff, requireNonzero_eq_ok_iff,
    checkAligned_eq_ok_iff, checkRange_eq_ok_iff, checkRange_eq_ok_iff]
  simp [Lin.lowestOut_eq_none_iff, accessOut_eq_none_iff, @eq_comm State t]
  tauto

end Sys2Proof.Machine
end

