-- ==== Sys2Proof/Laws/Encoding.lean ====
section
/-! SUPPORT. Reading a field back from a word built field by field: what every proof about the encoding rests on. -/

namespace Sys2Proof.Laws

/-- A field above the last appended one is read from what stands before it. -/
theorem extract_append {w v : Nat} (a : BitVec w) (b : BitVec v) (s n : Nat) :
    (a ++ b).extractLsb' (v + s) n = a.extractLsb' s n := by
  apply BitVec.eq_of_getLsbD_eq
  intro i hi
  have h : ¬(v + s + i < v) := by omega
  have h2 : v + s + i - v = s + i := by omega
  simp only [BitVec.getLsbD_extractLsb', BitVec.getLsbD_append, h, h2, if_false]

/-- A field inside the last appended one is read from it. -/
theorem extract_append_low {w v : Nat} (a : BitVec w) (b : BitVec v) {s n : Nat} (h : s + n ≤ v) :
    (a ++ b).extractLsb' s n = b.extractLsb' s n := by
  apply BitVec.eq_of_getLsbD_eq
  intro i hi
  have h : s + i < v := by omega
  simp only [BitVec.getLsbD_extractLsb', BitVec.getLsbD_append, h, if_true]

/-- The field that is the whole of a bit vector. -/
theorem extract_all {w : Nat} (a : BitVec w) : a.extractLsb' 0 w = a := by
  apply BitVec.eq_of_getLsbD_eq
  intro i hi
  simp [hi]

/-- OP is read back in every format (30_encoding.md R101, R102). -/
theorem opOf_encR (op : BitVec 6) (rd rs1 rs2 rs3 : Reg) (fn : BitVec 10) : opOf (encR op rd rs1 rs2 rs3 fn) = op :=
  (extract_append _ fn 16 6).trans ((extract_append _ rs3 12 6).trans ((extract_append _ rs2 8 6).trans
    ((extract_append _ rs1 4 6).trans ((extract_append op rd 0 6).trans (extract_all op)))))

theorem opOf_encK (op : BitVec 6) (rd rs1 rs2 rs3 : Reg) (lg selInv : BitVec 5) :
    opOf (encK op rd rs1 rs2 rs3 lg selInv) = op :=
  (extract_append _ selInv 21 6).trans ((extract_append _ lg 16 6).trans ((extract_append _ rs3 12 6).trans
    ((extract_append _ rs2 8 6).trans ((extract_append _ rs1 4 6).trans ((extract_append op rd 0 6).trans
      (extract_all op))))))

theorem opOf_encI (op : BitVec 6) (a b : Reg) (imm : BitVec 18) : opOf (encI op a b imm) = op :=
  (extract_append _ imm 8 6).trans ((extract_append _ b 4 6).trans ((extract_append op a 0 6).trans (extract_all op)))

theorem opOf_encSh (op : BitVec 6) (rd rs1 : Reg) (sh : BitVec 5) : opOf (encSh op rd rs1 sh) = op :=
  (extract_append _ sh 21 6).trans ((extract_append _ 0#13 8 6).trans ((extract_append _ rs1 4 6).trans
    ((extract_append op rd 0 6).trans (extract_all op))))

theorem opOf_encU (op : BitVec 6) (rd : Reg) (imm : BitVec 22) : opOf (encU op rd imm) = op :=
  (extract_append _ imm 4 6).trans ((extract_append op rd 0 6).trans (extract_all op))

theorem opOf_encJ (op : BitVec 6) (off : BitVec 26) : opOf (encJ op off) = op :=
  (extract_append op off 0 6).trans (extract_all op)

theorem opOf_encC (op : BitVec 6) (rd rs1 : Reg) (csr : BitVec 8) : opOf (encC op rd rs1 csr) = op :=
  (extract_append _ 0#10 16 6).trans ((extract_append _ csr 8 6).trans ((extract_append _ rs1 4 6).trans
    ((extract_append op rd 0 6).trans (extract_all op))))

end Sys2Proof.Laws
end

