-- ==== Sys2Proof/Laws/Exec.lean ====
section
/-! SUPPORT. What any instruction can do, said once: it ends in a fault of its own that records and nothing else, or in one
of a few shapes. A proof over all instructions cites `exec_cases` and unfolds no meaning. -/

namespace Sys2Proof.Machine

/-! ## Faults an instruction raises itself -/

/-- A cause of an instruction itself: CAUSE 3 to 9 (60_exceptions.md R350). -/
def Cause.Own (c : Cause) : Prop := 3 ≤ c.code.toNat ∧ c.code.toNat ≤ 9

theorem Cause.own_of_ne {c : Cause} (h : c ≠ .illegalInstruction ∧ c ≠ .fetchRange ∧ c ≠ .hostAbort) : c.Own := by
  cases c <;> simp [Cause.Own, Cause.code] at h ⊢

/-- Every error is one of an instruction itself. -/
def OwnErrors {α : Type} (r : Except Trap α) : Prop := ∀ x, r = .error x → x.cause.Own

theorem OwnErrors.ok {α : Type} (a : α) : OwnErrors (.ok a) := fun _ h => by cases h

theorem OwnErrors.bind {α β : Type} {x : Except Trap α} {f : α → Except Trap β} (hx : OwnErrors x)
    (hf : ∀ a, OwnErrors (f a)) : OwnErrors (x >>= f) := by
  cases x with
  | error e => intro t h; cases h; exact hx e rfl
  | ok a => exact hf a

theorem OwnErrors.require {ok : Bool} {c : Cause} {n : Nat}
    (h : c ≠ .illegalInstruction ∧ c ≠ .fetchRange ∧ c ≠ .hostAbort) : OwnErrors (require ok ⟨c, n⟩) := by
  intro x hx
  obtain ⟨-, rfl⟩ := (require_eq_error_iff _ _ _).1 hx
  exact Cause.own_of_ne h

theorem OwnErrors.requireNonzero (c : Nat) : OwnErrors (requireNonzero c) := OwnErrors.require (by decide)

theorem OwnErrors.requireScale (s : State) : OwnErrors (requireScale s) := by
  intro x hx
  unfold Machine.requireScale at hx
  split at hx
  · cases hx
  · cases hx; exact Cause.own_of_ne (c := .invalidArgument) (by decide)

theorem OwnErrors.checkAligned (bases : List (Nat × Nat)) : OwnErrors (checkAligned bases) := by
  intro x hx
  have := (checkAligned_eq_error hx).1
  rw [this]; exact Cause.own_of_ne (by decide)

theorem OwnErrors.checkRange (outs : List (Option Nat)) : OwnErrors (checkRange outs) := by
  intro x hx
  have := (checkRange_eq_error hx).1
  rw [this]; exact Cause.own_of_ne (by decide)

theorem OwnErrors.checkLins (s : State) (align : Nat) (ls : List Lin) : OwnErrors (checkLins s align ls) :=
  OwnErrors.bind (OwnErrors.checkAligned _) fun _ => OwnErrors.checkRange _

theorem OwnErrors.checkLg (s : State) (lg : Nat) : OwnErrors (checkLg s lg) :=
  OwnErrors.bind (OwnErrors.require (by decide)) fun _ => OwnErrors.require (by decide)

theorem OwnErrors.checkLength (s : State) (n len : Nat) (supported : Bool) : OwnErrors (checkLength s n len supported) :=
  OwnErrors.bind (OwnErrors.requireNonzero _) fun _ => OwnErrors.bind (OwnErrors.require (by decide)) fun _ =>
    OwnErrors.require (by decide)

theorem OwnErrors.checkSrcomb (s : State) (lg : Nat) : OwnErrors (checkSrcomb s lg) :=
  OwnErrors.bind (OwnErrors.require (by decide)) fun _ => OwnErrors.checkLg _ _

theorem OwnErrors.checkPfa (s : State) (n1 n2 : Nat) : OwnErrors (checkPfa s n1 n2) :=
  OwnErrors.bind (OwnErrors.requireNonzero _) fun _ => OwnErrors.bind (OwnErrors.require (by decide)) fun _ =>
    OwnErrors.bind (OwnErrors.require (by decide)) fun _ => OwnErrors.require (by decide)

theorem OwnErrors.checkFactors (s : State) (n1 n2 : Nat) : OwnErrors (checkFactors s n1 n2) :=
  OwnErrors.bind (OwnErrors.requireNonzero _) fun _ => OwnErrors.bind (OwnErrors.requireNonzero _) fun _ =>
    OwnErrors.bind (OwnErrors.require (by decide)) fun _ => OwnErrors.require (by decide)

theorem OwnErrors.checkNeg (s : State) (n : Nat) : OwnErrors (checkNeg s n) :=
  OwnErrors.bind (OwnErrors.requireNonzero _) fun _ => OwnErrors.require (by decide)

theorem OwnErrors.checkDct3 (s : State) (n : Nat) : OwnErrors (checkDct3 s n) :=
  OwnErrors.bind (OwnErrors.require (by decide)) fun _ => OwnErrors.checkLength _ _ _ _

theorem OwnErrors.checkWord (s : State) (ea : Nat) : OwnErrors (checkWord s ea) :=
  OwnErrors.bind (OwnErrors.require (by decide)) fun _ => OwnErrors.require (by decide)

theorem OwnErrors.batchedBody {s : State} {n src dst : Nat} {args : Except Trap Unit} (ha : OwnErrors args)
    (slots : List Slot) (kernel : List (Cplx s.prec) → List (Cplx s.prec)) :
    OwnErrors (batchedBody s n src dst args slots kernel) :=
  OwnErrors.bind (OwnErrors.requireNonzero _) fun _ => OwnErrors.bind ha fun _ =>
    OwnErrors.bind (OwnErrors.checkAligned _) fun _ => OwnErrors.bind (OwnErrors.checkRange _) fun _ => OwnErrors.ok _

theorem OwnErrors.mapBody {s : State} {d n : Nat} {args : Except Trap Unit} (ha : OwnErrors args) (map : Unit → List Nat) :
    OwnErrors (mapBody s d n args map) :=
  OwnErrors.bind ha fun _ => OwnErrors.bind (OwnErrors.checkLins _ _ _) fun _ => OwnErrors.ok _

theorem OwnErrors.tgenBody {x : Slot} {args : Except Trap Unit} (ha : OwnErrors args) (s : State) :
    OwnErrors (tgenBody x args s) := OwnErrors.bind ha fun _ => OwnErrors.ok _

theorem OwnErrors.tcopyBody {x : Slot} {args : Except Trap Unit} (ha : OwnErrors args) (d : Nat) (s : State) :
    OwnErrors (tcopyBody x args d s) :=
  OwnErrors.bind ha fun _ => OwnErrors.bind (OwnErrors.checkLins _ _ _) fun _ => OwnErrors.ok _

theorem OwnErrors.generatorBody (s : State) (d n len count : Nat) (supported : Bool)
    (table : Sys2Proof.Machine.Dyadic → List Exact) : OwnErrors (generatorBody s d n len count supported table) :=
  OwnErrors.bind (OwnErrors.requireNonzero _) fun _ => OwnErrors.bind (OwnErrors.requireScale _) fun _ =>
    OwnErrors.bind (OwnErrors.checkLength _ _ _ _) fun _ => OwnErrors.bind (OwnErrors.checkLins _ _ _) fun _ => OwnErrors.ok _

theorem OwnErrors.transformBody {s : State} {args : Except Trap Unit} (ha : OwnErrors args) (len : Nat)
    (table input output : Lin) (writes : List (Elem s.prec) → List (Elem s.prec) → List (Nat × Elem s.prec)) :
    OwnErrors (transformBody s args len table input output writes) :=
  OwnErrors.bind ha fun _ => OwnErrors.bind (OwnErrors.checkLins _ _ _) fun _ => OwnErrors.ok _

theorem OwnErrors.cmulvBody (conjugate : Bool) (d a b c : Nat) (s : State) : OwnErrors (cmulvBody conjugate d a b c s) :=
  OwnErrors.bind (OwnErrors.requireNonzero _) fun _ => OwnErrors.bind (OwnErrors.checkLins _ _ _) fun _ => OwnErrors.ok _

theorem OwnErrors.bfvBody (a b c : Nat) (s : State) : OwnErrors (bfvBody a b c s) :=
  OwnErrors.bind (OwnErrors.requireNonzero _) fun _ => OwnErrors.bind (OwnErrors.checkLins _ _ _) fun _ => OwnErrors.ok _

theorem OwnErrors.scalevBody (d a c : Nat) (s : State) : OwnErrors (scalevBody d a c s) :=
  OwnErrors.bind (OwnErrors.requireNonzero _) fun _ => OwnErrors.bind (OwnErrors.requireScale _) fun _ =>
    OwnErrors.bind (OwnErrors.checkLins _ _ _) fun _ => OwnErrors.ok _

theorem OwnErrors.copyvBody (d a c : Nat) (s : State) : OwnErrors (copyvBody d a c s) :=
  OwnErrors.bind (OwnErrors.requireNonzero _) fun _ => OwnErrors.bind (OwnErrors.checkLins _ _ _) fun _ => OwnErrors.ok _

theorem OwnErrors.pgatherBody (d a m c : Nat) (s : State) : OwnErrors (pgatherBody d a m c s) :=
  OwnErrors.bind (OwnErrors.requireNonzero _) fun _ => OwnErrors.bind (OwnErrors.checkAligned _) fun _ =>
    OwnErrors.bind (OwnErrors.checkRange _) fun _ => OwnErrors.bind (OwnErrors.checkRange _) fun _ => OwnErrors.ok _

theorem OwnErrors.pscatterBody (d a m c : Nat) (s : State) : OwnErrors (pscatterBody d a m c s) :=
  OwnErrors.bind (OwnErrors.requireNonzero _) fun _ => OwnErrors.bind (OwnErrors.checkAligned _) fun _ =>
    OwnErrors.bind (OwnErrors.checkRange _) fun _ => OwnErrors.bind (OwnErrors.checkRange _) fun _ => OwnErrors.ok _

theorem OwnErrors.pinvBody (d m c : Nat) (s : State) : OwnErrors (pinvBody d m c s) :=
  OwnErrors.bind (OwnErrors.requireNonzero _) fun _ => OwnErrors.bind (OwnErrors.checkAligned _) fun _ =>
    OwnErrors.bind (OwnErrors.checkRange _) fun _ => OwnErrors.bind (OwnErrors.checkRange _) fun _ => OwnErrors.ok _

/-! ## What the writes keep -/

/-- DMEM `m'` is canonical and lists only addresses below `bytes` if `m` does. -/
def Memory.Keeps (bytes : Nat) (m m' : Memory) : Prop :=
  (Memory.wf m = true → Memory.wf m' = true) ∧ ((∀ p ∈ m, p.1 < bytes) → ∀ p ∈ m', p.1 < bytes)

theorem Memory.Keeps.refl (bytes : Nat) (m : Memory) : Memory.Keeps bytes m m := ⟨id, id⟩

theorem Memory.Keeps.trans {bytes : Nat} {m₁ m₂ m₃ : Memory} (h₁ : Memory.Keeps bytes m₁ m₂)
    (h₂ : Memory.Keeps bytes m₂ m₃) : Memory.Keeps bytes m₁ m₃ := ⟨fun h => h₂.1 (h₁.1 h), fun h => h₂.2 (h₁.2 h)⟩

theorem Memory.keeps_writeLE {bytes a n : Nat} (m : Memory) (v : Nat) (h : a + n ≤ bytes) :
    Memory.Keeps bytes m (m.writeLE a n v) :=
  ⟨fun hw => Memory.wf_writeLE hw _ _ _, fun hm p hp => by
    rcases Memory.mem_writeLE hp with hp | hp
    · exact hm p hp
    · omega⟩

theorem Memory.keeps_writeRaws {bytes n : Nat} (m : Memory) {ws : List (Nat × Nat)} (h : ∀ w ∈ ws, w.1 + n ≤ bytes) :
    Memory.Keeps bytes m (m.writeRaws n ws) := by
  induction ws generalizing m with
  | nil => exact Memory.Keeps.refl _ _
  | cons w ws ih =>
    exact (Memory.keeps_writeLE m w.2 (h w (by simp))).trans (ih _ fun x hx => h x (by simp [hx]))

theorem Memory.keeps_writeEls {bytes : Nat} (m : Memory) {p : Prec} {ws : List (Nat × Elem p)}
    (h : ∀ w ∈ ws, w.1 + p.es ≤ bytes) : Memory.Keeps bytes m (m.writeEls p ws) := by
  rw [Memory.writeEls_eq]
  apply Memory.keeps_writeRaws
  intro w hw
  obtain ⟨x, hx, rfl⟩ := List.mem_map.1 hw
  exact h x hx

theorem Memory.keeps_writeCs {bytes : Nat} (m : Memory) {p : Prec} {ws : List (Nat × Cplx p)}
    (h : ∀ w ∈ ws, w.1 + p.cs ≤ bytes) : Memory.Keeps bytes m (m.writeCs p ws) := by
  rw [Memory.writeCs_eq]
  apply Memory.keeps_writeEls
  intro w hw
  obtain ⟨x, hx, hw⟩ := List.mem_flatMap.1 hw
  have := h x hx
  have hc : p.cs = 2 * p.es := rfl
  simp only [List.mem_cons, List.not_mem_nil, or_false] at hw
  rcases hw with rfl | rfl <;> simp only <;> omega

/-- Every address of a linear operand in order is the start of an access inside DMEM. -/
theorem Lin.Fits.addr {l : Lin} {bytes a : Nat} (h : l.Fits bytes) (ha : a ∈ l.addrs) : a + l.size ≤ bytes := by
  obtain ⟨j, hj, rfl⟩ := (Lin.mem_addrs l a).1 ha
  exact h j hj

theorem Memory.keeps_runBatches {p : Prec} {src dst : View} {bytes : Nat} (hcs : dst.cs = p.cs) (hf : dst.Fits bytes)
    (kernel : List (Cplx p) → List (Cplx p)) (m : Memory) {count : Nat} (hc : count ≤ dst.batches) :
    Memory.Keeps bytes m (runBatches src dst kernel m count) := by
  induction count with
  | zero => exact Memory.Keeps.refl _ _
  | succ k ih =>
    rw [runBatches_succ]
    refine (ih (by omega)).trans (Memory.keeps_writeCs _ fun w hw => ?_)
    obtain ⟨j, hj, hw⟩ := (View.mem_batch _ _ _).1 (List.of_mem_zip hw).1
    rw [← hw, ← hcs]
    exact hf k (by omega) j hj

/-! ## The slots an instruction can need -/

/-- Every slot has a bit of a 32-bit register and, under `W`, is one that the unit's lengths can need. -/
def SlotsOk (W : Prop) (c : Params) (slots : List Slot) : Prop :=
  ∀ x ∈ slots, x.bit < 32 ∧ (W → c.slotBit x.bit)

variable {W : Prop}

theorem SlotsOk.nil (c : Params) : SlotsOk W c [] := fun _ h => absurd h (by simp)

theorem SlotsOk.append {c : Params} {l r : List Slot} (hl : SlotsOk W c l) (hr : SlotsOk W c r) : SlotsOk W c (l ++ r) :=
  fun x hx => (List.mem_append.1 hx).elim (hl x) (hr x)

theorem SlotsOk.pow {c : Params} {lg : Nat} (h3 : 3 ≤ lg) (h : lg ≤ 21) (hc : lg ≤ c.maxLog2) : SlotsOk W c [.pow lg] := by
  intro x hx
  cases List.mem_singleton.1 hx
  exact ⟨by show lg < 32; omega, fun _ => .inl ⟨h3, hc⟩⟩

theorem SlotsOk.of_pow {c : Params} {lg : Nat} (h : lg ≤ 21) (hw : W → 3 ≤ lg ∧ lg ≤ c.maxLog2) :
    SlotsOk W c [.pow lg] := by
  intro x hx
  cases List.mem_singleton.1 hx
  exact ⟨by show lg < 32; omega, fun h => .inl (hw h)⟩

theorem SlotsOk.odd (c : Params) {x : Slot} (h : x = .t53 ∨ x = .t7 ∨ x = .t9) : SlotsOk W c [x] := by
  intro y hy
  cases List.mem_singleton.1 hy
  rcases h with rfl | rfl | rfl
  · exact ⟨by decide, fun _ => .inr (.inl rfl)⟩
  · exact ⟨by decide, fun _ => .inr (.inr (.inl rfl))⟩
  · exact ⟨by decide, fun _ => .inr (.inr (.inr rfl))⟩

theorem SlotsOk.noShuffle {c : Params} {lg : Nat} (h : lg ≤ 21) (hc : lg ≤ c.maxLog2) : SlotsOk W c (slotsNoShuffle lg) := by
  intro x hx
  obtain ⟨i, hi, rfl⟩ := List.mem_map.1 hx
  have := List.mem_range.1 hi
  exact ⟨by show i + 3 < 32; omega, fun _ => .inl ⟨by show 3 ≤ i + 3; omega, by show i + 3 ≤ _; omega⟩⟩

theorem SlotsOk.comb {c : Params} {lg : Nat} (h : lg ≤ 21) (hc : lg ≤ c.maxLog2) : SlotsOk W c (slotsComb lg) := by
  unfold slotsComb
  split
  · exact SlotsOk.nil _
  · exact SlotsOk.pow (by omega) h hc

theorem log2_le_of_le_pow2 {n k : Nat} (hn : n ≠ 0) (h : n ≤ pow2 k) : Nat.log2 n ≤ k := by
  have h1 : 2 ^ Nat.log2 n ≤ 2 ^ k := (Nat.log2_self_le hn).trans h
  exact (Nat.pow_le_pow_iff_right (by decide)).1 h1

theorem SlotsOk.oddSlot (c : Params) (n : Nat) : SlotsOk W c [oddSlot n] := by
  unfold Machine.oddSlot
  split
  · exact SlotsOk.odd c (.inr (.inl rfl))
  · split
    · exact SlotsOk.odd c (.inr (.inr rfl))
    · exact SlotsOk.odd c (.inl rfl)

/-- canon splits a length into a codelet length and a smaller length (42_fft_sr.md R186). -/
theorem canonFuel_eq_some {fuel L f m : Nat} (h : canonFuel fuel L = some (f, m)) :
    f ∈ [7, 5, 3, 9] ∧ L % f = 0 ∧ m = L / f ∧ Nat.gcd f m = 1 := by
  cases fuel with
  | zero => exact absurd h nofun
  | succ k =>
    unfold canonFuel at h
    obtain ⟨x, hx, he⟩ := List.exists_of_findSome?_eq_some h
    split at he
    · next hc =>
      cases he
      exact ⟨hx, hc.1, rfl, hc.2.1⟩
    · cases he

theorem SlotsOk.fuel {c : Params} (fuel : Nat) {n : Nat} (h : n ≤ pow2 21) (hc : n ≤ c.maxN) : SlotsOk W c (slotsFuel fuel n) := by
  induction fuel generalizing n with
  | zero => exact SlotsOk.nil _
  | succ k ih =>
    unfold slotsFuel
    split
    · next hp =>
      have hn : n ≠ 0 := by
        rintro rfl
        exact absurd hp (by decide)
      exact SlotsOk.noShuffle (log2_le_of_le_pow2 hn h) (log2_le_of_le_pow2 hn hc)
    · split
      · exact SlotsOk.odd c (.inl rfl)
      · split
        · exact SlotsOk.oddSlot c n
        · split
          · next f m hm =>
            obtain ⟨hf, hd, rfl, hg⟩ := canonFuel_eq_some hm
            have h1 : n / f ≤ n := Nat.div_le_self n f
            have h2 : f ≤ n := by
              rcases Nat.eq_zero_or_pos n with rfl | hn
              · rw [Nat.zero_div, Nat.gcd_zero_right] at hg
                subst hg
                exact absurd hf (by decide)
              · exact Nat.le_of_dvd hn (Nat.dvd_of_mod_eq_zero hd)
            exact SlotsOk.append (ih (by omega) (by omega)) (ih (by omega) (by omega))
          · exact SlotsOk.nil _

theorem SlotsOk.fft {c : Params} {n : Nat} (h : n ≤ pow2 21) (hc : n ≤ c.maxN) : SlotsOk W c (slotsFft n) := SlotsOk.fuel 6 h hc

/-- A length of S is positive and at most 2^21 (42_fft_sr.md R185). -/
theorem inS_bounds {n : Nat} (h : inS n = true) : 1 ≤ n ∧ n ≤ pow2 21 := by
  unfold inS at h
  simp only [Bool.and_eq_true, decide_eq_true_eq] at h
  exact h.1

/-! ## What a body leaves -/

/-- A body that completes leaves slots valid and DMEM rewritten inside the addresses that exist, and nothing else. -/
def Writes (W : Prop) (s u : State) : Prop :=
  ∃ slots m, u = (s.ensureSlots slots).setDmem m ∧ SlotsOk W s.params slots ∧ Memory.Keeps s.params.dmemBytes s.dmem m

theorem Writes.dmem (s : State) {m : Memory} (h : Memory.Keeps s.params.dmemBytes s.dmem m) : Writes W s (s.setDmem m) :=
  ⟨[], m, rfl, SlotsOk.nil _, h⟩

theorem writes_batchedBody {s u : State} {n src dst : Nat} {args : Except Trap Unit} {slots : List Slot}
    {kernel : List (Cplx s.prec) → List (Cplx s.prec)} (h : batchedBody s n src dst args slots kernel = .ok u)
    (hs : args = .ok () → SlotsOk W s.params slots) : Writes W s u := by
  obtain ⟨ha, hv, rfl⟩ := (batchedBody_eq_ok_iff _ _ _ _ _ _ _ _).1 h
  exact ⟨slots, _, rfl, hs ha, Memory.keeps_runBatches rfl hv.2.2.2.2 _ _ (Nat.le_refl _)⟩

theorem writes_mapBody {s u : State} {d n : Nat} {args : Except Trap Unit} {map : Unit → List Nat}
    (h : mapBody s d n args map = .ok u) : Writes W s u := by
  obtain ⟨-, hl, rfl⟩ := (mapBody_eq_ok_iff _ _ _ _ _ _).1 h
  exact Writes.dmem s (Memory.keeps_writeRaws _ fun w hw => hl.2.addr (List.of_mem_zip hw).1)

theorem writes_tgenBody {s u : State} {x : Slot} {args : Except Trap Unit} (h : tgenBody x args s = .ok u)
    (hs : args = .ok () → SlotsOk W s.params [x]) : Writes W s u := by
  unfold tgenBody at h
  obtain ⟨ha, h⟩ := (check_then_eq_ok_iff _ _ _).1 h
  cases h
  refine ⟨[x], s.dmem, ?_, hs ha, Memory.Keeps.refl _ _⟩
  have : (s.ensureSlots [x]).dmem = s.dmem := by simp
  rw [← this]; rfl

theorem writes_tcopyBody {s u : State} {x : Slot} {args : Except Trap Unit} {d : Nat} (h : tcopyBody x args d s = .ok u)
    (hs : args = .ok () → SlotsOk W s.params [x]) : Writes W s u := by
  obtain ⟨ha, hl, rfl⟩ := (tcopyBody_eq_ok_iff _ _ _ _ _).1 h
  exact ⟨[x], _, rfl, hs ha, Memory.keeps_writeEls _ fun w hw => hl.2.addr (List.of_mem_zip hw).1⟩

theorem writes_generatorBody {s u : State} {d n len count : Nat} {supported : Bool}
    {table : Sys2Proof.Machine.Dyadic → List Exact} (h : generatorBody s d n len count supported table = .ok u) :
    Writes W s u := by
  obtain ⟨-, -, -, hl, x, -, rfl⟩ := (generatorBody_eq_ok_iff _ _ _ _ _ _ _ _).1 h
  exact Writes.dmem s (Memory.keeps_writeEls _ fun w hw => hl.2.addr (List.of_mem_zip hw).1)

theorem writes_transformBody {s u : State} {args : Except Trap Unit} {len : Nat} {table input output : Lin}
    {writes : List (Elem s.prec) → List (Elem s.prec) → List (Nat × Elem s.prec)}
    (h : transformBody s args len table input output writes = .ok u) (hs : args = .ok () → SlotsOk W s.params (slotsFft len))
    (hsize : output.size = s.prec.es) (hw : args = .ok () → ∀ x t, ∀ w ∈ writes x t, w.1 < output.n) : Writes W s u := by
  obtain ⟨ha, hl, rfl⟩ := (transformBody_eq_ok_iff _ _ _ _ _ _ _ _).1 h
  refine ⟨_, _, rfl, hs ha, Memory.keeps_writeEls _ fun w hm => ?_⟩
  obtain ⟨x, hx, rfl⟩ := List.mem_map.1 hm
  have := (hl output (by simp)).2 x.1 (hw ha _ _ x hx)
  rw [hsize] at this
  exact this

theorem writes_cmulvBody {conjugate : Bool} {d a b c : Nat} {s u : State} (h : cmulvBody conjugate d a b c s = .ok u) :
    Writes W s u := by
  obtain ⟨-, hl, rfl⟩ := (cmulvBody_eq_ok_iff _ _ _ _ _ _ _).1 h
  exact Writes.dmem s (Memory.keeps_writeCs _ fun w hw => (hl (complexLin s.prec d c) (by simp)).2.addr (List.of_mem_zip hw).1)

theorem mem_bfvWrites {p : Prec} {l r : List Nat} {x y : List (Cplx p)} {w : Nat × Cplx p}
    (h : w ∈ bfvWrites l r x y) : w.1 ∈ l ∨ w.1 ∈ r := by
  obtain ⟨z, hz, hw⟩ := List.mem_flatMap.1 h
  have := List.of_mem_zip (List.of_mem_zip hz).1
  simp only [List.mem_cons, List.not_mem_nil, or_false] at hw
  rcases hw with rfl | rfl
  · exact .inl this.1
  · exact .inr this.2

theorem writes_bfvBody {a b c : Nat} {s u : State} (h : bfvBody a b c s = .ok u) : Writes W s u := by
  obtain ⟨-, hl, rfl⟩ := (bfvBody_eq_ok_iff _ _ _ _ _).1 h
  refine Writes.dmem s (Memory.keeps_writeCs _ fun w hw => ?_)
  rcases mem_bfvWrites hw with hw | hw
  · exact (hl (complexLin s.prec a c) (by simp)).2.addr hw
  · exact (hl (complexLin s.prec b c) (by simp)).2.addr hw

theorem writes_scalevBody {d a c : Nat} {s u : State} (h : scalevBody d a c s = .ok u) : Writes W s u := by
  obtain ⟨-, hl, x, -, rfl⟩ := (scalevBody_eq_ok_iff _ _ _ _ _).1 h
  exact Writes.dmem s (Memory.keeps_writeEls _ fun w hw => (hl (realLin s.prec d c) (by simp)).2.addr (List.of_mem_zip hw).1)

theorem writes_copyvBody {d a c : Nat} {s u : State} (h : copyvBody d a c s = .ok u) : Writes W s u := by
  obtain ⟨-, hl, rfl⟩ := (copyvBody_eq_ok_iff _ _ _ _ _).1 h
  exact Writes.dmem s (Memory.keeps_writeRaws _ fun w hw => (hl (complexLin s.prec d c) (by simp)).2.addr (List.of_mem_zip hw).1)

theorem writes_pgatherBody {d a m c : Nat} {s u : State} (h : pgatherBody d a m c s = .ok u) : Writes W s u := by
  obtain ⟨-, -, -, -, -, hd, -, rfl⟩ := (pgatherBody_eq_ok_iff _ _ _ _ _ _).1 h
  exact Writes.dmem s (Memory.keeps_writeRaws _ fun w hw => hd.addr (List.of_mem_zip hw).1)

theorem writes_pscatterBody {d a m c : Nat} {s u : State} (h : pscatterBody d a m c s = .ok u) : Writes W s u := by
  obtain ⟨-, -, -, -, -, -, hd, rfl⟩ := (pscatterBody_eq_ok_iff _ _ _ _ _ _).1 h
  exact Writes.dmem s (Memory.keeps_writeRaws _ fun w hw => hd _ (List.of_mem_zip hw).1)

theorem writes_pinvBody {d m c : Nat} {s u : State} (h : pinvBody d m c s = .ok u) : Writes W s u := by
  obtain ⟨-, -, -, -, hd, rfl⟩ := (pinvBody_eq_ok_iff _ _ _ _ _).1 h
  exact Writes.dmem s (Memory.keeps_writeRaws _ fun w hw => hd _ (List.of_mem_zip hw).1)

/-! ## What any instruction does -/

/-- How an instruction that does not fault ends. -/
inductive Ending where
  | register (rd : Reg)
  | memory
  | csr (rs1 : Reg) (n : BitVec 8)
  | jump
  | halt
deriving DecidableEq, Repr

/-- The ending of each instruction. -/
def ending : Instr → Ending
  | .addi rd _ _ => .register rd
  | .lui rd _ => .register rd
  | .add rd _ _ => .register rd
  | .sub rd _ _ => .register rd
  | .mul rd _ _ => .register rd
  | .slli rd _ _ => .register rd
  | .srli rd _ _ => .register rd
  | .lw rd _ _ => .register rd
  | .sw _ _ _ => .memory
  | .beq _ _ _ => .jump
  | .bne _ _ _ => .jump
  | .bltu _ _ _ => .jump
  | .j _ => .jump
  | .csrr rd _ => .register rd
  | .csrw rs1 csr => .csr rs1 csr
  | .halt => .halt
  | .cmulv _ _ _ _ => .memory
  | .cmulvC _ _ _ _ => .memory
  | .bfv _ _ _ => .memory
  | .scalev _ _ _ => .memory
  | .copyv _ _ _ => .memory
  | .fft2 _ => .memory
  | .fft4 _ => .memory
  | .fft8 _ => .memory
  | .srcomb _ _ => .memory
  | .fftns _ _ => .memory
  | .fft _ _ _ => .memory
  | .fftI _ _ _ => .memory
  | .fftl _ _ _ => .memory
  | .fftlI _ _ _ => .memory
  | .fft3 _ _ => .memory
  | .fft3I _ _ => .memory
  | .fft5 _ _ => .memory
  | .fft5I _ _ => .memory
  | .fft7 _ _ => .memory
  | .fft7I _ _ => .memory
  | .fft9 _ _ => .memory
  | .fft9I _ _ => .memory
  | .fft15 _ _ => .memory
  | .fft15I _ _ => .memory
  | .pfa3 _ _ _ => .memory
  | .pfa3I _ _ _ => .memory
  | .pfa5 _ _ _ => .memory
  | .pfa5I _ _ _ => .memory
  | .pfa7 _ _ _ => .memory
  | .pfa7I _ _ _ => .memory
  | .pfa9 _ _ _ => .memory
  | .pfa9I _ _ _ => .memory
  | .pfa15 _ _ _ => .memory
  | .pfa15I _ _ _ => .memory
  | .pmapsr _ _ => .memory
  | .pmapsrI _ _ => .memory
  | .pmapbr _ _ => .memory
  | .pmapcrt _ _ _ => .memory
  | .pmaprur _ _ _ => .memory
  | .pmapneg _ _ => .memory
  | .pgather _ _ _ _ => .memory
  | .pscatter _ _ _ _ => .memory
  | .pinv _ _ _ => .memory
  | .tgenP _ => .memory
  | .tgenT53 => .memory
  | .tgenT7 => .memory
  | .tgenT9 => .memory
  | .tcopyP _ _ => .memory
  | .tcopyT53 _ => .memory
  | .tcopyT7 _ => .memory
  | .tcopyT9 _ => .memory
  | .tgmdct _ _ => .memory
  | .tgmdctI _ _ => .memory
  | .tgrdft _ _ => .memory
  | .tgdct _ _ => .memory
  | .mdctf _ _ _ _ => .memory
  | .mdcti _ _ _ _ => .memory
  | .mdctif _ _ _ _ => .memory
  | .rdftf _ _ _ _ => .memory
  | .rdfti _ _ _ _ => .memory
  | .rdftrr _ _ _ _ => .memory
  | .rdftri _ _ _ _ => .memory
  | .dct2 _ _ _ _ => .memory
  | .dct3 _ _ _ _ => .memory
  | .dct1 _ _ _ _ => .memory
  | .dst1 _ _ _ _ => .memory

/-- The instruction is the reading of a word and the unit's parameters are legal: only slots of the unit are touched. -/
def Regular (i : Instr) (s : State) : Prop := s.params.legal = true ∧ i.wellFormed = true

/-- What a next state of an instruction of that ending is, when it is no fault. -/
def Ending.Leaves (W : Prop) (s t : State) : Ending → Prop
  | .register rd => ∃ v, t = (s.setReg rd v).retire
  | .memory => ∃ u, Writes W s u ∧ t = u.retire
  | .csr rs1 n => ∃ u, s.writeCsr? n (s.reg rs1) = some u ∧ t = u.retire
  | .jump => ∃ pc, t = s.retireTo pc
  | .halt => t = { s.retireTo s.pc with run := .done, irqDone := true }

/-- A next state is either the fault action with a cause of the instruction's own, or what the ending says. -/
def ExecCases (i : Instr) (s t : State) : Prop :=
  (∃ x, t = s.raise x ∧ x.cause.Own) ∨ (ending i).Leaves (Regular i s) s t

theorem execCases_finish {i : Instr} {s t : State} {r : Except Trap State} (h : finish s r = .next t) (he : OwnErrors r)
    (hr : ∀ u, r = .ok u → (ending i).Leaves (Regular i s) s u.retire) : ExecCases i s t := by
  rcases (finish_eq_next_iff s r t).1 h with ⟨x, hx, rfl⟩ | ⟨u, hu, rfl⟩
  · exact .inl ⟨x, rfl, he x hx⟩
  · exact .inr (hr u hu)

/-- A register write. -/
theorem execCases_writeBack {i : Instr} {s t : State} {rd : Reg} {v : Word} (hi : ending i = .register rd)
    (h : writeBack s rd v = .next t) : ExecCases i s t := by
  cases h
  refine .inr ?_
  rw [hi]
  exact ⟨v, rfl⟩

/-- A body that rewrites DMEM and sets valid bits. -/
theorem execCases_writes {i : Instr} {s t : State} {r : Except Trap State} (hi : ending i = .memory)
    (h : finish s r = .next t) (he : OwnErrors r) (hr : ∀ u, r = .ok u → Writes (Regular i s) s u) : ExecCases i s t :=
  execCases_finish h he fun u hu => by rw [hi]; exact ⟨u, hr u hu, rfl⟩

theorem execCases_branch {i : Instr} {s t : State} {taken : Bool} {off : BitVec 18} (hi : ending i = .jump)
    (h : branch s taken off = .next t) : ExecCases i s t := by
  unfold branch at h
  refine .inr ?_
  rw [hi]
  cases h
  cases taken
  · exact ⟨_, rfl⟩
  · exact ⟨_, rfl⟩

theorem slotsOk_of_checkLg {s : State} {lg : Nat} (h : checkLg s lg = .ok ()) : lg ≤ 21 ∧ lg ≤ s.params.maxLog2 :=
  (checkLg_eq_ok_iff s lg).1 h

theorem slotsOk_of_checkLength {s : State} {n len : Nat} {supported : Bool} (hs : supported = true → inS len = true)
    (h : checkLength s n len supported = .ok ()) : SlotsOk W s.params (slotsFft len) := by
  obtain ⟨-, h1, h2⟩ := (checkLength_eq_ok_iff s n len supported).1 h
  exact SlotsOk.fft (inS_bounds (hs h1)).2 h2

/-- The slots of a codelet length (43_fft_prime.md R202). -/
theorem SlotsOk.codelet (c : Params) {n : Nat} (h : isCodelet n = true) : SlotsOk W c (slotsFft n) := by
  unfold isCodelet at h
  simp only [Bool.or_eq_true, beq_iff_eq] at h
  rcases h with (((rfl | rfl) | rfl) | rfl) | rfl
  · exact SlotsOk.odd c (x := .t53) (.inl rfl)
  · exact SlotsOk.odd c (x := .t53) (.inl rfl)
  · exact SlotsOk.odd c (x := .t7) (.inr (.inl rfl))
  · exact SlotsOk.odd c (x := .t9) (.inr (.inr rfl))
  · exact SlotsOk.odd c (x := .t53) (.inl rfl)

theorem checkPfa_eq_ok_iff (s : State) (n1 n2 : Nat) :
    checkPfa s n1 n2 = .ok () ↔ n2 ≠ 0 ∧ Nat.gcd n1 n2 = 1 ∧ (2 ≤ n2 ∧ inS n2 = true ∧ n1 * n2 ≤ lengthCap) ∧
      n1 * n2 ≤ s.params.maxN := by
  unfold checkPfa
  simp [check_then_eq_ok_iff, require_eq_ok_iff, requireNonzero_eq_ok_iff, and_assoc]

theorem slotsOk_of_checkPfa {s : State} {n1 n2 : Nat} (h1 : isCodelet n1 = true) (h : checkPfa s n1 n2 = .ok ()) :
    SlotsOk W s.params (slotsFft n1 ++ slotsFft n2) := by
  obtain ⟨-, -, ⟨-, -, h3⟩, h4⟩ := (checkPfa_eq_ok_iff s n1 n2).1 h
  have h0 : 1 ≤ n1 := by
    rcases Nat.eq_zero_or_pos n1 with rfl | hn
    · exact absurd h1 (by decide)
    · exact hn
  have h5 : n2 ≤ n1 * n2 := Nat.le_mul_of_pos_left _ h0
  exact SlotsOk.append (SlotsOk.codelet _ h1) (SlotsOk.fft (h5.trans h3) (h5.trans h4))

theorem mem_ascending {α : Type} {vs : List α} {w : Nat × α} (h : w ∈ ascending vs) : w.1 < vs.length :=
  List.mem_range.1 (List.of_mem_zip h).1

/-! ## Lengths of what the real transforms write -/

theorem realToComplex_length {p : Prec} (n : Nat) (x t : List (Elem p)) : (realToComplex n x t).length = n / 2 - 1 + 2 := by
  simp [realToComplex]

theorem complexToReal_length {p : Prec} (n : Nat) (bins : List (Cplx p)) (t : List (Elem p)) :
    (complexToReal n bins t).length = n / 2 * 2 := by
  simp [complexToReal, List.length_flatMap]

theorem mdctInverse_length {p : Prec} (n : Nat) (x : List (Elem p)) (e : List (Cplx p)) :
    (mdctInverse n x e).length = n / 2 * 2 := by
  simp [mdctInverse, List.length_flatMap]

theorem dct2_fold_length {p : Prec} (t : DctTable p) (l : List (Nat × Cplx p)) (acc : List (Elem p) × Elem p) :
    (l.foldl (dct2Post t) acc).1.length = acc.1.length + 2 * l.length := by
  induction l generalizing acc with
  | nil => simp
  | cons x l ih => rw [List.foldl_cons, ih]; simp [dct2Post]; omega

theorem dct2_length {p : Prec} (n : Nat) (x : List (Elem p)) (t : DctTable p) : (dct2 n x t).length = 2 * (n / 2) := by
  unfold dct2
  rw [dct2_fold_length]
  simp

theorem dct3_length {p : Prec} (n : Nat) (x : List (Elem p)) (t : DctTable p) : (dct3 n x t).length = 2 * (n / 2) := by
  simp [dct3]; omega

theorem dct1_length {p : Prec} (n : Nat) (x t : List (Elem p)) : (dct1 n x t).length = n := by simp [dct1]

theorem dst1_length {p : Prec} (n : Nat) (x t : List (Elem p)) : (dst1 n x t).length = n := by simp [dst1]

theorem mdctForward_index {p : Prec} {n : Nat} {x : List (Elem p)} {e : List (Cplx p)} {w : Nat × Elem p}
    (h : w ∈ mdctForward n x e) : w.1 < n := by
  obtain ⟨i, hi, hw⟩ := List.mem_flatMap.1 h
  have := List.mem_range.1 hi
  simp only [List.mem_cons, List.not_mem_nil, or_false] at hw
  rcases hw with rfl | rfl | rfl | rfl <;> simp only <;> omega

theorem mdctMirror_index {p : Prec} {n : Nat} {y : List (Elem p)} {w : Nat × Elem p} (h : w ∈ mdctMirror n y) :
    w.1 < 2 * n := by
  rcases List.mem_append.1 h with h | h
  · obtain ⟨j, hj, rfl⟩ := List.mem_map.1 h
    have := List.mem_range.1 hj
    simp only; omega
  · obtain ⟨i, hi, hw⟩ := List.mem_flatMap.1 h
    have := List.mem_range.1 hi
    simp only [List.mem_cons, List.not_mem_nil, or_false] at hw
    rcases hw with rfl | rfl <;> simp only <;> omega

theorem mdctLength_inS {n : Nat} (h : mdctLength n = true) : inS (n / 2) = true := by
  unfold mdctLength at h; simp only [Bool.and_eq_true] at h; exact h.2

theorem evenLength_inS {n : Nat} (h : evenLength n = true) : inS (n / 2) = true := by
  unfold evenLength at h; simp only [Bool.and_eq_true] at h; exact h.2

/-- A supported even length halves to at least 1. -/
theorem half_pos_of_checkRdft {s : State} {n : Nat} (h : checkRdft s n = .ok ()) : 1 ≤ n / 2 :=
  (inS_bounds (evenLength_inS ((checkLength_eq_ok_iff _ _ _ _).1 h).2.1)).1

/-- The checks of DCT3. -/
theorem checkDct3_eq_ok_iff (s : State) (n : Nat) :
    checkDct3 s n = .ok () ↔ s.prec ≠ .q31 ∧ checkLength s n (n / 2) (evenLength n) = .ok () := by
  unfold checkDct3
  simp [check_then_eq_ok_iff, require_eq_ok_iff]

/-- Every next state of every instruction. -/
theorem exec_cases {i : Instr} {s t : State} (h : exec i s = .next t) : ExecCases i s t := by
  cases i with
  | addi rd rs1 imm18 =>
    exact execCases_writeBack rfl h
  | lui rd imm22 =>
    exact execCases_writeBack rfl h
  | add rd rs1 rs2 =>
    exact execCases_writeBack rfl h
  | sub rd rs1 rs2 =>
    exact execCases_writeBack rfl h
  | mul rd rs1 rs2 =>
    exact execCases_writeBack rfl h
  | slli rd rs1 shamt =>
    exact execCases_writeBack rfl h
  | srli rd rs1 shamt =>
    exact execCases_writeBack rfl h
  | lw rd rs1 imm18 =>
    exact execCases_finish h (OwnErrors.bind (OwnErrors.checkWord _ _) fun _ => OwnErrors.ok _) fun u hu => by
      obtain ⟨-, hu⟩ := (check_then_eq_ok_iff _ _ _).1 hu
      cases hu; exact ⟨_, rfl⟩
  | sw rd rs1 imm18 =>
    exact execCases_writes rfl h (OwnErrors.bind (OwnErrors.checkWord _ _) fun _ => OwnErrors.ok _) fun u hu => by
      obtain ⟨hc, hu⟩ := (check_then_eq_ok_iff _ _ _).1 hu
      cases hu
      refine Writes.dmem s (Memory.keeps_writeLE _ _ ?_)
      unfold checkWord at hc
      simpa [check_then_eq_ok_iff, require_eq_ok_iff] using ((check_then_eq_ok_iff _ _ _).1 hc).2
  | beq rs1 rs2 off18 =>
    exact execCases_branch rfl h
  | bne rs1 rs2 off18 =>
    exact execCases_branch rfl h
  | bltu rs1 rs2 off18 =>
    exact execCases_branch rfl h
  | j off26 =>
    cases h; exact .inr ⟨_, rfl⟩
  | csrr rd csr =>
    refine execCases_finish h (fun x hx => ?_) fun u hu => ?_
    · split at hx
      · cases hx
      · cases hx; exact Cause.own_of_ne (c := .illegalCsr) (by decide)
    · split at hu
      · cases hu; exact ⟨_, rfl⟩
      · cases hu
  | csrw rs1 csr =>
    refine execCases_finish h (fun x hx => ?_) fun u hu => ?_
    · split at hx
      · cases hx
      · cases hx; exact Cause.own_of_ne (c := .illegalCsr) (by decide)
    · split at hu
      · next hw => cases hu; exact ⟨_, hw, rfl⟩
      · cases hu
  | halt =>
    cases h; exact .inr rfl
  | cmulv rd rs1 rs2 rs3 =>
    exact execCases_writes rfl h (OwnErrors.cmulvBody _ _ _ _ _ _) fun u hu => writes_cmulvBody hu
  | cmulvC rd rs1 rs2 rs3 =>
    exact execCases_writes rfl h (OwnErrors.cmulvBody _ _ _ _ _ _) fun u hu => writes_cmulvBody hu
  | bfv rs1 rs2 rs3 =>
    exact execCases_writes rfl h (OwnErrors.bfvBody _ _ _ _) fun u hu => writes_bfvBody hu
  | scalev rd rs1 rs3 =>
    exact execCases_writes rfl h (OwnErrors.scalevBody _ _ _ _) fun u hu => writes_scalevBody hu
  | copyv rd rs1 rs3 =>
    exact execCases_writes rfl h (OwnErrors.copyvBody _ _ _ _) fun u hu => writes_copyvBody hu
  | fft2 rd =>
    exact execCases_writes rfl h (OwnErrors.batchedBody (OwnErrors.ok _) _ _) fun u hu => writes_batchedBody hu fun _ => SlotsOk.nil _
  | fft4 rd =>
    exact execCases_writes rfl h (OwnErrors.batchedBody (OwnErrors.ok _) _ _) fun u hu => writes_batchedBody hu fun _ => SlotsOk.nil _
  | fft8 rd =>
    exact execCases_writes rfl h (OwnErrors.batchedBody (OwnErrors.ok _) _ _) fun u hu => writes_batchedBody hu fun _ => SlotsOk.of_pow (lg := 3) (by decide) fun hr => by
      unfold Regular Params.legal at hr; simp only [Bool.and_eq_true, decide_eq_true_eq] at hr; omega
  | srcomb rd lg =>
    exact execCases_writes rfl h (OwnErrors.batchedBody (OwnErrors.checkSrcomb _ _) _ _) fun u hu =>
      writes_batchedBody hu fun ha => by
        have := (checkLg_eq_ok_iff _ _).1 ((check_then_eq_ok_iff _ _ _).1 ha).2
        exact SlotsOk.comb this.1 this.2
  | fftns rd lg =>
    exact execCases_writes rfl h (OwnErrors.batchedBody (OwnErrors.checkLg _ _) _ _) fun u hu =>
      writes_batchedBody hu fun ha => SlotsOk.noShuffle (slotsOk_of_checkLg ha).1 (slotsOk_of_checkLg ha).2
  | fft rd rs1 lg =>
    exact execCases_writes rfl h (OwnErrors.batchedBody (OwnErrors.checkLg _ _) _ _) fun u hu =>
      writes_batchedBody hu fun ha => SlotsOk.noShuffle (slotsOk_of_checkLg ha).1 (slotsOk_of_checkLg ha).2
  | fftI rd rs1 lg =>
    exact execCases_writes rfl h (OwnErrors.batchedBody (OwnErrors.checkLg _ _) _ _) fun u hu =>
      writes_batchedBody hu fun ha => SlotsOk.noShuffle (slotsOk_of_checkLg ha).1 (slotsOk_of_checkLg ha).2
  | fftl rd rs1 rs3 =>
    exact execCases_writes rfl h (OwnErrors.batchedBody (OwnErrors.checkLength _ _ _ _) _ _) fun u hu =>
      writes_batchedBody hu fun ha => slotsOk_of_checkLength id ha
  | fftlI rd rs1 rs3 =>
    exact execCases_writes rfl h (OwnErrors.batchedBody (OwnErrors.checkLength _ _ _ _) _ _) fun u hu =>
      writes_batchedBody hu fun ha => slotsOk_of_checkLength id ha
  | fft3 rd rs1 =>
    exact execCases_writes rfl h (OwnErrors.batchedBody (OwnErrors.ok _) _ _) fun u hu =>
      writes_batchedBody hu fun _ => SlotsOk.codelet _ rfl
  | fft3I rd rs1 =>
    exact execCases_writes rfl h (OwnErrors.batchedBody (OwnErrors.ok _) _ _) fun u hu =>
      writes_batchedBody hu fun _ => SlotsOk.codelet _ rfl
  | fft5 rd rs1 =>
    exact execCases_writes rfl h (OwnErrors.batchedBody (OwnErrors.ok _) _ _) fun u hu =>
      writes_batchedBody hu fun _ => SlotsOk.codelet _ rfl
  | fft5I rd rs1 =>
    exact execCases_writes rfl h (OwnErrors.batchedBody (OwnErrors.ok _) _ _) fun u hu =>
      writes_batchedBody hu fun _ => SlotsOk.codelet _ rfl
  | fft7 rd rs1 =>
    exact execCases_writes rfl h (OwnErrors.batchedBody (OwnErrors.ok _) _ _) fun u hu =>
      writes_batchedBody hu fun _ => SlotsOk.codelet _ rfl
  | fft7I rd rs1 =>
    exact execCases_writes rfl h (OwnErrors.batchedBody (OwnErrors.ok _) _ _) fun u hu =>
      writes_batchedBody hu fun _ => SlotsOk.codelet _ rfl
  | fft9 rd rs1 =>
    exact execCases_writes rfl h (OwnErrors.batchedBody (OwnErrors.ok _) _ _) fun u hu =>
      writes_batchedBody hu fun _ => SlotsOk.codelet _ rfl
  | fft9I rd rs1 =>
    exact execCases_writes rfl h (OwnErrors.batchedBody (OwnErrors.ok _) _ _) fun u hu =>
      writes_batchedBody hu fun _ => SlotsOk.codelet _ rfl
  | fft15 rd rs1 =>
    exact execCases_writes rfl h (OwnErrors.batchedBody (OwnErrors.ok _) _ _) fun u hu =>
      writes_batchedBody hu fun _ => SlotsOk.codelet _ rfl
  | fft15I rd rs1 =>
    exact execCases_writes rfl h (OwnErrors.batchedBody (OwnErrors.ok _) _ _) fun u hu =>
      writes_batchedBody hu fun _ => SlotsOk.codelet _ rfl
  | pfa3 rd rs1 rs2 =>
    exact execCases_writes rfl h (OwnErrors.batchedBody (OwnErrors.checkPfa _ _ _) _ _) fun u hu =>
      writes_batchedBody hu fun ha => slotsOk_of_checkPfa rfl ha
  | pfa3I rd rs1 rs2 =>
    exact execCases_writes rfl h (OwnErrors.batchedBody (OwnErrors.checkPfa _ _ _) _ _) fun u hu =>
      writes_batchedBody hu fun ha => slotsOk_of_checkPfa rfl ha
  | pfa5 rd rs1 rs2 =>
    exact execCases_writes rfl h (OwnErrors.batchedBody (OwnErrors.checkPfa _ _ _) _ _) fun u hu =>
      writes_batchedBody hu fun ha => slotsOk_of_checkPfa rfl ha
  | pfa5I rd rs1 rs2 =>
    exact execCases_writes rfl h (OwnErrors.batchedBody (OwnErrors.checkPfa _ _ _) _ _) fun u hu =>
      writes_batchedBody hu fun ha => slotsOk_of_checkPfa rfl ha
  | pfa7 rd rs1 rs2 =>
    exact execCases_writes rfl h (OwnErrors.batchedBody (OwnErrors.checkPfa _ _ _) _ _) fun u hu =>
      writes_batchedBody hu fun ha => slotsOk_of_checkPfa rfl ha
  | pfa7I rd rs1 rs2 =>
    exact execCases_writes rfl h (OwnErrors.batchedBody (OwnErrors.checkPfa _ _ _) _ _) fun u hu =>
      writes_batchedBody hu fun ha => slotsOk_of_checkPfa rfl ha
  | pfa9 rd rs1 rs2 =>
    exact execCases_writes rfl h (OwnErrors.batchedBody (OwnErrors.checkPfa _ _ _) _ _) fun u hu =>
      writes_batchedBody hu fun ha => slotsOk_of_checkPfa rfl ha
  | pfa9I rd rs1 rs2 =>
    exact execCases_writes rfl h (OwnErrors.batchedBody (OwnErrors.checkPfa _ _ _) _ _) fun u hu =>
      writes_batchedBody hu fun ha => slotsOk_of_checkPfa rfl ha
  | pfa15 rd rs1 rs2 =>
    exact execCases_writes rfl h (OwnErrors.batchedBody (OwnErrors.checkPfa _ _ _) _ _) fun u hu =>
      writes_batchedBody hu fun ha => slotsOk_of_checkPfa rfl ha
  | pfa15I rd rs1 rs2 =>
    exact execCases_writes rfl h (OwnErrors.batchedBody (OwnErrors.checkPfa _ _ _) _ _) fun u hu =>
      writes_batchedBody hu fun ha => slotsOk_of_checkPfa rfl ha
  | pmapsr rd lg =>
    exact execCases_writes rfl h (OwnErrors.mapBody (OwnErrors.checkLg _ _) _) fun u hu => writes_mapBody hu
  | pmapsrI rd lg =>
    exact execCases_writes rfl h (OwnErrors.mapBody (OwnErrors.checkLg _ _) _) fun u hu => writes_mapBody hu
  | pmapbr rd lg =>
    exact execCases_writes rfl h (OwnErrors.mapBody (OwnErrors.checkLg _ _) _) fun u hu => writes_mapBody hu
  | pmapcrt rd rs1 rs2 =>
    exact execCases_writes rfl h (OwnErrors.mapBody (OwnErrors.checkFactors _ _ _) _) fun u hu => writes_mapBody hu
  | pmaprur rd rs1 rs2 =>
    exact execCases_writes rfl h (OwnErrors.mapBody (OwnErrors.checkFactors _ _ _) _) fun u hu => writes_mapBody hu
  | pmapneg rd rs3 =>
    exact execCases_writes rfl h (OwnErrors.mapBody (OwnErrors.checkNeg _ _) _) fun u hu => writes_mapBody hu
  | pgather rd rs1 rs2 rs3 =>
    exact execCases_writes rfl h (OwnErrors.pgatherBody _ _ _ _ _) fun u hu => writes_pgatherBody hu
  | pscatter rd rs1 rs2 rs3 =>
    exact execCases_writes rfl h (OwnErrors.pscatterBody _ _ _ _ _) fun u hu => writes_pscatterBody hu
  | pinv rd rs1 rs3 =>
    exact execCases_writes rfl h (OwnErrors.pinvBody _ _ _ _) fun u hu => writes_pinvBody hu
  | tgenP lg =>
    exact execCases_writes rfl h (OwnErrors.tgenBody (OwnErrors.checkLg _ _) _) fun u hu => writes_tgenBody hu fun ha =>
      SlotsOk.of_pow (slotsOk_of_checkLg ha).1 fun hr => ⟨of_decide_eq_true hr.2, (slotsOk_of_checkLg ha).2⟩
  | tgenT53 =>
    exact execCases_writes (r := tgenBody .t53 (.ok ()) s) rfl h (OwnErrors.tgenBody (OwnErrors.ok _) _) fun u hu =>
      writes_tgenBody hu fun _ => SlotsOk.odd _ (by decide)
  | tgenT7 =>
    exact execCases_writes (r := tgenBody .t7 (.ok ()) s) rfl h (OwnErrors.tgenBody (OwnErrors.ok _) _) fun u hu =>
      writes_tgenBody hu fun _ => SlotsOk.odd _ (by decide)
  | tgenT9 =>
    exact execCases_writes (r := tgenBody .t9 (.ok ()) s) rfl h (OwnErrors.tgenBody (OwnErrors.ok _) _) fun u hu =>
      writes_tgenBody hu fun _ => SlotsOk.odd _ (by decide)
  | tcopyP rd lg =>
    exact execCases_writes rfl h (OwnErrors.tcopyBody (OwnErrors.checkLg _ _) _ _) fun u hu => writes_tcopyBody hu fun ha =>
      SlotsOk.of_pow (slotsOk_of_checkLg ha).1 fun hr => ⟨of_decide_eq_true hr.2, (slotsOk_of_checkLg ha).2⟩
  | tcopyT53 rd =>
    exact execCases_writes rfl h (OwnErrors.tcopyBody (OwnErrors.ok _) _ _) fun u hu =>
      writes_tcopyBody hu fun _ => SlotsOk.odd _ (by decide)
  | tcopyT7 rd =>
    exact execCases_writes rfl h (OwnErrors.tcopyBody (OwnErrors.ok _) _ _) fun u hu =>
      writes_tcopyBody hu fun _ => SlotsOk.odd _ (by decide)
  | tcopyT9 rd =>
    exact execCases_writes rfl h (OwnErrors.tcopyBody (OwnErrors.ok _) _ _) fun u hu =>
      writes_tcopyBody hu fun _ => SlotsOk.odd _ (by decide)
  | tgmdct rd rs3 =>
    exact execCases_writes rfl h (OwnErrors.generatorBody _ _ _ _ _ _ _) fun u hu => writes_generatorBody hu
  | tgmdctI rd rs3 =>
    exact execCases_writes rfl h (OwnErrors.generatorBody _ _ _ _ _ _ _) fun u hu => writes_generatorBody hu
  | tgrdft rd rs3 =>
    exact execCases_writes rfl h (OwnErrors.generatorBody _ _ _ _ _ _ _) fun u hu => writes_generatorBody hu
  | tgdct rd rs3 =>
    exact execCases_writes rfl h (OwnErrors.generatorBody _ _ _ _ _ _ _) fun u hu => writes_generatorBody hu
  | mdctf rd rs1 rs2 rs3 =>
    exact execCases_writes rfl h (OwnErrors.transformBody (OwnErrors.checkLength _ _ _ _) _ _ _ _ _) fun u hu =>
      writes_transformBody hu (fun ha => slotsOk_of_checkLength mdctLength_inS ha) rfl fun _ x t w hw => mdctForward_index hw
  | mdcti rd rs1 rs2 rs3 =>
    exact execCases_writes rfl h (OwnErrors.transformBody (OwnErrors.checkLength _ _ _ _) _ _ _ _ _) fun u hu =>
      writes_transformBody hu (fun ha => slotsOk_of_checkLength mdctLength_inS ha) rfl fun _ x t w hw => by
        have := mem_ascending hw
        rw [mdctInverse_length] at this
        show w.1 < s.regNat rs3; omega
  | mdctif rd rs1 rs2 rs3 =>
    exact execCases_writes rfl h (OwnErrors.transformBody (OwnErrors.checkLength _ _ _ _) _ _ _ _ _) fun u hu =>
      writes_transformBody hu (fun ha => slotsOk_of_checkLength mdctLength_inS ha) rfl fun _ x t w hw => mdctMirror_index hw
  | rdftf rd rs1 rs2 rs3 =>
    exact execCases_writes rfl h (OwnErrors.transformBody (OwnErrors.checkLength _ _ _ _) _ _ _ _ _) fun u hu =>
      writes_transformBody hu (fun ha => slotsOk_of_checkLength evenLength_inS ha) rfl fun ha x t w hw => by
        have h1 := mem_ascending hw
        have h2 := half_pos_of_checkRdft ha
        simp only [List.length_flatMap, List.length_cons, List.length_nil, List.map_const', List.sum_replicate,
          realToComplex_length, smul_eq_mul] at h1
        show w.1 < 2 * (s.regNat rs3 / 2 + 1); omega
  | rdfti rd rs1 rs2 rs3 =>
    exact execCases_writes rfl h (OwnErrors.transformBody (OwnErrors.checkLength _ _ _ _) _ _ _ _ _) fun u hu =>
      writes_transformBody hu (fun ha => slotsOk_of_checkLength evenLength_inS ha) rfl fun _ x t w hw => by
        have := mem_ascending hw
        rw [complexToReal_length] at this
        show w.1 < s.regNat rs3; omega
  | rdftrr rd rs1 rs2 rs3 =>
    exact execCases_writes rfl h (OwnErrors.transformBody (OwnErrors.checkLength _ _ _ _) _ _ _ _ _) fun u hu =>
      writes_transformBody hu (fun ha => slotsOk_of_checkLength evenLength_inS ha) rfl fun ha x t w hw => by
        have h1 := mem_ascending hw
        have h2 := half_pos_of_checkRdft ha
        rw [List.length_map, realToComplex_length] at h1
        show w.1 < s.regNat rs3 / 2 + 1; omega
  | rdftri rd rs1 rs2 rs3 =>
    exact execCases_writes rfl h (OwnErrors.transformBody (OwnErrors.checkLength _ _ _ _) _ _ _ _ _) fun u hu =>
      writes_transformBody hu (fun ha => slotsOk_of_checkLength evenLength_inS ha) rfl fun ha x t w hw => by
        have h1 := mem_ascending hw
        have h2 := half_pos_of_checkRdft ha
        rw [List.length_map, realToComplex_length] at h1
        show w.1 < s.regNat rs3 / 2 + 1; omega
  | dct2 rd rs1 rs2 rs3 =>
    exact execCases_writes rfl h (OwnErrors.transformBody (OwnErrors.checkLength _ _ _ _) _ _ _ _ _) fun u hu =>
      writes_transformBody hu (fun ha => slotsOk_of_checkLength evenLength_inS ha) rfl fun _ x t w hw => by
        have := mem_ascending hw
        rw [dct2_length] at this
        show w.1 < s.regNat rs3; omega
  | dct3 rd rs1 rs2 rs3 =>
    exact execCases_writes rfl h (OwnErrors.transformBody (OwnErrors.checkDct3 _ _) _ _ _ _ _) fun u hu =>
      writes_transformBody hu (fun ha => slotsOk_of_checkLength evenLength_inS (((checkDct3_eq_ok_iff _ _).1 ha).2)) rfl fun _ x t w hw => by
        have := mem_ascending hw
        rw [dct3_length] at this
        show w.1 < s.regNat rs3; omega
  | dct1 rd rs1 rs2 rs3 =>
    exact execCases_writes rfl h (OwnErrors.transformBody (OwnErrors.checkLength _ _ _ _) _ _ _ _ _) fun u hu =>
      writes_transformBody hu (fun ha => slotsOk_of_checkLength (fun h => (by simpa using h : _ ∧ _).2) ha) rfl fun _ x t w hw => by
        have := mem_ascending hw
        rw [dct1_length] at this
        show w.1 < s.regNat rs3; omega
  | dst1 rd rs1 rs2 rs3 =>
    exact execCases_writes rfl h (OwnErrors.transformBody (OwnErrors.checkLength _ _ _ _) _ _ _ _ _) fun u hu =>
      writes_transformBody hu (fun ha => slotsOk_of_checkLength id ha) rfl fun _ x t w hw => by
        have := mem_ascending hw
        rw [dst1_length] at this
        show w.1 < s.regNat rs3; omega

end Sys2Proof.Machine
end

