-- ==== Sys2Proof/Laws/Kernels.lean ====
section
/-! SUPPORT. What the vectors of the transform kernels hold, entry by entry: lookups in vectors built over a range, in
vectors laid out by quarter, in interleaved vectors and in a vector followed by its mirror, and the twiddles of COMB
(42_fft_sr.md R187). -/

namespace Sys2Proof.Machine

/-! ## Lookups -/

theorem getD_map_range {α : Type} (f : Nat → α) {n k : Nat} (d : α) (h : k < n) :
    ((List.range n).map f).getD k d = f k := by
  simp [List.getD_eq_getElem?_getD, h]

theorem atC_map_range {p : Prec} (f : Nat → Cplx p) {n k : Nat} (h : k < n) : atC ((List.range n).map f) k = f k :=
  getD_map_range f _ h

theorem atE_map_range {p : Prec} (f : Nat → Elem p) {n k : Nat} (h : k < n) : atE ((List.range n).map f) k = f k :=
  getD_map_range f _ h

theorem length_interleave {α : Type} (f g : Nat → α) (n : Nat) :
    ((List.range n).flatMap fun j => [f j, g j]).length = 2 * n := by
  simp [List.length_flatMap]; omega

/-- An interleaved vector holds `f k` at 2k and `g k` at 2k + 1. -/
theorem getD_interleave {α : Type} (f g : Nat → α) {n k : Nat} (d : α) (h : k < n) :
    ((List.range n).flatMap fun j => [f j, g j]).getD (2 * k) d = f k ∧
      ((List.range n).flatMap fun j => [f j, g j]).getD (2 * k + 1) d = g k := by
  induction n with
  | zero => omega
  | succ n ih =>
    have hl := length_interleave f g n
    rw [List.range_succ, List.flatMap_append]
    by_cases hk : k = n
    · subst hk
      simp [List.getD_eq_getElem?_getD, hl]
    · have := ih (by omega)
      simp only [List.getD_eq_getElem?_getD] at this ⊢
      rw [List.getElem?_append_left (by omega), List.getElem?_append_left (by omega)]
      exact this

/-- A vector of m values followed by m values in reverse holds `f i` at i and `g i` at 2m − 1 − i. -/
theorem getD_mirror {α : Type} (f g : Nat → α) {m i : Nat} (d : α) (h : i < m) :
    ((List.range m).map f ++ ((List.range m).map g).reverse).getD i d = f i ∧
      ((List.range m).map f ++ ((List.range m).map g).reverse).getD (2 * m - 1 - i) d = g i := by
  simp only [List.getD_eq_getElem?_getD]
  constructor
  · rw [List.getElem?_append_left (by simpa)]
    simp [h]
  · rw [List.getElem?_append_right (by simp; omega), List.getElem?_reverse (by simp; omega)]
    simp [show m - 1 - (2 * m - 1 - i - m) = i by omega, h]

/-- A vector of four quarters of q values each. -/
theorem atC_quarters {p : Prec} (a b c d : Nat → Cplx p) {q k : Nat} (h : k < q) :
    let l := (List.range q).map a ++ (List.range q).map b ++ (List.range q).map c ++ (List.range q).map d
    atC l k = a k ∧ atC l (k + q) = b k ∧ atC l (k + 2 * q) = c k ∧ atC l (k + 3 * q) = d k := by
  simp only [atC, List.getD_eq_getElem?_getD, List.append_assoc]
  refine ⟨?_, ?_, ?_, ?_⟩
  · rw [List.getElem?_append_left (by simpa)]
    simp [h]
  · rw [List.getElem?_append_right (by simp), List.getElem?_append_left (by simp; omega)]
    simp [h]
  · rw [List.getElem?_append_right (by simp; omega), List.getElem?_append_right (by simp; omega),
      List.getElem?_append_left (by simp; omega)]
    simp [show k + 2 * q - q - q = k by omega, h]
  · rw [List.getElem?_append_right (by simp; omega), List.getElem?_append_right (by simp; omega),
      List.getElem?_append_right (by simp; omega)]
    simp [show k + 3 * q - q - q - q = k by omega, h]

/-! ## Tables -/

/-- T_N, N = 2^t, as one list of rounded values (45_twiddle.md R244). -/
theorem slotTable_pow (p : Prec) (t : Nat) :
    slotTable p (.pow t) = (List.range (2 ^ t / 4 + 1)).map fun i => rescale p (.cosPi (2 * i) (2 ^ t)) := by
  show List.map _ (List.map _ _) = _
  rw [List.map_map]
  rfl

/-- The twiddle of group k of COMB_N, N = 2^lg: none at k = 0 when N ≤ 8, else T_N[k] and T_N[N/4 − k]. -/
theorem combTwiddles_getD (p : Prec) {lg k : Nat} (h2 : 2 ≤ lg) (hk : k < 2 ^ lg / 4) :
    (combTwiddles p lg).getD k none = if 2 ^ lg ≤ 8 ∧ k = 0 then none else
      some (rescale p (.cosPi (2 * k) (2 ^ lg)), rescale p (.cosPi (2 * (2 ^ lg / 4 - k)) (2 ^ lg))) := by
  unfold combTwiddles
  by_cases h : lg ≤ 2
  · obtain rfl : lg = 2 := by omega
    simp at hk
    subst hk
    simp
  · have h8 : 2 ^ lg ≤ 8 ↔ lg ≤ 3 := by
      rw [show (8 : Nat) = 2 ^ 3 by norm_num]
      exact Nat.pow_le_pow_iff_right (by norm_num)
    rw [if_neg h, show pow2 lg = 2 ^ lg from rfl, getD_map_range _ _ hk, slotTable_pow]
    simp only [h8]
    rw [atE_map_range _ (by omega), atE_map_range _ (by omega)]

theorem comb_length (p : Prec) {lg : Nat} (h2 : 2 ≤ lg) (z : List (Cplx p)) : (comb p lg z).length = 2 ^ lg := by
  have h4 : 4 * (2 ^ lg / 4) = 2 ^ lg := by
    obtain ⟨m, rfl⟩ := Nat.exists_eq_add_of_le h2
    rw [pow_add]
    omega
  simp only [comb, List.length_append, List.length_map, List.length_range, show pow2 lg = 2 ^ lg from rfl]
  omega

end Sys2Proof.Machine
end

