-- ==== Sys2Proof/Laws/PerInstr.lean ====
section
/-! SUPPORT. Statements about every instruction as syntax, one lemma per constructor. -/

namespace Sys2Proof.Laws

/-- The opcode of each instruction's row (30_encoding.md R106). -/
def opcode : Instr → BitVec 6
  | .addi _ _ _ => 0x01#6
  | .lui _ _ => 0x02#6
  | .add _ _ _ => 0x03#6
  | .sub _ _ _ => 0x04#6
  | .mul _ _ _ => 0x05#6
  | .slli _ _ _ => 0x06#6
  | .srli _ _ _ => 0x07#6
  | .lw _ _ _ => 0x08#6
  | .sw _ _ _ => 0x09#6
  | .beq _ _ _ => 0x0A#6
  | .bne _ _ _ => 0x0B#6
  | .bltu _ _ _ => 0x0C#6
  | .j _ => 0x0D#6
  | .csrr _ _ => 0x0E#6
  | .csrw _ _ => 0x0F#6
  | .halt => 0x10#6
  | .cmulv _ _ _ _ => 0x14#6
  | .cmulvC _ _ _ _ => 0x14#6
  | .bfv _ _ _ => 0x15#6
  | .scalev _ _ _ => 0x16#6
  | .copyv _ _ _ => 0x17#6
  | .fft2 _ => 0x18#6
  | .fft4 _ => 0x19#6
  | .fft8 _ => 0x1A#6
  | .srcomb _ _ => 0x1B#6
  | .fftns _ _ => 0x1C#6
  | .fft _ _ _ => 0x1D#6
  | .fftI _ _ _ => 0x1D#6
  | .fftl _ _ _ => 0x1E#6
  | .fftlI _ _ _ => 0x1E#6
  | .fft3 _ _ => 0x20#6
  | .fft3I _ _ => 0x20#6
  | .fft5 _ _ => 0x20#6
  | .fft5I _ _ => 0x20#6
  | .fft7 _ _ => 0x20#6
  | .fft7I _ _ => 0x20#6
  | .fft9 _ _ => 0x20#6
  | .fft9I _ _ => 0x20#6
  | .fft15 _ _ => 0x20#6
  | .fft15I _ _ => 0x20#6
  | .pfa3 _ _ _ => 0x21#6
  | .pfa3I _ _ _ => 0x21#6
  | .pfa5 _ _ _ => 0x21#6
  | .pfa5I _ _ _ => 0x21#6
  | .pfa7 _ _ _ => 0x21#6
  | .pfa7I _ _ _ => 0x21#6
  | .pfa9 _ _ _ => 0x21#6
  | .pfa9I _ _ _ => 0x21#6
  | .pfa15 _ _ _ => 0x21#6
  | .pfa15I _ _ _ => 0x21#6
  | .pmapsr _ _ => 0x24#6
  | .pmapsrI _ _ => 0x24#6
  | .pmapbr _ _ => 0x25#6
  | .pmapcrt _ _ _ => 0x26#6
  | .pmaprur _ _ _ => 0x26#6
  | .pmapneg _ _ => 0x27#6
  | .pgather _ _ _ _ => 0x28#6
  | .pscatter _ _ _ _ => 0x29#6
  | .pinv _ _ _ => 0x2A#6
  | .tgenP _ => 0x2C#6
  | .tgenT53 => 0x2C#6
  | .tgenT7 => 0x2C#6
  | .tgenT9 => 0x2C#6
  | .tcopyP _ _ => 0x2D#6
  | .tcopyT53 _ => 0x2D#6
  | .tcopyT7 _ => 0x2D#6
  | .tcopyT9 _ => 0x2D#6
  | .tgmdct _ _ => 0x2E#6
  | .tgmdctI _ _ => 0x2E#6
  | .tgrdft _ _ => 0x2F#6
  | .tgdct _ _ => 0x30#6
  | .mdctf _ _ _ _ => 0x32#6
  | .mdcti _ _ _ _ => 0x33#6
  | .mdctif _ _ _ _ => 0x34#6
  | .rdftf _ _ _ _ => 0x36#6
  | .rdfti _ _ _ _ => 0x37#6
  | .rdftrr _ _ _ _ => 0x38#6
  | .rdftri _ _ _ _ => 0x38#6
  | .dct2 _ _ _ _ => 0x3A#6
  | .dct3 _ _ _ _ => 0x3B#6
  | .dct1 _ _ _ _ => 0x3C#6
  | .dst1 _ _ _ _ => 0x3D#6

/-- The word of an instruction carries its row's opcode (30_encoding.md R106). -/
def Opcode.Statement (i : Instr) : Prop := opOf (encode i) = opcode i

theorem Opcode.addi (rd rs1 : Reg) (imm18 : BitVec 18) : Opcode.Statement (.addi rd rs1 imm18) := opOf_encI ..
theorem Opcode.lui (rd : Reg) (imm22 : BitVec 22) : Opcode.Statement (.lui rd imm22) := opOf_encU ..
theorem Opcode.add (rd rs1 rs2 : Reg) : Opcode.Statement (.add rd rs1 rs2) := opOf_encR ..
theorem Opcode.sub (rd rs1 rs2 : Reg) : Opcode.Statement (.sub rd rs1 rs2) := opOf_encR ..
theorem Opcode.mul (rd rs1 rs2 : Reg) : Opcode.Statement (.mul rd rs1 rs2) := opOf_encR ..
theorem Opcode.slli (rd rs1 : Reg) (shamt : BitVec 5) : Opcode.Statement (.slli rd rs1 shamt) := opOf_encSh ..
theorem Opcode.srli (rd rs1 : Reg) (shamt : BitVec 5) : Opcode.Statement (.srli rd rs1 shamt) := opOf_encSh ..
theorem Opcode.lw (rd rs1 : Reg) (imm18 : BitVec 18) : Opcode.Statement (.lw rd rs1 imm18) := opOf_encI ..
theorem Opcode.sw (rd rs1 : Reg) (imm18 : BitVec 18) : Opcode.Statement (.sw rd rs1 imm18) := opOf_encI ..
theorem Opcode.beq (rs1 rs2 : Reg) (off18 : BitVec 18) : Opcode.Statement (.beq rs1 rs2 off18) := opOf_encI ..
theorem Opcode.bne (rs1 rs2 : Reg) (off18 : BitVec 18) : Opcode.Statement (.bne rs1 rs2 off18) := opOf_encI ..
theorem Opcode.bltu (rs1 rs2 : Reg) (off18 : BitVec 18) : Opcode.Statement (.bltu rs1 rs2 off18) := opOf_encI ..
theorem Opcode.j (off26 : BitVec 26) : Opcode.Statement (.j off26) := opOf_encJ ..
theorem Opcode.csrr (rd : Reg) (csr : BitVec 8) : Opcode.Statement (.csrr rd csr) := opOf_encC ..
theorem Opcode.csrw (rs1 : Reg) (csr : BitVec 8) : Opcode.Statement (.csrw rs1 csr) := opOf_encC ..
theorem Opcode.halt : Opcode.Statement (.halt) := opOf_encJ ..
theorem Opcode.cmulv (rd rs1 rs2 rs3 : Reg) : Opcode.Statement (.cmulv rd rs1 rs2 rs3) := opOf_encR ..
theorem Opcode.cmulvC (rd rs1 rs2 rs3 : Reg) : Opcode.Statement (.cmulvC rd rs1 rs2 rs3) := opOf_encR ..
theorem Opcode.bfv (rs1 rs2 rs3 : Reg) : Opcode.Statement (.bfv rs1 rs2 rs3) := opOf_encR ..
theorem Opcode.scalev (rd rs1 rs3 : Reg) : Opcode.Statement (.scalev rd rs1 rs3) := opOf_encR ..
theorem Opcode.copyv (rd rs1 rs3 : Reg) : Opcode.Statement (.copyv rd rs1 rs3) := opOf_encR ..
theorem Opcode.fft2 (rd : Reg) : Opcode.Statement (.fft2 rd) := opOf_encK ..
theorem Opcode.fft4 (rd : Reg) : Opcode.Statement (.fft4 rd) := opOf_encK ..
theorem Opcode.fft8 (rd : Reg) : Opcode.Statement (.fft8 rd) := opOf_encK ..
theorem Opcode.srcomb (rd : Reg) (lg : BitVec 5) : Opcode.Statement (.srcomb rd lg) := opOf_encK ..
theorem Opcode.fftns (rd : Reg) (lg : BitVec 5) : Opcode.Statement (.fftns rd lg) := opOf_encK ..
theorem Opcode.fft (rd rs1 : Reg) (lg : BitVec 5) : Opcode.Statement (.fft rd rs1 lg) := opOf_encK ..
theorem Opcode.fftI (rd rs1 : Reg) (lg : BitVec 5) : Opcode.Statement (.fftI rd rs1 lg) := opOf_encK ..
theorem Opcode.fftl (rd rs1 rs3 : Reg) : Opcode.Statement (.fftl rd rs1 rs3) := opOf_encR ..
theorem Opcode.fftlI (rd rs1 rs3 : Reg) : Opcode.Statement (.fftlI rd rs1 rs3) := opOf_encR ..
theorem Opcode.fft3 (rd rs1 : Reg) : Opcode.Statement (.fft3 rd rs1) := opOf_encK ..
theorem Opcode.fft3I (rd rs1 : Reg) : Opcode.Statement (.fft3I rd rs1) := opOf_encK ..
theorem Opcode.fft5 (rd rs1 : Reg) : Opcode.Statement (.fft5 rd rs1) := opOf_encK ..
theorem Opcode.fft5I (rd rs1 : Reg) : Opcode.Statement (.fft5I rd rs1) := opOf_encK ..
theorem Opcode.fft7 (rd rs1 : Reg) : Opcode.Statement (.fft7 rd rs1) := opOf_encK ..
theorem Opcode.fft7I (rd rs1 : Reg) : Opcode.Statement (.fft7I rd rs1) := opOf_encK ..
theorem Opcode.fft9 (rd rs1 : Reg) : Opcode.Statement (.fft9 rd rs1) := opOf_encK ..
theorem Opcode.fft9I (rd rs1 : Reg) : Opcode.Statement (.fft9I rd rs1) := opOf_encK ..
theorem Opcode.fft15 (rd rs1 : Reg) : Opcode.Statement (.fft15 rd rs1) := opOf_encK ..
theorem Opcode.fft15I (rd rs1 : Reg) : Opcode.Statement (.fft15I rd rs1) := opOf_encK ..
theorem Opcode.pfa3 (rd rs1 rs2 : Reg) : Opcode.Statement (.pfa3 rd rs1 rs2) := opOf_encK ..
theorem Opcode.pfa3I (rd rs1 rs2 : Reg) : Opcode.Statement (.pfa3I rd rs1 rs2) := opOf_encK ..
theorem Opcode.pfa5 (rd rs1 rs2 : Reg) : Opcode.Statement (.pfa5 rd rs1 rs2) := opOf_encK ..
theorem Opcode.pfa5I (rd rs1 rs2 : Reg) : Opcode.Statement (.pfa5I rd rs1 rs2) := opOf_encK ..
theorem Opcode.pfa7 (rd rs1 rs2 : Reg) : Opcode.Statement (.pfa7 rd rs1 rs2) := opOf_encK ..
theorem Opcode.pfa7I (rd rs1 rs2 : Reg) : Opcode.Statement (.pfa7I rd rs1 rs2) := opOf_encK ..
theorem Opcode.pfa9 (rd rs1 rs2 : Reg) : Opcode.Statement (.pfa9 rd rs1 rs2) := opOf_encK ..
theorem Opcode.pfa9I (rd rs1 rs2 : Reg) : Opcode.Statement (.pfa9I rd rs1 rs2) := opOf_encK ..
theorem Opcode.pfa15 (rd rs1 rs2 : Reg) : Opcode.Statement (.pfa15 rd rs1 rs2) := opOf_encK ..
theorem Opcode.pfa15I (rd rs1 rs2 : Reg) : Opcode.Statement (.pfa15I rd rs1 rs2) := opOf_encK ..
theorem Opcode.pmapsr (rd : Reg) (lg : BitVec 5) : Opcode.Statement (.pmapsr rd lg) := opOf_encK ..
theorem Opcode.pmapsrI (rd : Reg) (lg : BitVec 5) : Opcode.Statement (.pmapsrI rd lg) := opOf_encK ..
theorem Opcode.pmapbr (rd : Reg) (lg : BitVec 5) : Opcode.Statement (.pmapbr rd lg) := opOf_encK ..
theorem Opcode.pmapcrt (rd rs1 rs2 : Reg) : Opcode.Statement (.pmapcrt rd rs1 rs2) := opOf_encR ..
theorem Opcode.pmaprur (rd rs1 rs2 : Reg) : Opcode.Statement (.pmaprur rd rs1 rs2) := opOf_encR ..
theorem Opcode.pmapneg (rd rs3 : Reg) : Opcode.Statement (.pmapneg rd rs3) := opOf_encR ..
theorem Opcode.pgather (rd rs1 rs2 rs3 : Reg) : Opcode.Statement (.pgather rd rs1 rs2 rs3) := opOf_encR ..
theorem Opcode.pscatter (rd rs1 rs2 rs3 : Reg) : Opcode.Statement (.pscatter rd rs1 rs2 rs3) := opOf_encR ..
theorem Opcode.pinv (rd rs1 rs3 : Reg) : Opcode.Statement (.pinv rd rs1 rs3) := opOf_encR ..
theorem Opcode.tgenP (lg : BitVec 5) : Opcode.Statement (.tgenP lg) := opOf_encK ..
theorem Opcode.tgenT53 : Opcode.Statement (.tgenT53) := opOf_encK ..
theorem Opcode.tgenT7 : Opcode.Statement (.tgenT7) := opOf_encK ..
theorem Opcode.tgenT9 : Opcode.Statement (.tgenT9) := opOf_encK ..
theorem Opcode.tcopyP (rd : Reg) (lg : BitVec 5) : Opcode.Statement (.tcopyP rd lg) := opOf_encK ..
theorem Opcode.tcopyT53 (rd : Reg) : Opcode.Statement (.tcopyT53 rd) := opOf_encK ..
theorem Opcode.tcopyT7 (rd : Reg) : Opcode.Statement (.tcopyT7 rd) := opOf_encK ..
theorem Opcode.tcopyT9 (rd : Reg) : Opcode.Statement (.tcopyT9 rd) := opOf_encK ..
theorem Opcode.tgmdct (rd rs3 : Reg) : Opcode.Statement (.tgmdct rd rs3) := opOf_encR ..
theorem Opcode.tgmdctI (rd rs3 : Reg) : Opcode.Statement (.tgmdctI rd rs3) := opOf_encR ..
theorem Opcode.tgrdft (rd rs3 : Reg) : Opcode.Statement (.tgrdft rd rs3) := opOf_encR ..
theorem Opcode.tgdct (rd rs3 : Reg) : Opcode.Statement (.tgdct rd rs3) := opOf_encR ..
theorem Opcode.mdctf (rd rs1 rs2 rs3 : Reg) : Opcode.Statement (.mdctf rd rs1 rs2 rs3) := opOf_encR ..
theorem Opcode.mdcti (rd rs1 rs2 rs3 : Reg) : Opcode.Statement (.mdcti rd rs1 rs2 rs3) := opOf_encR ..
theorem Opcode.mdctif (rd rs1 rs2 rs3 : Reg) : Opcode.Statement (.mdctif rd rs1 rs2 rs3) := opOf_encR ..
theorem Opcode.rdftf (rd rs1 rs2 rs3 : Reg) : Opcode.Statement (.rdftf rd rs1 rs2 rs3) := opOf_encR ..
theorem Opcode.rdfti (rd rs1 rs2 rs3 : Reg) : Opcode.Statement (.rdfti rd rs1 rs2 rs3) := opOf_encR ..
theorem Opcode.rdftrr (rd rs1 rs2 rs3 : Reg) : Opcode.Statement (.rdftrr rd rs1 rs2 rs3) := opOf_encR ..
theorem Opcode.rdftri (rd rs1 rs2 rs3 : Reg) : Opcode.Statement (.rdftri rd rs1 rs2 rs3) := opOf_encR ..
theorem Opcode.dct2 (rd rs1 rs2 rs3 : Reg) : Opcode.Statement (.dct2 rd rs1 rs2 rs3) := opOf_encR ..
theorem Opcode.dct3 (rd rs1 rs2 rs3 : Reg) : Opcode.Statement (.dct3 rd rs1 rs2 rs3) := opOf_encR ..
theorem Opcode.dct1 (rd rs1 rs2 rs3 : Reg) : Opcode.Statement (.dct1 rd rs1 rs2 rs3) := opOf_encR ..
theorem Opcode.dst1 (rd rs1 rs2 rs3 : Reg) : Opcode.Statement (.dst1 rd rs1 rs2 rs3) := opOf_encR ..

end Sys2Proof.Laws
end

