-- ==== Sys2Proof/Laws/Steps.lean ====
section
/-! SUPPORT. What any step can do, said once: a fault of the fetch, an instruction, an idle stutter, or one host access; and
what one host access can do. -/

namespace Sys2Proof.Machine

/-! ## Decoded instructions are well formed -/

theorem wellFormed_of_whenZero {z : Bool} {i j : Instr} (h : whenZero z i = .ok j) (hi : i.wellFormed = true) :
    j.wellFormed = true := by
  unfold whenZero at h
  split at h
  · cases h; exact hi
  · cases h

theorem wellFormed_of_byFnBit {w : Word} {z : Bool} {i i' j : Instr} (h : byFnBit w z i i' = .ok j)
    (hi : i.wellFormed = true) (hi' : i'.wellFormed = true) : j.wellFormed = true := by
  unfold byFnBit at h
  repeat' split at h
  all_goals cases h
  all_goals assumption

theorem wellFormed_of_byInvBit {w : Word} {z : Bool} {i i' j : Instr} (h : byInvBit w z i i' = .ok j)
    (hi : i.wellFormed = true) (hi' : i'.wellFormed = true) : j.wellFormed = true := by
  unfold byInvBit at h
  repeat' split at h
  all_goals cases h
  all_goals assumption

theorem wellFormed_of_decodeOdd {w : Word} {j : Instr} (h : decodeOdd w = .ok j) : j.wellFormed = true := by
  unfold decodeOdd at h
  repeat' split at h
  all_goals cases h
  all_goals rfl

theorem wellFormed_of_decodePfa {w : Word} {j : Instr} (h : decodePfa w = .ok j) : j.wellFormed = true := by
  unfold decodePfa at h
  repeat' split at h
  all_goals cases h
  all_goals rfl

theorem wellFormed_of_bySelector {w : Word} {z : Bool} {iP : BitVec 5 → Instr} {i53 i7 i9 j : Instr}
    (h : bySelector w z iP i53 i7 i9 = .ok j) (hP : ∀ lg : BitVec 5, 3 ≤ lg.toNat → (iP lg).wellFormed = true)
    (h53 : i53.wellFormed = true) (h7 : i7.wellFormed = true) (h9 : i9.wellFormed = true) : j.wellFormed = true := by
  unfold bySelector at h
  repeat' split at h
  all_goals cases h
  all_goals first | assumption | exact hP _ (by assumption)

/-- A word decodes to a well-formed instruction or to none (30_encoding.md R110). -/
theorem decode_wellFormed {w : Word} {i : Instr} (h : decode w = .ok i) : i.wellFormed = true := by
  unfold decode at h
  simp only at h
  split at h <;> first
    | (cases h; done)
    | (cases h; rfl)
    | exact wellFormed_of_whenZero h rfl
    | exact wellFormed_of_byFnBit h rfl rfl
    | exact wellFormed_of_byInvBit h rfl rfl
    | exact wellFormed_of_decodeOdd h
    | exact wellFormed_of_decodePfa h
    | exact wellFormed_of_bySelector h (fun lg hl => decide_eq_true hl) rfl rfl rfl

/-! ## Steps -/

/-- A running sequencer's move: a fault of the fetch or of decoding, or a well-formed instruction. -/
def RunsTo (s t : State) : Prop :=
  (∃ x, t = s.raise x ∧ (x.cause = .illegalInstruction ∨ x.cause = .fetchRange)) ∨
    ∃ i, i.wellFormed = true ∧ exec i s = .next t

/-- Every next state of every step. -/
theorem step_cases {s t : State} (h : step s = .next t) :
    s.params.legal = true ∧
    ((s.run = .running ∧ ∃ s' : State,
        (s' = s ∧ s.turns = [] ∨ ∃ rest, s.turns = .sequencer :: rest ∧ s' = { s with turns := rest }) ∧ RunsTo s' t) ∨
    (s.run ≠ .running ∧ (t = s ∨ ∃ rest, s.turns = .sequencer :: rest ∧ t = { s with turns := rest })) ∨
    ∃ a rest, s.turns = .host a :: rest ∧ t = State.hostAccess { s with turns := rest } a) := by
  unfold step at h
  split at h
  · next hl =>
    refine ⟨hl, ?_⟩
    have hrun : ∀ s' : State, sequencerTurn s' = .next t →
        (s'.run = .running ∧ RunsTo s' t) ∨ s'.run ≠ .running ∧ t = s' := by
      intro s' h
      unfold sequencerTurn at h
      split at h
      · next hb =>
        have hb : s'.run = .running := by simpa [State.busy] using hb
        refine .inl ⟨hb, ?_⟩
        unfold runInstruction at h
        split at h
        · next x hx =>
          cases h
          unfold State.fetch at hx
          split at hx
          · cases hx
          · cases hx; exact .inl ⟨_, rfl, .inr rfl⟩
        · next w hw =>
          split at h
          · next i hi => exact .inr ⟨i, decode_wellFormed hi, h⟩
          · cases h; exact .inl ⟨_, rfl, .inl rfl⟩
      · next hb =>
        cases h
        exact .inr ⟨by simpa [State.busy] using hb, rfl⟩
    unfold takeTurn at h
    split at h
    · next hz =>
      rcases hrun s h with ⟨h1, h2⟩ | ⟨h1, h2⟩
      · exact .inl ⟨h1, s, .inl ⟨rfl, hz⟩, h2⟩
      · exact .inr (.inl ⟨h1, .inl h2⟩)
    · next rest hr =>
      rcases hrun _ h with ⟨h1, h2⟩ | ⟨h1, h2⟩
      · exact .inl ⟨h1, _, .inr ⟨rest, hr, rfl⟩, h2⟩
      · exact .inr (.inl ⟨h1, .inr ⟨rest, hr, h2⟩⟩)
    · next a rest hr =>
      cases h
      exact .inr (.inr ⟨a, rest, hr, rfl⟩)
  · cases h

/-- What one host access leaves: HOSTERR and the reply alone, or what a write that is not refused does (60_exceptions.md
R373, R380, R381). -/
theorem hostAccess_cases (s : State) (a : HostAccess) :
    (∃ e r, s.hostAccess a = { s with hosterr := e, hostReply := r }) ∨
    (∃ offset v tgt t, a = .write 4 offset v ∧ hostTarget? s.params 4 offset = some tgt ∧
      (s.run = .running → tgt.writableBusy = true) ∧ s.hostWrite? tgt v = some t ∧ s.hostAccess a = t) := by
  cases a with
  | read size offset =>
    refine .inl ?_
    unfold State.hostAccess
    simp only
    split
    · exact ⟨s.hosterr, _, rfl⟩
    · exact ⟨true, _, rfl⟩
  | write size offset v =>
    unfold State.hostAccess
    simp only
    cases h : s.hostWriteAt? size offset v with
    | none => exact .inl ⟨true, s.hostReply, rfl⟩
    | some t =>
      refine .inr ?_
      unfold State.hostWriteAt? at h
      split at h
      · cases h
      · next tgt ht =>
        split at h
        · cases h
        · next hb =>
          have hsz : size = 4 := by
            unfold hostTarget? at ht
            simp only at ht
            split at ht
            · cases ht
            · next hh => by_contra hc; exact hh (.inl hc)
          subst hsz
          refine ⟨offset, v, tgt, t, rfl, ht, fun hr => ?_, h, rfl⟩
          have : s.busy = true := by simp [State.busy, hr]
          simp [this] at hb
          exact hb

theorem hostTarget?_ctrl {c : Params} {o : Word} (h : hostTarget? c 4 o = some .ctrl) : o = 0x400 := by
  unfold hostTarget? at h
  simp only at h
  split at h
  · cases h
  · split at h
    · cases h
    · split at h
      · next hh => exact BitVec.eq_of_toNat_eq hh
      · repeat (first | cases h | split at h)

theorem toNat_sub_of_le {o k : Word} (h : k.toNat ≤ o.toNat) : (o - k).toNat = o.toNat - k.toNat := by
  rw [BitVec.toNat_sub]; have := o.isLt; have := k.isLt; omega

theorem hostTarget?_imem {c : Params} {o : Word} {w : Nat} (h : hostTarget? c 4 o = some (.imem w)) :
    w < c.imemWords ∧ 0x10000 ≤ o.toNat ∧ o.toNat < 0x10000 + 4 * c.imemWords ∧ o.toNat = 0x10000 + 4 * w := by
  unfold hostTarget? at h
  simp only at h
  repeat' split at h
  all_goals first | (cases h; done) | skip
  next h4 _ _ _ _ _ _ hh =>
    cases h
    rw [toNat_sub_of_le (by simpa using hh.1)]
    rw [show (0x10000 : Word).toNat = 0x10000 from rfl]
    omega

theorem hostTarget?_dmem {c : Params} {o : Word} {a : Nat} (hl : c.legal = true) (h : hostTarget? c 4 o = some (.dmem a)) :
    a + 4 ≤ c.dmemBytes ∧ o.toNat = 0x80000000 + a := by
  unfold hostTarget? at h
  simp only at h
  repeat' split at h
  all_goals first | (cases h; done) | skip
  next h4 _ _ _ _ _ _ _ hh =>
    cases h
    rw [toNat_sub_of_le (by simpa using hh.1)]
    rw [show (0x80000000 : Word).toNat = 0x80000000 from rfl]
    have hd : 4 ∣ c.dmemBytes := by
      unfold Params.dmemBytes
      have : 2 ≤ c.dmemLog2 := by simp [Params.legal] at hl; omega
      exact pow_dvd_pow 2 this
    omega

/-! ## Counting and reset -/

/-- TGENCNT advances by the number of bits set (10_state.md R45). -/
theorem State.tgencnt_ensureBits (s : State) {l : List Nat} (hl : ∀ b ∈ l, b < 32) (p : Prec) (hp : p = s.prec) :
    (s.ensureBits l).tgencnt = s.tgencnt + BitVec.ofNat 32 (newTables s (s.ensureBits l) p) := by
  subst hp
  induction l generalizing s with
  | nil => simp [State.ensureBits, newTables]
  | cons b l ih =>
    have hs : s.ensureBits (b :: l) = (s.ensureBit b).ensureBits l := rfl
    rw [hs]
    have hb := hl b (by simp)
    have h := ih (s.ensureBit b) (fun c hc => hl c (by simp [hc]))
    rw [State.ensureBit_prec] at h
    by_cases hv : (s.tvalid s.prec).getLsbD b = true
    · rw [State.ensureBit_of_valid hv] at h ⊢; exact h
    · rw [h, State.tgencnt_ensureBit, if_neg hv]
      have hcount : newTables s ((s.ensureBit b).ensureBits l) s.prec =
          newTables (s.ensureBit b) ((s.ensureBit b).ensureBits l) s.prec + 1 := by
        unfold newTables
        have hnd : (List.range 32).Nodup := List.nodup_range
        have hperm : ((List.range 32).filter fun c =>
              (((s.ensureBit b).ensureBits l).tvalid s.prec).getLsbD c && !(s.tvalid s.prec).getLsbD c).Perm
            (b :: (List.range 32).filter fun c =>
              (((s.ensureBit b).ensureBits l).tvalid s.prec).getLsbD c && !((s.ensureBit b).tvalid s.prec).getLsbD c) := by
          rw [List.perm_ext_iff_of_nodup (hnd.filter _)]
          · intro c
            have hl' : ∀ c ∈ l, c < 32 := fun c hc => hl c (by simp [hc])
            simp only [List.mem_filter, List.mem_range, List.mem_cons, State.tvalid_ensureBits _ hl', State.ensureBit_prec,
              State.tvalid_ensureBit _ hb]
            by_cases hc : c = b
            · subst hc; simp [hb]; rw [← BitVec.getLsbD_eq_getElem]; simpa using hv
            · simp [hc]
          · rw [List.nodup_cons]
            refine ⟨?_, hnd.filter _⟩
            simp [State.tvalid_ensureBit _ hb]
        rw [hperm.length_eq]; rfl
      rw [hcount, BitVec.add_assoc]; congr 1
      rw [BitVec.ofNat_add, BitVec.add_comm]; rfl

theorem newTables_self {s t : State} {p : Prec} (h : t.tvalid p = s.tvalid p) : newTables s t p = 0 := by
  unfold newTables; rw [h]; simp

theorem scaleBits_powerOn (c : Params) : (State.powerOn c).scaleBits = 0x3FF0000000000000 := by
  have h : ∀ h l : Word, h = 0x3FF00000 → l = 0 → pow2 32 * h.toNat + l.toNat = 0x3FF0000000000000 := by
    rintro _ _ rfl rfl; rfl
  exact h _ _ rfl rfl

theorem scaleOk_powerOn (c : Params) : (State.powerOn c).ScaleOk := by
  unfold State.ScaleOk
  rw [scaleBits_powerOn]
  have : scalefOf 0x3FF0000000000000 = 0x3F800000 := by decide +kernel
  rw [this]; rfl

theorem record_raise (s : State) (x : Trap) : (s.raise x).RecordOk := by
  unfold State.RecordOk
  simp [State.raise]
  cases x.cause <;> simp [Cause.code]

end Sys2Proof.Machine
end

