-- ==== Sys2Proof/Tests/Slice0.lean ====
section
/-! SUPPORT. Tests of the model, each one step, with its expected result from the spec (V<n>.<k> is a vector of
95_test_vectors.md, its words, operands and results as given there) or worked out by hand; and for each obligation that has
hypotheses, states and operands that meet them. -/

open Sys2Proof Sys2Proof.Machine

namespace Sys2Proof.Tests

set_option Elab.async false

/-! ## Helpers -/

/-- A running unit after reset with the given precision, registers and DMEM words. -/
def cell (p : Prec) (regs : List (Reg × Word)) (mem : List (Nat × List Nat)) : State :=
  regs.foldl (fun s r => s.setReg r.1 r.2)
    { State.reset with
      prec := p
      run := .running
      dmem := mem.foldl (fun m e => m.writeWords ((addrsFrom e.1 e.2.length 4).zip e.2)) [] }

/-- The word decodes to an instruction that completes from `s`, and the state after it satisfies `q`. -/
def completes (w : Word) (s : State) (q : State → Bool) : Bool :=
  match decode w with
  | .ok i => match exec i s with
    | .next t => t.run == .running && t.instret == s.instret + 1 && q t
    | _ => false
  | _ => false

/-- The word completes from `s` and leaves the given words in DMEM at the given addresses. -/
def gives (w : Word) (s : State) (outs : List (Nat × List Nat)) : Bool :=
  completes w s fun t => t.pc == s.pc + 1 && outs.all fun o => (addrsFrom o.1 o.2.length 4).map (t.dmem.readLE · 4) == o.2

/-- The word completes from `s` and leaves `v` in x[r]. -/
def sets (w : Word) (s : State) (r : Reg) (v : Word) : Bool :=
  completes w s fun t => t.pc == s.pc + 1 && t.reg r == v

/-- The word raises the cause with the info word. -/
def raises (w : Word) (s : State) (c : Cause) (info : Nat) : Bool :=
  match decode w with
  | .ok i => match exec i s with
    | .next t => t == s.raise ⟨c, info⟩
    | _ => false
  | _ => false

/-- The state after the word's instruction, `s` if it does not answer a next state. -/
def after (w : Word) (s : State) : State :=
  match decode w with
  | .ok i => match exec i s with
    | .next t => t
    | _ => s
  | _ => s

/-! ## Well-formedness and decoding -/

/-- TGEN P and TCOPY P with lg < 3 are the terms without an encoding (R110). -/
theorem test_wellFormed_refuses_small_tables :
    (Instr.tgenP 2).wellFormed = false ∧ (Instr.tcopyP 1 2).wellFormed = false ∧ (Instr.tgenP 3).wellFormed = true := by
  decide

/-- Words written out from R106 decode to their instructions: integer. -/
theorem test_decode_integer : ∀ e ∈ ([
    (0b000001_0001_0010_111111111111111101, .addi 1 2 (-3)),
    (0b000010_0001_1010101010101010100001, .lui 1 2796193),
    (0b000011_0001_0010_0101_00000000000000, .add 1 2 5),
    (0b000100_0001_0010_0101_00000000000000, .sub 1 2 5),
    (0b000101_0001_0010_0101_00000000000000, .mul 1 2 5),
    (0b000110_0001_0010_0000000000000_10011, .slli 1 2 19),
    (0b000111_0001_0010_0000000000000_10011, .srli 1 2 19)] : List (Nat × Instr)), decodeTableWord 32 e.1 = some e.2 := by
  decide +kernel

/-- Words written out from R106 decode to their instructions: memory and control. -/
theorem test_decode_memory_and_control : ∀ e ∈ ([
    (0b001000_0001_0010_111111111111111101, .lw 1 2 (-3)),
    (0b001001_0001_0010_111111111111111101, .sw 1 2 (-3)),
    (0b001010_0010_0101_111111111111111011, .beq 2 5 (-5)),
    (0b001011_0010_0101_111111111111111011, .bne 2 5 (-5)),
    (0b001100_0010_0101_111111111111111011, .bltu 2 5 (-5)),
    (0b001101_11111111111111111111111001, .j (-7)),
    (0b001110_0001_0000_00010100_0000000000, .csrr 1 20),
    (0b001111_0000_0010_00010100_0000000000, .csrw 2 20),
    (0b010000_00000000000000000000000000, .halt)] : List (Nat × Instr)), decodeTableWord 32 e.1 = some e.2 := by
  decide +kernel

/-- Words written out from R106 decode to their instructions: vector. -/
theorem test_decode_vector : ∀ e ∈ ([
    (0b010100_0001_0010_0101_1001_0000000000, .cmulv 1 2 5 9),
    (0b010100_0001_0010_0101_1001_0000000001, .cmulvC 1 2 5 9),
    (0b010101_0000_0010_0101_1001_0000000000, .bfv 2 5 9),
    (0b010110_0001_0010_0000_1001_0000000000, .scalev 1 2 9),
    (0b010111_0001_0010_0000_1001_0000000000, .copyv 1 2 9)] : List (Nat × Instr)), decodeTableWord 32 e.1 = some e.2 := by
  decide +kernel

/-- Words written out from R106 decode to their instructions: power of two. -/
theorem test_decode_power_of_two : ∀ e ∈ ([
    (0b011000_0001_0000000000000000000000, .fft2 1),
    (0b011001_0001_0000000000000000000000, .fft4 1),
    (0b011010_0001_0000000000000000000000, .fft8 1),
    (0b011011_0001_000000000000_10101_00000, .srcomb 1 21),
    (0b011100_0001_000000000000_10101_00000, .fftns 1 21),
    (0b011101_0001_0010_00000000_10101_00000, .fft 1 2 21),
    (0b011101_0001_0010_00000000_10101_00001, .fftI 1 2 21),
    (0b011110_0001_0010_0000_1001_0000000000, .fftl 1 2 9),
    (0b011110_0001_0010_0000_1001_0000000001, .fftlI 1 2 9)] : List (Nat × Instr)), decodeTableWord 32 e.1 = some e.2 := by
  decide +kernel

/-- Words written out from R106 decode to their instructions: odd. -/
theorem test_decode_odd : ∀ e ∈ ([
    (0b100000_0001_0010_000000000000000000, .fft3 1 2),
    (0b100000_0001_0010_000000000000000001, .fft3I 1 2),
    (0b100000_0001_0010_000000000000000010, .fft5 1 2),
    (0b100000_0001_0010_000000000000000011, .fft5I 1 2),
    (0b100000_0001_0010_000000000000000100, .fft7 1 2),
    (0b100000_0001_0010_000000000000000101, .fft7I 1 2),
    (0b100000_0001_0010_000000000000000110, .fft9 1 2),
    (0b100000_0001_0010_000000000000000111, .fft9I 1 2),
    (0b100000_0001_0010_000000000000001000, .fft15 1 2),
    (0b100000_0001_0010_000000000000001001, .fft15I 1 2)] : List (Nat × Instr)), decodeTableWord 32 e.1 = some e.2 := by
  decide +kernel

/-- Words written out from R106 decode to their instructions: prime factor. -/
theorem test_decode_prime_factor : ∀ e ∈ ([
    (0b100001_0001_0010_0101_00000000000000, .pfa3 1 2 5),
    (0b100001_0001_0010_0101_00000000000001, .pfa3I 1 2 5),
    (0b100001_0001_0010_0101_00000000000010, .pfa5 1 2 5),
    (0b100001_0001_0010_0101_00000000000011, .pfa5I 1 2 5),
    (0b100001_0001_0010_0101_00000000000100, .pfa7 1 2 5),
    (0b100001_0001_0010_0101_00000000000101, .pfa7I 1 2 5),
    (0b100001_0001_0010_0101_00000000000110, .pfa9 1 2 5),
    (0b100001_0001_0010_0101_00000000000111, .pfa9I 1 2 5),
    (0b100001_0001_0010_0101_00000000001000, .pfa15 1 2 5),
    (0b100001_0001_0010_0101_00000000001001, .pfa15I 1 2 5)] : List (Nat × Instr)), decodeTableWord 32 e.1 = some e.2 := by
  decide +kernel

/-- Words written out from R106 decode to their instructions: maps. -/
theorem test_decode_maps : ∀ e ∈ ([
    (0b100100_0001_000000000000_10101_00000, .pmapsr 1 21),
    (0b100100_0001_000000000000_10101_00001, .pmapsrI 1 21),
    (0b100101_0001_000000000000_10101_00000, .pmapbr 1 21),
    (0b100110_0001_0010_0101_00000000000000, .pmapcrt 1 2 5),
    (0b100110_0001_0010_0101_00000000000001, .pmaprur 1 2 5),
    (0b100111_0001_00000000_1001_0000000000, .pmapneg 1 9),
    (0b101000_0001_0010_0101_1001_0000000000, .pgather 1 2 5 9),
    (0b101001_0001_0010_0101_1001_0000000000, .pscatter 1 2 5 9),
    (0b101010_0001_0010_0000_1001_0000000000, .pinv 1 2 9)] : List (Nat × Instr)), decodeTableWord 32 e.1 = some e.2 := by
  decide +kernel

/-- Words written out from R106 decode to their instructions: tables. -/
theorem test_decode_tables : ∀ e ∈ ([
    (0b101100_0000000000000000_10101_00000, .tgenP 21),
    (0b101100_00000000000000000000000010, .tgenT53),
    (0b101100_00000000000000000000000100, .tgenT7),
    (0b101100_00000000000000000000000110, .tgenT9),
    (0b101101_0001_000000000000_10101_00000, .tcopyP 1 21),
    (0b101101_0001_0000000000000000000010, .tcopyT53 1),
    (0b101101_0001_0000000000000000000100, .tcopyT7 1),
    (0b101101_0001_0000000000000000000110, .tcopyT9 1),
    (0b101110_0001_00000000_1001_0000000000, .tgmdct 1 9),
    (0b101110_0001_00000000_1001_0000000001, .tgmdctI 1 9),
    (0b101111_0001_00000000_1001_0000000000, .tgrdft 1 9),
    (0b110000_0001_00000000_1001_0000000000, .tgdct 1 9)] : List (Nat × Instr)), decodeTableWord 32 e.1 = some e.2 := by
  decide +kernel

/-- Words written out from R106 decode to their instructions: real. -/
theorem test_decode_real : ∀ e ∈ ([
    (0b110010_0001_0010_0101_1001_0000000000, .mdctf 1 2 5 9),
    (0b110011_0001_0010_0101_1001_0000000000, .mdcti 1 2 5 9),
    (0b110100_0001_0010_0101_1001_0000000000, .mdctif 1 2 5 9),
    (0b110110_0001_0010_0101_1001_0000000000, .rdftf 1 2 5 9),
    (0b110111_0001_0010_0101_1001_0000000000, .rdfti 1 2 5 9),
    (0b111000_0001_0010_0101_1001_0000000000, .rdftrr 1 2 5 9),
    (0b111000_0001_0010_0101_1001_0000000001, .rdftri 1 2 5 9),
    (0b111010_0001_0010_0101_1001_0000000000, .dct2 1 2 5 9),
    (0b111011_0001_0010_0101_1001_0000000000, .dct3 1 2 5 9),
    (0b111100_0001_0010_0101_1001_0000000000, .dct1 1 2 5 9),
    (0b111101_0001_0010_0101_1001_0000000000, .dst1 1 2 5 9)] : List (Nat × Instr)), decodeTableWord 32 e.1 = some e.2 := by
  decide +kernel

/-- Illegal words (R110): the all-zero word, a zero field that is not, an odd codelet beyond 15, a table P with lg = 2. -/
theorem test_decode_illegal :
    [0x00000000, 0x0C440001, 0x8004000A, 0xB0000040].map (decodeTableWord 32) = [none, none, none, none] := by
  decide +kernel

/-! ## One step of each instruction -/

/-- V49.1: −1 is sign-extended and the sum wraps. -/
theorem test_addi_V49_1 :
    sets 0x0487FFFF (cell .fp32 [(1, 5)] []) 2 4 := by
  decide +kernel

/-- V49.2. -/
theorem test_lui_V49_2 :
    sets 0x08C12345 (cell .fp32 [] []) 3 0x048D1400 := by
  decide +kernel

/-- V49.3: the sum wraps. -/
theorem test_add_V49_3 :
    sets 0x0D048000 (cell .fp32 [(1, 0xFFFFFFFF), (2, 2)] []) 4 1 := by
  decide +kernel

/-- 3 − 5 = −2 modulo 2^32 (R323). -/
theorem test_sub_wraps :
    sets 0x11048000 (cell .fp32 [(1, 3), (2, 5)] []) 4 0xFFFFFFFE := by
  decide +kernel

/-- (2^16 + 3)·(2^16 + 5) = 2^32 + 8·2^16 + 15 (R324). -/
theorem test_mul_keeps_low_word :
    sets 0x15048000 (cell .fp32 [(1, 0x10003), (2, 0x10005)] []) 4 0x8000F := by
  decide +kernel

/-- 0x80000003 shifted left by 1 (R325). -/
theorem test_slli_drops_high_bits :
    sets 0x19040001 (cell .fp32 [(1, 0x80000003)] []) 4 6 := by
  decide +kernel

/-- 0x80000003 shifted right by 31 (R326). -/
theorem test_srli_shifts_in_zeros :
    sets 0x1D04001F (cell .fp32 [(1, 0x80000003)] []) 4 1 := by
  decide +kernel

/-- A write to x0 is discarded (R21). -/
theorem test_add_discards_x0 :
    sets 0x0C048000 (cell .fp32 [(1, 3), (2, 5)] []) 0 0 := by
  decide +kernel

/-- V49.5. -/
theorem test_lw_V49_5 :
    sets 0x21840008 (cell .fp32 [(1, 0x00000100)] [(0x00000108, [0x12345678])]) 6 0x12345678 := by
  decide +kernel

/-- V49.6: MISALIGNED. -/
theorem test_lw_V49_6 :
    raises 0x21840002 (cell .fp32 [(1, 0x00000100)] []) .misaligned 0x102 := by
  decide +kernel

/-- V49.8. -/
theorem test_sw_V49_8 :
    gives 0x2587FFFC (cell .fp32 [(6, 0x12345678), (1, 0x00000104)] []) [(0x100, [305419896])] := by
  decide +kernel

/-- The first word beyond DMEM (R328, R80). -/
theorem test_sw_out_of_range :
    raises 0x25840000 (cell .fp32 [(1, 0x10000)] []) .dmemRange 0x10000 := by
  decide +kernel

/-- x1 = x2: pc + (−3) from pc = 0 wraps (R330). -/
theorem test_beq_taken :
    completes 0x284BFFFD (cell .fp32 [(1, 7), (2, 7)] []) fun t => t.pc == 0xFFFFFFFD := by
  decide +kernel

/-- x1 ≠ x2: pc + 1 (R330). -/
theorem test_beq_not_taken :
    completes 0x284BFFFD (cell .fp32 [(1, 7), (2, 8)] []) fun t => t.pc == 1 := by
  decide +kernel

/-- x1 ≠ x2 (R331). -/
theorem test_bne_taken :
    completes 0x2C480009 (cell .fp32 [(1, 7), (2, 8)] []) fun t => t.pc == 9 := by
  decide +kernel

/-- x1 = x2 (R331). -/
theorem test_bne_not_taken :
    completes 0x2C480009 (cell .fp32 [(1, 7), (2, 7)] []) fun t => t.pc == 1 := by
  decide +kernel

/-- 1 < 0xFFFFFFFF unsigned (R332). -/
theorem test_bltu_is_unsigned :
    completes 0x30480009 (cell .fp32 [(1, 1), (2, 0xFFFFFFFF)] []) fun t => t.pc == 9 := by
  decide +kernel

/-- x1 = x2 is not less (R332). -/
theorem test_bltu_is_strict :
    completes 0x30480009 (cell .fp32 [(1, 1), (2, 1)] []) fun t => t.pc == 1 := by
  decide +kernel

/-- pc + (−1) from pc = 0 (R333). -/
theorem test_j_jumps_back :
    completes 0x37FFFFFF (cell .fp32 [] []) fun t => t.pc == 0xFFFFFFFF := by
  decide +kernel

/-- INSTRET before the instruction counts (R46, R334). -/
theorem test_csrr_reads_instret :
    sets 0x39405000 { cell .fp32 [] [] with instret := 41 } 5 41 := by
  decide +kernel

/-- V49.9: an unassigned CSR. -/
theorem test_csrr_V49_9 :
    raises 0x39401C00 (cell .fp32 [] []) .illegalCsr 7 := by
  decide +kernel

/-- SCALE_HI of 0.5 makes SCALEF 0.5 (R37, R335). -/
theorem test_csrw_sets_scale :
    completes 0x3C042400 (cell .fp32 [(1, 0x3FE00000)] []) fun t => t.scaleHi == 0x3FE00000 && t.scalef == 0x3F000000 := by
  decide +kernel

/-- V49.10: the reserved MODE value. -/
theorem test_csrw_V49_10 :
    raises 0x3C040800 (cell .fp32 [(1, 3)] []) .illegalCsr 2 := by
  decide +kernel

/-- HALT ends the run at its own pc with DONE and IRQSTAT.DONE, and counts (R336). -/
theorem test_halt :
    (after 0x40000000 (cell .fp32 [] [])) =
      { cell .fp32 [] [] with run := .done, irqDone := true, instret := 1 } := by
  decide +kernel

/-- V41.1. -/
theorem test_cmulv_V41_1 :
    gives 0x50850C00 (cell .fp64 [(1, 0x00000100), (2, 0x00002000), (3, 1), (4, 0x00001000)] [(0x00000100, [0,
      0x3FF00000, 0, 0x40000000]), (0x00001000, [0, 0x40080000, 0, 0x40100000])]) [(0x00002000, [0, 0xC0140000, 0,
      0x40240000])] := by
  decide +kernel

/-- V41.3. -/
theorem test_cmulv_V41_3 :
    gives 0x50850C00 (cell .fp32 [(1, 0x00000100), (2, 0x00002000), (3, 1), (4, 0x00001000)] [(0x00000100,
      [0x3F800800, 0]), (0x00001000, [0x3F800800, 0])]) [(0x00002000, [0x3F801000, 0])] := by
  decide +kernel

/-- V41.2. -/
theorem test_cmulvC_V41_2 :
    gives 0x50850C01 (cell .fp64 [(1, 0x00000100), (2, 0x00002000), (3, 1), (4, 0x00001000)] [(0x00000100, [0,
      0x3FF00000, 0, 0x40000000]), (0x00001000, [0, 0x40080000, 0, 0x40100000])]) [(0x00002000, [0, 0x40260000, 0,
      0x40000000])] := by
  decide +kernel

/-- V41.8. -/
theorem test_bfv_V41_8 :
    gives 0x54050C00 (cell .fp32 [(1, 0x00000100), (2, 0x00002000), (3, 1), (4, 0x00001000)] [(0x00000100,
      [0x3F800000, 0x3F800000]), (0x00001000, [0x3F000000, 0xBF800000])]) [(0x00000100, [0x3FC00000, 0]), (0x00001000,
      [0x3F000000, 0x40000000])] := by
  decide +kernel

/-- V41.10. -/
theorem test_scalev_V41_10 :
    gives 0x58840C00 { (cell .fp64 [(1, 0x00000100), (2, 0x00002000), (3, 2)] [(0x00000100, [0, 0x40080000, 0,
      0xBFF00000])]) with scaleHi := 0x3FE00000 } [(0x00002000, [0, 0x3FF80000, 0, 0xBFE00000])] := by
  decide +kernel

/-- V41.15. -/
theorem test_scalev_V41_15 :
    raises 0x58840C00 { (cell .fp64 [(1, 0x00000100), (2, 0x00002000), (3, 1)] [(0x00000100, [0,
      0x3FF00000])]) with scaleHi := 0x7FF80000 } .invalidArgument 0x7FF80000 := by
  decide +kernel

/-- V41.17. -/
theorem test_copyv_V41_17 :
    gives 0x5C840C00 (cell .fp32 [(1, 0x00000100), (2, 0x00000108), (3, 2)] [(0x00000100, [0x3F800000, 0x40000000,
      0x40400000, 0x40800000, 0x41100000, 0x41100000])]) [(0x00000100, [0x3F800000, 0x40000000, 0x3F800000,
      0x40000000, 0x40400000, 0x40800000])] := by
  decide +kernel

/-- V42.1. -/
theorem test_fft2_V42_1 :
    gives 0x60400000 (cell .fp32 [(1, 0x00000100)] [(0x00000100, [0x3F800000, 0x40000000, 0x40400000,
      0xBF800000])]) [(0x00000100, [0x40800000, 0x3F800000, 0xC0000000, 0x40400000])] := by
  decide +kernel

/-- V42.2. -/
theorem test_fft4_V42_2 :
    gives 0x64400000 (cell .fp64 [(1, 0x00000100)] [(0x00000100, [0, 0x3FF00000, 0, 0, 0, 0, 0, 0, 0, 0, 0, 0, 0, 0,
      0, 0])]) [(0x00000100, [0, 0x3FF00000, 0, 0, 0, 0x3FF00000, 0, 0, 0, 0x3FF00000, 0, 0, 0, 0x3FF00000, 0, 0])] := by
  decide +kernel

/-- V42.4. -/
theorem test_fft8_V42_4 :
    gives 0x68400000 (cell .fp32 [(1, 0x00000100)] [(0x00000100, [0x3F800000, 0, 0, 0, 0, 0, 0, 0, 0, 0, 0, 0, 0, 0,
      0, 0])]) [(0x00000100, [0x3F800000, 0, 0x3F800000, 0, 0x3F800000, 0, 0x3F800000, 0, 0x3F800000, 0, 0x3F800000,
      0, 0x3F800000, 0, 0x3F800000, 0])] := by
  decide +kernel

/-- V42.5. -/
theorem test_srcomb_V42_5 :
    gives 0x6C400040 (cell .fp64 [(1, 0x00000100)] [(0x00000100, [0, 0x3FF00000, 0, 0, 0, 0x3FF00000, 0, 0, 0,
      0x3FF00000, 0, 0, 0, 0, 0, 0])]) [(0x00000100, [0, 0x40000000, 0, 0, 0, 0x3FF00000, 0, 0xBFF00000, 0, 0, 0, 0,
      0, 0x3FF00000, 0, 0x3FF00000])] := by
  decide +kernel

/-- V42.16. -/
theorem test_srcomb_V42_16 :
    raises 0x6C400020 (cell .fp64 [(1, 0x00000100)] []) .unsupportedLength 2 := by
  decide +kernel

/-- V42.6. -/
theorem test_fftns_V42_6 :
    gives 0x70400060 (cell .fp64 [(1, 0x00000100)] [(0x00000100, [0, 0, 0, 0, 0, 0, 0, 0, 0, 0, 0, 0, 0, 0, 0, 0, 0,
      0x3FF00000, 0, 0, 0, 0, 0, 0, 0, 0, 0, 0, 0, 0, 0, 0])]) [(0x00000100, [0, 0x3FF00000, 0, 0, 0x667F3BCD,
      0x3FE6A09E, 0x667F3BCD, 0xBFE6A09E, 0, 0, 0, 0xBFF00000, 0x667F3BCD, 0xBFE6A09E, 0x667F3BCD, 0xBFE6A09E, 0,
      0xBFF00000, 0, 0, 0x667F3BCD, 0xBFE6A09E, 0x667F3BCD, 0x3FE6A09E, 0, 0, 0, 0x3FF00000, 0x667F3BCD, 0x3FE6A09E,
      0x667F3BCD, 0x3FE6A09E])] := by
  decide +kernel

/-- V42.7. -/
theorem test_fft_V42_7 :
    gives 0x74840060 (cell .fp64 [(1, 0x00000100), (2, 0x00002000)] [(0x00000100, [0, 0, 0, 0, 0, 0x3FF00000, 0, 0, 0,
      0x40000000, 0, 0, 0, 0x40080000, 0, 0, 0, 0x40100000, 0, 0, 0, 0x40140000, 0, 0, 0, 0x40180000, 0, 0, 0,
      0x401C0000, 0, 0])]) [(0x00002000, [0, 0x403C0000, 0, 0, 0, 0xC0100000, 0x333F9DE6, 0x4023504F, 0, 0xC0100000,
      0, 0x40100000, 0, 0xC0100000, 0x99FCEF34, 0x3FFA8279, 0, 0xC0100000, 0, 0, 0, 0xC0100000, 0x99FCEF34,
      0xBFFA8279, 0, 0xC0100000, 0, 0xC0100000, 0, 0xC0100000, 0x333F9DE6, 0xC023504F])] := by
  decide +kernel

/-- V42.17. -/
theorem test_fft_V42_17 :
    raises 0x748402C0 (cell .fp64 [(1, 0x00000100), (2, 0x00002000)] []) .unsupportedLength 0x00400000 := by
  decide +kernel

/-- V42.8. -/
theorem test_fftI_V42_8 :
    gives 0x74840061 (cell .fp64 [(1, 0x00002000), (2, 0x00003000)] [(0x00002000, [0, 0x403C0000, 0, 0, 0, 0xC0100000,
      0x333F9DE6, 0x4023504F, 0, 0xC0100000, 0, 0x40100000, 0, 0xC0100000, 0x99FCEF34, 0x3FFA8279, 0, 0xC0100000, 0,
      0, 0, 0xC0100000, 0x99FCEF34, 0xBFFA8279, 0, 0xC0100000, 0, 0xC0100000, 0, 0xC0100000, 0x333F9DE6,
      0xC023504F])]) [(0x00003000, [0, 0, 0, 0, 0, 0x40200000, 0, 0, 0, 0x40300000, 0, 0, 0, 0x40380000, 0, 0, 0,
      0x40400000, 0, 0, 0, 0x40440000, 0, 0, 0, 0x40480000, 0, 0, 0, 0x404C0000, 0, 0])] := by
  decide +kernel

/-- V42.11. -/
theorem test_fftl_V42_11 :
    gives 0x78840C00 (cell .fp64 [(1, 0x00000100), (2, 0x00002000), (3, 6)] [(0x00000100, [0, 0, 0, 0, 0, 0x3FF00000,
      0, 0, 0, 0x40000000, 0, 0, 0, 0x40080000, 0, 0, 0, 0x40100000, 0, 0, 0, 0x40140000, 0, 0])]) [(0x00002000, [0,
      0x402E0000, 0, 0, 0, 0xC0080000, 0x2E423980, 0x4014C8DC, 0, 0xC0080000, 0xE8584CAA, 0x3FFBB67A, 0, 0xC0080000,
      0, 0, 0, 0xC0080000, 0xE8584CAA, 0xBFFBB67A, 0, 0xC0080000, 0x2E423980, 0xC014C8DC])] := by
  decide +kernel

/-- R173: the operands of V42.11 with the index reversed give its result. -/
theorem test_fftlI_of_reversed_input :
    gives 0x78840C01 (cell .fp64 [(1, 0x00000100), (2, 0x00002000), (3, 6)] [(0x00000100, [0, 0, 0, 0, 0, 0x40140000,
      0, 0, 0, 0x40100000, 0, 0, 0, 0x40080000, 0, 0, 0, 0x40000000, 0, 0, 0, 0x3FF00000, 0, 0])]) [(0x00002000, [0,
      0x402E0000, 0, 0, 0, 0xC0080000, 0x2E423980, 0x4014C8DC, 0, 0xC0080000, 0xE8584CAA, 0x3FFBB67A, 0, 0xC0080000,
      0, 0, 0, 0xC0080000, 0xE8584CAA, 0xBFFBB67A, 0, 0xC0080000, 0x2E423980, 0xC014C8DC])] := by
  decide +kernel

/-- V42.19. -/
theorem test_fftl_V42_19 :
    raises 0x78840C00 (cell .fp64 [(1, 0x00000100), (2, 0x00002000), (3, 0)] []) .invalidArgument 0 := by
  decide +kernel

/-- V43.1. -/
theorem test_fft3_V43_1 :
    gives 0x80840000 (cell .fp64 [(1, 0x00000100), (2, 0x00002000)] [(0x00000100, [0, 0x3FF00000, 0, 0, 0, 0x40000000,
      0, 0, 0, 0x40080000, 0, 0])]) [(0x00002000, [0, 0x40180000, 0, 0, 0, 0xBFF80000, 0xE8584CAA, 0x3FEBB67A, 0,
      0xBFF80000, 0xE8584CAA, 0xBFEBB67A])] := by
  decide +kernel

/-- R173: the operands of V43.1 with the index reversed give its result. -/
theorem test_fft3I_of_reversed_input :
    gives 0x80840001 (cell .fp64 [(1, 0x00000100), (2, 0x00002000)] [(0x00000100, [0, 0x3FF00000, 0, 0, 0, 0x40080000,
      0, 0, 0, 0x40000000, 0, 0])]) [(0x00002000, [0, 0x40180000, 0, 0, 0, 0xBFF80000, 0xE8584CAA, 0x3FEBB67A, 0,
      0xBFF80000, 0xE8584CAA, 0xBFEBB67A])] := by
  decide +kernel

/-- V43.2. -/
theorem test_fft5_V43_2 :
    gives 0x80840002 (cell .fp64 [(1, 0x00000100), (2, 0x00002000)] [(0x00000100, [0, 0x3FF00000, 0, 0, 0, 0x40000000,
      0, 0, 0, 0x40080000, 0, 0, 0, 0x40100000, 0, 0, 0, 0x40140000, 0, 0])]) [(0x00002000, [0, 0x402E0000, 0, 0, 0,
      0xC0040000, 0x4F909656, 0x400B8713, 0, 0xC0040000, 0xFA1BBA1B, 0x3FE9FE5A, 0, 0xC0040000, 0xFA1BBA1B,
      0xBFE9FE5A, 0, 0xC0040000, 0x4F909656, 0xC00B8713])] := by
  decide +kernel

/-- V43.3. -/
theorem test_fft5I_V43_3 :
    gives 0x80840003 (cell .fp64 [(1, 0x00000100), (2, 0x00002000)] [(0x00000100, [0, 0x3FF00000, 0, 0, 0, 0x40000000,
      0, 0, 0, 0x40080000, 0, 0, 0, 0x40100000, 0, 0, 0, 0x40140000, 0, 0])]) [(0x00002000, [0, 0x402E0000, 0, 0, 0,
      0xC0040000, 0x4F909656, 0xC00B8713, 0, 0xC0040000, 0xFA1BBA1B, 0xBFE9FE5A, 0, 0xC0040000, 0xFA1BBA1B,
      0x3FE9FE5A, 0, 0xC0040000, 0x4F909656, 0x400B8713])] := by
  decide +kernel

/-- V43.4. -/
theorem test_fft7_V43_4 :
    gives 0x80840004 (cell .fp64 [(1, 0x00000100), (2, 0x00002000)] [(0x00000100, [0, 0x3FF00000, 0, 0, 0, 0x40000000,
      0, 0, 0, 0x40080000, 0, 0, 0, 0x40100000, 0, 0, 0, 0x40140000, 0, 0, 0, 0x40180000, 0, 0, 0, 0x401C0000, 0,
      0])]) [(0x00002000, [0, 0x403C0000, 0, 0, 4, 0xC00C0000, 0xAFFC1D32, 0x401D1240, 2, 0xC00C0000, 0x0C630BC9,
      0x4006544A, 3, 0xC00C0000, 0x67E37BED, 0x3FE99032, 3, 0xC00C0000, 0x67E37BED, 0xBFE99032, 2, 0xC00C0000,
      0x0C630BC9, 0xC006544A, 4, 0xC00C0000, 0xAFFC1D32, 0xC01D1240])] := by
  decide +kernel

/-- R173: the operands of V43.4 with the index reversed give its result. -/
theorem test_fft7I_of_reversed_input :
    gives 0x80840005 (cell .fp64 [(1, 0x00000100), (2, 0x00002000)] [(0x00000100, [0, 0x3FF00000, 0, 0, 0, 0x401C0000,
      0, 0, 0, 0x40180000, 0, 0, 0, 0x40140000, 0, 0, 0, 0x40100000, 0, 0, 0, 0x40080000, 0, 0, 0, 0x40000000, 0,
      0])]) [(0x00002000, [0, 0x403C0000, 0, 0, 4, 0xC00C0000, 0xAFFC1D32, 0x401D1240, 2, 0xC00C0000, 0x0C630BC9,
      0x4006544A, 3, 0xC00C0000, 0x67E37BED, 0x3FE99032, 3, 0xC00C0000, 0x67E37BED, 0xBFE99032, 2, 0xC00C0000,
      0x0C630BC9, 0xC006544A, 4, 0xC00C0000, 0xAFFC1D32, 0xC01D1240])] := by
  decide +kernel

/-- V43.5. -/
theorem test_fft9_V43_5 :
    gives 0x80840006 (cell .fp64 [(1, 0x00000100), (2, 0x00002000)] [(0x00000100, [0, 0x3FF00000, 0, 0, 0, 0x40000000,
      0, 0, 0, 0x40080000, 0, 0, 0, 0x40100000, 0, 0, 0, 0x40140000, 0, 0, 0, 0x40180000, 0, 0, 0, 0x401C0000, 0, 0,
      0, 0x40200000, 0, 0, 0, 0x40220000, 0, 0])]) [(0x00002000, [0, 0x40468000, 0, 0, 0, 0xC0120000, 0x1F178134,
      0x4028BA30, 0, 0xC0120000, 0xBDF37CCC, 0x40157399, 0, 0xC0120000, 0x2E423980, 0x4004C8DC, 0, 0xC0120000,
      0x293E8531, 0x3FE9641E, 0, 0xC0120000, 0x293E8531, 0xBFE9641E, 0, 0xC0120000, 0x2E423980, 0xC004C8DC, 0,
      0xC0120000, 0xBDF37CCC, 0xC0157399, 0, 0xC0120000, 0x1F178134, 0xC028BA30])] := by
  decide +kernel

/-- R173: the operands of V43.5 with the index reversed give its result. -/
theorem test_fft9I_of_reversed_input :
    gives 0x80840007 (cell .fp64 [(1, 0x00000100), (2, 0x00002000)] [(0x00000100, [0, 0x3FF00000, 0, 0, 0, 0x40220000,
      0, 0, 0, 0x40200000, 0, 0, 0, 0x401C0000, 0, 0, 0, 0x40180000, 0, 0, 0, 0x40140000, 0, 0, 0, 0x40100000, 0, 0,
      0, 0x40080000, 0, 0, 0, 0x40000000, 0, 0])]) [(0x00002000, [0, 0x40468000, 0, 0, 0, 0xC0120000, 0x1F178134,
      0x4028BA30, 0, 0xC0120000, 0xBDF37CCC, 0x40157399, 0, 0xC0120000, 0x2E423980, 0x4004C8DC, 0, 0xC0120000,
      0x293E8531, 0x3FE9641E, 0, 0xC0120000, 0x293E8531, 0xBFE9641E, 0, 0xC0120000, 0x2E423980, 0xC004C8DC, 0,
      0xC0120000, 0xBDF37CCC, 0xC0157399, 0, 0xC0120000, 0x1F178134, 0xC028BA30])] := by
  decide +kernel

/-- V43.6. -/
theorem test_fft15_V43_6 :
    gives 0x80840008 (cell .fp64 [(1, 0x00000100), (2, 0x00002000)] [(0x00000100, [0, 0x3FF00000, 0, 0, 0, 0x40000000,
      0, 0, 0, 0x40080000, 0, 0, 0, 0x40100000, 0, 0, 0, 0x40140000, 0, 0, 0, 0x40180000, 0, 0, 0, 0x401C0000, 0, 0,
      0, 0x40200000, 0, 0, 0, 0x40220000, 0, 0, 0, 0x40240000, 0, 0, 0, 0x40260000, 0, 0, 0, 0x40280000, 0, 0, 0,
      0x402A0000, 0, 0, 0, 0x402C0000, 0, 0, 0, 0x402E0000, 0, 0])]) [(0x00002000, [0, 0x405E0000, 0, 0, 0,
      0xC01E0000, 0xE54CF363, 0x4041A471, 0, 0xC01E0000, 0xFEBF7D5A, 0x4030D863, 0, 0xC01E0000, 0x7BAC70C1,
      0x4024A54E, 0, 0xC01E0000, 0x62275C5A, 0x401B031A, 0, 0xC01E0000, 0xD1372FEA, 0x4011520C, 0, 0xC01E0000,
      0x3B94CB95, 0x40037EC4, 0, 0xC01E0000, 0xADD0EBC0, 0x3FE9399A, 0, 0xC01E0000, 0xADD0EBC0, 0xBFE9399A, 0,
      0xC01E0000, 0x3B94CB95, 0xC0037EC4, 0, 0xC01E0000, 0xD1372FEA, 0xC011520C, 0, 0xC01E0000, 0x62275C5A,
      0xC01B031A, 0, 0xC01E0000, 0x7BAC70C1, 0xC024A54E, 0, 0xC01E0000, 0xFEBF7D5A, 0xC030D863, 0, 0xC01E0000,
      0xE54CF363, 0xC041A471])] := by
  decide +kernel

/-- R173: the operands of V43.6 with the index reversed give its result. -/
theorem test_fft15I_of_reversed_input :
    gives 0x80840009 (cell .fp64 [(1, 0x00000100), (2, 0x00002000)] [(0x00000100, [0, 0x3FF00000, 0, 0, 0, 0x402E0000,
      0, 0, 0, 0x402C0000, 0, 0, 0, 0x402A0000, 0, 0, 0, 0x40280000, 0, 0, 0, 0x40260000, 0, 0, 0, 0x40240000, 0, 0,
      0, 0x40220000, 0, 0, 0, 0x40200000, 0, 0, 0, 0x401C0000, 0, 0, 0, 0x40180000, 0, 0, 0, 0x40140000, 0, 0, 0,
      0x40100000, 0, 0, 0, 0x40080000, 0, 0, 0, 0x40000000, 0, 0])]) [(0x00002000, [0, 0x405E0000, 0, 0, 0,
      0xC01E0000, 0xE54CF363, 0x4041A471, 0, 0xC01E0000, 0xFEBF7D5A, 0x4030D863, 0, 0xC01E0000, 0x7BAC70C1,
      0x4024A54E, 0, 0xC01E0000, 0x62275C5A, 0x401B031A, 0, 0xC01E0000, 0xD1372FEA, 0x4011520C, 0, 0xC01E0000,
      0x3B94CB95, 0x40037EC4, 0, 0xC01E0000, 0xADD0EBC0, 0x3FE9399A, 0, 0xC01E0000, 0xADD0EBC0, 0xBFE9399A, 0,
      0xC01E0000, 0x3B94CB95, 0xC0037EC4, 0, 0xC01E0000, 0xD1372FEA, 0xC011520C, 0, 0xC01E0000, 0x62275C5A,
      0xC01B031A, 0, 0xC01E0000, 0x7BAC70C1, 0xC024A54E, 0, 0xC01E0000, 0xFEBF7D5A, 0xC030D863, 0, 0xC01E0000,
      0xE54CF363, 0xC041A471])] := by
  decide +kernel

/-- V43.8. -/
theorem test_pfa3_V43_8 :
    gives 0x84854000 (cell .fp64 [(1, 0x00000100), (2, 0x00002000), (5, 2)] [(0x00000100, [0, 0, 0, 0, 0, 0x3FF00000,
      0, 0, 0, 0x40000000, 0, 0, 0, 0x40080000, 0, 0, 0, 0x40100000, 0, 0, 0, 0x40140000, 0, 0])]) [(0x00002000, [0,
      0x402E0000, 0, 0, 0, 0xC0080000, 0x2E423980, 0x4014C8DC, 0, 0xC0080000, 0xE8584CAA, 0x3FFBB67A, 0, 0xC0080000,
      0, 0, 0, 0xC0080000, 0xE8584CAA, 0xBFFBB67A, 0, 0xC0080000, 0x2E423980, 0xC014C8DC])] := by
  decide +kernel

/-- R173: the operands of V43.8 with the index reversed give its result. -/
theorem test_pfa3I_of_reversed_input :
    gives 0x84854001 (cell .fp64 [(1, 0x00000100), (2, 0x00002000), (5, 2)] [(0x00000100, [0, 0, 0, 0, 0, 0x40140000,
      0, 0, 0, 0x40100000, 0, 0, 0, 0x40080000, 0, 0, 0, 0x40000000, 0, 0, 0, 0x3FF00000, 0, 0])]) [(0x00002000, [0,
      0x402E0000, 0, 0, 0, 0xC0080000, 0x2E423980, 0x4014C8DC, 0, 0xC0080000, 0xE8584CAA, 0x3FFBB67A, 0, 0xC0080000,
      0, 0, 0, 0xC0080000, 0xE8584CAA, 0xBFFBB67A, 0, 0xC0080000, 0x2E423980, 0xC014C8DC])] := by
  decide +kernel

/-- V43.9. -/
theorem test_pfa3_V43_9 :
    raises 0x84854000 (cell .fp64 [(1, 0x00000100), (2, 0x00002000), (5, 6)] []) .invalidArgument 6 := by
  decide +kernel

/-- V44.2. -/
theorem test_pmapsr_V44_2 :
    gives 0x90800060 (cell .fp32 [(2, 0x00002000)] []) [(0x00002000, [0, 4, 2, 6, 1, 5, 7, 3])] := by
  decide +kernel

/-- V44.3. -/
theorem test_pmapsrI_V44_3 :
    gives 0x90800061 (cell .fp32 [(2, 0x00002000)] []) [(0x00002000, [0, 4, 6, 2, 7, 3, 1, 5])] := by
  decide +kernel

/-- V44.6. -/
theorem test_pmapbr_V44_6 :
    gives 0x94800060 (cell .fp32 [(2, 0x00002000)] []) [(0x00002000, [0, 4, 2, 6, 1, 5, 3, 7])] := by
  decide +kernel

/-- V44.8. -/
theorem test_pmapcrt_V44_8 :
    gives 0x9894C000 (cell .fp32 [(2, 0x00002000), (5, 3), (3, 5)] []) [(0x00002000, [0, 10, 5, 6, 1, 11, 12, 7, 2, 3,
      13, 8, 9, 4, 14])] := by
  decide +kernel

/-- V44.11. -/
theorem test_pmapcrt_V44_11 :
    raises 0x9894C000 (cell .fp32 [(2, 0x00002000), (5, 3), (3, 6)] []) .invalidArgument 6 := by
  decide +kernel

/-- V44.9. -/
theorem test_pmaprur_V44_9 :
    gives 0x9894C001 (cell .fp32 [(2, 0x00002000), (5, 3), (3, 5)] []) [(0x00002000, [0, 5, 10, 3, 8, 13, 6, 11, 1, 9,
      14, 4, 12, 2, 7])] := by
  decide +kernel

/-- V44.12. -/
theorem test_pmapneg_V44_12 :
    gives 0x9C800C00 (cell .fp32 [(2, 0x00002000), (3, 8)] []) [(0x00002000, [0, 7, 6, 5, 4, 3, 2, 1])] := by
  decide +kernel

/-- V44.14. -/
theorem test_pgather_V44_14 :
    gives 0xA0850C00 (cell .fp32 [(1, 0x00000100), (2, 0x00002000), (4, 0x00001000), (3, 3)] [(0x00000100,
      [0x3F800000, 0, 0x40000000, 0, 0x40400000, 0]), (0x00001000, [2, 0, 1])]) [(0x00002000, [0x40400000, 0,
      0x3F800000, 0, 0x40000000, 0])] := by
  decide +kernel

/-- V44.17. -/
theorem test_pgather_V44_17 :
    raises 0xA0850C00 (cell .fp32 [(1, 0x00000100), (2, 0x00002000), (4, 0x00001000), (3, 2)] [(0x00001000, [0,
      0x10000000])]) .dmemRange 0x80000100 := by
  decide +kernel

/-- V44.15. -/
theorem test_pscatter_V44_15 :
    gives 0xA4850C00 (cell .fp32 [(1, 0x00000100), (2, 0x00002000), (4, 0x00001000), (3, 3)] [(0x00000100,
      [0x3F800000, 0, 0x40000000, 0, 0x40400000, 0]), (0x00001000, [2, 0, 1])]) [(0x00002000, [0x40000000, 0,
      0x40400000, 0, 0x3F800000, 0])] := by
  decide +kernel

/-- V44.16. -/
theorem test_pinv_V44_16 :
    gives 0xA8840C00 (cell .fp32 [(1, 0x00001000), (2, 0x00002000), (3, 3)] [(0x00001000, [2, 0, 1])]) [(0x00002000,
      [1, 2, 0])] := by
  decide +kernel

/-- V45.1. -/
theorem test_tgenP_V45_1 :
    completes 0xB0000080 (cell .fp32 [] []) fun t => t.tgencnt == 1 && t.tvalidF32 == 0x10 := by
  decide +kernel

/-- Bit 24 of TVALID, in the current precision only (R44, R242). -/
theorem test_tgenT53_sets_its_bit :
    completes 0xB0000002 (cell .q31 [] []) fun t => t.tgencnt == 1 && t.tvalidQ31 == 0x01000000 && t.tvalidF32 == 0 := by
  decide +kernel

/-- Bit 25 of TVALID, in the current precision only (R44, R242). -/
theorem test_tgenT7_sets_its_bit :
    completes 0xB0000004 (cell .q31 [] []) fun t => t.tgencnt == 1 && t.tvalidQ31 == 0x02000000 && t.tvalidF32 == 0 := by
  decide +kernel

/-- Bit 26 of TVALID, in the current precision only (R44, R242). -/
theorem test_tgenT9_sets_its_bit :
    completes 0xB0000006 (cell .q31 [] []) fun t => t.tgencnt == 1 && t.tvalidQ31 == 0x04000000 && t.tvalidF32 == 0 := by
  decide +kernel

/-- V45.3. -/
theorem test_tcopyP_V45_3 :
    gives 0xB4800060 (cell .fp32 [(2, 0x00002000)] []) [(0x00002000, [0x3F800000, 0x3F3504F3, 0])] := by
  decide +kernel

/-- V45.10. -/
theorem test_tcopyT53_V45_10 :
    gives 0xB4800002 (cell .q31 [(2, 0x00002000)] []) [(0x00002000, [0x278DDE6E, 0x98722192, 0x79BC384D, 0x4B3C8C12,
      0xC0000000, 0x6ED9EBA1])] := by
  decide +kernel

/-- V45.7. -/
theorem test_tcopyT53_V45_7 :
    gives 0xB4800002 (cell .fp64 [(2, 0x00002000)] []) [(0x00002000, [0x372FE950, 0x3FD3C6EF, 0x9B97F4A8, 0xBFE9E377,
      0x134454FF, 0x3FEE6F0E, 0x04755A5E, 0x3FE2CF23, 0, 0xBFE00000, 0xE8584CAA, 0x3FEBB67A])] := by
  decide +kernel

/-- V45.8. -/
theorem test_tcopyT7_V45_8 :
    gives 0xB4800004 (cell .fp64 [(2, 0x00002000)] []) [(0x00002000, [0xE28BEDD1, 0x3FE3F3A0, 0xE3024582, 0xBFCC7B90,
      0xA9CB5C71, 0xBFECD4BC, 0x7505DE4B, 0x3FE904C3, 0x0558E969, 0x3FEF329C, 0x4D71ABC1, 0x3FDBC4C0])] := by
  decide +kernel

/-- V45.9. -/
theorem test_tcopyT9_V45_9 :
    gives 0xB4800006 (cell .fp64 [(2, 0x00002000)] []) [(0x00002000, [0xA2CF5039, 0x3FE8836F, 0x7E0B738A, 0x3FC63A1A,
      0, 0xBFE00000, 0x42522D1C, 0xBFEE11F6, 0x523C161D, 0x3FE491B7, 0x8C811C17, 0x3FEF838B, 0xE8584CAA, 0x3FEBB67A,
      0x748A0BF5, 0x3FD5E3A8])] := by
  decide +kernel

/-- V45.11. -/
theorem test_tgmdct_V45_11 :
    gives 0xB9000C00 (cell .fp64 [(4, 0x00001000), (3, 4)] []) [(0x00001000, [0xA3D12526, 0x3FEFD88D, 0xBC29B42C,
      0x3FB917A6, 0x25091DD6, 0x3FE44CF3, 0x6B151741, 0x3FE8BC80])] := by
  decide +kernel

/-- V45.12. -/
theorem test_tgmdctI_V45_12 :
    gives 0xB9000C01 (cell .fp64 [(4, 0x00001000), (3, 4)] []) [(0x00001000, [0xBC29B42C, 0xBFB917A6, 0xA3D12526,
      0x3FEFD88D, 0x6B151741, 0xBFE8BC80, 0x25091DD6, 0x3FE44CF3])] := by
  decide +kernel

/-- V45.14. -/
theorem test_tgrdft_V45_14 :
    gives 0xBD000C00 (cell .fp64 [(4, 0x00001000), (3, 4)] []) [(0x00001000, [0, 0x3FE00000, 0, 0x3FF00000, 0,
      0x3FF00000, 0, 0, 0, 0, 0, 0x3FF00000])] := by
  decide +kernel

/-- V45.16. -/
theorem test_tgdct_V45_16 :
    gives 0xC1000C00 (cell .fp64 [(4, 0x00001000), (3, 2)] []) [(0x00001000, [0, 0x3FE00000, 0, 0x3FD00000, 0,
      0x3FE00000, 0, 0x3FF00000, 0x667F3BCD, 0x3FE6A09E, 0, 0, 0x667F3BCD, 0x3FE6A09E, 0x667F3BCD, 0x3FE6A09E,
      0x667F3BCD, 0x3FE6A09E, 0, 0x3FE00000, 0, 0x3FF00000, 0, 0x3FF00000, 0, 0])] := by
  decide +kernel

/-- V46.1. -/
theorem test_mdctf_V46_1 :
    gives 0xC8850C00 (after 0xB9001400 (cell .fp64 [(1, 0x00000100), (2, 0x00002000), (3, 4), (4, 0x00001000), (5,
      4)] [(0x00000100, [0, 0x3FF00000, 0, 0, 0, 0, 0, 0, 0, 0, 0, 0, 0, 0, 0, 0])])) [(0x00002000, [0x39AE68C9,
      0x3FE1C73B, 0xCFF75CB0, 0xBFEF6297, 0x3C69A60E, 0x3FC8F8B8, 0x290EA1A3, 0x3FEA9B66])] := by
  decide +kernel

/-- V46.2. -/
theorem test_mdcti_V46_2 :
    gives 0xCC850C00 (after 0xB9001401 (cell .fp64 [(1, 0x00000100), (2, 0x00002000), (3, 4), (4, 0x00001000), (5,
      4)] [(0x00000100, [0, 0x3FF00000, 0, 0, 0, 0, 0, 0])])) [(0x00002000, [0x3C69A60B, 0xBFC8F8B8, 0x39AE68C9,
      0xBFE1C73B, 0x290EA1A3, 0xBFEA9B66, 0xCFF75CB1, 0xBFEF6297])] := by
  decide +kernel

/-- V46.3. -/
theorem test_mdctif_V46_3 :
    gives 0xD0850C00 (after 0xB9001401 (cell .fp64 [(1, 0x00000100), (2, 0x00002000), (3, 4), (4, 0x00001000), (5,
      4)] [(0x00000100, [0, 0x3FF00000, 0, 0, 0, 0, 0, 0])])) [(0x00002000, [0x39AE68C9, 0x3FE1C73B, 0x3C69A60B,
      0x3FC8F8B8, 0x3C69A60B, 0xBFC8F8B8, 0x39AE68C9, 0xBFE1C73B, 0x290EA1A3, 0xBFEA9B66, 0xCFF75CB1, 0xBFEF6297,
      0xCFF75CB1, 0xBFEF6297, 0x290EA1A3, 0xBFEA9B66])] := by
  decide +kernel

/-- V47.1. -/
theorem test_rdftf_V47_1 :
    gives 0xD8850C00 (after 0xBD001400 (cell .fp64 [(1, 0x00000100), (2, 0x00002000), (3, 4), (4, 0x00001000), (5,
      4)] [(0x00000100, [0, 0x3FF00000, 0, 0x40000000, 0, 0x40080000, 0, 0x40100000])])) [(0x00002000, [0, 0x40240000,
      0, 0, 0, 0xC0000000, 0, 0x40000000, 0, 0xC0000000, 0, 0])] := by
  decide +kernel

/-- V47.2. -/
theorem test_rdfti_V47_2 :
    gives 0xDC850C00 (after 0xBD001400 (cell .fp64 [(1, 0x00000100), (2, 0x00002000), (3, 4), (4, 0x00001000), (5,
      4)] [(0x00000100, [0, 0x40240000, 0, 0, 0, 0xC0000000, 0, 0x40000000, 0, 0xC0000000, 0, 0])])) [(0x00002000, [0,
      0x40100000, 0, 0x40200000, 0, 0x40280000, 0, 0x40300000])] := by
  decide +kernel

/-- V47.4. -/
theorem test_rdftrr_V47_4 :
    gives 0xE0850C00 (after 0xBD001400 (cell .fp64 [(1, 0x00000100), (2, 0x00002000), (3, 4), (4, 0x00001000), (5,
      4)] [(0x00000100, [0, 0x3FF00000, 0, 0x40000000, 0, 0x40080000, 0, 0x40100000])])) [(0x00002000, [0, 0x40240000,
      0, 0xC0000000, 0, 0xC0000000])] := by
  decide +kernel

/-- V47.5. -/
theorem test_rdftri_V47_5 :
    gives 0xE0850C01 (after 0xBD001400 (cell .fp64 [(1, 0x00000100), (2, 0x00002000), (3, 4), (4, 0x00001000), (5,
      4)] [(0x00000100, [0, 0x3FF00000, 0, 0x40000000, 0, 0x40080000, 0, 0x40100000])])) [(0x00002000, [0, 0, 0,
      0x40000000, 0, 0])] := by
  decide +kernel

/-- V48.3. -/
theorem test_dct2_V48_3 :
    gives 0xE8850C00 (after 0xC1001400 (cell .fp64 [(1, 0x00000100), (2, 0x00002000), (3, 2), (4, 0x00001000), (5,
      2)] [(0x00000100, [0, 0x3FF00000, 0, 0x40000000])])) [(0x00002000, [0, 0x40080000, 0x667F3BCC, 0xBFE6A09E])] := by
  decide +kernel

/-- V48.4. -/
theorem test_dct3_V48_4 :
    gives 0xEC850C00 (after 0xC1001400 (cell .fp64 [(1, 0x00000100), (2, 0x00002000), (3, 4), (4, 0x00001000), (5,
      4)] [(0x00000100, [0, 0, 0, 0x3FF00000, 0, 0, 0, 0])])) [(0x00002000, [0xCF328D47, 0x3FED906B, 0xA6AEA964,
      0x3FD87DE2, 0xA6AEA964, 0xBFD87DE2, 0xCF328D47, 0xBFED906B])] := by
  decide +kernel

/-- V48.8. -/
theorem test_dct1_V48_8 :
    gives 0xF0850C00 (after 0xBD001400 (cell .fp64 [(1, 0x00000100), (2, 0x00002000), (3, 3), (4, 0x00001000), (5,
      4)] [(0x00000100, [0, 0x3FF00000, 0, 0x40000000, 0, 0x40080000])])) [(0x00002000, [0, 0x40200000, 0, 0xC0000000,
      0, 0])] := by
  decide +kernel

/-- V48.11. -/
theorem test_dst1_V48_11 :
    gives 0xF4850C00 (after 0xBD001400 (cell .fp64 [(1, 0x00000100), (2, 0x00002000), (3, 3), (4, 0x00001000), (5,
      8)] [(0x00000100, [0, 0x3FF00000, 0, 0x40000000, 0, 0x40080000])])) [(0x00002000, [0x333F9DE6, 0x4023504F, 0,
      0xC0100000, 0x99FCEF34, 0x3FFA8279])] := by
  decide +kernel

/-- An impulse at 0 of length 10 in Q31 transforms to its value everywhere (R206). -/
theorem test_pfa5_impulse :
    gives 0x84854002 (cell .q31 [(1, 0x100), (2, 0x300), (5, 2)] [(0x100, [0x40000000])]) [(0x300, [0x40000000, 0,
      0x40000000, 0, 0x40000000, 0, 0x40000000, 0, 0x40000000, 0, 0x40000000, 0, 0x40000000, 0, 0x40000000, 0,
      0x40000000, 0, 0x40000000, 0])] := by
  decide +kernel

/-- An impulse at 0 of length 10 in Q31 transforms to its value everywhere (R206). -/
theorem test_pfa5I_impulse :
    gives 0x84854003 (cell .q31 [(1, 0x100), (2, 0x300), (5, 2)] [(0x100, [0x40000000])]) [(0x300, [0x40000000, 0,
      0x40000000, 0, 0x40000000, 0, 0x40000000, 0, 0x40000000, 0, 0x40000000, 0, 0x40000000, 0, 0x40000000, 0,
      0x40000000, 0, 0x40000000, 0])] := by
  decide +kernel

/-- An impulse at 0 of length 14 in Q31 transforms to its value everywhere (R206). -/
theorem test_pfa7_impulse :
    gives 0x84854004 (cell .q31 [(1, 0x100), (2, 0x300), (5, 2)] [(0x100, [0x40000000])]) [(0x300, [0x40000000, 0,
      0x40000000, 0, 0x40000000, 0, 0x40000000, 0, 0x40000000, 0, 0x40000000, 0, 0x40000000, 0, 0x40000000, 0,
      0x40000000, 0, 0x40000000, 0, 0x40000000, 0, 0x40000000, 0, 0x40000000, 0, 0x40000000, 0])] := by
  decide +kernel

/-- An impulse at 0 of length 14 in Q31 transforms to its value everywhere (R206). -/
theorem test_pfa7I_impulse :
    gives 0x84854005 (cell .q31 [(1, 0x100), (2, 0x300), (5, 2)] [(0x100, [0x40000000])]) [(0x300, [0x40000000, 0,
      0x40000000, 0, 0x40000000, 0, 0x40000000, 0, 0x40000000, 0, 0x40000000, 0, 0x40000000, 0, 0x40000000, 0,
      0x40000000, 0, 0x40000000, 0, 0x40000000, 0, 0x40000000, 0, 0x40000000, 0, 0x40000000, 0])] := by
  decide +kernel

/-- An impulse at 0 of length 18 in Q31 transforms to its value everywhere (R206). -/
theorem test_pfa9_impulse :
    gives 0x84854006 (cell .q31 [(1, 0x100), (2, 0x300), (5, 2)] [(0x100, [0x40000000])]) [(0x300, [0x40000000, 0,
      0x40000000, 0, 0x40000000, 0, 0x40000000, 0, 0x40000000, 0, 0x40000000, 0, 0x40000000, 0, 0x40000000, 0,
      0x40000000, 0, 0x40000000, 0, 0x40000000, 0, 0x40000000, 0, 0x40000000, 0, 0x40000000, 0, 0x40000000, 0,
      0x40000000, 0, 0x40000000, 0, 0x40000000, 0])] := by
  decide +kernel

/-- An impulse at 0 of length 18 in Q31 transforms to its value everywhere (R206). -/
theorem test_pfa9I_impulse :
    gives 0x84854007 (cell .q31 [(1, 0x100), (2, 0x300), (5, 2)] [(0x100, [0x40000000])]) [(0x300, [0x40000000, 0,
      0x40000000, 0, 0x40000000, 0, 0x40000000, 0, 0x40000000, 0, 0x40000000, 0, 0x40000000, 0, 0x40000000, 0,
      0x40000000, 0, 0x40000000, 0, 0x40000000, 0, 0x40000000, 0, 0x40000000, 0, 0x40000000, 0, 0x40000000, 0,
      0x40000000, 0, 0x40000000, 0, 0x40000000, 0])] := by
  decide +kernel

/-- An impulse at 0 of length 30 in Q31 transforms to its value everywhere (R206). -/
theorem test_pfa15_impulse :
    gives 0x84854008 (cell .q31 [(1, 0x100), (2, 0x300), (5, 2)] [(0x100, [0x40000000])]) [(0x300, [0x40000000, 0,
      0x40000000, 0, 0x40000000, 0, 0x40000000, 0, 0x40000000, 0, 0x40000000, 0, 0x40000000, 0, 0x40000000, 0,
      0x40000000, 0, 0x40000000, 0, 0x40000000, 0, 0x40000000, 0, 0x40000000, 0, 0x40000000, 0, 0x40000000, 0,
      0x40000000, 0, 0x40000000, 0, 0x40000000, 0, 0x40000000, 0, 0x40000000, 0, 0x40000000, 0, 0x40000000, 0,
      0x40000000, 0, 0x40000000, 0, 0x40000000, 0, 0x40000000, 0, 0x40000000, 0, 0x40000000, 0, 0x40000000, 0,
      0x40000000, 0])] := by
  decide +kernel

/-- An impulse at 0 of length 30 in Q31 transforms to its value everywhere (R206). -/
theorem test_pfa15I_impulse :
    gives 0x84854009 (cell .q31 [(1, 0x100), (2, 0x300), (5, 2)] [(0x100, [0x40000000])]) [(0x300, [0x40000000, 0,
      0x40000000, 0, 0x40000000, 0, 0x40000000, 0, 0x40000000, 0, 0x40000000, 0, 0x40000000, 0, 0x40000000, 0,
      0x40000000, 0, 0x40000000, 0, 0x40000000, 0, 0x40000000, 0, 0x40000000, 0, 0x40000000, 0, 0x40000000, 0,
      0x40000000, 0, 0x40000000, 0, 0x40000000, 0, 0x40000000, 0, 0x40000000, 0, 0x40000000, 0, 0x40000000, 0,
      0x40000000, 0, 0x40000000, 0, 0x40000000, 0, 0x40000000, 0, 0x40000000, 0, 0x40000000, 0, 0x40000000, 0,
      0x40000000, 0])] := by
  decide +kernel

/-! ## Hypotheses that can be met

One theorem for each obligation with hypotheses: concrete states and operands that meet all of them, clause by clause, at
the boundaries of their ranges. -/

/-- Does the outcome answer exactly the next state `t`? -/
def answers (o : Host.Outcome State Fault Refusal) (t : State) : Bool :=
  match o with
  | .next u => u == t
  | _ => false

theorem of_answers {o : Host.Outcome State Fault Refusal} {t : State} (h : answers o t = true) : o = .next t := by
  unfold answers at h
  split at h
  · rw [eq_of_beq h]
  · cases h

/-- A running unit whose x1 to x5 are 0x100, 0x400, 1, 0x700 and 8, and whose DMEM is blank. -/
def wit (p : Prec) : State := cell p [(1, 0x100), (2, 0x400), (3, 1), (4, 0x700), (5, 8)] []

/-- The same with the highest word of DMEM as first operand. -/
def witTop (p : Prec) : State := cell p [(1, 0xFFFC), (2, 0xFFF8), (3, 1), (4, 0xFFFE), (5, 2)] []

/-- A smaller unit: MAXN = 16, FP32 only. -/
def witSmall : State := { wit .fp32 with params := ⟨4, 12, 4, false, false⟩ }

theorem witness_DecodeOfEncodeIsTheInstruction : (Instr.tgenP 3).wellFormed = true ∧ (Instr.tcopyP 15 31).wellFormed = true := by
  decide

theorem witness_IllegalWordsAreTheseAndFault :
    (wit .fp32).fetch = .ok 0#32 ∧ decode 0#32 = .error .unassignedOpcode := by
  decide +kernel

theorem witness_StepRunsTheDecodedInstruction :
    (let s := { wit .fp32 with imem := [(0, 0x04400100)] };
      s.params.legal = true ∧ s.run = .running ∧ s.pc.toNat < s.params.imemWords ∧
        decode (Store.read s.imem s.pc.toNat) = .ok (.addi 1 0 256) ∧ s.turns = []) ∧
    (let s := { wit .fp32 with pc := 1023, imem := [(1023, 0x04400100)], turns := [.sequencer, .sequencer] };
      s.params.legal = true ∧ s.run = .running ∧ s.pc.toNat < s.params.imemWords ∧
        decode (Store.read s.imem s.pc.toNat) = .ok (.addi 1 0 256) ∧ s.turns = .sequencer :: [.sequencer]) := by
  decide +kernel

/-- Without a pending turn and with a sequencer turn: a pc outside IMEM, the illegal word 0 and an idle unit. -/
theorem witness_StepOfOtherTurns : ∀ turns ∈ [[], [Turn.sequencer, .sequencer]],
    (let s := { wit .fp32 with pc := 1024, turns := turns };
      s.params.legal = true ∧ s.run = .running ∧ s.turns = turns ∧ s.params.imemWords ≤ s.pc.toNat) ∧
    (let s := { wit .fp32 with turns := turns };
      s.run = .running ∧ s.turns = turns ∧ s.pc.toNat < s.params.imemWords ∧
        decode (Store.read s.imem s.pc.toNat) = .error .unassignedOpcode) ∧
    (let s := { State.reset with turns := turns }; s.run ≠ .running ∧ s.turns = turns) ∧
    { State.reset with turns := .host (.read 4 0x0C) :: turns }.turns = .host (.read 4 0x0C) :: turns := by
  decide +kernel

theorem witness_EveryStepHasANextState : State.reset.params.legal = true ∧ witSmall.params.legal = true := by
  decide

/-- The three cases of a load or store address: 0xFFFD is misaligned, 0x10000 the first out of range, 0xFFFC the last in. -/
theorem witness_LoadAndStoreWord :
    let ea := fun imm18 : BitVec 18 => ((((witTop .fp32).regNat 1 : Int) + imm18.toInt) % 4294967296).toNat
    (ea 1 % 4 ≠ 0) ∧ (ea 4 % 4 = 0 ∧ (witTop .fp32).params.dmemBytes < ea 4 + 4) ∧
      (ea 0 % 4 = 0 ∧ ea 0 + 4 ≤ (witTop .fp32).params.dmemBytes) := by
  decide +kernel

theorem witness_CsrReadsReturnTheRegister :
    State.reset.params.legal = true ∧ (∀ n ∈ [0x07#8, 0x0F#8, 0x15#8, 0xFF#8],
      n.toNat ∉ [0, 1, 2, 3, 4, 5, 6, 8, 9, 10, 11, 12, 13, 14, 16, 17, 18, 19, 20]) := by
  decide

theorem witness_CsrWritesTakeEffectOrFault :
    let v := fun (s : State) (x : Word) => ({ s with regs := s.regs.set 1 x } : State).reg 1
    (v State.reset 4).toNat % 4 = 0 ∧ ((v State.reset 5).toNat % 4 = 1 ∧ State.reset.params.hasF64 = true) ∧
    ((v State.reset 6).toNat % 4 = 2 ∧ State.reset.params.hasQ31 = true) ∧ (v State.reset 7).toNat % 4 = 3 ∧
    ((v witSmall 5).toNat % 4 = 1 ∧ witSmall.params.hasF64 = false) ∧
    ((v witSmall 6).toNat % 4 = 2 ∧ witSmall.params.hasQ31 = false) ∧
    (0x03#8) ∉ [0x02#8, 0x08#8, 0x09#8, 0x0B#8, 0x0C#8, 0x0D#8, 0x0E#8] := by
  decide +kernel

theorem witness_ScalefIsScaleRounded :
    fmt64.decode 0x7FF8000000000000 = .nan ∧ fmt64.decode 0xFFF0000000000000 = .inf true ∧
    fmt64.decode 0x8000000000000000 = .fin true 0 ∧ 0x8000000000000000 < 2 ^ 64 ∧
    (fmt64.decode 0x47EFFFFFF0000000).toInt?.isSome ∧ 0x47EFFFFFF0000000 < 2 ^ 64 ∧ (fmt64.decode 1).toInt? = some 1 := by
  decide +kernel

/-- A misaligned load faults. -/
theorem witness_FaultingInstructionChangesOnlyTheRecord :
    (wit .fp32).run = .running ∧ exec (.lw 6 1 2) (wit .fp32) = .next ((wit .fp32).raise ⟨.misaligned, 0x102⟩) ∧
      ((wit .fp32).raise ⟨.misaligned, 0x102⟩).run = .faulted :=
  ⟨by decide +kernel, of_answers (by decide +kernel), by decide +kernel⟩

/-- HALT, a jump and a store complete. -/
theorem witness_CompletingInstructionRetires :
    (wit .fp32).run = .running ∧ ∀ i ∈ [Instr.halt, .j 5, .sw 5 1 0],
      ∃ t, exec i (wit .fp32) = .next t ∧ t.run ≠ .faulted := by
  refine ⟨by decide, fun i hi => ?_⟩
  fin_cases hi <;> exact ⟨_, rfl, by decide +kernel⟩

theorem witness_OnlyNineInstructionsWriteRegisters :
    (exec (.addi 7 1 1) (wit .fp32) = .next ((wit .fp32).setReg 7 0x101).retire ∧
      destination? (.addi 7 1 1) = some 7 ∧ (6 : Reg) ≠ 7) ∧
    (exec (.j 1) (wit .fp32) = .next (wit .fp32).retire ∧ destination? (.j 1) = none) :=
  ⟨⟨of_answers (by decide +kernel), rfl, by decide⟩, of_answers (by decide +kernel), rfl⟩

theorem witness_InstructionsLeaveTheRestUnchanged :
    exec (.bne 0 0 5) (wit .q31) = .next (wit .q31).retire ∧ ∀ rs1 n, Instr.bne 0 0 5 ≠ .csrw rs1 n :=
  ⟨of_answers (by decide +kernel), nofun⟩

theorem witness_TablesOnlyGrowAndAreCounted :
    let s := { wit .fp32 with tvalidF32 := 0x10, tvalidQ31 := 8, tgencnt := 2 }
    exec (.tgenP 3) s = .next { s with tvalidF32 := 0x18, tgencnt := 3, pc := 1, instret := 1 } ∧
      (s.tvalid .q31).getLsbD 3 = true ∧ Prec.q31 ≠ s.prec :=
  ⟨of_answers (by decide +kernel), by decide +kernel, by decide +kernel⟩


/-! ### Operands in order -/

theorem linReady_iff (s : State) (align : Nat) (l : Lin) :
    LinReady s align l ↔ (l.base % align = 0 ∧ ∀ j, j < l.n → l.base + j * l.stride + l.size ≤ s.params.dmemBytes) :=
  Iff.rfl

theorem viewsReady_iff (s : State) (n src dst : Nat) :
    ViewsReady s n src dst ↔ (s.bcount ≠ 0 ∧ src % s.prec.es = 0 ∧ dst % s.prec.es = 0 ∧
      (∀ b, b < s.bcount.toNat → ∀ j, j < n →
        src + (b * s.bstride.toNat + j * s.istride.toNat) * s.prec.cs + s.prec.cs ≤ s.params.dmemBytes) ∧
      ∀ b, b < s.bcount.toNat → ∀ j, j < n →
        dst + (b * s.bstride.toNat + j * s.istride.toNat) * s.prec.cs + s.prec.cs ≤ s.params.dmemBytes) :=
  Iff.rfl

theorem witness_CmulvMultipliesTheVectors : ∀ s ∈ [wit .fp32, wit .fp64, wit .q31, { wit .fp64 with dmem := [(0x100, 7)] }],
    s.regNat 3 ≠ 0 ∧ (∀ r ∈ [1, 2, 4], LinReady s s.prec.es (complexLin s.prec (s.regNat r) (s.regNat 3))) ∧
      Memory.wf s.dmem = true := by
  simp only [linReady_iff]
  decide +kernel

/-- Two operands apart, and the same operand twice. -/
theorem witness_BfvAddsAndSubtracts : ∀ s ∈ [wit .fp32, wit .q31],
    s.regNat 3 ≠ 0 ∧ (∀ r ∈ [1, 2], LinReady s s.prec.es (complexLin s.prec (s.regNat r) (s.regNat 3))) ∧
      s.regNat 1 + s.regNat 3 * s.prec.cs ≤ s.regNat 2 := by
  simp only [linReady_iff]
  decide +kernel

/-- B one sample above A, two samples each: A[1] and B[1] are written by no later write; B[0] is, by A[1]. -/
theorem witness_BfvAddsAndSubtracts_overlap :
    let s := cell .fp32 [(1, 0x100), (2, 0x108), (3, 2)] []
    let at' := fun (r : Reg) (j e : Nat) => s.regNat r + j * s.prec.cs + e
    (s.regNat 3 ≠ 0 ∧ 1 < s.regNat 3 ∧ ∀ r ∈ [1, 2], LinReady s s.prec.es (complexLin s.prec (s.regNat r) (s.regNat 3))) ∧
    (∀ k e', 1 ≤ k → k < s.regNat 3 → e' ∈ [0, s.prec.es] → at' 2 k e' ≠ at' 1 1 0) ∧
    (∀ k e', 1 < k → k < s.regNat 3 → e' ∈ [0, s.prec.es] → at' 1 k e' ≠ at' 2 1 4) ∧ at' 1 1 0 = at' 2 0 0 := by
  simp only [linReady_iff]
  refine ⟨by decide +kernel, fun k e' h1 _ _ h => ?_, fun k e' h1 h2 _ _ => ?_, by decide +kernel⟩
  · change 0x108 + k * 8 + e' = 0x100 + 1 * 8 + 0 at h
    omega
  · change k < 2 at h2
    omega

/-- The last element and the last sample of DMEM are operands in order. -/
theorem witness_ScalevMultipliesByScale : ∀ s ∈ [wit .fp32, wit .fp64, wit .q31],
    s.regNat 3 ≠ 0 ∧ ScaleFinite s ∧ (∀ r ∈ [1, 2], LinReady s s.prec.es (realLin s.prec (s.regNat r) (s.regNat 3))) := by
  simp only [linReady_iff, ScaleFinite]
  decide +kernel

theorem witness_CopyvMovesTheBytes :
    let s := cell .fp32 [(1, 0xFFF8), (2, 0xFFF0), (3, 1)] []
    s.regNat 3 ≠ 0 ∧ LinReady s s.prec.es (complexLin s.prec (s.regNat 2) (s.regNat 3)) ∧
      LinReady s s.prec.es (complexLin s.prec (s.regNat 1) (s.regNat 3)) := by
  simp only [linReady_iff]
  decide +kernel

/-- lg = 2, 3 and 4 of SRCOMB and FFTNS; two batches. -/
theorem witness_NoShuffleTransformsComplete : ∀ s ∈ [wit .fp32, wit .fp64, { wit .q31 with bcount := 2, bstride := 16 }],
    ∀ lg ∈ [2#5, 3, 4], 2 ≤ lg.toNat ∧ lg.toNat ≤ 21 ∧ lg.toNat ≤ s.params.maxLog2 ∧
      ViewsReady s (2 ^ lg.toNat) (s.regNat 1) (s.regNat 1) ∧ ViewsReady s 2 (s.regNat 2) (s.regNat 2) := by
  simp only [viewsReady_iff]
  decide +kernel

/-- The first and the last group of COMB_4, COMB_8 and COMB_16; m = 0 of the recursion. -/
theorem witness_NoShuffleTransformsComplete_kernels :
    ∀ e ∈ [(2, 0), (3, 0), (3, 1), (4, 0), (4, 3)], 2 ≤ e.1 ∧ e.2 < 2 ^ e.1 / 4 := by
  decide

/-- lg = 0 and 4; l = 8. -/
theorem witness_FftInstructionsComplete : ∀ s ∈ [wit .fp32, wit .fp64, { wit .q31 with bcount := 2, bstride := 16 }],
    (∀ lg ∈ [0#5, 4], lg.toNat ≤ 21 ∧ lg.toNat ≤ s.params.maxLog2 ∧ ViewsReady s (2 ^ lg.toNat) (s.regNat 1) (s.regNat 2)) ∧
      inS (s.regNat 5) = true ∧ s.regNat 5 ≤ s.params.maxN ∧ ViewsReady s (s.regNat 5) (s.regNat 1) (s.regNat 2) := by
  simp only [viewsReady_iff]
  decide +kernel

/-- Every case of the canonical function: the powers 1 and 2^21, a codelet, 15 and a product. -/
theorem witness_FftInstructionsComplete_kernels :
    (∀ l ∈ [1, 2097152, 9, 15, 18], inS l = true ∧ l ≤ 2 ^ 21) ∧ (2097152 = 2 ^ 21 ∧ 1 = 2 ^ 0) ∧ 9 ∈ [3, 5, 7, 9] ∧
    (isPow2 18 = false ∧ 18 ∉ [3, 5, 7, 9, 15]) := by
  decide +kernel

/-- Every kind of slot, at the bounds of t; the length 18 is no power of two. -/
theorem witness_FftInstructionsComplete_slots :
    (∀ x ∈ [Slot.pow 3, .pow 21, .t53, .t7, .t9], x ∈ [.t53, .t7, .t9] ∨ ∃ t, 3 ≤ t ∧ t ≤ 21 ∧ x = .pow t) ∧
    (∀ lg, 18 ≠ 2 ^ lg) ∧ inS 7 = true := by
  refine ⟨fun x hx => ?_, fun lg h => ?_, by decide +kernel⟩
  · fin_cases hx
    · exact .inr ⟨3, by decide, by decide, rfl⟩
    · exact .inr ⟨21, by decide, by decide, rfl⟩
    all_goals exact .inl (by decide)
  · have : 3 ∣ 2 ^ lg := h ▸ (by decide)
    exact absurd (Nat.prime_three.dvd_of_dvd_pow this) (by decide)

/-- Two batches, and ISTRIDE = 0, where only the last point of a batch keeps its value. -/
theorem witness_OddCodeletsComplete :
    ∀ s ∈ [wit .fp32, wit .fp64, { wit .q31 with bcount := 2, bstride := 16 }, { wit .fp32 with bcount := 3, istride := 0 }],
    ∀ n ∈ [3, 5, 7, 9, 15], ViewsReady s n (s.regNat 1) (s.regNat 2) := by
  simp only [viewsReady_iff]
  decide +kernel

/-- The first, the middle and the last output of the codelet of nine points; at m = k = 3 the exponent is 0. -/
theorem witness_OddCodeletsComplete_kernels : 9 ∈ [3, 5, 7, 9] ∧
    ∀ k ∈ [1, 3, 4], 1 ≤ k ∧ k ≤ (9 - 1) / 2 ∧ ∀ m ∈ [2, 3, 4], 2 ≤ m ∧ m ≤ (9 - 1) / 2 := by
  decide

/-- N2 = 2 with every N1; one batch, two batches and ISTRIDE = 0. -/
theorem witness_PrimeFactorTransformsComplete :
    let t := { wit .fp32 with regs := (wit .fp32).regs.set 5 2 }
    ∀ s ∈ [t, { t with bcount := 2, bstride := 32 }, { t with bcount := 3, istride := 0 }], ∀ n1 ∈ [3, 5, 7, 9, 15], 2 ≤ s.regNat 5 ∧ Nat.gcd n1 (s.regNat 5) = 1 ∧ inS (s.regNat 5) = true ∧
      n1 * s.regNat 5 ≤ 2 ^ 21 ∧ n1 * s.regNat 5 ≤ s.params.maxN ∧ ViewsReady s (n1 * s.regNat 5) (s.regNat 1) (s.regNat 2) := by
  simp only [viewsReady_iff]
  decide +kernel

/-- The coprime factors 1 and 1, 7 and 12, with the first and the last row and column. -/
theorem witness_PrimeFactorTransformsComplete_kernels : ∀ e ∈ [(1, 1), (7, 12)],
    inS e.1 = true ∧ inS e.2 = true ∧ Nat.gcd e.1 e.2 = 1 ∧ ∀ k1 ∈ [0, e.1 - 1], k1 < e.1 ∧ ∀ k2 ∈ [0, e.2 - 1], k2 < e.2 := by
  decide +kernel

/-- What `BatchRuns` asks of a point: with ISTRIDE = 1 no later point has the address of point 0, with ISTRIDE = 0 the last
point has none after it. -/
theorem witness_BatchRuns :
    (0 < 2 ∧ ∀ k, 0 < k → k < 2 → 0x100 + (1 * 16 + k * 1) * 8 ≠ 0x100 + (1 * 16 + 0 * 1) * 8) ∧
    (2 < 3 ∧ ∀ k, 2 < k → k < 3 → 0x100 + (1 * 0 + k * 0) * 8 ≠ 0x100 + (1 * 0 + 2 * 0) * 8) := by
  refine ⟨⟨by decide, fun k h1 h2 => ?_⟩, by decide, fun k h1 h2 => ?_⟩ <;> omega

/-- BCOUNT = 0; lg = 1, 22 and, with MAXN = 16, 5; lengths 0, 11 and 20; N2 = 0, 6, 11 and 8. -/
theorem witness_BatchedInstructionsFaultInOrder :
    let x := fun (s : State) (v : Word) => ({ s with regs := s.regs.set 5 v } : State).regNat 5
    ({ wit .fp32 with bcount := 0 } : State).bcount = 0 ∧ witSmall.bcount ≠ 0 ∧ (1#5).toNat < 2 ∧ 21 < (22#5).toNat ∧
    (2 ≤ (5#5).toNat ∧ (5#5).toNat ≤ 21 ∧ witSmall.params.maxLog2 < (5#5).toNat) ∧
    (x witSmall 0 = 0 ∧ (x witSmall 11 ≠ 0 ∧ ¬inS (x witSmall 11) = true) ∧
      (inS (x witSmall 20) = true ∧ witSmall.params.maxN < x witSmall 20)) ∧
    (x witSmall 6 ≠ 0 ∧ Nat.gcd 3 (x witSmall 6) ≠ 1) ∧ (Nat.gcd 3 (x witSmall 11) = 1 ∧ inS (x witSmall 11) = false) ∧
    (2 ≤ x witSmall 8 ∧ Nat.gcd 3 (x witSmall 8) = 1 ∧ inS (x witSmall 8) = true ∧ 3 * x witSmall 8 ≤ 2 ^ 21 ∧
      witSmall.params.maxN < 3 * x witSmall 8) := by
  decide +kernel

/-- A base that is misaligned, and a base whose first point leaves DMEM, are the lowest offending addresses. -/
theorem viewFaults_hypotheses_met (s : State) (n base : Nat) (hn : 0 < n) (hb : 0 < s.bcount.toNat) :
    (base % s.prec.es ≠ 0 → IsLowest (fun x => x % s.prec.es ≠ 0 ∧ (x = base ∨ x = base)) (some base)) ∧
    (s.params.dmemBytes < base + s.prec.cs → IsLowest (fun x => ∃ e, (e = base ∨ e = base) ∧ ∃ b < s.bcount.toNat, ∃ j < n,
      x = e + (b * s.bstride.toNat + j * s.istride.toNat) * s.prec.cs ∧ s.params.dmemBytes < x + s.prec.cs) (some base)) := by
  refine ⟨fun h => ⟨⟨h, .inl rfl⟩, ?_⟩, fun h => ⟨⟨base, .inl rfl, 0, hb, 0, hn, by simp, h⟩, ?_⟩⟩
  · rintro y ⟨-, rfl | rfl⟩ <;> exact Nat.le_refl _
  · rintro y ⟨e, rfl | rfl, b, -, j, -, rfl, -⟩ <;> exact Nat.le_add_right _ _

/-- The base 0xFFFC in binary32: aligned, its first sample leaves DMEM. The base 0xFFFE: misaligned. -/
theorem witness_BatchedInstructionsCheckTheirViews :
    let s := witTop .fp32
    s.bcount ≠ 0 ∧ inS (s.regNat 5) = true ∧ s.regNat 5 ≤ s.params.maxN ∧ 2 ≤ s.regNat 5 ∧ Nat.gcd 3 (s.regNat 5) = 1 ∧
    IsLowest (fun x => x % s.prec.es ≠ 0 ∧ (x = s.regNat 4 ∨ x = s.regNat 4)) (some 0xFFFE) ∧ s.regNat 1 % s.prec.es = 0 ∧
    IsLowest (fun x => ∃ e, (e = s.regNat 1 ∨ e = s.regNat 1) ∧ ∃ b < s.bcount.toNat, ∃ j < 2,
      x = e + (b * s.bstride.toNat + j * s.istride.toNat) * s.prec.cs ∧ s.params.dmemBytes < x + s.prec.cs) (some 0xFFFC) :=
  ⟨by decide +kernel, by decide +kernel, by decide +kernel, by decide +kernel, by decide +kernel,
    (viewFaults_hypotheses_met (witTop .fp32) 2 ((witTop .fp32).regNat 4) (by decide) (by decide +kernel)).1 (by decide +kernel),
    by decide +kernel,
    (viewFaults_hypotheses_met (witTop .fp32) 2 ((witTop .fp32).regNat 1) (by decide) (by decide +kernel)).2 (by decide +kernel)⟩

/-- The powers 1 and 2^21, and for each N1 a length with its canonical factors. -/
theorem witness_FftlIsTheMatchingTransform :
    State.reset.params.legal = true ∧ ((1#32).toNat = 2 ^ (0#5).toNat ∧ (0x200000#32).toNat = 2 ^ (21#5).toNat ∧ (21#5).toNat ≤ 21) ∧
    (∀ e ∈ [(6, 3, 2), (10, 5, 2), (126, 7, 18), (18, 9, 2)],
      inS e.1 = true ∧ isPow2 e.1 = false ∧ isCodelet e.1 = false ∧ canon e.1 = some (e.2.1, e.2.2)) :=
  ⟨by decide, ⟨by decide, by norm_num, by decide⟩, by decide +kernel⟩

/-! ### Maps -/

/-- lg = 0 and 4, the latter the largest length of the smaller unit. -/
theorem witness_PowerOfTwoMapsAreWritten : ∀ s ∈ [wit .fp32, witSmall], ∀ lg ∈ [0#5, 4],
    lg.toNat ≤ 21 ∧ lg.toNat ≤ s.params.maxLog2 ∧ LinReady s 4 (mapLin (s.regNat 1) (2 ^ lg.toNat)) := by
  simp only [linReady_iff]
  decide +kernel

/-- N1 = 1 with N2 = 8, and N = 8. -/
theorem witness_FactorAndNegationMapsAreWritten :
    let s := wit .q31
    s.params.legal = true ∧ s.regNat 3 ≠ 0 ∧ s.regNat 5 ≠ 0 ∧ Nat.gcd (s.regNat 3) (s.regNat 5) = 1 ∧
      s.regNat 3 * s.regNat 5 ≤ s.params.maxN ∧ LinReady s 4 (mapLin (s.regNat 1) (s.regNat 3 * s.regNat 5)) ∧
      s.regNat 5 ≤ s.params.maxN ∧ LinReady s 4 (mapLin (s.regNat 1) (s.regNat 5)) := by
  simp only [linReady_iff]
  decide +kernel

/-- A map of eight zeros: every access lies in DMEM, and entry 7 is the last of its value. -/
theorem witness_MapsAreApplied :
    let s := wit .fp32
    let word := fun base i => s.dmem.readLE (base + 4 * i) 4
    let d := s.regNat 1
    let a := s.regNat 2
    let c := s.regNat 5
    c ≠ 0 ∧ d % s.prec.es = 0 ∧ a % s.prec.es = 0 ∧ LinReady s 4 (mapLin (s.regNat 4) c) ∧
      (∀ j, j < c → d + j * s.prec.cs + s.prec.cs ≤ s.params.dmemBytes) ∧
      (∀ i, i < c → a + word (s.regNat 4) i * s.prec.cs + s.prec.cs ≤ s.params.dmemBytes) ∧
      (∀ i, i < c → d + 4 * word a i + 4 ≤ s.params.dmemBytes) ∧ ∀ j, j < c → ¬7 < j := by
  simp only [linReady_iff]
  decide +kernel

/-- The coprime pairs 1, 1 and 3, 5. -/
theorem witness_GeneratedMapsAreBijections : ∀ e ∈ [(1, 1), (3, 5)], 0 < e.1 ∧ 0 < e.2 ∧ Nat.gcd e.1 e.2 = 1 := by decide

/-- A state with a misaligned base, and one with aligned bases and an access outside DMEM, meet the hypotheses of
`OperandFaults`. -/
theorem operandFaults_hypotheses_met {s t : State} {align a b : Nat} {ls ms : List Lin}
    (h : checkLins s align ls = .error ⟨.misaligned, a⟩) (h' : checkLins t align ms = .error ⟨.dmemRange, b⟩) :
    IsLowest (fun x => x % align ≠ 0 ∧ ∃ l ∈ ls, x = l.base) (some a) ∧ (∀ l ∈ ms, l.base % align = 0) ∧
    IsLowest (fun x => ∃ l ∈ ms, ∃ j < l.n, x = l.base + j * l.stride ∧ t.params.dmemBytes < x + l.size) (some b) := by
  obtain ⟨-, h⟩ | ⟨-, h, -⟩ := checkLins_eq_error h
  · obtain ⟨h', -⟩ | ⟨ha, -, h'⟩ := checkLins_eq_error h'
    · cases h'
    · refine ⟨h.congr fun x => ?_, ha, h'.congr fun x => ?_⟩
      · constructor
        · rintro ⟨l, hl, rfl, hx⟩; exact ⟨hx, l, hl, rfl⟩
        · rintro ⟨hx, l, hl, rfl⟩; exact ⟨l, hl, rfl, hx⟩
      · simp
  · cases h

/-- c = 0; SCALE infinite; the base 0xFFFE misaligned; the base 0xFFFC with a sample that leaves DMEM. -/
theorem witness_VectorInstructionsFaultInOrder :
    (cell .fp32 [] []).regNat 3 = 0 ∧ ((wit .fp32).regNat 3 ≠ 0 ∧ ¬ScaleFinite { wit .fp32 with scaleHi := 0x7FF00000 }) ∧
    ((witTop .fp32).regNat 3 ≠ 0 ∧ ScaleFinite (witTop .fp32)) ∧
    (∀ ls ∈ [[4, 1, 2], [2, 4], [4, 4]], checkLins (witTop .fp32) 4 (ls.map fun r =>
        complexLin .fp32 ((witTop .fp32).regNat r) 1) = .error ⟨.misaligned, 0xFFFE⟩) ∧
    (∀ ls ∈ [[1, 2, 2], [2, 1]], checkLins (witTop .fp32) 4 (ls.map fun r =>
        complexLin .fp32 ((witTop .fp32).regNat r) 1) = .error ⟨.dmemRange, 0xFFFC⟩) ∧
    IsLowest (fun x => x % 4 ≠ 0 ∧ ∃ l ∈ [realLin .fp32 0xFFFE 3, realLin .fp32 0xFFFC 3], x = l.base) (some 0xFFFE) ∧
    IsLowest (fun x => ∃ l ∈ [realLin .fp32 0xFFFC 3], ∃ j < l.n,
      x = l.base + j * l.stride ∧ (witTop .fp32).params.dmemBytes < x + l.size) (some 0x10000) := by
  have h := operandFaults_hypotheses_met (s := witTop .fp32) (t := witTop .fp32) (align := 4)
    (ls := [realLin .fp32 0xFFFE 3, realLin .fp32 0xFFFC 3]) (ms := [realLin .fp32 0xFFFC 3]) rfl rfl
  refine ⟨by decide +kernel, by simp only [ScaleFinite]; decide +kernel, by simp only [ScaleFinite]; decide +kernel, ?_, ?_,
    h.1, h.2.2⟩
  · intro ls hl; fin_cases hl <;> rfl
  · intro ls hl; fin_cases hl <;> rfl

/-- lg = 22 and, with MAXN = 16, 5; N1 = 0; N1 = N2 = 8; N1·N2 = 17; N = 0 and 17; and of a map instruction the misaligned
map 0xFFFE, the misaligned target 0x102, the map that leaves DMEM at 0x10000, and the sample that leaves it at 0xFFFC. -/
theorem witness_MapInstructionsFaultInOrder :
    21 < (22#5).toNat ∧ ((5#5).toNat ≤ 21 ∧ witSmall.params.maxLog2 < (5#5).toNat) ∧
    (let n := fun v : Word => ({ witSmall with regs := witSmall.regs.set 3 v } : State).regNat 3;
      n 0 = 0 ∧ (n 8 ≠ 0 ∧ Nat.gcd (n 8) (n 8) ≠ 1) ∧ (Nat.gcd (n 1) (n 17) = 1 ∧ witSmall.params.maxN < n 1 * n 17) ∧
        (n 1 ≠ 0 ∧ n 1 ≤ witSmall.params.maxN)) ∧
    IsLowest (fun x => x % 4 ≠ 0 ∧ ∃ l ∈ [mapLin 0xFFFE 4], x = l.base) (some 0xFFFE) ∧
    IsLowest (fun x => ∃ l ∈ [mapLin 0xFFFC 4], ∃ j < l.n,
      x = l.base + j * l.stride ∧ (wit .fp32).params.dmemBytes < x + l.size) (some 0x10000) ∧
    IsLowest (fun x => (x = 0xFFFE ∧ x % 4 ≠ 0) ∨ ((x = 0x100 ∨ x = 0x102) ∧ x % 4 ≠ 0)) (some 0x102) ∧
    IsLowest (fun x => ∃ j < 2, x = 0xFFFC + 4 * j ∧ (wit .fp32).params.dmemBytes < x + 4) (some 0x10000) ∧
    IsLowest (fun x => (∃ j < 1, x = 0x100 + j * 8 ∧ (wit .fp32).params.dmemBytes < x + 8) ∨
      ∃ j < 1, x = 0xFFFC + (wit .fp32).dmem.readLE (0x700 + 4 * j) 4 * 8 ∧ (wit .fp32).params.dmemBytes < x + 8)
      (some 0xFFFC) := by
  have hd : (wit .fp32).params.dmemBytes = 65536 := by decide +kernel
  have hz : (wit .fp32).dmem.readLE 0x700 4 = 0 := by decide +kernel
  have h := operandFaults_hypotheses_met (s := wit .fp32) (t := wit .fp32) (align := 4) (ls := [mapLin 0xFFFE 4])
    (ms := [mapLin 0xFFFC 4]) rfl rfl
  refine ⟨by decide, by decide +kernel, by decide +kernel, h.1, h.2.2, ?_, ?_, ?_⟩
  · exact ⟨by decide, by rintro y (⟨rfl, -⟩ | ⟨rfl | rfl, h⟩) <;> simp_all⟩
  · rw [hd]
    refine ⟨⟨1, by decide, rfl, by decide⟩, ?_⟩
    rintro y ⟨j, hj, rfl, hy⟩
    omega
  · rw [hd]
    refine ⟨.inr ⟨0, by decide, by simp [hz], by decide⟩, ?_⟩
    rintro y (⟨j, hj, rfl, hy⟩ | ⟨j, hj, rfl, hy⟩)
    · omega
    · omega

/-! ### Tables and real transforms -/

/-- lg = 3 and lg = 4 = MAXLOG2. -/
theorem witness_TgenValidatesItsSlot : ∀ lg ∈ [3#5, 4],
    3 ≤ lg.toNat ∧ lg.toNat ≤ 21 ∧ lg.toNat ≤ witSmall.params.maxLog2 := by
  decide

theorem witness_TcopyCopiesItsSlot : ∀ lg ∈ [3#5, 4], 3 ≤ lg.toNat ∧ lg.toNat ≤ 21 ∧ lg.toNat ≤ witSmall.params.maxLog2 ∧
    ∀ count ∈ [2 ^ lg.toNat / 4 + 1, 6, 8],
      LinReady witSmall witSmall.prec.es (realLin witSmall.prec (witSmall.regNat 1) count) := by
  simp only [linReady_iff]
  decide +kernel

theorem witness_PowerOfTwoTablesHaveTheirFixedEntries : ∀ t ∈ [3, 21], 3 ≤ t ∧ t ≤ 21 := by decide

/-- N = 8 suits all four generators. -/
theorem witness_GeneratorsWriteTheirTables :
    let s := wit .fp64
    s.scale?.isSome = true ∧ 4 ≤ s.regNat 5 ∧ s.regNat 5 % 4 = 0 ∧ inS (s.regNat 5 / 2) = true ∧
      s.regNat 5 / 2 ≤ s.params.maxN ∧ ∀ count ∈ [s.regNat 5, s.regNat 5 + 2, 4 * s.regNat 5 + 5],
        LinReady s s.prec.es (realLin s.prec (s.regNat 1) count) := by
  simp only [linReady_iff]
  decide +kernel

/-- n = 0, 6 (not supported by TGMDCT), 7 (by none), and 40 with MAXN = 16; an infinite SCALE; lg = 22 and 5. -/
theorem witness_TableInstructionsFaultInOrder :
    21 < (22#5).toNat ∧ ((5#5).toNat ≤ 21 ∧ witSmall.params.maxLog2 < (5#5).toNat) ∧
    (let n := fun v : Word => ({ witSmall with regs := witSmall.regs.set 3 v } : State).regNat 3;
      n 0 = 0 ∧ (n 6 ≠ 0 ∧ ¬(4 ≤ n 6 ∧ n 6 % 4 = 0 ∧ inS (n 6 / 2) = true)) ∧
        (n 7 ≠ 0 ∧ ¬(2 ≤ n 7 ∧ n 7 % 2 = 0 ∧ inS (n 7 / 2) = true)) ∧
        ((4 ≤ n 40 ∧ n 40 % 4 = 0 ∧ inS (n 40 / 2) = true) ∧ witSmall.params.maxN < n 40 / 2) ∧
        ((4 ≤ n 8 ∧ n 8 % 4 = 0 ∧ inS (n 8 / 2) = true) ∧ n 8 / 2 ≤ witSmall.params.maxN)) ∧
    ScaleFinite witSmall ∧ ¬ScaleFinite { witSmall with scaleHi := 0xFFF00000 } ∧
    IsLowest (fun x => x % 4 ≠ 0 ∧ ∃ l ∈ [realLin .fp32 0x102 6], x = l.base) (some 0x102) ∧
    IsLowest (fun x => ∃ l ∈ [realLin .fp32 0xFFFC 6], ∃ j < l.n,
      x = l.base + j * l.stride ∧ (wit .fp32).params.dmemBytes < x + l.size) (some 0x10000) := by
  have h := operandFaults_hypotheses_met (s := wit .fp32) (t := wit .fp32) (align := 4) (ls := [realLin .fp32 0x102 6])
    (ms := [realLin .fp32 0xFFFC 6]) rfl rfl
  exact ⟨by decide, by decide +kernel, by decide +kernel, by simp only [ScaleFinite]; decide +kernel,
    by simp only [ScaleFinite]; decide +kernel, h.1, h.2.2⟩

/-- n = 8, with OSTRIDE = 1 and 0. -/
theorem witness_MdctInstructionsComplete : ∀ s ∈ [wit .fp64, { wit .q31 with ostride := 0 }],
    4 ≤ s.regNat 5 ∧ s.regNat 5 % 4 = 0 ∧ inS (s.regNat 5 / 2) = true ∧ s.regNat 5 / 2 ≤ s.params.maxN ∧
      LinReady s s.prec.es (realLin s.prec (s.regNat 4) (s.regNat 5)) ∧
      LinReady s s.prec.es (realLin s.prec (s.regNat 1) (2 * s.regNat 5)) ∧
      LinReady s s.prec.es ⟨s.regNat 2, s.regNat 5, s.ostride.toNat * s.prec.es, s.prec.es⟩ := by
  simp only [linReady_iff]
  decide +kernel

/-- The least length 4 and the length 12, of both kernels. -/
theorem witness_MdctInstructionsComplete_kernels : ∀ n ∈ [4, 12], 4 ≤ n ∧ n % 4 = 0 ∧ inS (n / 2) = true ∧ 0 < n / 4 := by
  decide +kernel

theorem witness_RealDftInstructionsComplete : ∀ s ∈ [wit .fp64, wit .q31],
    2 ≤ s.regNat 5 ∧ s.regNat 5 % 2 = 0 ∧ inS (s.regNat 5 / 2) = true ∧ s.regNat 5 / 2 ≤ s.params.maxN ∧
      LinReady s s.prec.es (realLin s.prec (s.regNat 4) (s.regNat 5 + 2)) ∧
      ∀ r ∈ [1, 2], ∀ count ∈ [s.regNat 5, 2 * (s.regNat 5 / 2 + 1), s.regNat 5 / 2 + 1],
        LinReady s s.prec.es (realLin s.prec (s.regNat r) count) := by
  simp only [linReady_iff]
  decide +kernel

/-- The least length 2, which has no middle bin, and the length 8, whose middle bins are 1 to 3. -/
theorem witness_RealDftInstructionsComplete_kernels :
    (∀ n ∈ [2, 8], 2 ≤ n ∧ n % 2 = 0 ∧ inS (n / 2) = true) ∧ ∀ k ∈ [1, 3], 1 ≤ k ∧ k < 8 / 2 := by
  decide +kernel

/-- n = 8 for DCT2 and DCT3, n = 9 for DCT1, n = 7 for DST1. -/
theorem witness_CosineAndSineTransformsComplete :
    let s := wit .fp64
    s.prec ≠ .q31 ∧ (2 ≤ 8 ∧ 8 % 2 = 0 ∧ inS (8 / 2) = true ∧ 8 / 2 ≤ s.params.maxN) ∧
    (2 ≤ 9 ∧ inS (9 - 1) = true ∧ 9 - 1 ≤ s.params.maxN) ∧ (1 ≤ 7 ∧ inS (7 + 1) = true ∧ 7 + 1 ≤ s.params.maxN) ∧
    ({ s with regs := s.regs.set 5 9 } : State).regNat 5 = 9 ∧ ({ s with regs := s.regs.set 5 7 } : State).regNat 5 = 7 ∧
    s.regNat 5 = 8 ∧ (∀ count ∈ [4 * 8 + 5, 2 * (9 - 1) + 2, 2 * (7 + 1) + 2],
      LinReady s s.prec.es (realLin s.prec (s.regNat 4) count)) ∧
    ∀ r ∈ [1, 2], ∀ n ∈ [7, 8, 9], LinReady s s.prec.es (realLin s.prec (s.regNat r) n) := by
  simp only [linReady_iff]
  decide +kernel

/-- Two inputs, for all four; one, for DST1. -/
theorem witness_CosineAndSineTransformsComplete_kernels (a b : Elem .q31) :
    ([a, b].length = 2 ∧ 2 ≤ 2 ∧ 2 % 2 = 0 ∧ 0 < 2 / 2) ∧ [a].length = 1 ∧ 1 ≤ 1 :=
  ⟨⟨rfl, by decide⟩, rfl, by decide⟩

/-- n = 0; 6 for the MDCTs, 7 for the even lengths, 12 for DCT1 and 10 for DST1 are not supported; 40, 21 for DCT1 and 19 for
DST1 exceed MAXN = 16; operands as in `witness_TableInstructionsFaultInOrder`; Q31. -/
theorem witness_RealTransformsFaultInOrder :
    (let fourfold := fun n => 4 ≤ n ∧ n % 4 = 0 ∧ inS (n / 2) = true;
      let even := fun n => 2 ≤ n ∧ n % 2 = 0 ∧ inS (n / 2) = true;
      ¬fourfold 6 ∧ ¬even 7 ∧ ¬(2 ≤ 12 ∧ inS (12 - 1) = true) ∧ ¬inS (10 + 1) = true ∧
      (fourfold 40 ∧ even 40 ∧ witSmall.params.maxN < 40 / 2) ∧
      (inS (21 - 1) = true ∧ witSmall.params.maxN < 21 - 1) ∧ (inS (19 + 1) = true ∧ witSmall.params.maxN < 19 + 1) ∧
      (fourfold 8 ∧ even 8 ∧ 8 / 2 ≤ witSmall.params.maxN)) ∧
    (let n := fun v : Word => ({ witSmall with regs := witSmall.regs.set 3 v } : State).regNat 3;
      [0, 6, 7, 8, 10, 12, 19, 21, 40].map n = [0, 6, 7, 8, 10, 12, 19, 21, 40]) ∧
    (wit .q31).prec = .q31 ∧ (wit .fp32).prec ≠ .q31 ∧
    (IsLowest (fun x => x % 4 ≠ 0 ∧ ∃ l ∈ [realLin .fp32 0x400 8, realLin .fp32 0x102 16, ⟨0x103, 8, 4, 4⟩], x = l.base)
      (some 0x102)) ∧
    IsLowest (fun x => ∃ l ∈ [realLin .fp32 0x400 8, realLin .fp32 0xFFFC 16, ⟨0xFFF0, 8, 0x10, 4⟩], ∃ j < l.n,
      x = l.base + j * l.stride ∧ (wit .fp32).params.dmemBytes < x + l.size) (some 0x10000) := by
  have h := operandFaults_hypotheses_met (s := wit .fp32) (t := wit .fp32) (align := 4)
    (ls := [realLin .fp32 0x400 8, realLin .fp32 0x102 16, ⟨0x103, 8, 4, 4⟩])
    (ms := [realLin .fp32 0x400 8, realLin .fp32 0xFFFC 16, ⟨0xFFF0, 8, 0x10, 4⟩]) rfl rfl
  exact ⟨by decide +kernel, by decide +kernel, rfl, by decide, h.1, h.2.2⟩

/-! ### Arithmetic -/

/-- The largest and the least finite binary32 values, a NaN, two infinities and a zero. -/
theorem witness_FloatOperationsRoundToNearestEven :
    fmt32 ∈ [fmt32, fmt64] ∧ (∀ a ∈ [0x7F7FFFFF, 0x80000001, 0x7FC00000, 0x7F800000, 0xFF800000, 0], a < 2 * fmt32.signBit) ∧
    (fmt32.decode 0x7F7FFFFF).toInt?.isSome = true ∧ (fmt32.decode 0x80000001).toInt? = some (-1) ∧
    fmt32.decode 0x7FC00000 = .nan ∧ fmt32.decode 0x7F800000 = .inf false ∧ fmt32.decode 0xFF800000 = .inf (!false) ∧
    fmt32.decode 0 = .fin false 0 ∧ fmt32.decode 0x80000000 = .fin true 0 ∧ (∃ m, m ≠ 0 ∧ fmt32.decode 1 = .fin false m) := by
  refine ⟨by decide, by decide +kernel, by decide +kernel, by decide +kernel, by decide +kernel, by decide +kernel,
    by decide +kernel, by decide +kernel, by decide +kernel, 1, by decide, by decide +kernel⟩

/-- 0 and −0 are the number 0. In Q31 the multiplier 1 clamps to 2^31 − 1, −1 is −2^31, and 3/2^32 is a tie that goes to 2. -/
theorem witness_RescaleRoundsDyadicNumbers :
    (∀ neg ∈ [false, true], (if neg then -((0 : Nat) : Int) else (0 : Nat)) = 0) ∧
    BitVec.toInt (n := 32) (rescale .q31 (.dyadic ⟨false, 1, 0⟩)) = max (-2147483648) (min 2147483648 2147483647) ∧
    BitVec.toInt (n := 32) (rescale .q31 (.dyadic ⟨true, 1, 0⟩)) = -2147483648 ∧
    BitVec.toInt (n := 32) (rescale .q31 (.dyadic ⟨false, 3, 32⟩)) = 2 ∧
    BitVec.toNat (w := 32) (rescale .fp32 (.dyadic ⟨true, 3, 1⟩)) = 0xBFC00000 := by
  decide +kernel

/-! ### The host and the whole machine -/

theorem witness_HostIsRefusedWhileRunning : (wit .fp32).run = .running ∧
    ¬(4 = 4 ∧ ((0x800#32).toNat = 0x400 ∨ (0x800#32).toNat = 0x408 ∨ (0x800#32).toNat = 0x40C ∨ (0x800#32).toNat = 0x0C)) ∧
    ¬(2 = 4 ∧ ((0x400#32).toNat = 0x400 ∨ (0x400#32).toNat = 0x408)) := by
  decide +kernel

/-- Each command bit alone, from idle and while running. -/
theorem witness_HostControlWritesAct :
    let bits := fun v : Word => [v.getLsbD 0, v.getLsbD 1, v.getLsbD 3]
    bits 4 = [false, false, false] ∧ bits 1 = [true, false, false] ∧ bits 2 = [false, true, false] ∧
    bits 8 = [false, false, true] ∧ State.reset.run ≠ .running ∧ (wit .fp32).run = .running := by
  decide +kernel

/-- The highest register, the highest word of IMEM and the highest word of DMEM; an assigned and an unassigned CSR; a done
and a faulted unit; the MODE values 0 to 3, without FP64 and Q31 too. -/
theorem witness_HostWindowsReachTheState :
    let s := State.reset
    (s.params.legal = true ∧ s.run ≠ .running ∧ s.csr? 0x00 = some 0x54580001 ∧ s.csr? 0x07 = none ∧
      (s.writeCsr? 0x0B 3).isSome = true ∧ s.writeCsr? 0x00 3 = none ∧ 1023 < s.params.imemWords ∧ Store.wf s.imem = true ∧
      (0xFFFC < s.params.dmemBytes ∧ 0xFFFC % 4 = 0) ∧ Memory.wf s.dmem = true) ∧
    (({ wit .fp32 with run := .done } : State).run ≠ .running ∧ ({ wit .fp32 with run := .faulted } : State).run ≠ .running) ∧
    ((4#32).toNat % 4 = 0 ∧ ((5#32).toNat % 4 = 1 ∧ s.params.hasF64 = true) ∧ ((6#32).toNat % 4 = 2 ∧ s.params.hasQ31 = true) ∧
      (7#32).toNat % 4 = 3 ∧ witSmall.params.hasF64 = false ∧ witSmall.params.hasQ31 = false ∧
      ({ witSmall with run := .done } : State).run ≠ .running ∧ witSmall.params.legal = true) ∧
    (0x03 < 256 ∧ 0x03 ∉ [0x02, 0x08, 0x09, 0x0B, 0x0C, 0x0D, 0x0E]) := by
  decide +kernel

/-- The kinds of unmapped access: another size, a misaligned offset, and the first offsets after each window. -/
theorem witness_HostWindowsReachTheState_unmapped :
    let c := State.reset.params
    ∀ e ∈ [(2, 0x00#32), (8, 0x400#32), (4, 0x02#32), (4, 0x410#32), (4, 0x7FC#32), (4, 0x840#32), (4, 0xFFFC#32), (4, 0x11000#32),
      (4, 0x7FFFFFFC#32), (4, 0x80010000#32), (4, 0xFFFFFFFC#32)], e.1 ≠ 4 ∨ e.2.toNat % 4 ≠ 0 ∨
        ¬(e.2.toNat ≤ 0x40C ∨ (0x800 ≤ e.2.toNat ∧ e.2.toNat < 0x840) ∨
          (0x10000 ≤ e.2.toNat ∧ e.2.toNat < 0x10000 + 4 * c.imemWords) ∨
          (0x80000000 ≤ e.2.toNat ∧ e.2.toNat < 0x80000000 + c.dmemBytes)) := by
  decide +kernel

/-- A host write of CTRL with START = 1 to the reset unit. -/
theorem witness_OnlyStartMakesTheUnitRun :
    let s := { State.reset with turns := [.host (.write 4 0x400 1)] }
    step s = .next { State.reset with run := .running } ∧ s.run ≠ .running ∧
      ({ State.reset with run := .running } : State).run = .running :=
  ⟨of_answers (by decide +kernel), by decide +kernel, rfl⟩

/-- A host write of CTRL with SRESET = 1 clears a valid bit and both counters. -/
theorem witness_OnlyResetClearsTablesAndCounters :
    let s := { State.reset with tvalidF32 := 8, tgencnt := 1, instret := 7, turns := [.host (.write 4 0x400 8)] }
    let t := State.reset
    step s = .next t ∧ ((s.tvalid .fp32).getLsbD 3 = true ∧ (t.tvalid .fp32).getLsbD 3 = false) ∧
      (t.instret ≠ s.instret ∧ t.instret ≠ s.instret + 1) ∧ ∀ p ∈ [Prec.fp32, .fp64, .q31],
        t.tgencnt ≠ s.tgencnt + BitVec.ofNat 32 (newTables s t p) :=
  ⟨of_answers (by decide +kernel), by decide +kernel, by decide +kernel, by decide +kernel⟩

/-- A host write of the last word of IMEM while idle, and one refused while the unit runs. -/
theorem witness_OnlyAnIdleHostChangesImem :
    (let s := { State.reset with turns := [.host (.write 4 0x10FFC 0x40000000)] };
      let t := { State.reset with imem := [(1023, 0x40000000)] };
      step s = .next t ∧ t.imem ≠ s.imem) ∧
    (let s := { wit .fp32 with turns := [.host (.write 4 0x10FFC 0x40000000)] };
      step s = .next { wit .fp32 with hosterr := true } ∧ s.run = .running) :=
  ⟨⟨of_answers (by decide +kernel), by decide +kernel⟩, of_answers (by decide +kernel), rfl⟩

/-- The same access is no write of CTRL, as the last clause of the statement asks. -/
theorem witness_OnlyAnIdleHostChangesImem_premise (v : Word) :
    HostWriteNext { wit .fp32 with turns := [.host (.write 4 0x10FFC 0x40000000)] } 0x400 v → v.getLsbD 3 = false := by
  rintro ⟨rest, h⟩
  injection h with h
  injection h with h
  injection h with _ h
  exact absurd h (by decide)

/-- A running state with unequal memories, a table and a canonical DMEM, and the state after its ADDI. -/
def kept : State := { wit .fp32 with imem := [(0, 0x04400100)], dmem := [(0xFFFF, 7)], tvalidF32 := 0x1200008 }

theorem witness_StepKeepsTheMemories :
    (Store.wf kept.imem = true ∧ Memory.wf kept.dmem = true ∧ (∀ p ∈ kept.imem, p.1 < kept.params.imemWords) ∧
      ∀ p ∈ kept.dmem, p.1 < kept.params.dmemBytes) ∧ step kept = .next (kept.setReg 1 0x100).retire :=
  ⟨by decide +kernel, of_answers (by decide +kernel)⟩

theorem witness_StepKeepsModeScaleAndRecord :
    kept.ModeOk ∧ kept.ScaleOk ∧ kept.RecordOk ∧ step kept = .next (kept.setReg 1 0x100).retire :=
  ⟨show kept.params.has kept.prec = true by decide +kernel, show kept.scalef = scalefOf kept.scaleBits by decide +kernel,
    ⟨rfl, rfl, rfl⟩, of_answers (by decide +kernel)⟩

theorem witness_StepKeepsTheTableBits :
    let s := { wit .fp32 with imem := [(0, 0xB0000060)] }
    s.ModeOk ∧ s.TablesOk ∧ step s = .next { s with tvalidF32 := 8, tgencnt := 1, pc := 1, instret := 1 } := by
  refine ⟨rfl, fun p b h => ?_, of_answers (by decide +kernel)⟩
  cases p <;> exact absurd h (by simp [State.tvalid, wit, cell, State.setReg, State.reset, State.powerOn])

end Sys2Proof.Tests
end

/-! # Proofs: the scope (00_scope.md)

What a turn of the sequencer does, one equation per definition between `step` and `exec`; and the invariants at power-on. -/

namespace Sys2Proof.Machine

/-! ## The way from a step to an instruction -/

theorem step_of_legal {s : State} (hl : s.params.legal = true) : step s = takeTurn s := if_pos hl

theorem takeTurn_of_no_turns {s : State} (ht : s.turns = []) : takeTurn s = sequencerTurn s := by
  simp [takeTurn, ht]

theorem takeTurn_of_sequencer {s : State} {rest : List Turn} (ht : s.turns = .sequencer :: rest) :
    takeTurn s = sequencerTurn { s with turns := rest } := by
  simp [takeTurn, ht]

theorem sequencerTurn_of_running {s : State} (hr : s.run = .running) : sequencerTurn s = runInstruction s :=
  if_pos (by simp [State.busy, hr])

theorem State.fetch_of_lt {s : State} (hpc : s.pc.toNat < s.params.imemWords) :
    s.fetch = .ok (Store.read s.imem s.pc.toNat) := if_pos hpc

theorem runInstruction_of_decode {s : State} {w : Word} {i : Instr} (hf : s.fetch = .ok w) (hd : decode w = .ok i) :
    runInstruction s = exec i s := by
  simp [runInstruction, hf, hd]

/-- The turn of a running sequencer whose pc is in IMEM, where a legal word stands (20_memory.md R71, 49_control.md R329). -/
theorem sequencerTurn_of_decode {s : State} {i : Instr} (hr : s.run = .running) (hpc : s.pc.toNat < s.params.imemWords)
    (hd : decode (Store.read s.imem s.pc.toNat) = .ok i) : sequencerTurn s = exec i s := by
  rw [sequencerTurn_of_running hr, runInstruction_of_decode (State.fetch_of_lt hpc) hd]

/-- Settles O5: taking a sequencer turn off the list leaves what the fetch reads unchanged, so that the one lemma about the
sequencer's turn serves both forms. -/
theorem stepRunsTheDecodedInstruction : Obligations.StepRunsTheDecodedInstruction := by
  intro s i hl hr hpc hd
  rw [step_of_legal hl]
  constructor
  · intro ht
    rw [takeTurn_of_no_turns ht, sequencerTurn_of_decode hr hpc hd]
  · intro rest ht
    rw [takeTurn_of_sequencer ht]
    exact sequencerTurn_of_decode hr hpc hd

/-! ## The invariants at power-on, for every choice of parameters -/

theorem memoryOk_powerOn (c : Params) : (State.powerOn c).MemoryOk :=
  ⟨Store.wf_nil, Store.wf_nil, List.forall_mem_nil _, List.forall_mem_nil _⟩

/-- MODE.PREC is FP32 at power-on, and every unit implements FP32 (00_scope.md R6, 10_state.md R33). -/
theorem modeOk_powerOn (c : Params) : (State.powerOn c).ModeOk := rfl

theorem recordOk_powerOn (c : Params) : (State.powerOn c).RecordOk := ⟨rfl, rfl, rfl⟩

theorem tvalid_powerOn (c : Params) (p : Prec) : (State.powerOn c).tvalid p = 0 := by
  cases p <;> rfl

theorem tablesOk_powerOn (c : Params) : (State.powerOn c).TablesOk := by
  intro p bit hbit
  simp [tvalid_powerOn] at hbit

theorem inv_powerOn {c : Params} (hl : c.legal = true) : (State.powerOn c).Inv :=
  ⟨hl, memoryOk_powerOn c, modeOk_powerOn c, scaleOk_powerOn c, recordOk_powerOn c, tablesOk_powerOn c⟩

/-- The reference configuration is one that 00_scope.md R6 allows. -/
theorem legal_reference : Params.reference.legal = true := by decide

/-- Settles O56: the unit of any legal parameters meets the invariants at power-on, and those of `State.reset` are legal. -/
theorem resetMeetsTheInvariants : Obligations.ResetMeetsTheInvariants := inv_powerOn legal_reference

end Sys2Proof.Machine

/-! # Proofs: the state (10_state.md)

What an instruction and a step change of each part of the state. Everything goes through `exec_cases`, `step_cases` and
`hostAccess_cases`: first what each ending and each host write does to a part of the state, then the statements. -/

namespace Sys2Proof.Machine

/-! ## Valid bits and TGENCNT (10_state.md R44, R45) -/

theorem State.tvalid_congr {s t : State} (h32 : t.tvalidF32 = s.tvalidF32) (h64 : t.tvalidF64 = s.tvalidF64)
    (h31 : t.tvalidQ31 = s.tvalidQ31) (p : Prec) : t.tvalid p = s.tvalid p := by
  cases p <;> assumption

@[simp] theorem State.tvalid_setDmem (s : State) (m : Memory) (p : Prec) : (s.setDmem m).tvalid p = s.tvalid p :=
  State.tvalid_congr rfl rfl rfl p

@[simp] theorem State.tvalid_retireTo (s : State) (pc : Word) (p : Prec) : (s.retireTo pc).tvalid p = s.tvalid p :=
  State.tvalid_congr rfl rfl rfl p

@[simp] theorem State.tvalid_retire (s : State) (p : Prec) : s.retire.tvalid p = s.tvalid p :=
  State.tvalid_congr rfl rfl rfl p

@[simp] theorem State.tvalid_raise (s : State) (x : Trap) (p : Prec) : (s.raise x).tvalid p = s.tvalid p :=
  State.tvalid_congr rfl rfl rfl p

@[simp] theorem State.tvalid_setReg (s : State) (r : Reg) (v : Word) (p : Prec) : (s.setReg r v).tvalid p = s.tvalid p :=
  State.tvalid_congr (by simp) (by simp) (by simp) p

@[simp] theorem State.tvalid_softReset (s : State) (p : Prec) : s.softReset.tvalid p = 0 := by cases p <;> rfl

theorem State.tvalid_of_writeCsr? {s t : State} {n : BitVec 8} {v : Word} (h : s.writeCsr? n v = some t) (p : Prec) :
    t.tvalid p = s.tvalid p := by
  rw [State.writeCsr?_eq_some h]
  exact State.tvalid_congr rfl rfl rfl p

/-- Making slots valid sets exactly their bits, in the current precision. -/
theorem State.tvalid_ensureSlots (s : State) {slots : List Slot} (h : ∀ x ∈ slots, x.bit < 32) (p : Prec) (b : Nat) :
    ((s.ensureSlots slots).tvalid p).getLsbD b = true ↔
      (s.tvalid p).getLsbD b = true ∨ (p = s.prec ∧ ∃ x ∈ slots, x.bit = b) := by
  have hbits : ∀ c ∈ slots.map Slot.bit, c < 32 := by simpa using h
  unfold State.ensureSlots
  rw [State.tvalid_ensureBits s hbits]
  simp

/-- TGENCNT counts the bits that making slots valid sets (10_state.md R45). -/
theorem State.tgencnt_ensureSlots (s : State) {slots : List Slot} (h : ∀ x ∈ slots, x.bit < 32) :
    (s.ensureSlots slots).tgencnt = s.tgencnt + BitVec.ofNat 32 (newTables s (s.ensureSlots slots) s.prec) :=
  State.tgencnt_ensureBits s (by simpa using h) s.prec rfl

theorem newTables_congr {s t u : State} {p : Prec} (h : t.tvalid p = u.tvalid p) : newTables s t p = newTables s u p := by
  unfold newTables
  rw [h]

/-- From `s` to `t` the bits of the slots are set in the current precision and no other, and TGENCNT counts those that were
not set before (45_twiddle.md R242, 10_state.md R45). -/
structure State.MakesValid (s : State) (slots : List Slot) (t : State) : Prop where
  bits : ∀ p b, (t.tvalid p).getLsbD b = true ↔ (s.tvalid p).getLsbD b = true ∨ (p = s.prec ∧ ∃ x ∈ slots, x.bit = b)
  count : t.tgencnt = s.tgencnt + BitVec.ofNat 32 (newTables s t s.prec)

theorem State.makesValid_ensureSlots {s t : State} {slots : List Slot} (h : ∀ x ∈ slots, x.bit < 32)
    (hv : ∀ p, t.tvalid p = (s.ensureSlots slots).tvalid p) (hc : t.tgencnt = (s.ensureSlots slots).tgencnt) :
    s.MakesValid slots t where
  bits p b := by rw [hv, State.tvalid_ensureSlots s h]
  count := by rw [hc, State.tgencnt_ensureSlots s h, newTables_congr (hv s.prec)]

theorem State.makesValid_nil {s t : State} (hv : ∀ p, t.tvalid p = s.tvalid p) (hc : t.tgencnt = s.tgencnt) :
    s.MakesValid [] t :=
  State.makesValid_ensureSlots (List.forall_mem_nil _) hv hc

/-- What any instruction does to the table store: it makes slots valid, and nothing else. -/
theorem exec_makesValid {i : Instr} {s t : State} (h : exec i s = .next t) :
    ∃ slots, SlotsOk (Regular i s) s.params slots ∧ s.MakesValid slots t := by
  have hnone : (∀ p, t.tvalid p = s.tvalid p) → t.tgencnt = s.tgencnt →
      ∃ slots, SlotsOk (Regular i s) s.params slots ∧ s.MakesValid slots t :=
    fun hv hc => ⟨[], SlotsOk.nil _, State.makesValid_nil hv hc⟩
  rcases exec_cases h with ⟨x, rfl, -⟩ | hl
  · exact hnone (by simp) (by simp)
  · cases he : ending i <;> rw [he] at hl
    case register rd =>
      obtain ⟨v, rfl⟩ := hl
      exact hnone (by simp) (by simp)
    case memory =>
      obtain ⟨u, ⟨slots, m, rfl, hs, -⟩, rfl⟩ := hl
      exact ⟨slots, hs, State.makesValid_ensureSlots (fun x hx => (hs x hx).1) (by simp) (by simp)⟩
    case csr rs1 n =>
      obtain ⟨u, hu, rfl⟩ := hl
      refine hnone (fun p => (State.tvalid_retire u p).trans (State.tvalid_of_writeCsr? hu p)) ?_
      rw [State.writeCsr?_eq_some hu]
      rfl
    case jump =>
      obtain ⟨pc, rfl⟩ := hl
      exact hnone (by simp) (by simp)
    case halt =>
      subst hl
      exact hnone (State.tvalid_congr rfl rfl rfl) rfl

/-- Settles O19: an instruction's effect on the table store is that of making slots valid. -/
theorem tablesOnlyGrowAndAreCounted : Obligations.TablesOnlyGrowAndAreCounted := by
  intro i s t h
  obtain ⟨slots, -, hv⟩ := exec_makesValid h
  refine ⟨fun p b hb => (hv.bits p b).2 (.inl hb), fun p hp => BitVec.eq_of_getLsbD_eq fun b _ => ?_, hv.count⟩
  rw [Bool.eq_iff_iff, hv.bits]
  simp [hp]

/-! ## Retirement (49_control.md R329, 10_state.md R46) -/

/-- Where an instruction that does not fault leaves the run, pc and IRQSTAT.DONE of a running unit. -/
def Ending.Moves (s t : State) : Ending → Prop
  | .jump => t.run = .running
  | .halt => t.run = .done ∧ t.pc = s.pc ∧ t.irqDone = true
  | _ => t.run = .running ∧ t.pc = s.pc + 1 ∧ t.irqDone = s.irqDone

/-- Every ending without a fault counts in INSTRET and leaves the fault record. -/
theorem Ending.Leaves.retires {W : Prop} {s t : State} {e : Ending} (hr : s.run = .running) (h : e.Leaves W s t) :
    t.instret = s.instret + 1 ∧ t.cause = s.cause ∧ t.fpc = s.fpc ∧ t.finfo = s.finfo ∧ t.irqFault = s.irqFault ∧
      e.Moves s t := by
  cases e with
  | register rd =>
    obtain ⟨v, rfl⟩ := h
    simp [Ending.Moves, hr]
  | memory =>
    obtain ⟨u, ⟨slots, m, rfl, -, -⟩, rfl⟩ := h
    simp [Ending.Moves, hr]
  | csr rs1 n =>
    obtain ⟨u, hu, rfl⟩ := h
    rw [State.writeCsr?_eq_some hu]
    simp [Ending.Moves, hr]
  | jump =>
    obtain ⟨pc, rfl⟩ := h
    simp [Ending.Moves, hr]
  | halt =>
    subst h
    simp [Ending.Moves]

/-- Settles O16: a next state of a running unit that is not the fault action is what the instruction's ending leaves. -/
theorem completingInstructionRetires : Obligations.CompletingInstructionRetires := by
  intro i s t hr h ht
  rcases exec_cases h with ⟨x, rfl, -⟩ | hl
  · exact absurd rfl ht
  · obtain ⟨hret, hcause, hfpc, hinfo, hirq, hmoves⟩ := hl.retires hr
    refine ⟨hret, hcause, hfpc, hinfo, hirq, ?_⟩
    cases i <;> exact hmoves

/-! ## What an instruction leaves unchanged (20_memory.md R71, R73, 10_state.md R22, R29) -/

/-- What belongs to the host and to the implementation is the same in both states. -/
def State.SameHost (s t : State) : Prop :=
  t.params = s.params ∧ t.imem = s.imem ∧ t.hosterr = s.hosterr ∧ t.ie = s.ie ∧ t.entry = s.entry ∧
    t.turns = s.turns ∧ t.hostReply = s.hostReply

/-- MODE, SCALE, SCALEF and the view CSRs are the same in both states. -/
def State.SameCsrs (s t : State) : Prop :=
  t.prec = s.prec ∧ t.scaleLo = s.scaleLo ∧ t.scaleHi = s.scaleHi ∧ t.scalef = s.scalef ∧ t.bcount = s.bcount ∧
    t.istride = s.istride ∧ t.bstride = s.bstride ∧ t.ostride = s.ostride

/-- The frame of any instruction: what no ending changes, and what only one kind of ending does. -/
theorem exec_frame {i : Instr} {s t : State} (h : exec i s = .next t) :
    s.SameHost t ∧ ((∀ rs1 n, ending i ≠ .csr rs1 n) → s.SameCsrs t) ∧ (ending i ≠ .memory → t.dmem = s.dmem) ∧
      ((∀ rd, ending i ≠ .register rd) → t.regs = s.regs) := by
  unfold State.SameHost State.SameCsrs
  rcases exec_cases h with ⟨x, rfl, -⟩ | hl
  · simp
  · cases he : ending i <;> rw [he] at hl
    case register rd =>
      obtain ⟨v, rfl⟩ := hl
      simp
    case memory =>
      obtain ⟨u, ⟨slots, m, rfl, -, -⟩, rfl⟩ := hl
      simp
    case csr rs1 n =>
      obtain ⟨u, hu, rfl⟩ := hl
      rw [State.writeCsr?_eq_some hu]
      simp
    case jump =>
      obtain ⟨pc, rfl⟩ := hl
      simp
    case halt =>
      subst hl
      simp

/-- Only CSRW ends in a CSR write. -/
theorem eq_csrw_of_ending {i : Instr} {rs1 : Reg} {n : BitVec 8} (h : ending i = .csr rs1 n) : i = .csrw rs1 n := by
  cases i <;> simp_all [ending]

/-- TGEN keeps DMEM (45_twiddle.md R246). -/
theorem finish_tgenBody_dmem {x : Slot} {args : Except Trap Unit} {s t : State}
    (h : finish s (tgenBody x args s) = .next t) : t.dmem = s.dmem := by
  rcases (finish_eq_next_iff _ _ _).1 h with ⟨y, -, rfl⟩ | ⟨u, hu, rfl⟩
  · rfl
  · obtain ⟨-, hu⟩ := (check_then_eq_ok_iff _ _ _).1 hu
    cases hu
    simp

/-- Settles O18: the frame of each ending, and of TGEN, which ends as a DMEM write of nothing. -/
theorem instructionsLeaveTheRestUnchanged : Obligations.InstructionsLeaveTheRestUnchanged := by
  intro i s t h
  obtain ⟨hhost, hcsrs, hkeep, -⟩ := exec_frame h
  refine ⟨hhost, fun hi => hcsrs fun rs1 n he => hi rs1 n (eq_csrw_of_ending he), ?_⟩
  cases i
  case tgenP lg => exact finish_tgenBody_dmem h
  case tgenT53 => exact finish_tgenBody_dmem (args := .ok ()) h
  case tgenT7 => exact finish_tgenBody_dmem (args := .ok ()) h
  case tgenT9 => exact finish_tgenBody_dmem (args := .ok ()) h
  all_goals first | exact trivial | exact hkeep (by simp [ending])

/-! ## Registers (10_state.md R21, R22) -/

/-- The nine instructions with a destination are those that end in a register write. -/
theorem destination?_eq_some_iff (i : Instr) (rd : Reg) : destination? i = some rd ↔ ending i = .register rd := by
  cases i <;> simp [destination?, ending]

/-- Settles O17: of all endings only the register write touches the register file, and there only its destination. -/
theorem onlyNineInstructionsWriteRegisters : Obligations.OnlyNineInstructionsWriteRegisters := by
  intro i s t h
  refine ⟨fun hd => ?_, fun rd q hd hq => ?_, State.reg_zero t⟩
  · obtain ⟨-, -, -, hregs⟩ := exec_frame h
    refine hregs fun rd he => ?_
    rw [(destination?_eq_some_iff i rd).2 he] at hd
    cases hd
  · rcases exec_cases h with ⟨x, rfl, -⟩ | hl
    · exact State.reg_congr (State.raise_regs s x) q
    · rw [(destination?_eq_some_iff i rd).1 hd] at hl
      obtain ⟨v, rfl⟩ := hl
      rw [State.reg_congr (State.retire_regs (s.setReg rd v)) q, State.reg_setReg, if_neg fun hc => hq hc.1]

/-! ## Host writes (60_exceptions.md R375 to R379) -/

theorem State.ctrlReset_of_sreset {s : State} {v : Word} (hv : v.getLsbD 3 = true) : s.ctrlReset v = s.softReset :=
  if_pos hv

theorem State.ctrlReset_of_not {s : State} {v : Word} (hv : v.getLsbD 3 = false) : s.ctrlReset v = s := by
  rw [State.ctrlReset, hv]
  rfl

/-- A property of what the SRESET bit leaves that ABORT, IE and START each keep holds after the whole write of CTRL
(60_exceptions.md R375). -/
theorem State.writeCtrl_keeps {P : State → Prop} {s : State} {v : Word} (hreset : P (s.ctrlReset v))
    (habort : ∀ u, P u → P (u.raise ⟨.hostAbort, 0⟩)) (hie : ∀ (u : State) b, P u → P { u with ie := b })
    (hrefuse : ∀ u, P u → P u.refuse) (hstart : ∀ u, P u → P u.start) : P (s.writeCtrl v) := by
  have h2 : P ((s.ctrlReset v).ctrlAbort v) := by
    unfold State.ctrlAbort
    split
    · exact habort _ hreset
    · exact hreset
  have h3 := hie _ (v.getLsbD 2) h2
  unfold State.writeCtrl State.ctrlStart
  split
  · split
    · exact hrefuse _ h3
    · exact hstart _ h3
  · exact h3

/-- The parameters, the valid bits and both counters are the same in both states. -/
structure State.SameCounters (s t : State) : Prop where
  params : t.params = s.params
  f32 : t.tvalidF32 = s.tvalidF32
  f64 : t.tvalidF64 = s.tvalidF64
  q31 : t.tvalidQ31 = s.tvalidQ31
  tgencnt : t.tgencnt = s.tgencnt
  instret : t.instret = s.instret

theorem State.SameCounters.refl (s : State) : s.SameCounters s := ⟨rfl, rfl, rfl, rfl, rfl, rfl⟩

theorem State.SameCounters.trans {s t u : State} (h : s.SameCounters t) (h' : t.SameCounters u) : s.SameCounters u :=
  ⟨h'.params.trans h.params, h'.f32.trans h.f32, h'.f64.trans h.f64, h'.q31.trans h.q31, h'.tgencnt.trans h.tgencnt,
    h'.instret.trans h.instret⟩

theorem State.SameCounters.tvalid {s t : State} (h : s.SameCounters t) (p : Prec) : t.tvalid p = s.tvalid p :=
  State.tvalid_congr h.f32 h.f64 h.q31 p

/-- A host write of CTRL keeps the valid bits and the counters of what its SRESET bit leaves. -/
theorem State.sameCounters_writeCtrl (s : State) (v : Word) : (s.ctrlReset v).SameCounters (s.writeCtrl v) :=
  State.writeCtrl_keeps (.refl _) (fun _ h => h.trans ⟨rfl, rfl, rfl, rfl, rfl, rfl⟩)
    (fun _ _ h => h.trans ⟨rfl, rfl, rfl, rfl, rfl, rfl⟩) (fun _ h => h.trans ⟨rfl, rfl, rfl, rfl, rfl, rfl⟩)
    (fun _ h => h.trans ⟨rfl, rfl, rfl, rfl, rfl, rfl⟩)

/-- A host write that is not refused keeps the valid bits and the counters, unless it is one of CTRL with SRESET. -/
theorem State.sameCounters_of_hostWrite? {s t : State} {tgt : HostTarget} {v : Word} (h : s.hostWrite? tgt v = some t) :
    s.SameCounters t ∨ (tgt = .ctrl ∧ v.getLsbD 3 = true ∧ s.softReset.SameCounters t) := by
  cases tgt with
  | csr n =>
    left
    rw [State.writeCsr?_eq_some h]
    exact ⟨rfl, rfl, rfl, rfl, rfl, rfl⟩
  | ctrl =>
    cases h
    have hc := s.sameCounters_writeCtrl v
    cases hv : v.getLsbD 3 with
    | false =>
      rw [State.ctrlReset_of_not hv] at hc
      exact .inl hc
    | true =>
      rw [State.ctrlReset_of_sreset hv] at hc
      exact .inr ⟨rfl, rfl, hc⟩
  | hpc => cases h
  | entry | irqstat | imem w | dmem a =>
    cases h
    exact .inl ⟨rfl, rfl, rfl, rfl, rfl, rfl⟩
  | reg r =>
    cases h
    exact .inl ⟨by simp, by simp, by simp, by simp, by simp, by simp⟩

/-! ## What a step does to the table store and the counters -/

/-- An instruction counts in INSTRET, or not at all when it faults (10_state.md R46). -/
theorem exec_instret {i : Instr} {s t : State} (h : exec i s = .next t) (hr : s.run = .running) :
    t.instret = s.instret ∨ t.instret = s.instret + 1 := by
  rcases exec_cases h with ⟨x, rfl, -⟩ | hl
  · exact .inl rfl
  · exact .inr (hl.retires hr).1

/-- From `s` to `t` slots of the unit become valid, TGENCNT counts them, and INSTRET stays or counts one instruction. -/
def State.Counts (s t : State) : Prop :=
  ∃ slots, SlotsOk True s.params slots ∧ s.MakesValid slots t ∧ (t.instret = s.instret ∨ t.instret = s.instret + 1)

theorem State.SameCounters.counts {s t : State} (h : s.SameCounters t) : s.Counts t :=
  ⟨[], SlotsOk.nil _, State.makesValid_nil h.tvalid h.tgencnt, .inl h.instret⟩

/-- Only the valid bits, MODE, the parameters and the counters of the state before matter. -/
theorem State.Counts.of_turns {s t : State} {rest : List Turn} (h : State.Counts { s with turns := rest } t) :
    s.Counts t := by
  obtain ⟨slots, hs, ⟨hbits, hcount⟩, hi⟩ := h
  have hv : ∀ p, ({ s with turns := rest } : State).tvalid p = s.tvalid p := State.tvalid_congr rfl rfl rfl
  have hnew : newTables { s with turns := rest } t s.prec = newTables s t s.prec := by
    unfold newTables
    rw [hv]
  exact ⟨slots, hs, ⟨fun p b => by rw [hbits, hv], by rw [← hnew]; exact hcount⟩, hi⟩

/-- A running sequencer's move. -/
theorem RunsTo.counts {s t : State} (hl : s.params.legal = true) (hr : s.run = .running) (h : RunsTo s t) :
    t.params = s.params ∧ s.Counts t := by
  rcases h with ⟨x, rfl, -⟩ | ⟨i, hi, h⟩
  · exact ⟨rfl, State.SameCounters.counts ⟨rfl, rfl, rfl, rfl, rfl, rfl⟩⟩
  · obtain ⟨slots, hs, hv⟩ := exec_makesValid h
    exact ⟨(exec_frame h).1.1, slots, fun x hx => ⟨(hs x hx).1, fun _ => (hs x hx).2 ⟨hl, hi⟩⟩, hv, exec_instret h hr⟩

/-- A step keeps the parameters, and it counts as an instruction does or empties the table store by an SRESET. -/
theorem step_counts {s t : State} (h : step s = .next t) : t.params = s.params ∧
    (s.Counts t ∨ ((∃ v : Word, HostWriteNext s 0x400 v ∧ v.getLsbD 3 = true) ∧ ∀ p, t.tvalid p = 0)) := by
  have hsame : ∀ {u : State}, s.SameCounters u → u.params = s.params ∧ (s.Counts u ∨
      ((∃ v : Word, HostWriteNext s 0x400 v ∧ v.getLsbD 3 = true) ∧ ∀ p, u.tvalid p = 0)) :=
    fun h => ⟨h.params, .inl h.counts⟩
  have hturns : ∀ rest, s.SameCounters { s with turns := rest } := fun _ => ⟨rfl, rfl, rfl, rfl, rfl, rfl⟩
  obtain ⟨hl, ⟨hr, s', ⟨rfl, -⟩ | ⟨rest, -, rfl⟩, hrun⟩ | ⟨-, rfl | ⟨rest, -, rfl⟩⟩ | ⟨a, rest, hnext, rfl⟩⟩ := step_cases h
  · obtain ⟨hp, hc⟩ := hrun.counts hl hr
    exact ⟨hp, .inl hc⟩
  · obtain ⟨hp, hc⟩ := RunsTo.counts (s := { s with turns := rest }) hl hr hrun
    exact ⟨hp, .inl hc.of_turns⟩
  · exact hsame (.refl t)
  · exact hsame (hturns rest)
  · rcases hostAccess_cases { s with turns := rest } a with ⟨e, r, he⟩ | ⟨offset, v, tgt, u, rfl, htgt, -, hw, he⟩ <;>
      rw [he]
    · exact hsame ⟨rfl, rfl, rfl, rfl, rfl, rfl⟩
    · rcases State.sameCounters_of_hostWrite? hw with hc | ⟨rfl, hv, hc⟩
      · exact hsame ((hturns rest).trans hc)
      · cases hostTarget?_ctrl htgt
        refine ⟨hc.params, .inr ⟨⟨v, ⟨rest, hnext⟩, hv⟩, fun p => ?_⟩⟩
        rw [hc.tvalid, State.tvalid_softReset]

/-- Settles O53: a step that counts does none of the three things, so that the other case of `step_counts` is left. -/
theorem onlyResetClearsTablesAndCounters : Obligations.OnlyResetClearsTablesAndCounters := by
  intro s t h hodd
  obtain ⟨-, ⟨slots, -, hv, hi⟩ | ⟨hreset, -⟩⟩ := step_counts h
  · rcases hodd with ⟨p, b, hs, ht⟩ | ⟨hne, hne'⟩ | hcount
    · rw [(hv.bits p b).2 (.inl hs)] at ht
      cases ht
    · exact absurd hi (not_or.2 ⟨hne, hne'⟩)
    · exact absurd hv.count (hcount s.prec)
  · exact hreset

/-- Settles O59: the bits that a step sets are those of slots of the unit, in a precision that MODE names. -/
theorem stepKeepsTheTableBits : Obligations.StepKeepsTheTableBits := by
  intro s t hmode htables h p b hb
  obtain ⟨hp, ⟨slots, hs, hv, -⟩ | ⟨-, hz⟩⟩ := step_counts h
  · rw [hp]
    rcases (hv.bits p b).1 hb with hb | ⟨rfl, x, hx, rfl⟩
    · exact htables p b hb
    · exact ⟨(hs x hx).2 trivial, hmode⟩
  · rw [hz] at hb
    simp at hb

/-! ## MODE, SCALEF and the fault record (10_state.md R33, R37, R35, R38, R39) -/

theorem State.ModeOk.congr {s t : State} (h : s.ModeOk) (hc : t.params = s.params) (hp : t.prec = s.prec) : t.ModeOk := by
  unfold State.ModeOk at *
  rw [hc, hp, h]

theorem State.ScaleOk.congr {s t : State} (h : s.ScaleOk) (hf : t.scalef = s.scalef) (hlo : t.scaleLo = s.scaleLo)
    (hhi : t.scaleHi = s.scaleHi) : t.ScaleOk := by
  unfold State.ScaleOk State.scaleBits at *
  rw [hf, hlo, hhi, h]

theorem State.RecordOk.congr {s t : State} (h : s.RecordOk) (hr : t.run = s.run) (hpc : t.pc = s.pc)
    (hc : t.cause = s.cause) (hf : t.fpc = s.fpc) (hi : t.finfo = s.finfo) : t.RecordOk := by
  unfold State.RecordOk at *
  rw [hr, hpc, hc, hf, hi]
  exact h

theorem recordOk_of_run_ne {s : State} (h : s.run ≠ .faulted) :
    s.RecordOk ↔ s.cause = 0 ∧ s.fpc = 0 ∧ s.finfo = 0 := by
  unfold State.RecordOk
  rw [if_neg h]

/-- `t` meets each of the three invariants that `s` meets. -/
structure State.KeepsOk (s t : State) : Prop where
  mode : s.ModeOk → t.ModeOk
  scale : s.ScaleOk → t.ScaleOk
  record : s.RecordOk → t.RecordOk

theorem State.KeepsOk.refl (s : State) : s.KeepsOk s := ⟨id, id, id⟩

theorem State.KeepsOk.trans {s t u : State} (h : s.KeepsOk t) (h' : t.KeepsOk u) : s.KeepsOk u :=
  ⟨h'.mode ∘ h.mode, h'.scale ∘ h.scale, h'.record ∘ h.record⟩

theorem State.keepsOk_softReset (s : State) : s.KeepsOk s.softReset :=
  ⟨fun _ => rfl, fun _ => scaleOk_powerOn s.params, fun _ => recordOk_powerOn s.params⟩

theorem State.keepsOk_raise (s : State) (x : Trap) : s.KeepsOk (s.raise x) :=
  ⟨fun h => h.congr rfl rfl, fun h => h.congr rfl rfl rfl, fun _ => record_raise s x⟩

theorem State.keepsOk_start (s : State) : s.KeepsOk s.start :=
  ⟨fun h => h.congr rfl rfl, fun h => h.congr rfl rfl rfl, fun _ => ⟨rfl, rfl, rfl⟩⟩

theorem State.keepsOk_ctrlReset (s : State) (v : Word) : s.KeepsOk (s.ctrlReset v) := by
  unfold State.ctrlReset
  split
  · exact s.keepsOk_softReset
  · exact .refl s

theorem State.keepsOk_writeCtrl (s : State) (v : Word) : s.KeepsOk (s.writeCtrl v) :=
  State.writeCtrl_keeps (s.keepsOk_ctrlReset v) (fun u h => h.trans (u.keepsOk_raise _))
    (fun _ _ h => h.trans ⟨fun h => h.congr rfl rfl, fun h => h.congr rfl rfl rfl, fun h => h.congr rfl rfl rfl rfl rfl⟩)
    (fun _ h => h.trans ⟨fun h => h.congr rfl rfl, fun h => h.congr rfl rfl rfl, fun h => h.congr rfl rfl rfl rfl rfl⟩)
    (fun u h => h.trans u.keepsOk_start)

/-- A CSR write accepts an implemented precision only, and recomputes SCALEF with SCALE (10_state.md R33, R37). -/
theorem State.keepsOk_writeCsr? {s t : State} {n : BitVec 8} {v : Word} (h : s.writeCsr? n v = some t) : s.KeepsOk t := by
  refine ⟨fun hm => ?_, fun hs => ?_, fun hr => ?_⟩
  · unfold State.writeCsr? at h
    split at h
    case h_1 =>
      obtain ⟨p, hp, rfl⟩ := Option.map_eq_some_iff.1 h
      exact Params.has_of_precOf hp
    all_goals cases h <;> exact hm.congr rfl rfl
  · unfold State.writeCsr? at h
    split at h
    case h_1 =>
      obtain ⟨p, -, rfl⟩ := Option.map_eq_some_iff.1 h
      exact hs.congr rfl rfl rfl
    case h_2 | h_3 =>
      cases h
      rfl
    all_goals cases h <;> exact hs.congr rfl rfl rfl
  · rw [State.writeCsr?_eq_some h]
    exact hr.congr rfl rfl rfl rfl rfl

theorem State.keepsOk_hostWrite? {s t : State} {tgt : HostTarget} {v : Word} (h : s.hostWrite? tgt v = some t) :
    s.KeepsOk t := by
  cases tgt with
  | csr n => exact State.keepsOk_writeCsr? h
  | ctrl =>
    cases h
    exact s.keepsOk_writeCtrl v
  | hpc => cases h
  | entry | irqstat | imem w | dmem a =>
    cases h
    exact ⟨fun h => h.congr rfl rfl, fun h => h.congr rfl rfl rfl, fun h => h.congr rfl rfl rfl rfl rfl⟩
  | reg r =>
    cases h
    exact ⟨fun h => h.congr (by simp) (by simp), fun h => h.congr (by simp) (by simp) (by simp),
      fun h => h.congr (by simp) (by simp) (by simp) (by simp) (by simp)⟩

theorem Ending.Moves.run_ne_faulted {s t : State} {e : Ending} (h : e.Moves s t) : t.run ≠ .faulted := by
  cases e <;> simp_all [Ending.Moves]

/-- An instruction of a running unit keeps all three: it changes MODE and SCALE by a CSR write alone, and leaves a clear
fault record clear unless it faults. -/
theorem keepsOk_exec {i : Instr} {s t : State} (hr : s.run = .running) (h : exec i s = .next t) : s.KeepsOk t := by
  rcases exec_cases h with ⟨x, rfl, -⟩ | hl
  · exact s.keepsOk_raise x
  · have hrecord : s.RecordOk → t.RecordOk := by
      obtain ⟨-, hcause, hfpc, hinfo, -, hmoves⟩ := hl.retires hr
      rw [recordOk_of_run_ne (by simp [hr]), recordOk_of_run_ne hmoves.run_ne_faulted, hcause, hfpc, hinfo]
      exact id
    obtain ⟨⟨hparams, -⟩, hcsrs, -⟩ := exec_frame h
    by_cases hc : ∃ rs1 n, ending i = .csr rs1 n
    · obtain ⟨rs1, n, hc⟩ := hc
      rw [hc] at hl
      obtain ⟨u, hu, rfl⟩ := hl
      have hk := State.keepsOk_writeCsr? hu
      exact ⟨fun h => (hk.mode h).congr rfl rfl, fun h => (hk.scale h).congr rfl rfl rfl, hrecord⟩
    · obtain ⟨hprec, hlo, hhi, hf, -⟩ := hcsrs fun rs1 n he => hc ⟨rs1, n, he⟩
      exact ⟨fun h => h.congr hparams hprec, fun h => h.congr hf hlo hhi, hrecord⟩

theorem RunsTo.keepsOk {s t : State} (hr : s.run = .running) (h : RunsTo s t) : s.KeepsOk t := by
  rcases h with ⟨x, rfl, -⟩ | ⟨i, -, h⟩
  · exact s.keepsOk_raise x
  · exact keepsOk_exec hr h

theorem State.keepsOk_turns (s : State) (rest : List Turn) : s.KeepsOk { s with turns := rest } :=
  ⟨fun h => h.congr rfl rfl, fun h => h.congr rfl rfl rfl, fun h => h.congr rfl rfl rfl rfl rfl⟩

theorem State.keepsOk_hostAccess (s : State) (a : HostAccess) : s.KeepsOk (s.hostAccess a) := by
  rcases hostAccess_cases s a with ⟨e, r, he⟩ | ⟨offset, v, tgt, u, -, -, -, hw, he⟩ <;> rw [he]
  · exact ⟨fun h => h.congr rfl rfl, fun h => h.congr rfl rfl rfl, fun h => h.congr rfl rfl rfl rfl rfl⟩
  · exact State.keepsOk_hostWrite? hw

/-- Settles O58: each kind of step keeps the three invariants. -/
theorem stepKeepsModeScaleAndRecord : Obligations.StepKeepsModeScaleAndRecord := by
  intro s t h
  suffices hk : s.KeepsOk t from ⟨hk.mode, hk.scale, hk.record⟩
  obtain ⟨-, ⟨hr, s', ⟨rfl, -⟩ | ⟨rest, -, rfl⟩, hrun⟩ | ⟨-, rfl | ⟨rest, -, rfl⟩⟩ | ⟨a, rest, -, rfl⟩⟩ := step_cases h
  · exact hrun.keepsOk hr
  · exact (s.keepsOk_turns rest).trans (RunsTo.keepsOk (s := { s with turns := rest }) hr hrun)
  · exact .refl t
  · exact s.keepsOk_turns rest
  · exact (s.keepsOk_turns rest).trans (State.keepsOk_hostAccess _ a)

end Sys2Proof.Machine

/-! # Proofs: the argument and length faults of the batched instructions

Each is one `batchedBody`, whose own checks are found after BCOUNT and before the operands. -/

namespace Sys2Proof.Machine

/-! ## The faults of the batched instructions before their operands (42_fft_sr.md R170, 60_exceptions.md R353) -/

section BatchedFaults

variable {i : Instr} {s : State} {n src dst : Nat} {args : Except Trap Unit} {slots : List Slot}
  {kernel : List (Cplx s.prec) → List (Cplx s.prec)}

/-- BCOUNT = 0 is found first (10_state.md R40). -/
theorem Faults.of_bcount (h : exec i s = finish s (batchedBody s n src dst args slots kernel)) (hb : s.bcount = 0) :
    Faults i s .invalidArgument 0 := by
  unfold Faults
  rw [h, batchedBody_of_bcount hb]
  rfl

/-- With BCOUNT not 0 the instruction's own checks come next. -/
theorem Faults.of_args {c : Cause} {info : Nat} (h : exec i s = finish s (batchedBody s n src dst args slots kernel))
    (hb : s.bcount ≠ 0) (ha : args = .error ⟨c, info⟩) : Faults i s c info := by
  unfold Faults
  rw [h, batchedBody_of_args hb ha]
  rfl

/-- The faults of an instruction whose own check is that of a length 2^lg. -/
theorem Faults.of_checkLg {lg : Nat} (h : exec i s = finish s (batchedBody s n src dst args slots kernel))
    (hb : s.bcount ≠ 0) (ha : 2 ≤ lg → args = checkLg s lg) :
    (21 < lg → Faults i s .unsupportedLength (2 ^ lg)) ∧
      (2 ≤ lg → lg ≤ 21 → s.params.maxLog2 < lg → Faults i s .resource (2 ^ lg)) :=
  ⟨fun hlg => .of_args h hb ((ha (by omega)).trans (checkLg_of_gt hlg)),
    fun h2 hlg hmax => .of_args h hb ((ha h2).trans (checkLg_of_maxLog2_lt hlg hmax))⟩

/-- The faults of an instruction whose own check is that of a length parameter. -/
theorem LengthFaults.of_checkLength {m len : Nat} {supported : Bool}
    (h : exec i s = finish s (batchedBody s n src dst args slots kernel)) (hb : s.bcount ≠ 0)
    (ha : args = checkLength s m len supported) : LengthFaults i s m len (supported = true) := by
  subst ha
  refine ⟨?_, fun hm hs => ?_, fun hm hs hlen => ?_⟩
  · rintro rfl
    exact .of_args h hb (checkLength_zero s len supported)
  · obtain rfl : supported = false := by simpa using hs
    exact .of_args h hb (checkLength_of_unsupported hm)
  · subst hs
    exact .of_args h hb (checkLength_of_maxN_lt hm hlen)

end BatchedFaults

theorem checkSrcomb_of_lt {s : State} {lg : Nat} (h : lg < 2) :
    checkSrcomb s lg = .error ⟨.unsupportedLength, pow2 lg⟩ :=
  check_then_of_error ((require_eq_error_iff _ _ _).2 ⟨by simpa using h, rfl⟩) _

theorem checkSrcomb_of_le {s : State} {lg : Nat} (h : 2 ≤ lg) : checkSrcomb s lg = checkLg s lg :=
  check_then_of_ok ((require_eq_ok_iff _ _).2 (by simpa using h)) _

/-! The checks of PFA, each reached when those before it pass (43_fft_prime.md R207). -/

theorem checkPfa_zero (s : State) (n1 : Nat) : checkPfa s n1 0 = .error ⟨.invalidArgument, 0⟩ := rfl

theorem checkPfa_of_gcd {s : State} {n1 n2 : Nat} (h0 : n2 ≠ 0) (hg : Nat.gcd n1 n2 ≠ 1) :
    checkPfa s n1 n2 = .error ⟨.invalidArgument, n2⟩ := by
  simp [checkPfa, requireNonzero_of_ne h0, require, hg, bind, Except.bind]

theorem checkPfa_of_unsupported {s : State} {n1 n2 : Nat} (h0 : n2 ≠ 0) (hg : Nat.gcd n1 n2 = 1)
    (h : n2 < 2 ∨ inS n2 = false ∨ 2 ^ 21 < n1 * n2) : checkPfa s n1 n2 = .error ⟨.unsupportedLength, n2⟩ := by
  have hf : (decide (2 ≤ n2) && inS n2 && decide (n1 * n2 ≤ lengthCap)) = false := by
    rcases h with h | h | h
    · simp [Nat.not_le.2 h]
    · simp [h]
    · have hcap : ¬n1 * n2 ≤ lengthCap := Nat.not_le.2 h
      simp [hcap]
  simp [checkPfa, requireNonzero_of_ne h0, require, hg, hf, bind, Except.bind]

theorem checkPfa_of_maxN_lt {s : State} {n1 n2 : Nat} (h2 : 2 ≤ n2) (hg : Nat.gcd n1 n2 = 1) (hs : inS n2 = true)
    (hcap : n1 * n2 ≤ 2 ^ 21) (h : s.params.maxN < n1 * n2) : checkPfa s n1 n2 = .error ⟨.resource, n1 * n2⟩ := by
  have hcap' : n1 * n2 ≤ lengthCap := hcap
  have h0 : n2 ≠ 0 := by omega
  simp [checkPfa, requireNonzero_of_ne h0, require, hg, h2, hs, hcap', Nat.not_le.2 h, bind, Except.bind]

/-- The argument and length faults of PFA with factor `n1`, in their order (43_fft_prime.md R207). -/
theorem Faults.of_pfaBody {i : Instr} {s : State} {n1 d a n2 : Nat} {inv : Bool}
    (h : exec i s = finish s (pfaBody n1 inv d a n2 s)) (hb : s.bcount ≠ 0) :
    (n2 = 0 → Faults i s .invalidArgument 0) ∧
      (n2 ≠ 0 → Nat.gcd n1 n2 ≠ 1 → Faults i s .invalidArgument n2) ∧
      (n2 ≠ 0 → Nat.gcd n1 n2 = 1 → (n2 < 2 ∨ inS n2 = false ∨ 2 ^ 21 < n1 * n2) → Faults i s .unsupportedLength n2) ∧
      (2 ≤ n2 → Nat.gcd n1 n2 = 1 → inS n2 = true → n1 * n2 ≤ 2 ^ 21 → s.params.maxN < n1 * n2 →
        Faults i s .resource (n1 * n2)) := by
  refine ⟨?_, fun h0 hg => .of_args h hb (checkPfa_of_gcd h0 hg),
    fun h0 hg hl => .of_args h hb (checkPfa_of_unsupported h0 hg hl),
    fun h2 hg hs hcap hmax => .of_args h hb (checkPfa_of_maxN_lt h2 hg hs hcap hmax)⟩
  rintro rfl
  exact .of_args h hb (checkPfa_zero s n1)

/-- Settles O29: each instruction is one batched body, whose checks are those of the lemmas above. -/
theorem batchedInstructionsFaultInOrder : Obligations.BatchedInstructionsFaultInOrder := by
  intro s rd rs1 rs2 rs3 lg n
  refine ⟨fun hb => ?_, fun hb hlg => .of_args (args := checkSrcomb s lg.toNat) rfl hb (checkSrcomb_of_lt hlg),
    fun hb => ?_, fun hb => ?_, fun hb => ?_⟩ <;>
    simp only [List.forall_mem_cons, List.not_mem_nil, false_imp_iff, implies_true, and_true]
  · and_intros <;> exact Faults.of_bcount rfl hb
  · exact ⟨Faults.of_checkLg rfl hb checkSrcomb_of_le, Faults.of_checkLg rfl hb fun _ => rfl,
      Faults.of_checkLg rfl hb fun _ => rfl, Faults.of_checkLg rfl hb fun _ => rfl⟩
  · exact ⟨.of_checkLength rfl hb rfl, .of_checkLength rfl hb rfl⟩
  · refine ⟨?_, ?_, ?_, ?_, ?_, ?_, ?_, ?_, ?_, ?_⟩ <;> exact Faults.of_pfaBody rfl hb

end Sys2Proof.Machine

/-! # Proofs: correct rounding and SCALEF -/

namespace Sys2Proof.Machine

/-! ## Correct rounding of the binary formats (41_numeric.md R141, R142)

`Fmt.magUnits` is strictly increasing, the value that `Fmt.roundMag` finds before it is clamped is a nearest one among all
magnitudes, ties to even, and so it overflows exactly at the rounding bound. -/

theorem pow2_eq (k : Nat) : pow2 k = 2 ^ k := rfl

/-- How far `m` is from n / 2^k, in units of 1 / 2^k. -/
def roundGap (n k m : Nat) : Nat := ((2 ^ k * m : Nat) - (n : Int)).natAbs

theorem roundShift_cases (n d : Nat) : (roundShift n d = n / 2 ^ d + 1 ∧ 2 ^ d < 2 * (n % 2 ^ d)) ∨
    (roundShift n d = n / 2 ^ d + n / 2 ^ d % 2 ∧ 2 * (n % 2 ^ d) = 2 ^ d) ∨
    (roundShift n d = n / 2 ^ d ∧ 2 * (n % 2 ^ d) < 2 ^ d) := by
  rw [← pow2_eq]
  simp only [roundShift]
  split
  · omega
  · split <;> omega

/-- No multiple of 2^d is nearer to n than 2^d · roundShift n d, and one as near only when that quotient is even. -/
theorem roundShift_nearest (n d j : Nat) : roundGap n d (roundShift n d) ≤ roundGap n d j ∧
    (j ≠ roundShift n d → roundGap n d j = roundGap n d (roundShift n d) → roundShift n d % 2 = 0) := by
  have hpos : 0 < 2 ^ d := Nat.two_pow_pos d
  have hdiv := Nat.div_add_mod n (2 ^ d)
  have hmod := Nat.mod_lt n hpos
  have hsucc : 2 ^ d * (n / 2 ^ d + 1) = 2 ^ d * (n / 2 ^ d) + 2 ^ d := Nat.mul_succ _ _
  have hj : 2 ^ d * j ≤ 2 ^ d * (n / 2 ^ d) ∧ (j ≠ n / 2 ^ d → 2 ^ d * j + 2 ^ d ≤ 2 ^ d * (n / 2 ^ d)) ∨
      2 ^ d * (n / 2 ^ d) + 2 ^ d ≤ 2 ^ d * j ∧
        (j ≠ n / 2 ^ d + 1 → 2 ^ d * (n / 2 ^ d) + 2 ^ d + 2 ^ d ≤ 2 ^ d * j) := by
    rcases Nat.lt_or_ge (n / 2 ^ d) j with h | h
    · right
      rw [← hsucc]
      refine ⟨Nat.mul_le_mul_left _ h, fun hne => ?_⟩
      exact (Nat.mul_succ _ _).symm.le.trans (Nat.mul_le_mul_left _ (by omega))
    · left
      refine ⟨Nat.mul_le_mul_left _ h, fun hne => ?_⟩
      exact (Nat.mul_succ _ _).symm.le.trans (Nat.mul_le_mul_left _ (by omega))
  have hcases := roundShift_cases n d
  unfold roundGap
  generalize roundShift n d = q at *
  generalize n / 2 ^ d = a at *
  generalize n % 2 ^ d = r at *
  generalize 2 ^ d = D at *
  have hq : q = a ∨ q = a + 1 := by omega
  rcases hq with rfl | rfl
  · generalize D * q = x at *
    generalize D * j = y at *
    omega
  · rw [hsucc] at *
    generalize D * a = x at *
    generalize D * j = y at *
    omega

theorem div_le_roundShift (n d : Nat) : n / 2 ^ d ≤ roundShift n d := by
  have := roundShift_cases n d
  omega

theorem roundShift_le_div_succ (n d : Nat) : roundShift n d ≤ n / 2 ^ d + 1 := by
  have := roundShift_cases n d
  omega

/-! ### The values of magnitude bits -/

theorem Fmt.magUnits_of_block (f : Fmt) (e : Nat) {r : Nat} (hr : r < 2 ^ f.fbits) :
    f.magUnits (2 ^ f.fbits * e + r) = if e = 0 then r else 2 ^ (e - 1) * (2 ^ f.fbits + r) := by
  have hdiv : (2 ^ f.fbits * e + r) / 2 ^ f.fbits = e := by
    rw [Nat.mul_add_div (Nat.two_pow_pos _), Nat.div_eq_of_lt hr, Nat.add_zero]
  have hmod : (2 ^ f.fbits * e + r) % 2 ^ f.fbits = r := by
    rw [Nat.mul_add_mod, Nat.mod_eq_of_lt hr]
  simp only [Fmt.magUnits, pow2_eq, hdiv, hmod]
  split
  · next h => simp [h]
  · rfl

/-- q steps of 2^s, for the exponent field s that q needs: also where q carries into the next exponent. -/
theorem Fmt.magUnits_shift (f : Fmt) {s q : Nat} (hq : q ≤ 2 * 2 ^ f.fbits) (hs : s = 0 ∨ 2 ^ f.fbits ≤ q) :
    f.magUnits (2 ^ f.fbits * s + q) = 2 ^ s * q := by
  have hpos : 0 < 2 ^ f.fbits := Nat.two_pow_pos _
  rcases Nat.lt_or_ge q (2 ^ f.fbits) with hlt | hge
  · obtain rfl : s = 0 := by omega
    rw [f.magUnits_of_block 0 hlt]
    simp
  · obtain ⟨r, rfl⟩ := Nat.exists_eq_add_of_le hge
    rcases Nat.lt_or_ge r (2 ^ f.fbits) with hlt | hge'
    · rw [← Nat.add_assoc, ← Nat.mul_succ, f.magUnits_of_block _ hlt]
      simp
    · obtain rfl : r = 2 ^ f.fbits := by omega
      have h := f.magUnits_of_block (s + 2) hpos
      rw [show 2 ^ f.fbits * (s + 2) + 0 = 2 ^ f.fbits * s + (2 ^ f.fbits + 2 ^ f.fbits) by ring] at h
      rw [h, if_neg (by omega), show s + 2 - 1 = s + 1 by omega]
      ring

/-- A value is a multiple of 2^s or lies below the values of exponent field s + 1. -/
theorem Fmt.pow_dvd_magUnits_or_lt (f : Fmt) (s x : Nat) : 2 ^ s ∣ f.magUnits x ∨ f.magUnits x < 2 ^ s * 2 ^ f.fbits := by
  have hr : x % 2 ^ f.fbits < 2 ^ f.fbits := Nat.mod_lt _ (Nat.two_pow_pos _)
  have hx := f.magUnits_of_block (x / 2 ^ f.fbits) hr
  rw [Nat.div_add_mod] at hx
  rw [hx]
  split
  · exact .inr (hr.trans_le (Nat.le_mul_of_pos_left _ (Nat.two_pow_pos s)))
  · next he =>
    rcases Nat.lt_or_ge (x / 2 ^ f.fbits - 1) s with hlt | hge
    · right
      calc 2 ^ (x / 2 ^ f.fbits - 1) * (2 ^ f.fbits + x % 2 ^ f.fbits)
          < 2 ^ (x / 2 ^ f.fbits - 1) * (2 * 2 ^ f.fbits) := Nat.mul_lt_mul_of_pos_left (by omega) (Nat.two_pow_pos _)
        _ = 2 ^ (x / 2 ^ f.fbits - 1 + 1) * 2 ^ f.fbits := by ring
        _ ≤ 2 ^ s * 2 ^ f.fbits := Nat.mul_le_mul_right _ (Nat.pow_le_pow_right (by norm_num) hlt)
    · exact .inl ((pow_dvd_pow 2 hge).mul_right _)

theorem Fmt.magUnits_strictMono (f : Fmt) : StrictMono f.magUnits := by
  refine strictMono_nat_of_lt_succ fun x => ?_
  have hr : x % 2 ^ f.fbits < 2 ^ f.fbits := Nat.mod_lt _ (Nat.two_pow_pos _)
  have hx := f.magUnits_of_block (x / 2 ^ f.fbits) hr
  rw [Nat.div_add_mod] at hx
  have hsplit : x + 1 = 2 ^ f.fbits * (x / 2 ^ f.fbits) + (x % 2 ^ f.fbits + 1) := by
    rw [← Nat.add_assoc, Nat.div_add_mod]
  generalize x % 2 ^ f.fbits = r at *
  generalize x / 2 ^ f.fbits = e at *
  rw [hx, hsplit]
  rcases Nat.lt_or_ge (r + 1) (2 ^ f.fbits) with hlt | hge
  · rw [f.magUnits_of_block e hlt]
    split
    · exact Nat.lt_succ_self r
    · exact Nat.mul_lt_mul_of_pos_left (by omega) (Nat.two_pow_pos _)
  · have hlast : r + 1 = 2 ^ f.fbits := by omega
    rw [hlast, f.magUnits_shift (by omega) (.inr le_rfl)]
    split
    · next h => rw [h]; omega
    · next h =>
      obtain ⟨e, rfl⟩ := Nat.exists_eq_succ_of_ne_zero h
      calc 2 ^ (e + 1 - 1) * (2 ^ f.fbits + r)
          < 2 ^ e * (2 * 2 ^ f.fbits) := Nat.mul_lt_mul_of_pos_left (by omega) (Nat.two_pow_pos _)
        _ = 2 ^ (e + 1) * 2 ^ f.fbits := by ring

/-! ### The nearest value -/

/-- `r` has the value nearest to n / 2^k of all magnitude bits, those beyond infinity's included, and is even when another
is as near. -/
def Fmt.Nearest (f : Fmt) (n k r : Nat) : Prop := ∀ x,
  roundGap n k (f.magUnits r) ≤ roundGap n k (f.magUnits x) ∧
    (f.magUnits x ≠ f.magUnits r → roundGap n k (f.magUnits x) = roundGap n k (f.magUnits r) → r % 2 = 0)

/-- Rounding to multiples of 2^s is rounding to the nearest value, when n / 2^k is in the range of exponent field s + 1, or
below it for s = 0. -/
theorem Fmt.nearest_of_roundShift {f : Fmt} (hf : 1 ≤ f.fbits) {n k s : Nat} (hlt : n < 2 ^ (k + s) * (2 * 2 ^ f.fbits))
    (hge : s = 0 ∨ 2 ^ (k + s) * 2 ^ f.fbits ≤ n) : f.Nearest n k (2 ^ f.fbits * s + roundShift n (k + s)) := by
  have hpos : 0 < 2 ^ (k + s) := Nat.two_pow_pos _
  have hqle : roundShift n (k + s) ≤ 2 * 2 ^ f.fbits :=
    (roundShift_le_div_succ n (k + s)).trans ((Nat.div_lt_iff_lt_mul hpos).2 (by rwa [Nat.mul_comm]))
  have hqge : s = 0 ∨ 2 ^ f.fbits ≤ roundShift n (k + s) := hge.imp id fun h =>
    ((Nat.le_div_iff_mul_le hpos).2 (by rwa [Nat.mul_comm])).trans (div_le_roundShift n (k + s))
  have hgap : ∀ j, roundGap n k (2 ^ s * j) = roundGap n (k + s) j := fun j => by
    unfold roundGap
    rw [pow_add, Nat.mul_assoc]
  have hparity : (2 ^ f.fbits * s + roundShift n (k + s)) % 2 = roundShift n (k + s) % 2 := by
    obtain ⟨b, hb⟩ := Nat.exists_eq_add_of_le hf
    rw [hb, pow_add, pow_one, Nat.mul_assoc, Nat.mul_add_mod]
  intro x
  rw [f.magUnits_shift hqle hqge, hparity, hgap]
  rcases f.pow_dvd_magUnits_or_lt s x with ⟨j, hj⟩ | hbelow
  · rw [hj, hgap]
    obtain ⟨hle, heven⟩ := roundShift_nearest n (k + s) j
    exact ⟨hle, fun hne => heven fun he => hne (by rw [he])⟩
  · rcases hge with rfl | hge
    · have h := roundShift_nearest n k (f.magUnits x)
      simpa using h
    · have hle := (roundShift_nearest n (k + s) (2 ^ f.fbits)).1
      have hx : 2 ^ k * f.magUnits x < 2 ^ (k + s) * 2 ^ f.fbits := by
        rw [pow_add, Nat.mul_assoc]
        exact Nat.mul_lt_mul_of_pos_left hbelow (Nat.two_pow_pos k)
      have hfar : roundGap n (k + s) (2 ^ f.fbits) < roundGap n k (f.magUnits x) := by
        unfold roundGap
        generalize 2 ^ k * f.magUnits x = y at *
        generalize 2 ^ (k + s) * 2 ^ f.fbits = z at *
        omega
      exact ⟨(hle.trans_lt hfar).le, fun _ he => absurd he (hle.trans_lt hfar).ne'⟩

/-- What `roundMag` finds is a nearest value, clamped to infinity's bits. -/
theorem Fmt.roundMag_eq_min {f : Fmt} (hf : 1 ≤ f.fbits) (n k : Nat) :
    ∃ r, f.roundMag n k = min r f.infMag ∧ f.Nearest n k r := by
  by_cases hn : n = 0
  · subst hn
    refine ⟨0, by simp [Fmt.roundMag], fun x => ⟨?_, fun _ _ => rfl⟩⟩
    have h0 : f.magUnits 0 = 0 := by simp [Fmt.magUnits]
    simp [h0, roundGap]
  · obtain ⟨s, hs⟩ := Nat.exists_eq_add_of_le (Nat.le_max_left k (Nat.log2 n + 1 - (f.fbits + 1)))
    refine ⟨2 ^ f.fbits * s + roundShift n (k + s), ?_, Fmt.nearest_of_roundShift hf ?_ ?_⟩
    · simp only [Fmt.roundMag, if_neg hn, pow2_eq]
      rw [show Nat.max k (Nat.log2 n + 1 - (f.fbits + 1)) = k + s from hs, Nat.add_sub_cancel_left]
    · calc n < 2 ^ (Nat.log2 n + 1) := Nat.lt_log2_self
        _ ≤ 2 ^ (k + s + (f.fbits + 1)) := Nat.pow_le_pow_right (by norm_num) (by omega)
        _ = 2 ^ (k + s) * (2 * 2 ^ f.fbits) := by ring
    · rcases Nat.eq_zero_or_pos s with h0 | h0
      · exact .inl h0
      · right
        calc 2 ^ (k + s) * 2 ^ f.fbits = 2 ^ (k + s + f.fbits) := (pow_add _ _ _).symm
          _ ≤ 2 ^ Nat.log2 n := Nat.pow_le_pow_right (by norm_num) (by omega)
          _ ≤ n := Nat.log2_self_le hn

/-- A nearest value overflows exactly when n / 2^k is at or beyond the midpoint of the largest finite value and
infinity's. -/
theorem Fmt.Nearest.infMag_le_iff {f : Fmt} (hf : 1 ≤ f.fbits) (he : 1 ≤ f.ebits) {n k r : Nat} (h : f.Nearest n k r) :
    f.infMag ≤ r ↔ 2 ^ k * (f.magUnits (f.infMag - 1) + f.magUnits f.infMag) ≤ 2 * n := by
  have heven : f.infMag % 2 = 0 := by
    obtain ⟨b, hb⟩ := Nat.exists_eq_add_of_le hf
    rw [Fmt.infMag, pow2_eq, hb, pow_add, pow_one, Nat.mul_assoc, Nat.mul_mod_right]
  have hpos : 0 < f.infMag := by
    refine Nat.mul_pos (Nat.two_pow_pos _) ?_
    have : 2 ^ 1 ≤ pow2 f.ebits := Nat.pow_le_pow_right (by norm_num) he
    omega
  have hmono : ∀ {a b}, a ≤ b → 2 ^ k * f.magUnits a ≤ 2 ^ k * f.magUnits b := fun hab =>
    Nat.mul_le_mul_left _ (f.magUnits_strictMono.monotone hab)
  have hstrict : ∀ {a b}, a < b → 2 ^ k * f.magUnits a < 2 ^ k * f.magUnits b := fun hab =>
    Nat.mul_lt_mul_of_pos_left (f.magUnits_strictMono hab) (Nat.two_pow_pos k)
  rw [Nat.mul_add]
  rcases Nat.lt_or_ge r f.infMag with hlt | hge
  · obtain ⟨hle, hev⟩ := h f.infMag
    have h1 := hmono (show r ≤ f.infMag - 1 by omega)
    have h2 := hstrict hlt
    have hne := f.magUnits_strictMono.injective.ne hlt.ne'
    replace hev := hev hne
    have h3 : r = f.infMag - 1 ∨ 2 ^ k * f.magUnits r < 2 ^ k * f.magUnits (f.infMag - 1) :=
      (Nat.lt_or_ge r (f.infMag - 1)).elim (fun hr => .inr (hstrict hr)) fun hr => .inl (by omega)
    unfold roundGap at *
    generalize 2 ^ k * f.magUnits (f.infMag - 1) = a at *
    generalize 2 ^ k * f.magUnits f.infMag = b at *
    generalize 2 ^ k * f.magUnits r = c at *
    omega
  · have hle := (h (f.infMag - 1)).1
    have h1 := hmono hge
    have h2 := hstrict (show f.infMag - 1 < f.infMag by omega)
    unfold roundGap at *
    generalize 2 ^ k * f.magUnits (f.infMag - 1) = a at *
    generalize 2 ^ k * f.magUnits f.infMag = b at *
    generalize 2 ^ k * f.magUnits r = c at *
    omega

/-! ### Encodings -/

theorem Fmt.infMag_lt_signBit (f : Fmt) : f.infMag < f.signBit := by
  simp only [Fmt.infMag, Fmt.signBit, pow2_eq]
  rw [Nat.add_comm f.ebits, pow_add]
  exact Nat.mul_lt_mul_of_pos_left (Nat.sub_lt (Nat.two_pow_pos _) one_pos) (Nat.two_pow_pos _)

/-- A sign and magnitude bits up to infinity's are read back as they were packed. -/
theorem Fmt.decode_pack (f : Fmt) (neg : Bool) {mag : Nat} (h : mag ≤ f.infMag) :
    f.decode (f.pack neg mag) = if mag = f.infMag then .inf neg else .fin neg (f.magUnits mag) := by
  have hlt : mag < f.signBit := h.trans_lt f.infMag_lt_signBit
  have hmod : f.pack neg mag % f.signBit = mag := by
    cases neg <;> simp [Fmt.pack, Nat.mod_eq_of_lt hlt]
  have hneg : decide (f.signBit ≤ f.pack neg mag) = neg := by
    cases neg <;> simp [Fmt.pack, hlt]
  simp only [Fmt.decode, hmod, hneg]
  rw [if_neg (by omega)]

theorem Fmt.pack_lt (f : Fmt) (neg : Bool) {mag : Nat} (h : mag ≤ f.infMag) : f.pack neg mag < 2 * f.signBit := by
  have := f.infMag_lt_signBit
  cases neg <;> simp only [Fmt.pack, Bool.false_eq_true, if_false, if_true] <;> omega

theorem Fmt.roundMag_le_infMag (f : Fmt) (n k : Nat) : f.roundMag n k ≤ f.infMag := by
  unfold Fmt.roundMag
  split
  · exact Nat.zero_le _
  · exact Nat.min_le_right _ _

/-- `roundMag` under the sign of a number rounds the number correctly. -/
theorem Fmt.roundsTo_pack_roundMag {f : Fmt} (hf : 1 ≤ f.fbits) (he : 1 ≤ f.ebits) {num : Int} {neg : Bool} (k : Nat)
    (hneg : num ≠ 0 → neg = decide (num < 0)) : f.RoundsTo num k (f.pack neg (f.roundMag num.natAbs k)) := by
  obtain ⟨r, hr, hnear⟩ := Fmt.roundMag_eq_min hf num.natAbs k
  have hiff := hnear.infMag_le_iff hf he
  unfold Fmt.RoundsTo
  simp only [pow2_eq]
  rw [f.decode_pack neg (f.roundMag_le_infMag _ _), hr]
  rcases Nat.lt_or_ge r f.infMag with hlt | hge
  · have hbound := Nat.lt_of_not_le fun hc => Nat.not_le.2 hlt (hiff.2 hc)
    rw [Nat.min_eq_left hlt.le, if_neg hlt.ne]
    refine ⟨hbound, hneg, fun x _ => ⟨(hnear x).1, fun hne hgap => ?_⟩⟩
    have hsign : f.signBit % 2 = 0 := by
      obtain ⟨b, hb⟩ := Nat.exists_eq_add_of_le he
      rw [Fmt.signBit, pow2_eq, hb, Nat.add_assoc, pow_add, pow_one, Nat.mul_mod_right]
    have hmag := (hnear x).2 hne hgap
    cases neg <;> simp only [Fmt.pack, Bool.false_eq_true, if_false, if_true] <;> omega
  · rw [Nat.min_eq_right hge, if_pos rfl]
    have hbound := hiff.1 hge
    refine ⟨hneg ?_, hbound⟩
    rintro rfl
    have hpos : 0 < 2 ^ k * (f.magUnits (f.infMag - 1) + f.magUnits f.infMag) := by
      refine Nat.mul_pos (Nat.two_pow_pos _) (Nat.add_pos_right _ ?_)
      have hinf : 0 < f.infMag := Nat.mul_pos (Nat.two_pow_pos _) (Nat.sub_pos_of_lt (Nat.one_lt_two_pow (by omega)))
      exact (Nat.zero_le _).trans_lt (f.magUnits_strictMono hinf)
    simp at hbound
    omega

/-! ## SCALEF (10_state.md R37) -/

theorem scalefOf_of_fin {bits units : Nat} {neg : Bool} (h : fmt64.decode bits = .fin neg units) :
    (scalefOf bits).toNat = fmt32.pack neg (fmt32.roundMag (2 ^ 149 * units) 1074) := by
  have hlt := fmt32.pack_lt neg (fmt32.roundMag_le_infMag (2 ^ 149 * units) 1074)
  unfold scalefOf
  rw [h]
  exact (BitVec.toNat_ofNat _ _).trans (Nat.mod_eq_of_lt hlt)

/-- Settles O14: SCALE is an integer number of units of 2^(−1074), rounded to the binary32 unit 2^(−149). -/
theorem scalefIsScaleRounded : Obligations.ScalefIsScaleRounded := by
  intro bits _
  refine ⟨fun h => ?_, fun neg h => ?_, fun neg h => ?_, fun v hv => ?_⟩
  · unfold scalefOf
    rw [h]
    rfl
  · unfold scalefOf
    rw [h]
    cases neg <;> rfl
  · refine BitVec.eq_of_toNat_eq ?_
    rw [scalefOf_of_fin h]
    cases neg <;> rfl
  · obtain ⟨neg, units, h, rfl⟩ : ∃ neg units, fmt64.decode bits = .fin neg units ∧
        v = if neg then -(units : Int) else units := by
      cases h : fmt64.decode bits with
      | nan => rw [h] at hv; cases hv
      | inf neg => rw [h] at hv; cases hv
      | fin neg units => rw [h] at hv; cases hv; exact ⟨neg, units, rfl, rfl⟩
    have habs : ((if neg then -(units : Int) else units) * 2 ^ 149).natAbs = 2 ^ 149 * units := by
      cases neg <;> simp [Int.natAbs_mul, Nat.mul_comm]
    rw [scalefOf_of_fin h, ← habs]
    refine Fmt.roundsTo_pack_roundMag (by decide) (by decide) 1074 fun hne => ?_
    cases neg
    · simp
    · simp at hne ⊢; omega

end Sys2Proof.Machine

/-! # Proofs: the canonical split, generation on first use, and the completion of FFT, FFT.i, FFTL and FFTL.i -/

namespace Sys2Proof.Machine

/-! ## The canonical split (42_fft_sr.md R186)

Every factor of a canonical split takes one of the primes 3, 5 and 7 out of the length, so that the fuel of `canonFuel`,
`slotsFuel` and `fftFuel` never runs out. -/

/-- How many of the primes 3, 5 and 7 divide `n`. -/
def oddPrimes (n : Nat) : Nat := (if 3 ∣ n then 1 else 0) + (if 5 ∣ n then 1 else 0) + if 7 ∣ n then 1 else 0

theorem oddPrimes_le (n : Nat) : oddPrimes n ≤ 3 := by
  unfold oddPrimes
  split_ifs <;> omega

/-- A factor of a canonical split takes its prime out of the length. -/
theorem oddPrimes_div_lt {f n : Nat} (hf : f ∈ [7, 5, 3, 9]) (hd : f ∣ n) (hg : Nat.gcd f (n / f) = 1) :
    oddPrimes (n / f) < oddPrimes n := by
  obtain ⟨m, rfl⟩ := hd
  have hpos : 0 < f := Nat.pos_of_ne_zero fun h => absurd hf (by simp [h])
  rw [Nat.mul_div_cancel_left m hpos] at hg ⊢
  have hup : ∀ q, q ∣ m → q ∣ f * m := fun q h => Dvd.dvd.mul_left h f
  have hprime : ∀ q, 1 < q → q ∣ f → ¬q ∣ m ∧ q ∣ f * m := fun q hq hqf =>
    ⟨fun hqm => by
      have := Nat.le_of_dvd one_pos (hg ▸ Nat.dvd_gcd hqf hqm)
      omega, Dvd.dvd.mul_right hqf m⟩
  have h3 := hup 3
  have h5 := hup 5
  have h7 := hup 7
  unfold oddPrimes
  simp only [List.mem_cons, List.not_mem_nil, or_false] at hf
  rcases hf with rfl | rfl | rfl | rfl
  · obtain ⟨hno, hyes⟩ := hprime 7 (by norm_num) (by norm_num)
    split_ifs <;> simp_all
  · obtain ⟨hno, hyes⟩ := hprime 5 (by norm_num) (by norm_num)
    split_ifs <;> simp_all
  · obtain ⟨hno, hyes⟩ := hprime 3 (by norm_num) (by norm_num)
    split_ifs <;> simp_all
  · obtain ⟨hno, hyes⟩ := hprime 3 (by norm_num) (by norm_num)
    split_ifs <;> simp_all

theorem findSome?_ite {α β : Type} (p : α → Prop) [DecidablePred p] (g : α → β) (l : List α) :
    (l.findSome? fun x => if p x then some (g x) else none) = (l.filter p).head?.map g := by
  induction l with
  | nil => rfl
  | cons x l ih =>
    by_cases h : p x
    · simp [h]
    · simpa [h] using ih

/-- One level of the search for a split. -/
theorem canonFuel_succ (k n : Nat) : canonFuel (k + 1) n = (([7, 5, 3, 9].filter fun f =>
    decide (f ∣ n) && decide (Nat.gcd f (n / f) = 1) &&
      (isPow2 (n / f) || isCodelet (n / f) || (canonFuel k (n / f)).isSome)).head?).map fun f => (f, n / f) := by
  rw [canonFuel, findSome?_ite]
  congr 2
  refine List.filter_congr fun f _ => ?_
  simp [Nat.dvd_iff_mod_eq_zero, Bool.and_assoc]

/-- More fuel than the length has odd primes makes no difference. -/
theorem canonFuel_eq {n k : Nat} (hk : oddPrimes n ≤ k) {k' : Nat} (hk' : oddPrimes n ≤ k') :
    canonFuel k n = canonFuel k' n := by
  have hnone : ∀ {k n}, oddPrimes n ≤ 0 → canonFuel k n = none := fun {k n} h => by
    cases hc : canonFuel k n with
    | none => rfl
    | some fm =>
      obtain ⟨hf, hd, hm, hg⟩ := canonFuel_eq_some (f := fm.1) (m := fm.2) hc
      have := oddPrimes_div_lt hf (Nat.dvd_of_mod_eq_zero hd) (hm ▸ hg)
      omega
  induction k generalizing n k' with
  | zero => rw [hnone hk, hnone hk]
  | succ k ih =>
    cases k' with
    | zero => rw [hnone hk', hnone hk']
    | succ k' =>
      rw [canonFuel_succ, canonFuel_succ]
      congr 2
      refine List.filter_congr fun f hf => ?_
      by_cases hd : f ∣ n ∧ Nat.gcd f (n / f) = 1
      · have := oddPrimes_div_lt hf hd.1 hd.2
        rw [ih (by omega) (show oddPrimes (n / f) ≤ k' by omega)]
      · simp only [not_and] at hd
        by_cases hd' : f ∣ n
        · simp [hd hd']
        · simp [hd']

theorem canonFuel_three (n : Nat) : canonFuel 3 n = canon n :=
  canonFuel_eq (oddPrimes_le n) ((oddPrimes_le n).trans (by norm_num))

/-- canon as R186 says it: the first factor whose cofactor is prime to it and a length of S. -/
theorem canon_eq_head? {n : Nat} (h : n ≤ 2 ^ 21) : canon n = (([7, 5, 3, 9].filter fun f =>
    decide (f ∣ n) && decide (Nat.gcd f (n / f) = 1) && inS (n / f)).head?).map fun f => (f, n / f) := by
  rw [canon, canonFuel_succ]
  congr 2
  refine List.filter_congr fun f hf => ?_
  by_cases hg : Nat.gcd f (n / f) = 1
  · have hpos : 1 ≤ n / f := Nat.pos_of_ne_zero fun h0 => by
      rw [h0, Nat.gcd_zero_right] at hg
      exact absurd hf (by simp [hg])
    have hcap : n / f ≤ lengthCap := (Nat.div_le_self n f).trans h
    rw [canonFuel_three, inS]
    simp [hpos, hcap]
  · simp [hg]

/-! ## Lengths of S (42_fft_sr.md R185) -/

theorem isPow2_two_pow (lg : Nat) : isPow2 (2 ^ lg) = true := by
  simp [isPow2, pow2_eq]

theorem eq_two_pow_of_isPow2 {n : Nat} (h : isPow2 n = true) : n = 2 ^ Nat.log2 n := by
  simp only [isPow2, Bool.and_eq_true, beq_iff_eq] at h
  exact h.2.symm

theorem isCodelet_iff (n : Nat) : isCodelet n = true ↔ n ∈ [3, 5, 7, 9, 15] := by
  simp [isCodelet, or_assoc]

theorem ne_fifteen_of_isCodelet {n : Nat} (hc : isCodelet n = false) : n ≠ 15 := by
  rintro rfl
  exact absurd hc (by decide)

/-- A length is a power of two, a codelet length, or neither. -/
theorem length_cases (n : Nat) :
    (∃ lg, n = 2 ^ lg) ∨ n ∈ [3, 5, 7, 9] ∨ n = 15 ∨ (isPow2 n = false ∧ isCodelet n = false) := by
  by_cases hp : isPow2 n = true
  · exact .inl ⟨_, eq_two_pow_of_isPow2 hp⟩
  by_cases hc : isCodelet n = true
  · have := (isCodelet_iff n).1 hc
    simp only [List.mem_cons, List.not_mem_nil, or_false] at this ⊢
    tauto
  · exact .inr (.inr (.inr ⟨by simpa using hp, by simpa using hc⟩))

/-- A length of S that is neither has a canonical split. -/
theorem exists_canon_of_inS {n : Nat} (h : inS n = true) (hp : isPow2 n = false) (hc : isCodelet n = false) :
    ∃ f m, canon n = some (f, m) := by
  rw [inS, hp, hc] at h
  simp only [Bool.and_eq_true, Bool.false_or] at h
  obtain ⟨⟨f, m⟩, hs⟩ := Option.isSome_iff_exists.1 h.2
  exact ⟨f, m, hs⟩

/-- A canonical split multiplies back to the length. -/
theorem canon_mul {n f m : Nat} (h : canon n = some (f, m)) : f * m = n := by
  obtain ⟨-, hd, rfl, -⟩ := canonFuel_eq_some h
  exact Nat.mul_div_cancel' (Nat.dvd_of_mod_eq_zero hd)

theorem oddPrimes_lt_of_canon {n f m : Nat} (h : canon n = some (f, m)) : oddPrimes m < oddPrimes n := by
  obtain ⟨hf, hd, rfl, hg⟩ := canonFuel_eq_some h
  exact oddPrimes_div_lt hf (Nat.dvd_of_mod_eq_zero hd) hg

/-- The first part of a canonical split is an odd codelet length other than 15. -/
theorem mem_of_canon {n f m : Nat} (h : canon n = some (f, m)) : f ∈ [3, 5, 7, 9] := by
  have := (canonFuel_eq_some h).1
  simp only [List.mem_cons, List.not_mem_nil, or_false] at this ⊢
  tauto

/-! ## The slots and the function of each length (42_fft_sr.md R181, R186) -/

section Levels

variable (p : Prec) (k : Nat) {n f m : Nat}

theorem slotsFuel_two_pow (lg : Nat) : slotsFuel (k + 1) (2 ^ lg) = slotsNoShuffle lg := by
  rw [slotsFuel, if_pos (isPow2_two_pow lg), Nat.log2_two_pow]

theorem fftFuel_two_pow (lg : Nat) : fftFuel p (k + 1) (2 ^ lg) = fftPow2 p lg := by
  funext v
  rw [fftFuel, if_pos (isPow2_two_pow lg), Nat.log2_two_pow]

theorem slotsFuel_odd (h : n ∈ [3, 5, 7, 9]) : slotsFuel (k + 1) n = [oddSlot n] := by
  simp only [List.mem_cons, List.not_mem_nil, or_false] at h
  rcases h with rfl | rfl | rfl | rfl <;> rfl

theorem fftFuel_odd (h : n ∈ [3, 5, 7, 9]) : fftFuel p (k + 1) n = oddFft p n := by
  simp only [List.mem_cons, List.not_mem_nil, or_false] at h
  rcases h with rfl | rfl | rfl | rfl <;> rfl

theorem slotsFuel_fifteen : slotsFuel (k + 1) 15 = [.t53] := rfl

theorem fftFuel_fifteen : fftFuel p (k + 2) 15 = pfaWith 3 5 (oddFft p 3) (oddFft p 5) := rfl

theorem slotsFuel_of_canon (hp : isPow2 n = false) (hc : isCodelet n = false) (h : canon n = some (f, m)) :
    slotsFuel (k + 1) n = slotsFuel k f ++ slotsFuel k m := by
  rw [slotsFuel, hp, hc, h, if_neg (ne_fifteen_of_isCodelet hc)]
  rfl

theorem fftFuel_of_canon (hp : isPow2 n = false) (hc : isCodelet n = false) (h : canon n = some (f, m)) :
    fftFuel p (k + 1) n = pfaWith f m (fftFuel p k f) (fftFuel p k m) := by
  funext v
  rw [fftFuel, hp, hc, h, if_neg (ne_fifteen_of_isCodelet hc)]
  rfl

/-- Fuel beyond the odd primes of the length makes no difference to the slots. -/
theorem slotsFuel_eq {k k' n : Nat} (hk : oddPrimes n < k) (hk' : oddPrimes n < k') : slotsFuel k n = slotsFuel k' n := by
  induction k generalizing n k' with
  | zero => omega
  | succ k ih =>
    obtain ⟨k', rfl⟩ := Nat.exists_eq_succ_of_ne_zero (show k' ≠ 0 by omega)
    rcases length_cases n with ⟨lg, rfl⟩ | hodd | rfl | ⟨hp, hc⟩
    · rw [slotsFuel_two_pow, slotsFuel_two_pow]
    · rw [slotsFuel_odd k hodd, slotsFuel_odd k' hodd]
    · rw [slotsFuel_fifteen, slotsFuel_fifteen]
    · cases hs : canon n with
      | none => simp [slotsFuel, hp, hc, hs]
      | some fm =>
        obtain ⟨f, m⟩ := fm
        have hm := oddPrimes_lt_of_canon hs
        obtain ⟨j, rfl⟩ := Nat.exists_eq_succ_of_ne_zero (show k ≠ 0 by omega)
        obtain ⟨j', rfl⟩ := Nat.exists_eq_succ_of_ne_zero (show k' ≠ 0 by omega)
        rw [slotsFuel_of_canon _ hp hc hs, slotsFuel_of_canon _ hp hc hs, slotsFuel_odd j (mem_of_canon hs),
          slotsFuel_odd j' (mem_of_canon hs), ih (by omega) (show oddPrimes m < j' + 1 by omega)]

/-- Fuel beyond the odd primes of the length makes no difference to the function. -/
theorem fftFuel_eq {k k' n : Nat} (hk : oddPrimes n < k) (hk' : oddPrimes n < k') : fftFuel p k n = fftFuel p k' n := by
  induction k generalizing n k' with
  | zero => omega
  | succ k ih =>
    obtain ⟨k', rfl⟩ := Nat.exists_eq_succ_of_ne_zero (show k' ≠ 0 by omega)
    rcases length_cases n with ⟨lg, rfl⟩ | hodd | rfl | ⟨hp, hc⟩
    · rw [fftFuel_two_pow, fftFuel_two_pow]
    · rw [fftFuel_odd p k hodd, fftFuel_odd p k' hodd]
    · have h15 : oddPrimes 15 = 2 := rfl
      obtain ⟨j, rfl⟩ := Nat.exists_eq_succ_of_ne_zero (show k ≠ 0 by omega)
      obtain ⟨j', rfl⟩ := Nat.exists_eq_succ_of_ne_zero (show k' ≠ 0 by omega)
      rw [fftFuel_fifteen, fftFuel_fifteen]
    · cases hs : canon n with
      | none =>
        funext v
        simp [fftFuel, hp, hc, hs, ne_fifteen_of_isCodelet hc]
      | some fm =>
        obtain ⟨f, m⟩ := fm
        have hm := oddPrimes_lt_of_canon hs
        obtain ⟨j, rfl⟩ := Nat.exists_eq_succ_of_ne_zero (show k ≠ 0 by omega)
        obtain ⟨j', rfl⟩ := Nat.exists_eq_succ_of_ne_zero (show k' ≠ 0 by omega)
        rw [fftFuel_of_canon p _ hp hc hs, fftFuel_of_canon p _ hp hc hs, fftFuel_odd p j (mem_of_canon hs),
          fftFuel_odd p j' (mem_of_canon hs), ih (by omega) (show oddPrimes m < j' + 1 by omega)]

theorem slotsFuel_five (n : Nat) : slotsFuel 5 n = slotsFft n :=
  slotsFuel_eq ((oddPrimes_le n).trans_lt (by norm_num)) ((oddPrimes_le n).trans_lt (by norm_num))

theorem fftFuel_five (n : Nat) : fftFuel p 5 n = fftCanon p n :=
  fftFuel_eq p ((oddPrimes_le n).trans_lt (by norm_num)) ((oddPrimes_le n).trans_lt (by norm_num))

/-! The rules of R181 and R186, with the sub-lengths' own slots and functions. -/

theorem slotsFft_two_pow (lg : Nat) : slotsFft (2 ^ lg) = slotsNoShuffle lg := slotsFuel_two_pow 5 lg

theorem fftCanon_two_pow (lg : Nat) : fftCanon p (2 ^ lg) = fftPow2 p lg := fftFuel_two_pow p 5 lg

theorem slotsFft_odd (h : n ∈ [3, 5, 7, 9]) : slotsFft n = [oddSlot n] := slotsFuel_odd 5 h

theorem fftCanon_odd (h : n ∈ [3, 5, 7, 9]) : fftCanon p n = oddFft p n := fftFuel_odd p 5 h

theorem slotsFft_fifteen : slotsFft 15 = [.t53] := slotsFuel_fifteen 5

theorem fftCanon_fifteen : fftCanon p 15 = pfaWith 3 5 (fftCanon p 3) (fftCanon p 5) := by
  rw [fftCanon_odd p (n := 3) (by simp), fftCanon_odd p (n := 5) (by simp)]
  exact fftFuel_fifteen p 4

theorem slotsFft_of_canon (hp : isPow2 n = false) (hc : isCodelet n = false) (h : canon n = some (f, m)) :
    slotsFft n = slotsFft f ++ slotsFft m := by
  rw [← slotsFuel_five f, ← slotsFuel_five m]
  exact slotsFuel_of_canon 5 hp hc h

theorem fftCanon_of_canon (hp : isPow2 n = false) (hc : isCodelet n = false) (h : canon n = some (f, m)) :
    fftCanon p n = pfaWith f m (fftCanon p f) (fftCanon p m) := by
  rw [← fftFuel_five p f, ← fftFuel_five p m]
  exact fftFuel_of_canon p 5 hp hc h

end Levels

/-! ## Lengths of the kernels' results -/

theorem length_scatterList {α : Type} (init : List α) (idx : List Nat) (vals : List α) :
    (scatterList init idx vals).length = init.length := by
  unfold scatterList
  induction idx.zip vals generalizing init with
  | nil => rfl
  | cons iv l ih => exact (ih _).trans List.length_set

theorem length_pfaWith {p : Prec} (n1 n2 : Nat) (f1 f2 : List (Cplx p) → List (Cplx p)) (x : List (Cplx p)) :
    (pfaWith n1 n2 f1 f2 x).length = n1 * n2 :=
  (length_scatterList _ _ _).trans List.length_replicate

theorem length_oddFft (p : Prec) (n : Nat) (x : List (Cplx p)) : (oddFft p n x).length = 2 * ((n - 1) / 2) + 1 := by
  simp [oddFft]
  omega

theorem length_srOrder (lg : Nat) : (srOrder lg).length = 2 ^ lg := by
  induction lg using srOrder.induct with
  | case1 => rfl
  | case2 => rfl
  | case3 m ih1 ih0 =>
    simp only [srOrder, List.length_append, List.length_map, ih1, ih0, Nat.succ_eq_add_one]
    ring

theorem length_noShuffle (p : Prec) (lg : Nat) {z : List (Cplx p)} (h : z.length = 2 ^ lg) :
    (noShuffle p lg z).length = 2 ^ lg := by
  match lg with
  | 0 => exact h
  | 1 => rfl
  | m + 2 => exact comb_length p (by omega) _

theorem length_fftPow2 (p : Prec) (lg : Nat) (v : List (Cplx p)) : (fftPow2 p lg v).length = 2 ^ lg :=
  length_noShuffle p lg (by rw [srGather, List.length_map, length_srOrder])

/-- F_N gives N points, whatever it is given. -/
theorem length_fftCanon (p : Prec) {n : Nat} (h : inS n = true) (v : List (Cplx p)) : (fftCanon p n v).length = n := by
  rcases length_cases n with ⟨lg, rfl⟩ | hodd | rfl | ⟨hp, hc⟩
  · rw [fftCanon_two_pow, length_fftPow2]
  · rw [fftCanon_odd p hodd, length_oddFft]
    simp only [List.mem_cons, List.not_mem_nil, or_false] at hodd
    omega
  · rw [fftCanon_fifteen, length_pfaWith]
  · obtain ⟨f, m, hs⟩ := exists_canon_of_inS h hp hc
    rw [fftCanon_of_canon p hp hc hs, length_pfaWith, canon_mul hs]

/-- The gather of FFT2P by position (42_fft_sr.md R174). -/
theorem srGather_eq {p : Prec} (lg : Nat) (v : List (Cplx p)) :
    srGather lg v = (List.range (2 ^ lg)).map fun i => atC v ((srOrder lg).getD i 0) := by
  apply List.ext_getElem
  · simp [srGather, length_srOrder]
  · intro i hi _
    rw [srGather, List.length_map] at hi
    simp [srGather, List.getD_eq_getElem?_getD, hi]

/-! ## Generation on first use (45_twiddle.md R242, 10_state.md R45) -/

/-- A slot that a unit can have: T_N for N from 8 to 2^21, or an odd table (45_twiddle.md R240). -/
def Slot.Exists (x : Slot) : Prop := x ∈ [.t53, .t7, .t9] ∨ ∃ t, 3 ≤ t ∧ t ≤ 21 ∧ x = .pow t

theorem Slot.Exists.bit_lt {x : Slot} (h : x.Exists) : x.bit < 32 := by
  rcases h with h | ⟨t, -, ht, rfl⟩
  · simp only [List.mem_cons, List.not_mem_nil, or_false] at h
    rcases h with rfl | rfl | rfl <;> decide
  · exact ht.trans_lt (by norm_num)

theorem Slot.Exists.bit_inj {x y : Slot} (hx : x.Exists) (hy : y.Exists) (h : x.bit = y.bit) : x = y := by
  rcases hx with hx | ⟨t, -, ht, rfl⟩ <;> rcases hy with hy | ⟨u, -, hu, rfl⟩
  · cases x <;> cases y <;> simp_all [Slot.bit]
  · cases x <;> simp_all [Slot.bit] <;> omega
  · cases y <;> simp_all [Slot.bit]
  · exact congrArg Slot.pow h

/-- The bits that making slots valid sets are those of the slots that were not valid, each counted once. -/
theorem newTables_ensureSlots (s : State) {slots : List Slot} (h : ∀ x ∈ slots, x.Exists) :
    newTables s (s.ensureSlots slots) s.prec =
      (slots.dedup.filter fun x => !(s.tvalid s.prec).getLsbD x.bit).length := by
  have hbits := State.tvalid_ensureSlots s fun x hx => (h x hx).bit_lt
  have hmem : ∀ x ∈ slots.dedup.filter fun x => !(s.tvalid s.prec).getLsbD x.bit, x.Exists := fun x hx =>
    h x (List.mem_dedup.1 (List.mem_filter.1 hx).1)
  rw [newTables, ← List.length_map Slot.bit]
  refine List.Perm.length_eq ((List.perm_ext_iff_of_nodup (List.nodup_range.filter _) ?_).2 fun b => ?_)
  · exact ((List.nodup_dedup slots).filter _).map_on fun x hx y hy => (hmem x hx).bit_inj (hmem y hy)
  · simp only [List.mem_filter, List.mem_range, List.mem_map, List.mem_dedup, Bool.and_eq_true, hbits, true_and,
      Bool.not_eq_true']
    constructor
    · rintro ⟨-, hv | ⟨x, hx, rfl⟩, hn⟩
      · rw [hv] at hn
        cases hn
      · exact ⟨x, ⟨hx, hn⟩, rfl⟩
    · rintro ⟨x, ⟨hx, hn⟩, rfl⟩
      exact ⟨(h x hx).bit_lt, .inr ⟨x, hx, rfl⟩, hn⟩

/-! ## FFT, FFT.i, FFTL and FFTL.i (42_fft_sr.md R180, R181) -/

theorem fft_completes {s : State} {rd rs1 : Reg} {lg : BitVec 5} (h21 : lg.toNat ≤ 21) (hmax : lg.toNat ≤ s.params.maxLog2)
    (hv : ViewsReady s (2 ^ lg.toNat) (s.regNat rs1) (s.regNat rd)) :
    CompletesBatched (.fft rd rs1 lg) s (2 ^ lg.toNat) (s.regNat rs1) (s.regNat rd) (slotsNoShuffle lg.toNat)
        (fftPow2 s.prec lg.toNat) ∧
      CompletesBatched (.fftI rd rs1 lg) s (2 ^ lg.toNat) (s.regNat rs1) (s.regNat rd) (slotsNoShuffle lg.toNat)
        fun v => fftPow2 s.prec lg.toNat (reverseIndex (2 ^ lg.toNat) v) :=
  have hargs := (checkLg_eq_ok_iff s lg.toNat).2 ⟨h21, hmax⟩
  ⟨.of_body rfl hargs hv fun _ _ => length_fftPow2 _ _ _, .of_body rfl hargs hv fun _ _ => length_fftPow2 _ _ _⟩

theorem fftl_completes {s : State} {rd rs1 rs3 : Reg} (hs : inS (s.regNat rs3) = true)
    (hmax : s.regNat rs3 ≤ s.params.maxN) (hv : ViewsReady s (s.regNat rs3) (s.regNat rs1) (s.regNat rd)) :
    CompletesBatched (.fftl rd rs1 rs3) s (s.regNat rs3) (s.regNat rs1) (s.regNat rd) (slotsFft (s.regNat rs3))
        (fftCanon s.prec (s.regNat rs3)) ∧
      CompletesBatched (.fftlI rd rs1 rs3) s (s.regNat rs3) (s.regNat rs1) (s.regNat rd) (slotsFft (s.regNat rs3))
        fun v => fftCanon s.prec (s.regNat rs3) (reverseIndex (s.regNat rs3) v) :=
  have hargs := (checkLength_eq_ok_iff s (s.regNat rs3) (s.regNat rs3) (inS (s.regNat rs3))).2
    ⟨Nat.pos_iff_ne_zero.1 (inS_bounds hs).1, hs, hmax⟩
  ⟨.of_body rfl hargs hv fun _ _ => length_fftCanon _ hs _, .of_body rfl hargs hv fun _ _ => length_fftCanon _ hs _⟩

/-- Settles O26: the completions above, and the lemmas on slots, canonical split and F_N in the order of the statement. -/
theorem fftInstructionsComplete : Obligations.FftInstructionsComplete := by
  have hsplit : ∀ {l : Nat}, (∀ lg, l ≠ 2 ^ lg) → isPow2 l = false := fun h => by
    by_contra hp
    exact h _ (eq_two_pow_of_isPow2 (by simpa using hp))
  have hcodelet : ∀ {l : Nat}, l ∉ [3, 5, 7, 9, 15] → isCodelet l = false := fun h => by
    by_contra hc
    exact h ((isCodelet_iff _).1 (by simpa using hc))
  refine ⟨fun s rd rs1 rs3 lg => ⟨fft_completes, fftl_completes⟩, fun s slots hslots => ?_, fun l hl => ?_,
    ⟨rfl, rfl, fun _ => rfl⟩, fun l hl => canon_eq_head? hl, fun p v => ⟨fun lg => ?_, fun l hl => ?_⟩⟩
  · intro bit t
    have hbit : bit = Slot.bit := by
      funext x
      cases x <;> rfl
    rw [hbit]
    exact ⟨State.ensureBits_frame s _, State.tvalid_ensureSlots s fun x hx => Slot.Exists.bit_lt (hslots x hx),
      by rw [State.tgencnt_ensureSlots s fun x hx => Slot.Exists.bit_lt (hslots x hx), newTables_ensureSlots s hslots]⟩
  · refine ⟨?_, ?_, ?_, ?_, fun hp hc => ?_⟩
    · rintro lg rfl
      exact slotsFft_two_pow lg
    · intro h
      simp only [List.mem_cons, List.not_mem_nil, or_false] at h
      rcases h with rfl | rfl | rfl
      · exact slotsFft_odd (by simp)
      · exact slotsFft_odd (by simp)
      · exact slotsFft_fifteen
    · rintro rfl
      exact slotsFft_odd (by simp)
    · rintro rfl
      exact slotsFft_odd (by simp)
    · obtain ⟨n1, n2, h⟩ := exists_canon_of_inS hl (hsplit hp) (hcodelet hc)
      exact ⟨n1, n2, h, slotsFft_of_canon (hsplit hp) (hcodelet hc) h⟩
  · rw [fftPow2, srGather_eq]
  · refine ⟨length_fftCanon p hl v, ?_, fun h => by rw [fftCanon_odd p h], ?_, fun hp hc => ?_⟩
    · rintro lg rfl
      rw [fftCanon_two_pow]
    · rintro rfl
      rw [fftCanon_fifteen]
    · obtain ⟨n1, n2, h⟩ := exists_canon_of_inS hl hp (hcodelet hc)
      exact ⟨n1, n2, h, by rw [fftCanon_of_canon p hp (hcodelet hc) h]⟩

end Sys2Proof.Machine

/-! # Proofs: the host's windows -/

namespace Sys2Proof.Machine

/-! ## The window map (60_exceptions.md R372, R373) -/

section WindowMap

/-- The distance of an offset from the base of its window. -/
theorem toNat_offset_sub {base k : Nat} (h : base + k < 2 ^ 32) :
    (BitVec.ofNat 32 (base + k) - BitVec.ofNat 32 base).toNat = k := by
  have hle : (BitVec.ofNat 32 base).toNat ≤ (BitVec.ofNat 32 (base + k)).toNat := by
    simp only [BitVec.toNat_ofNat]
    omega
  rw [toNat_sub_of_le hle]
  simp only [BitVec.toNat_ofNat]
  omega

variable (c : Params)

theorem hostTarget?_of_csr {n : Nat} (h : n < 256) :
    hostTarget? c 4 (BitVec.ofNat 32 (4 * n)) = some (.csr (BitVec.ofNat 8 n)) := by
  have ho : (BitVec.ofNat 32 (4 * n)).toNat = 4 * n := Nat.mod_eq_of_lt (by omega)
  simp only [hostTarget?, ho]
  rw [if_neg (by omega), if_pos (by omega), Nat.mul_div_cancel_left n (by norm_num)]

theorem hostTarget?_0x400 : hostTarget? c 4 0x400 = some .ctrl := rfl

theorem hostTarget?_0x404 : hostTarget? c 4 0x404 = some .entry := rfl

theorem hostTarget?_0x408 : hostTarget? c 4 0x408 = some .irqstat := rfl

theorem hostTarget?_0x40C : hostTarget? c 4 0x40C = some .hpc := rfl

theorem hostTarget?_of_reg (r : Reg) : hostTarget? c 4 (BitVec.ofNat 32 (0x800 + 4 * r.toNat)) = some (.reg r) := by
  have hr : r.toNat < 16 := r.isLt
  have ho : (BitVec.ofNat 32 (0x800 + 4 * r.toNat)).toNat = 0x800 + 4 * r.toNat := Nat.mod_eq_of_lt (by omega)
  have hk : (BitVec.ofNat 32 (0x800 + 4 * r.toNat) - 0x800).toNat = 4 * r.toNat := toNat_offset_sub (by omega)
  simp only [hostTarget?, ho, hk]
  rw [if_neg (by omega), if_neg (by omega), if_neg (by omega), if_neg (by omega), if_neg (by omega), if_neg (by omega),
    if_pos (by omega), Nat.mul_div_cancel_left _ (by norm_num), BitVec.ofNat_toNat, BitVec.setWidth_eq]

variable {c}

theorem imemWords_le (hl : c.legal = true) : c.imemWords ≤ 2 ^ 16 := by
  simp only [Params.legal, Bool.and_eq_true, decide_eq_true_eq] at hl
  exact Nat.pow_le_pow_right (by norm_num) hl.2.2

theorem dmemBytes_le (hl : c.legal = true) : c.dmemBytes ≤ 2 ^ 31 := by
  simp only [Params.legal, Bool.and_eq_true, decide_eq_true_eq] at hl
  exact Nat.pow_le_pow_right (by norm_num) hl.1.2.2

theorem hostTarget?_of_imem (hl : c.legal = true) {w : Nat} (h : w < c.imemWords) :
    hostTarget? c 4 (BitVec.ofNat 32 (0x10000 + 4 * w)) = some (.imem w) := by
  have hle := imemWords_le hl
  have ho : (BitVec.ofNat 32 (0x10000 + 4 * w)).toNat = 0x10000 + 4 * w := Nat.mod_eq_of_lt (by omega)
  have hk : (BitVec.ofNat 32 (0x10000 + 4 * w) - 0x10000).toNat = 4 * w := toNat_offset_sub (by omega)
  simp only [hostTarget?, ho, hk]
  rw [if_neg (by omega), if_neg (by omega), if_neg (by omega), if_neg (by omega), if_neg (by omega), if_neg (by omega),
    if_neg (by omega), if_pos (by omega), Nat.mul_div_cancel_left _ (by norm_num)]

theorem hostTarget?_of_dmem (hl : c.legal = true) {a : Nat} (h : a < c.dmemBytes) (h4 : a % 4 = 0) :
    hostTarget? c 4 (BitVec.ofNat 32 (0x80000000 + a)) = some (.dmem a) := by
  have hle := dmemBytes_le hl
  have hw := imemWords_le hl
  have ho : (BitVec.ofNat 32 (0x80000000 + a)).toNat = 0x80000000 + a := Nat.mod_eq_of_lt (by omega)
  have hk : (BitVec.ofNat 32 (0x80000000 + a) - 0x80000000).toNat = a := toNat_offset_sub (by omega)
  simp only [hostTarget?, ho, hk]
  rw [if_neg (by omega), if_neg (by omega), if_neg (by omega), if_neg (by omega), if_neg (by omega), if_neg (by omega),
    if_neg (by omega), if_neg (by omega), if_pos (by omega)]

/-- The accesses that reach nothing: of another size, misaligned, or outside every window (60_exceptions.md R373). -/
theorem hostTarget?_eq_none_iff (c : Params) (size : Nat) (offset : Word) :
    hostTarget? c size offset = none ↔ size ≠ 4 ∨ offset.toNat % 4 ≠ 0 ∨
      ¬(offset.toNat ≤ 0x40C ∨ (0x800 ≤ offset.toNat ∧ offset.toNat < 0x840) ∨
        (0x10000 ≤ offset.toNat ∧ offset.toNat < 0x10000 + 4 * c.imemWords) ∨
        (0x80000000 ≤ offset.toNat ∧ offset.toNat < 0x80000000 + c.dmemBytes)) := by
  unfold hostTarget?
  simp only
  split_ifs <;> simp only [false_iff, true_iff] <;> omega

end WindowMap

/-! ## One access of the host (60_exceptions.md R373, R380, R381) -/

section Access

variable {s : State} {offset v : Word} {tgt : HostTarget}

theorem busy_eq_false (h : s.run ≠ .running) : s.busy = false := by
  simpa [State.busy] using h

theorem hostAccess_read_of_some (hb : s.busy = false) (ht : hostTarget? s.params 4 offset = some tgt) {x : Word}
    (hx : s.hostRead? tgt = some x) : s.hostAccess (.read 4 offset) = { s with hostReply := some x } := by
  simp [State.hostAccess, State.hostReadAt?, ht, hb, hx]

theorem hostAccess_read_of_none (ht : hostTarget? s.params 4 offset = some tgt) (hx : s.hostRead? tgt = none) :
    s.hostAccess (.read 4 offset) = { s with hosterr := true, hostReply := some 0 } := by
  simp [State.hostAccess, State.hostReadAt?, ht, hx, State.refuse]

theorem hostAccess_write_of_some (hb : s.busy = true → tgt.writableBusy = true)
    (ht : hostTarget? s.params 4 offset = some tgt) {t : State} (hx : s.hostWrite? tgt v = some t) :
    s.hostAccess (.write 4 offset v) = t := by
  have hrefused : ¬(s.busy && !tgt.writableBusy) = true := by simpa using hb
  simp [State.hostAccess, State.hostWriteAt?, ht, hrefused, hx]

theorem hostAccess_write_of_none (ht : hostTarget? s.params 4 offset = some tgt) (hx : s.hostWrite? tgt v = none) :
    s.hostAccess (.write 4 offset v) = { s with hosterr := true } := by
  simp [State.hostAccess, State.hostWriteAt?, ht, hx, State.refuse]

/-- A refused access sets HOSTERR, a refused read returns 0, and nothing else changes (60_exceptions.md R381). -/
theorem hostAccess_of_unmapped {size : Nat} (ht : hostTarget? s.params size offset = none) :
    s.hostAccess (.read size offset) = { s with hosterr := true, hostReply := some 0 } ∧
      s.hostAccess (.write size offset v) = { s with hosterr := true } := by
  simp [State.hostAccess, State.hostReadAt?, State.hostWriteAt?, ht, State.refuse]

end Access

/-! ## The CSRs by number (10_state.md R27, R30) -/

theorem ofNat_eight_inj {n k : Nat} (hn : n < 256) (hk : k < 256) (h : BitVec.ofNat 8 n = BitVec.ofNat 8 k) : n = k := by
  have := congrArg BitVec.toNat h
  simpa [Nat.mod_eq_of_lt hn, Nat.mod_eq_of_lt hk] using this

/-- The numbers R30 to R46 assign. -/
def assignedCsrs : List Nat :=
  [0x00, 0x01, 0x02, 0x03, 0x04, 0x05, 0x06, 0x08, 0x09, 0x0A, 0x0B, 0x0C, 0x0D, 0x0E, 0x10, 0x11, 0x12, 0x13, 0x14]

/-- The numbers of the writable CSRs. -/
def writableCsrs : List Nat := [0x02, 0x08, 0x09, 0x0B, 0x0C, 0x0D, 0x0E]

theorem csr?_of_unassigned (s : State) {n : Nat} (hn : n < 256) (h : n ∉ assignedCsrs) :
    s.csr? (BitVec.ofNat 8 n) = none := by
  have hlt : ∀ k ∈ assignedCsrs, k < 256 := by decide
  have hne : ∀ k ∈ assignedCsrs, BitVec.ofNat 8 n ≠ BitVec.ofNat 8 k := fun k hk he =>
    h (ofNat_eight_inj hn (hlt k hk) he ▸ hk)
  unfold State.csr?
  split
  case h_20 => rfl
  all_goals
    next heq => exact absurd heq (hne _ (by decide))

theorem writeCsr?_of_not_writable (s : State) (v : Word) {n : Nat} (hn : n < 256) (h : n ∉ writableCsrs) :
    s.writeCsr? (BitVec.ofNat 8 n) v = none := by
  have hlt : ∀ k ∈ writableCsrs, k < 256 := by decide
  have hne : ∀ k ∈ writableCsrs, BitVec.ofNat 8 n ≠ BitVec.ofNat 8 k := fun k hk he =>
    h (ofNat_eight_inj hn (hlt k hk) he ▸ hk)
  unfold State.writeCsr?
  split
  case h_8 => rfl
  all_goals
    next heq => exact absurd heq (hne _ (by decide))

/-- The precision that bits 1:0 of a MODE value name (10_state.md R33). -/
theorem Params.precOf_eq (c : Params) {v : Word} {k : Nat} (h : v.toNat % 4 = k) :
    c.precOf v = match k with
      | 0 => some .fp32
      | 1 => if c.hasF64 then some .fp64 else none
      | 2 => if c.hasQ31 then some .q31 else none
      | _ => none := by
  have hbits : (v.extractLsb' 0 2 : BitVec 2) = BitVec.ofNat 2 k := by
    refine BitVec.eq_of_toNat_eq ?_
    rw [BitVec.extractLsb'_toNat, BitVec.toNat_ofNat, ← h]
    simp
  have hk : k < 4 := by omega
  unfold Params.precOf
  rw [hbits]
  interval_cases k <;> rfl

/-! ## The words that pack several fields (10_state.md R32, R34, R47) -/

/-- Fields from bit 24 up beside fields below bit 24. -/
theorem ofNat_or_of_lt {a : Nat} (ha : a < 2 ^ 24) (k : Nat) :
    BitVec.ofNat 32 a ||| BitVec.ofNat 32 (2 ^ 24 * k) = BitVec.ofNat 32 (a + 2 ^ 24 * k) := by
  rw [← BitVec.ofNat_or, Nat.or_comm, ← Nat.two_pow_add_eq_or_of_lt ha, Nat.add_comm]

theorem Params.cfgWord_eq {c : Params} (hl : c.legal = true) : c.cfgWord = BitVec.ofNat 32
    (c.maxLog2 + 2 ^ 8 * c.imemLog2 + 2 ^ 16 * c.dmemLog2 + 2 ^ 24 + (if c.hasF64 = true then 2 ^ 25 else 0) +
      if c.hasQ31 = true then 2 ^ 26 else 0) := by
  have hlow : c.maxLog2 + 2 ^ 8 * c.imemLog2 + 2 ^ 16 * c.dmemLog2 < 2 ^ 24 := by
    simp only [Params.legal, Bool.and_eq_true, decide_eq_true_eq] at hl
    omega
  have hhigh : ∀ f q : Bool, bitWord 24 true ||| (bitWord 25 f ||| bitWord 26 q) =
      BitVec.ofNat 32 (2 ^ 24 * (1 + (if f = true then 2 else 0) + if q = true then 4 else 0)) := by decide
  rw [Params.cfgWord, BitVec.or_assoc, BitVec.or_assoc, hhigh, pow2_eq, pow2_eq, ofNat_or_of_lt hlow]
  congr 1
  split_ifs <;> ring

theorem State.statusWord_of_idle {s : State} (h : s.run ≠ .running) : s.statusWord = BitVec.ofNat 32
    ((if (s.run == .done) = true then 2 else 0) + (if (s.run == .faulted) = true then 4 else 0) +
      if s.hosterr = true then 8 else 0) := by
  rw [State.statusWord, busy_eq_false h]
  generalize s.hosterr = e
  cases hr : s.run with
  | running => exact absurd hr h
  | idle | done | faulted => cases e <;> rfl

theorem State.ctrlWord_eq (s : State) : s.ctrlWord = BitVec.ofNat 32 (if s.ie = true then 4 else 0) := by
  unfold State.ctrlWord
  cases s.ie <;> rfl

theorem State.irqstatWord_eq (s : State) : s.irqstatWord = BitVec.ofNat 32
    ((if s.irqDone = true then 1 else 0) + if s.irqFault = true then 2 else 0) := by
  unfold State.irqstatWord
  cases s.irqDone <;> cases s.irqFault <;> rfl

/-! ## The CSR window of an idle unit (60_exceptions.md R377) -/

section CsrWindow

variable {s : State} {v : Word} {n : Nat}

theorem hostAccess_read_csr (hb : s.busy = false) (hn : n < 256) {x : Word} (hx : s.csr? (BitVec.ofNat 8 n) = some x) :
    s.hostAccess (.read 4 (BitVec.ofNat 32 (4 * n))) = { s with hostReply := some x } :=
  hostAccess_read_of_some hb (hostTarget?_of_csr _ hn) hx

theorem hostAccess_write_csr (hb : s.busy = false) (hn : n < 256) {t : State}
    (hx : s.writeCsr? (BitVec.ofNat 8 n) v = some t) : s.hostAccess (.write 4 (BitVec.ofNat 32 (4 * n)) v) = t :=
  hostAccess_write_of_some (by simp [hb]) (hostTarget?_of_csr _ hn) hx

theorem hostAccess_read_csr_of_unassigned (hn : n < 256) (h : n ∉ assignedCsrs) :
    s.hostAccess (.read 4 (BitVec.ofNat 32 (4 * n))) = { s with hosterr := true, hostReply := some 0 } :=
  hostAccess_read_of_none (hostTarget?_of_csr _ hn) (csr?_of_unassigned s hn h)

theorem hostAccess_write_csr_of_none (hn : n < 256) (h : s.writeCsr? (BitVec.ofNat 8 n) v = none) :
    s.hostAccess (.write 4 (BitVec.ofNat 32 (4 * n)) v) = { s with hosterr := true } :=
  hostAccess_write_of_none (hostTarget?_of_csr _ hn) h

end CsrWindow

/-! ## Register and memory windows (60_exceptions.md R378, R379) -/

/-- A register write changes the register file alone. -/
theorem State.setReg_eq (s : State) (r : Reg) (v : Word) : s.setReg r v = { s with regs := (s.setReg r v).regs } := by
  unfold State.setReg
  split <;> rfl

theorem Memory.readLE_writeWord {m : Memory} (h : Memory.wf m = true) (a : Nat) (v : Word) :
    (m.writeWord a v).readLE a 4 = v.toNat :=
  (Memory.readLE_writeLE h a 4 v.toNat).trans (Nat.mod_eq_of_lt v.isLt)

theorem Memory.sameOutside_writeWord {m : Memory} (h : Memory.wf m = true) (a : Nat) (v : Word) :
    SameOutside m (m.writeWord a v) [a] 4 := fun b hb =>
  (Memory.read_writeLE h a 4 v.toNat b).trans (if_neg (by have := hb a (by simp); omega))

/-- Settles O51: each offset's target, and what a read and a write of that target do. -/
theorem hostWindowsReachTheState : Obligations.HostWindowsReachTheState := by
  intro s v hl reads writes refusesRead refusesWrite bit
  refine ⟨hostAccess_write_of_some (fun _ => rfl) (hostTarget?_0x408 _) rfl, rfl, fun hidle => ?_, fun size offset =>
    ⟨hostTarget?_eq_none_iff _ _ _, fun h => hostAccess_of_unmapped ((hostTarget?_eq_none_iff _ _ _).2 h)⟩⟩
  have hb := busy_eq_false hidle
  have hnb : ∀ {tgt : HostTarget}, s.busy = true → tgt.writableBusy = true := fun h => absurd h (by simp [hb])
  refine ⟨?_, ?_, fun n => ⟨fun x hx => ?_, fun t ht => ?_⟩,
    hostAccess_read_of_some hb (hostTarget?_0x400 _) (congrArg some s.ctrlWord_eq),
    hostAccess_read_of_some hb (hostTarget?_0x408 _) (congrArg some s.irqstatWord_eq),
    ⟨hostAccess_read_of_some hb (hostTarget?_0x404 _) rfl, hostAccess_write_of_some hnb (hostTarget?_0x404 _) rfl⟩,
    ⟨hostAccess_read_of_some hb (hostTarget?_0x40C _) rfl, hostAccess_write_of_none (hostTarget?_0x40C _) rfl⟩,
    fun r => ⟨hostAccess_read_of_some hb (hostTarget?_of_reg _ r) rfl, s.setReg r v,
      hostAccess_write_of_some hnb (hostTarget?_of_reg _ r) rfl, s.setReg_eq r v, s.reg_setReg r v⟩,
    fun w hw => ⟨hostAccess_read_of_some hb (hostTarget?_of_imem hl hw) rfl, { s with imem := Store.write s.imem w v },
      hostAccess_write_of_some hnb (hostTarget?_of_imem hl hw) rfl, rfl, fun hwf => Store.read_write hwf w v⟩,
    fun a ha h4 => ⟨hostAccess_read_of_some hb (hostTarget?_of_dmem hl ha h4) rfl, s.setDmem (s.dmem.writeWord a v),
      hostAccess_write_of_some hnb (hostTarget?_of_dmem hl ha h4) rfl, rfl,
      fun hwf => ⟨Memory.readLE_writeWord hwf a v, Memory.sameOutside_writeWord hwf a v⟩⟩⟩
  · intro cfg mode status map
    have hassigned : map.map Prod.fst = assignedCsrs := rfl
    have hread : ∀ {n x}, n < 256 → s.csr? (BitVec.ofNat 8 n) = some x → reads (4 * n) x := fun hn hx =>
      hostAccess_read_csr hb hn hx
    refine ⟨?_, fun n hn hmap => hostAccess_read_csr_of_unassigned hn fun hmem => ?_⟩
    · have hmode : s.prec.code = mode := by
        simp only [mode]
        cases s.prec <;> rfl
      have hcause : s.cause.setWidth 32 = BitVec.ofNat 32 s.cause.toNat := by
        refine BitVec.eq_of_toNat_eq ?_
        simp
      simp only [map, List.forall_mem_cons, List.not_mem_nil, false_imp_iff, implies_true, and_true]
      refine ⟨hread (by decide) rfl, hread (by decide) (congrArg some (Params.cfgWord_eq hl)),
        hread (by decide) (congrArg some hmode), hread (by decide) (congrArg some (State.statusWord_of_idle hidle)),
        hread (by decide) (congrArg some hcause), ?_⟩
      and_intros <;> exact hread (by decide) rfl
    · obtain ⟨e, he, rfl⟩ := List.mem_map.1 (hassigned ▸ hmem)
      exact hmap e he rfl
  · have hwrite : ∀ {n t}, n < 256 → s.writeCsr? (BitVec.ofNat 8 n) v = some t → writes (4 * n) t := fun hn hx =>
      hostAccess_write_csr hb hn hx
    have hmode : ∀ {p}, s.params.precOf v = p →
        s.writeCsr? (BitVec.ofNat 8 0x02) v = p.map fun p => { s with prec := p } := by
      rintro _ rfl
      rfl
    refine ⟨fun h => hwrite (by decide) (hmode (s.params.precOf_eq h)),
      fun h hf => hwrite (by decide) (hmode ((s.params.precOf_eq h).trans (if_pos hf))),
      fun h hq => hwrite (by decide) (hmode ((s.params.precOf_eq h).trans (if_pos hq))), fun h => ?_,
      hwrite (by decide) ?_, hwrite (by decide) ?_, hwrite (by decide) rfl, hwrite (by decide) rfl, hwrite (by decide) rfl,
      hwrite (by decide) rfl, fun n hn h => hostAccess_write_csr_of_none hn (writeCsr?_of_not_writable s v hn h)⟩
    · refine hostAccess_write_csr_of_none (by decide) (hmode (p := none) ?_)
      rcases h with ⟨h, hf⟩ | ⟨h, hq⟩ | h
      · exact (s.params.precOf_eq h).trans (if_neg (by simp [hf]))
      · exact (s.params.precOf_eq h).trans (if_neg (by simp [hq]))
      · exact s.params.precOf_eq h
    · rw [Nat.mul_comm]
      rfl
    · rw [Nat.mul_comm]
      rfl
  · exact hostAccess_read_csr hb n.isLt (by rw [BitVec.ofNat_toNat, BitVec.setWidth_eq, hx])
  · exact hostAccess_write_csr hb n.isLt (by rw [BitVec.ofNat_toNat, BitVec.setWidth_eq, ht])

end Sys2Proof.Machine

/-! # Proofs: faults, turns and the two memories (20_memory.md R71, R72, R83)

What a fault changes, what a step does to IMEM and DMEM, and what a host access can reach while the unit runs. -/

namespace Sys2Proof.Machine

/-! ## A fault changes the record alone (20_memory.md R83, 60_exceptions.md R351) -/

/-- Settles O15: of all that `exec_cases` lists, only the fault action leaves a running unit faulted. -/
theorem faultingInstructionChangesOnlyTheRecord : Obligations.FaultingInstructionChangesOnlyTheRecord := by
  intro i s t hr h ht
  rcases exec_cases h with ⟨x, rfl, hlow, hhigh⟩ | hl
  · exact ⟨rfl, hlow, hhigh⟩
  · obtain ⟨-, -, -, -, -, hmoves⟩ := hl.retires hr
    exact absurd ht hmoves.run_ne_faulted

/-! ## The turns that execute no instruction (60_exceptions.md R374, 70_reset_and_hazards.md R394) -/

theorem takeTurn_of_host {s : State} {a : HostAccess} {rest : List Turn} (ht : s.turns = .host a :: rest) :
    takeTurn s = .next (State.hostAccess { s with turns := rest } a) := by
  simp [takeTurn, ht]

theorem sequencerTurn_of_not_running {s : State} (hr : s.run ≠ .running) : sequencerTurn s = .next s :=
  if_neg (by simp [State.busy, hr])

theorem State.fetch_of_ge {s : State} (hpc : s.params.imemWords ≤ s.pc.toNat) :
    s.fetch = .error ⟨.fetchRange, s.pc.toNat⟩ := if_neg (Nat.not_lt.2 hpc)

theorem runInstruction_of_fetch_error {s : State} {x : Trap} (hf : s.fetch = .error x) :
    runInstruction s = .next (s.raise x) := by
  simp [runInstruction, hf]

theorem runInstruction_of_illegal {s : State} {w : Word} {e : Illegal} (hf : s.fetch = .ok w) (hd : decode w = .error e) :
    runInstruction s = .next (s.raise ⟨.illegalInstruction, w.toNat⟩) := by
  simp [runInstruction, hf, hd]

/-- A turn of the sequencer is its move on the state without that turn, whether it stood in the list or the list is empty. -/
theorem takeTurn_eq_sequencerTurn {s t : State}
    (h : (s.turns = [] ∧ t = s) ∨ ∃ rest, s.turns = .sequencer :: rest ∧ t = { s with turns := rest }) :
    takeTurn s = sequencerTurn t := by
  rcases h with ⟨ht, rfl⟩ | ⟨rest, ht, rfl⟩
  · exact takeTurn_of_no_turns ht
  · exact takeTurn_of_sequencer ht

/-- Settles O6: the sequencer's move when it does not reach an instruction, and the host's turn. -/
theorem stepOfOtherTurns : Obligations.StepOfOtherTurns := by
  intro s hl
  rw [step_of_legal hl]
  refine ⟨fun t ht => ?_, fun a rest ht => takeTurn_of_host ht⟩
  rw [takeTurn_eq_sequencerTurn ht]
  have hsame : t.run = s.run ∧ t.pc = s.pc ∧ t.params = s.params ∧ t.imem = s.imem := by
    rcases ht with ⟨-, rfl⟩ | ⟨rest, -, rfl⟩ <;> exact ⟨rfl, rfl, rfl, rfl⟩
  obtain ⟨hrun, hpc, hparams, himem⟩ := hsame
  rw [← hrun, ← hpc, ← hparams, ← himem]
  refine ⟨fun hr hge => ?_, fun hr hlt e he => ?_, sequencerTurn_of_not_running⟩
  · rw [sequencerTurn_of_running hr, runInstruction_of_fetch_error (State.fetch_of_ge hge)]
  · rw [sequencerTurn_of_running hr, runInstruction_of_illegal (State.fetch_of_lt hlt) he]

/-! ## Both memories stay canonical (20_memory.md R71, R72, R80) -/

/-- `t` has the parameters of `s`, and memories in order if those of `s` are. -/
def State.KeepsMemory (s t : State) : Prop := t.params = s.params ∧ (s.MemoryOk → t.MemoryOk)

theorem State.KeepsMemory.trans {s t u : State} (h : s.KeepsMemory t) (h' : t.KeepsMemory u) : s.KeepsMemory u :=
  ⟨h'.1.trans h.1, h'.2 ∘ h.2⟩

/-- IMEM stays, and DMEM is written inside the addresses that exist. -/
theorem State.keepsMemory_of_keeps {s t : State} (hp : t.params = s.params) (hi : t.imem = s.imem)
    (hd : Memory.Keeps s.params.dmemBytes s.dmem t.dmem) : s.KeepsMemory t := by
  refine ⟨hp, fun ⟨hwi, hwd, hli, hld⟩ => ?_⟩
  unfold State.MemoryOk
  rw [hp, hi]
  exact ⟨hwi, hd.1 hwd, hli, hd.2 hld⟩

theorem State.keepsMemory_of_same {s t : State} (hp : t.params = s.params) (hi : t.imem = s.imem)
    (hd : t.dmem = s.dmem) : s.KeepsMemory t :=
  State.keepsMemory_of_keeps hp hi (hd ▸ Memory.Keeps.refl _ _)

/-- Writing a word of IMEM that exists. -/
theorem State.keepsMemory_imem (s : State) {w : Nat} (hw : w < s.params.imemWords) (v : Word) :
    s.KeepsMemory { s with imem := Store.write s.imem w v } := by
  refine ⟨rfl, fun ⟨hwi, hwd, hli, hld⟩ => ⟨Store.wf_write hwi w v, hwd, fun p hp => ?_, hld⟩⟩
  rcases Store.mem_write hp with hp | rfl
  · exact hli p hp
  · exact hw

/-- An instruction writes DMEM only, and there inside the addresses that exist. -/
theorem keepsMemory_exec {i : Instr} {s t : State} (h : exec i s = .next t) : s.KeepsMemory t := by
  obtain ⟨⟨hparams, himem, -⟩, -, hdmem, -⟩ := exec_frame h
  by_cases he : ending i = .memory
  · rcases exec_cases h with ⟨x, rfl, -⟩ | hl
    · exact State.keepsMemory_of_same rfl rfl rfl
    · rw [he] at hl
      obtain ⟨u, ⟨slots, m, rfl, -, hk⟩, rfl⟩ := hl
      exact State.keepsMemory_of_keeps hparams himem hk
  · exact State.keepsMemory_of_same hparams himem (hdmem he)

theorem RunsTo.keepsMemory {s t : State} (h : RunsTo s t) : s.KeepsMemory t := by
  rcases h with ⟨x, rfl, -⟩ | ⟨i, -, h⟩
  · exact State.keepsMemory_of_same rfl rfl rfl
  · exact keepsMemory_exec h

/-- The soft reset keeps the parameters and both memories, and so does every other command of CTRL. -/
theorem State.sameMemory_writeCtrl (s : State) (v : Word) :
    (s.writeCtrl v).params = s.params ∧ (s.writeCtrl v).imem = s.imem ∧ (s.writeCtrl v).dmem = s.dmem := by
  refine State.writeCtrl_keeps (P := fun u => u.params = s.params ∧ u.imem = s.imem ∧ u.dmem = s.dmem) ?_
    (fun _ h => h) (fun _ _ h => h) (fun _ h => h) (fun _ h => h)
  unfold State.ctrlReset
  split <;> exact ⟨rfl, rfl, rfl⟩

/-- A host write that is not refused reaches IMEM and DMEM through their windows, so inside the addresses that exist. -/
theorem State.keepsMemory_hostWrite? {s t : State} {offset v : Word} {tgt : HostTarget} (hl : s.params.legal = true)
    (ht : hostTarget? s.params 4 offset = some tgt) (h : s.hostWrite? tgt v = some t) : s.KeepsMemory t := by
  cases tgt with
  | csr n =>
    rw [State.writeCsr?_eq_some h]
    exact State.keepsMemory_of_same rfl rfl rfl
  | ctrl =>
    cases h
    obtain ⟨hp, hi, hd⟩ := s.sameMemory_writeCtrl v
    exact State.keepsMemory_of_same hp hi hd
  | hpc => cases h
  | entry | irqstat =>
    cases h
    exact State.keepsMemory_of_same rfl rfl rfl
  | reg r =>
    cases h
    exact State.keepsMemory_of_same (by simp) (by simp) (by simp)
  | imem w =>
    cases h
    exact s.keepsMemory_imem (hostTarget?_imem ht).1 v
  | dmem a =>
    cases h
    exact State.keepsMemory_of_keeps rfl rfl (Memory.keeps_writeLE _ _ (hostTarget?_dmem hl ht).1)

theorem State.keepsMemory_hostAccess {s : State} (hl : s.params.legal = true) (a : HostAccess) :
    s.KeepsMemory (s.hostAccess a) := by
  rcases hostAccess_cases s a with ⟨e, r, he⟩ | ⟨offset, v, tgt, t, -, ht, -, hw, he⟩ <;> rw [he]
  · exact State.keepsMemory_of_same rfl rfl rfl
  · exact State.keepsMemory_hostWrite? hl ht hw

/-- Settles O57: each kind of step keeps the parameters and the form of both memories. -/
theorem stepKeepsTheMemories : Obligations.StepKeepsTheMemories := by
  intro s t hm h
  suffices hk : s.KeepsMemory t from ⟨hk.2 hm, hk.1⟩
  have hturns : ∀ rest, s.KeepsMemory { s with turns := rest } := fun _ => State.keepsMemory_of_same rfl rfl rfl
  obtain ⟨hl, ⟨-, s', ⟨rfl, -⟩ | ⟨rest, -, rfl⟩, hrun⟩ | ⟨-, rfl | ⟨rest, -, rfl⟩⟩ | ⟨a, rest, -, rfl⟩⟩ := step_cases h
  · exact hrun.keepsMemory
  · exact (hturns rest).trans hrun.keepsMemory
  · exact hturns t.turns
  · exact hturns rest
  · exact (hturns rest).trans (State.keepsMemory_hostAccess (s := { s with turns := rest }) hl a)

/-! ## What reaches IMEM, and what a host access reaches in a run (20_memory.md R71, R89, 60_exceptions.md R380) -/

/-- A host write that changes IMEM is one in its window, of a unit that does not run. -/
theorem hostAccess_imem {s : State} {a : HostAccess} (h : (s.hostAccess a).imem ≠ s.imem) :
    s.run ≠ .running ∧ ∃ offset v : Word, a = .write 4 offset v ∧ 0x10000 ≤ offset.toNat ∧
      offset.toNat < 0x10000 + 4 * s.params.imemWords := by
  rcases hostAccess_cases s a with ⟨e, r, he⟩ | ⟨offset, v, tgt, t, rfl, ht, hb, hw, he⟩ <;> rw [he] at h
  · exact absurd rfl h
  · cases tgt with
    | csr n =>
      rw [State.writeCsr?_eq_some hw] at h
      exact absurd rfl h
    | ctrl =>
      cases hw
      exact absurd (s.sameMemory_writeCtrl v).2.1 h
    | hpc => cases hw
    | entry | irqstat | dmem a =>
      cases hw
      exact absurd rfl h
    | reg r =>
      cases hw
      exact absurd (by simp) h
    | imem w =>
      obtain ⟨-, hlow, hhigh, -⟩ := hostTarget?_imem ht
      exact ⟨fun hr => absurd (hb hr) (by simp [HostTarget.writableBusy]), offset, v, rfl, hlow, hhigh⟩

/-- What a program computes with is the same in both states: registers, memories, ENTRY, the writable CSRs, SCALEF, the
table bits and the counters. -/
def State.SameProgram (s t : State) : Prop :=
  t.regs = s.regs ∧ t.dmem = s.dmem ∧ t.imem = s.imem ∧ t.entry = s.entry ∧ t.prec = s.prec ∧
    t.scaleLo = s.scaleLo ∧ t.scaleHi = s.scaleHi ∧ t.scalef = s.scalef ∧ t.bcount = s.bcount ∧
    t.istride = s.istride ∧ t.bstride = s.bstride ∧ t.ostride = s.ostride ∧ t.tvalidF32 = s.tvalidF32 ∧
    t.tvalidF64 = s.tvalidF64 ∧ t.tvalidQ31 = s.tvalidQ31 ∧ t.tgencnt = s.tgencnt ∧ t.instret = s.instret

theorem State.SameProgram.refl (s : State) : s.SameProgram s :=
  ⟨rfl, rfl, rfl, rfl, rfl, rfl, rfl, rfl, rfl, rfl, rfl, rfl, rfl, rfl, rfl, rfl, rfl⟩

/-- ABORT, IE and START leave all of it, so a write of CTRL without SRESET does (60_exceptions.md R375, R382). -/
theorem State.sameProgram_writeCtrl (s : State) {v : Word} (hv : v.getLsbD 3 = false) : s.SameProgram (s.writeCtrl v) :=
  State.writeCtrl_keeps (P := s.SameProgram) (by rw [State.ctrlReset_of_not hv]; exact .refl s) (fun _ h => h)
    (fun _ _ h => h) (fun _ h => h) (fun _ h => h)

/-- While the unit runs, a host access reaches CTRL and IRQSTAT alone. -/
theorem State.sameProgram_hostAccess {s : State} (hr : s.run = .running) {a : HostAccess}
    (hv : ∀ v : Word, a = .write 4 0x400 v → v.getLsbD 3 = false) : s.SameProgram (s.hostAccess a) := by
  rcases hostAccess_cases s a with ⟨e, r, he⟩ | ⟨offset, v, tgt, t, rfl, ht, hb, hw, he⟩ <;> rw [he]
  · exact .refl s
  · cases tgt with
    | ctrl =>
      cases hw
      cases hostTarget?_ctrl ht
      exact s.sameProgram_writeCtrl (hv v rfl)
    | irqstat =>
      cases hw
      exact .refl s
    | csr n | entry | hpc | reg r | imem w | dmem a => exact absurd (hb hr) (by simp [HostTarget.writableBusy])

/-- Settles O54: of all steps only a host access reaches IMEM, and in a run it leaves the program's state. -/
theorem onlyAnIdleHostChangesImem : Obligations.OnlyAnIdleHostChangesImem := by
  intro s t h
  have hruns : ∀ {s' : State}, RunsTo s' t → t.imem = s'.imem := by
    rintro s' (⟨x, rfl, -⟩ | ⟨i, -, h⟩)
    · rfl
    · exact (exec_frame h).1.2.1
  obtain ⟨-, ⟨-, s', ⟨rfl, ht⟩ | ⟨rest, ht, rfl⟩, hrun⟩ | ⟨hidle, hstay⟩ | ⟨a, rest, ht, rfl⟩⟩ := step_cases h
  · refine ⟨fun hi => absurd (hruns hrun) hi, fun _ a rest h => ?_⟩
    rw [ht] at h
    cases h
  · refine ⟨fun hi => absurd (hruns hrun) hi, fun _ a rest' h => ?_⟩
    rw [ht] at h
    cases h
  · refine ⟨fun hi => absurd ?_ hi, fun hr => absurd hr hidle⟩
    rcases hstay with rfl | ⟨rest, -, rfl⟩ <;> rfl
  · refine ⟨fun hi => ?_, fun hr b rest' hb hv => ?_⟩
    · obtain ⟨hidle, offset, v, rfl, hlow, hhigh⟩ := hostAccess_imem hi
      exact ⟨hidle, offset, v, ⟨rest, ht⟩, hlow, hhigh⟩
    · refine State.sameProgram_hostAccess (s := { s with turns := rest }) hr fun v ha => hv v ⟨rest, ?_⟩
      rw [ht, ha]

end Sys2Proof.Machine

/-! # Proofs: the vector instructions (41_numeric.md R158 to R161) -/

namespace Sys2Proof.Machine

/-! ## CMULV and CMULV.c (41_numeric.md R158) -/

theorem Memory.getElem_readCs (m : Memory) (p : Prec) (base n stride : Nat) {j : Nat}
    (hj : j < (m.readCs p (addrsFrom base n stride)).length) :
    (m.readCs p (addrsFrom base n stride))[j] = m.readC p (base + j * stride) := by
  simp [Memory.readCs, addrsFrom]

theorem Memory.length_readCs (m : Memory) (p : Prec) (base n stride : Nat) :
    (m.readCs p (addrsFrom base n stride)).length = n := by
  simp [Memory.readCs, addrsFrom]

/-- An instruction that is the CMULV body completes with the products of the samples read before any write. -/
theorem CompletesWith.of_cmulvBody {i : Instr} {s : State} {conjugate : Bool} {d a b c : Nat}
    (h : exec i s = finish s (cmulvBody conjugate d a b c s)) (hc : c ≠ 0)
    (hl : ∀ l ∈ [complexLin s.prec d c, complexLin s.prec a c, complexLin s.prec b c], LinReady s s.prec.es l) :
    CompletesWith i s [] (addrsFrom d c s.prec.cs) s.prec.cs fun m => ∀ j, j < c →
      m.readC s.prec (d + j * s.prec.cs) = ((s.dmem.readC s.prec (a + j * s.prec.cs)).mul
        (cmulvFactor conjugate (s.dmem.readC s.prec (b + j * s.prec.cs)))).canon := by
  rw [(cmulvBody_eq_ok_iff conjugate d a b c s _).2 ⟨hc, hl, rfl⟩] at h
  refine .of_ok h (fun hwf => SameOutside.of_writeCs hwf fun w hw => (List.of_mem_zip hw).1) fun hwf j hj => ?_
  refine (Memory.readC_writeCs_addrsFrom hwf s.prec le_rfl _ hj ?_).trans ?_
  · simpa [Lin.addrs, complexLin, Memory.length_readCs] using hj
  · simp only [List.getElem_zipWith, Lin.addrs, complexLin, Memory.getElem_readCs]

/-- Settles O20: both forms are the CMULV body. -/
theorem cmulvMultipliesTheVectors : Obligations.CmulvMultipliesTheVectors := by
  intro s rd rs1 rs2 rs3 c p a b hc hd ha hb
  have hl : ∀ l ∈ [complexLin p (s.regNat rd) c, complexLin p (s.regNat rs1) c, complexLin p (s.regNat rs2) c],
      LinReady s p.es l := by simp [hd, ha, hb]
  exact ⟨.of_cmulvBody (conjugate := false) rfl hc hl, .of_cmulvBody (conjugate := true) rfl hc hl⟩

/-! ## Writes of whole elements at aligned addresses (20_memory.md R79, R85) -/

/-- Two multiples of the element size are equal or a whole element apart. -/
theorem aligned_apart {n a b : Nat} (ha : a % n = 0) (hb : b % n = 0) (hne : b ≠ a) : a + n ≤ b ∨ b + n ≤ a := by
  obtain ⟨k, rfl⟩ := Nat.dvd_of_mod_eq_zero ha
  obtain ⟨k', rfl⟩ := Nat.dvd_of_mod_eq_zero hb
  have hkk : k ≠ k' := fun e => hne (by rw [e])
  rcases Nat.lt_or_gt_of_ne hkk with hlt | hlt
  · exact .inl (Nat.mul_le_mul_left n hlt)
  · exact .inr (Nat.mul_le_mul_left n hlt)

/-- Some write to an address is the last. -/
theorem exists_last_write {α : Type} {a : Nat} {v : α} {ws : List (Nat × α)} (hmem : (a, v) ∈ ws) :
    ∃ l u r, ws = l ++ (a, u) :: r ∧ ∀ w ∈ r, w.1 ≠ a := by
  induction ws generalizing v with
  | nil => cases hmem
  | cons x xs ih =>
    by_cases hx : ∃ w ∈ xs, w.1 = a
    · obtain ⟨⟨_, u⟩, hw, rfl⟩ := hx
      obtain ⟨l, u', r, rfl, hr⟩ := ih hw
      exact ⟨x :: l, u', r, rfl, hr⟩
    · have hxv : (a, v) = x := (List.mem_cons.1 hmem).resolve_right fun h => hx ⟨_, h, rfl⟩
      exact ⟨[], v, xs, by rw [hxv]; rfl, fun w hw hwa => hx ⟨w, hw, hwa⟩⟩

/-- An element that is written reads as one of the values written to it, a NaN as the canonical one, whatever came before. -/
theorem Memory.exists_readEl_writeEls {m : Memory} (h : Memory.wf m = true) {p : Prec} {a : Nat} {v : Elem p}
    (pre : List (Nat × Elem p)) {suf : List (Nat × Elem p)} (hmem : (a, v) ∈ suf) (hal : ∀ w ∈ suf, w.1 % p.es = 0) :
    ∃ u, (a, u) ∈ suf ∧ (m.writeEls p (pre ++ suf)).readEl p a = Elem.canon p u := by
  obtain ⟨l, u, r, rfl, hr⟩ := exists_last_write hmem
  have hlast : ∀ x ∈ r.map fun w => (w.1, (Elem.canon p w.2).toNat), a + p.es ≤ x.1 ∨ x.1 + p.es ≤ a := by
    intro x hx
    obtain ⟨w, hw, rfl⟩ := List.mem_map.1 hx
    exact aligned_apart (hal _ hmem) (hal w (by simp [hw])) (hr w hw)
  refine ⟨u, by simp, ?_⟩
  rw [← List.append_assoc, Memory.writeEls_eq, List.map_append, List.map_cons, Memory.readEl,
    Memory.readLE_writeRaws_last h hlast, Prec.pow_es]
  refine BitVec.eq_of_toNat_eq ?_
  simp

/-- So it reads as the value that every write to it has from some write on. -/
theorem Memory.readEl_writeEls_of_suffix {m : Memory} (h : Memory.wf m = true) {p : Prec} {a : Nat} {v : Elem p}
    (pre : List (Nat × Elem p)) {suf : List (Nat × Elem p)} (hmem : (a, v) ∈ suf) (hal : ∀ w ∈ suf, w.1 % p.es = 0)
    (hv : ∀ w ∈ suf, w.1 = a → w.2 = v) : (m.writeEls p (pre ++ suf)).readEl p a = Elem.canon p v := by
  obtain ⟨u, hu, hread⟩ := Memory.exists_readEl_writeEls h pre hmem hal
  rw [hread, show u = v from hv _ hu rfl]

/-- The part of a sample that lies `e` bytes after its start: the real one at 0, the imaginary one at ES. -/
def Cplx.part {p : Prec} (z : Cplx p) (e : Nat) : Elem p := if e = 0 then z.re else z.im

/-- The same for one part of a sample among complex writes. -/
theorem Memory.readEl_writeCs_of_suffix {m : Memory} (h : Memory.wf m = true) {p : Prec} {a e : Nat} {z : Cplx p}
    (pre : List (Nat × Cplx p)) {suf : List (Nat × Cplx p)} (he : e ∈ [0, p.es]) (hmem : (a, z) ∈ suf)
    (hal : ∀ w ∈ suf, w.1 % p.es = 0)
    (hv : ∀ w ∈ suf, ∀ e' ∈ [0, p.es], w.1 + e' = a + e → w.2.part e' = z.part e) :
    (m.writeCs p (pre ++ suf)).readEl p (a + e) = Elem.canon p (z.part e) := by
  have hpos := p.es_pos
  have hparts : ∀ (w : Nat × Cplx p) (x : Nat × Elem p), x ∈ [(w.1, w.2.re), (w.1 + p.es, w.2.im)] ↔
      ∃ e' ∈ [0, p.es], x = (w.1 + e', w.2.part e') := by
    intro w x
    simp [Cplx.part, hpos.ne']
  rw [Memory.writeCs_eq, List.flatMap_append]
  refine Memory.readEl_writeEls_of_suffix h _ (List.mem_flatMap.2 ⟨_, hmem, (hparts _ _).2 ⟨e, he, rfl⟩⟩) ?_ ?_
  · intro x hx
    obtain ⟨w, hw, hx⟩ := List.mem_flatMap.1 hx
    obtain ⟨e', he', rfl⟩ := (hparts w x).1 hx
    have := hal w hw
    simp only [List.mem_cons, List.not_mem_nil, or_false] at he'
    rcases he' with rfl | rfl <;> simp [this]
  · intro x hx hxa
    obtain ⟨w, hw, hx⟩ := List.mem_flatMap.1 hx
    obtain ⟨e', he', rfl⟩ := (hparts w x).1 hx
    exact hv w hw e' he' hxa

/-! ## BFV (41_numeric.md R159) -/

/-- The writes of BFV for a sequence of indices, from two vectors of samples. -/
def bfvSteps {p : Prec} (a b : Nat) (x y : Nat → Cplx p) (ks : List Nat) : List (Nat × Cplx p) :=
  ks.flatMap fun k => [(a + k * p.cs, (x k).add (y k)), (b + k * p.cs, (x k).sub (y k))]

theorem mem_bfvSteps {p : Prec} {a b : Nat} {x y : Nat → Cplx p} {ks : List Nat} {w : Nat × Cplx p} :
    w ∈ bfvSteps a b x y ks ↔
      ∃ k ∈ ks, w = (a + k * p.cs, (x k).add (y k)) ∨ w = (b + k * p.cs, (x k).sub (y k)) := by
  simp [bfvSteps]

/-- The writes of BFV go through the indices in ascending order. -/
theorem bfvWrites_eq (m : Memory) (p : Prec) (a b c : Nat) :
    bfvWrites (complexLin p a c).addrs (complexLin p b c).addrs (m.readCs p (complexLin p a c).addrs)
        (m.readCs p (complexLin p b c).addrs) =
      bfvSteps a b (fun k => m.readC p (a + k * p.cs)) (fun k => m.readC p (b + k * p.cs)) (List.range c) := by
  simp only [bfvWrites, Lin.addrs, complexLin, addrsFrom, Memory.readCs, List.map_map, List.zip_map', List.flatMap_map]
  rfl

/-- The steps of BFV, cut before one index. -/
theorem bfvSteps_range {p : Prec} (a b : Nat) (x y : Nat → Cplx p) {j c : Nat} (hj : j < c) :
    bfvSteps a b x y (List.range c) = bfvSteps a b x y (List.range j) ++ (a + j * p.cs, (x j).add (y j)) ::
      (b + j * p.cs, (x j).sub (y j)) :: bfvSteps a b x y (List.range' (j + 1) (c - (j + 1))) := by
  have hsplit : List.range c = List.range j ++ j :: List.range' (j + 1) (c - (j + 1)) := by
    have happend := List.range'_append_1 (s := 0) (m := j) (n := c - (j + 1) + 1)
    rw [Nat.zero_add, show j + (c - (j + 1) + 1) = c by omega] at happend
    rw [List.range_eq_range', List.range_eq_range', ← List.range'_succ, happend]
  simp [bfvSteps, hsplit]

/-- Two parts of samples of one vector have different addresses. -/
theorem sample_part_inj {p : Prec} {k j e e' : Nat} (he : e ∈ [0, p.es]) (he' : e' ∈ [0, p.es])
    (h : k * p.cs + e' = j * p.cs + e) : k = j ∧ e' = e := by
  have hcs : p.cs = 2 * p.es := rfl
  have hpos := p.es_pos
  have hlt : e < p.cs ∧ e' < p.cs := by
    simp only [List.mem_cons, List.not_mem_nil, or_false] at he he'
    omega
  have hk : k = j := by
    rcases Nat.lt_trichotomy k j with hlt' | heq | hlt'
    · have := Nat.mul_le_mul_right p.cs (Nat.succ_le_of_lt hlt')
      rw [Nat.succ_mul] at this
      omega
    · exact heq
    · have := Nat.mul_le_mul_right p.cs (Nat.succ_le_of_lt hlt')
      rw [Nat.succ_mul] at this
      omega
  subst hk
  exact ⟨rfl, by omega⟩

section Bfv

variable {m : Memory} {p : Prec} {a b c j e : Nat} {x y : Nat → Cplx p}

theorem aligned_of_mem_bfvSteps (ha : a % p.es = 0) (hb : b % p.es = 0) {ks : List Nat} {w : Nat × Cplx p}
    (hw : w ∈ bfvSteps a b x y ks) : w.1 % p.es = 0 := by
  have hcs : p.cs = 2 * p.es := rfl
  obtain ⟨k, -, rfl | rfl⟩ := mem_bfvSteps.1 hw <;>
    simp [hcs, ← Nat.mul_assoc, ha, hb]

/-- An element of A holds its part of the sum, when no difference is written to it at the same index or later. -/
theorem readEl_bfvSteps_sum (h : Memory.wf m = true) (ha : a % p.es = 0) (hb : b % p.es = 0) (hj : j < c)
    (he : e ∈ [0, p.es])
    (hlast : ∀ k e', j ≤ k → k < c → e' ∈ [0, p.es] → b + k * p.cs + e' ≠ a + j * p.cs + e) :
    (m.writeCs p (bfvSteps a b x y (List.range c))).readEl p (a + j * p.cs + e) =
      Elem.canon p (((x j).add (y j)).part e) := by
  have hsuf : (a + j * p.cs, (x j).add (y j)) :: (b + j * p.cs, (x j).sub (y j)) ::
      bfvSteps a b x y (List.range' (j + 1) (c - (j + 1))) = bfvSteps a b x y (List.range' j (c - j)) := by
    rw [show c - j = (c - (j + 1)) + 1 by omega, List.range'_succ]
    rfl
  rw [bfvSteps_range a b x y hj, hsuf]
  refine Memory.readEl_writeCs_of_suffix h _ he (mem_bfvSteps.2 ⟨j, ?_, .inl rfl⟩)
    (fun w hw => aligned_of_mem_bfvSteps ha hb hw) fun w hw e' he' heq => ?_
  · rw [List.mem_range'_1]
    omega
  · obtain ⟨k, hk, rfl | rfl⟩ := mem_bfvSteps.1 hw
    · obtain ⟨rfl, rfl⟩ := sample_part_inj (k := k) (j := j) he he' (by simp only at heq; omega)
      rfl
    · rw [List.mem_range'_1] at hk
      exact absurd heq (hlast k e' hk.1 (by omega) he')

/-- An element of B holds its part of the difference, when no sum is written to it at a later index. -/
theorem readEl_bfvSteps_diff (h : Memory.wf m = true) (ha : a % p.es = 0) (hb : b % p.es = 0) (hj : j < c)
    (he : e ∈ [0, p.es])
    (hlast : ∀ k e', j < k → k < c → e' ∈ [0, p.es] → a + k * p.cs + e' ≠ b + j * p.cs + e) :
    (m.writeCs p (bfvSteps a b x y (List.range c))).readEl p (b + j * p.cs + e) =
      Elem.canon p (((x j).sub (y j)).part e) := by
  have hcs : p.cs = 2 * p.es := rfl
  rw [bfvSteps_range a b x y hj, List.append_cons]
  refine Memory.readEl_writeCs_of_suffix h _ he (by simp) (fun w hw => ?_) fun w hw e' he' heq => ?_
  · rcases List.mem_cons.1 hw with rfl | hw
    · simp [hcs, ← Nat.mul_assoc, hb]
    · exact aligned_of_mem_bfvSteps ha hb hw
  · rcases List.mem_cons.1 hw with rfl | hw
    · obtain ⟨-, rfl⟩ := sample_part_inj (k := j) (j := j) he he' (by simp only at heq; omega)
      rfl
    · obtain ⟨k, hk, rfl | rfl⟩ := mem_bfvSteps.1 hw <;> rw [List.mem_range'_1] at hk
      · exact absurd heq (hlast k e' (by omega) (by omega) he')
      · obtain ⟨rfl, -⟩ := sample_part_inj (k := k) (j := j) he he' (by simp only at heq; omega)
        omega

end Bfv

/-- A sample read from memory is canonical when both its parts are. -/
theorem Memory.readC_eq_canon {m : Memory} {p : Prec} {a : Nat} {z : Cplx p}
    (h : ∀ e ∈ [0, p.es], m.readEl p (a + e) = Elem.canon p (z.part e)) : m.readC p a = z.canon := by
  have hpos := p.es_pos
  have hre := h 0 (by simp)
  have him := h p.es (by simp)
  rw [Nat.add_zero] at hre
  rw [Memory.readC, Cplx.canon, hre, him]
  simp [Cplx.part, hpos.ne']

/-- Settles O21: the two clauses on any overlap are those of single elements, and give the other two, where no later write
meets the element. -/
theorem bfvAddsAndSubtracts : Obligations.BfvAddsAndSubtracts := by
  intro s rs1 rs2 rs3 c p a b hc hla hlb
  have hcs : p.cs = 2 * p.es := rfl
  have hpos := p.es_pos
  have hlt : ∀ e ∈ [0, p.es], e < p.cs := by
    simp only [List.mem_cons, List.not_mem_nil, or_false]
    omega
  have hok := (bfvBody_eq_ok_iff (s.regNat rs1) (s.regNat rs2) c s _).2 ⟨hc, by simp [p, hla, hlb] , rfl⟩
  rw [bfvWrites_eq] at hok
  refine .of_ok (congrArg (finish s) hok) (fun hwf => SameOutside.of_writeCs hwf fun w hw => ?_) fun hwf => ?_
  · obtain ⟨k, hk, rfl | rfl⟩ := mem_bfvSteps.1 hw <;>
      simp only [addrsFrom, List.mem_append, List.mem_map]
    · exact .inl ⟨k, hk, rfl⟩
    · exact .inr ⟨k, hk, rfl⟩
  have hsum := fun {j e} => readEl_bfvSteps_sum (a := s.regNat rs1) (b := s.regNat rs2) (c := c) (j := j) (e := e)
    (x := a) (y := b) hwf hla.1 hlb.1
  have hdiff := fun {j e} => readEl_bfvSteps_diff (a := s.regNat rs1) (b := s.regNat rs2) (c := c) (j := j) (e := e)
    (x := a) (y := b) hwf hla.1 hlb.1
  have hstep : ∀ {j k : Nat}, j < k → j * p.cs + p.cs ≤ k * p.cs := fun {j k} h => by
    rw [← Nat.succ_mul]
    exact Nat.mul_le_mul_right _ h
  refine ⟨fun hapart j hj => ?_, fun hsame j hj => ?_, fun j e hj he hlast => hsum hj he hlast,
    fun j e hj he hlast => hdiff hj he hlast⟩
  · have hne : ∀ k e e', k < c → e ∈ [0, p.es] → e' ∈ [0, p.es] →
        s.regNat rs2 + k * p.cs + e' ≠ s.regNat rs1 + j * p.cs + e ∧
        s.regNat rs1 + k * p.cs + e' ≠ s.regNat rs2 + j * p.cs + e := by
      intro k e e' hk he he'
      have h1 := hstep hj
      have h2 := hstep hk
      have h3 := hlt e he
      have h4 := hlt e' he'
      omega
    exact ⟨Memory.readC_eq_canon fun e he => hsum hj he fun k e' _ hk he' => (hne k e e' hk he he').1,
      Memory.readC_eq_canon fun e he => hdiff hj he fun k e' _ hk he' => (hne k e e' hk he he').2⟩
  · have haddr : s.regNat rs1 + j * p.cs = s.regNat rs2 + j * p.cs := by rw [hsame]
    have hab : b j = a j := congrArg (s.dmem.readC p) haddr.symm
    rw [haddr]
    refine (Memory.readC_eq_canon fun e he => hdiff hj he fun k e' hjk _ he' => ?_).trans (by rw [hab])
    have h1 := hstep hjk
    have h2 := hlt e he
    omega

/-! ## The faults of the vector instructions (41_numeric.md R158 to R161, 60_exceptions.md R353) -/

theorem Faults.of_error {i : Instr} {s : State} {r : Except Trap State} {c : Cause} {info : Nat}
    (h : exec i s = finish s r) (hr : r = .error ⟨c, info⟩) : Faults i s c info := by
  unfold Faults
  rw [h, hr]
  rfl

/-- SCALE is a number exactly when its exponent field is not all ones (10_state.md R36; the encodings: log 10). -/
theorem scale?_eq_none_iff (s : State) : s.scale? = none ↔ ¬ScaleFinite s := by
  have hexp : ScaleFinite s ↔ s.scaleHi.toNat / 1048576 % 2048 ≠ 2047 := by
    rw [ScaleFinite, ne_eq, ← BitVec.toNat_inj, BitVec.extractLsb'_toNat, Nat.shiftRight_eq_div_pow]
    norm_num
  have hbits : s.scaleBits = 4294967296 * s.scaleHi.toNat + s.scaleLo.toNat := rfl
  have hsign : fmt64.signBit = 9223372036854775808 := rfl
  have hinf : fmt64.infMag = 9218868437227405312 := rfl
  have hlo := s.scaleLo.isLt
  have hhi := s.scaleHi.isLt
  rw [hexp, State.scale?, Fmt.decode]
  simp only [hbits, hsign, hinf]
  split_ifs with hnan hmag
  · simp only [true_iff]
    omega
  · simp only [true_iff]
    omega
  · simp only [false_iff, not_not]
    omega

theorem requireScale_of_not_finite {s : State} (h : ¬ScaleFinite s) :
    requireScale s = .error ⟨.invalidArgument, s.scaleHi.toNat⟩ := by
  rw [requireScale, (scale?_eq_none_iff s).2 h]

/-- With a count and a finite SCALE, SCALEV checks its operands next. -/
theorem scalevBody_of_finite {s : State} {c : Nat} (hc : c ≠ 0) (h : ScaleFinite s) (d a : Nat) :
    ∃ r, scalevBody d a c s = checkLins s s.prec.es [realLin s.prec d c, realLin s.prec a c] >>= r := by
  cases hs : s.scale? with
  | none => exact absurd h ((scale?_eq_none_iff s).1 hs)
  | some x =>
    unfold scalevBody
    rw [check_then_of_ok (requireNonzero_of_ne hc), requireScale, hs]
    exact ⟨_, rfl⟩

section VectorFaults

variable {i : Instr} {s : State} {c : Nat}

/-- A count of 0 is found first. -/
theorem Faults.of_count_zero {r : Unit → Except Trap State} (h : exec i s = finish s (requireNonzero c >>= r))
    (hc : c = 0) : Faults i s .invalidArgument 0 :=
  .of_error h (by rw [hc]; exact check_then_of_error requireNonzero_zero r)

/-- With a count the operands come next. -/
theorem OperandFaults.of_count {ls : List Lin} {align : Nat} {r : Unit → Except Trap State}
    (h : exec i s = finish s (requireNonzero c >>= fun _ => checkLins s align ls >>= r)) (hc : c ≠ 0) :
    OperandFaults i s align ls :=
  .of_body (r := r) (by rw [h, check_then_of_ok (requireNonzero_of_ne hc)])

end VectorFaults

/-- Settles O24: each body checks its count first and its operands last, and SCALEV checks SCALE between them. -/
theorem vectorInstructionsFaultInOrder : Obligations.VectorInstructionsFaultInOrder := by
  intro s rd rs1 rs2 rs3 c cl rl
  refine ⟨fun hc => ?_, fun hc hs => .of_error rfl ?_, fun hc => ?_, fun hc hs => ?_⟩
  · simp only [List.forall_mem_cons, List.not_mem_nil, false_imp_iff, implies_true, and_true]
    exact ⟨.of_count_zero rfl hc, .of_count_zero rfl hc, .of_count_zero rfl hc, .of_count_zero rfl hc,
      .of_count_zero rfl hc⟩
  · unfold scalevBody
    rw [check_then_of_ok (requireNonzero_of_ne hc), requireScale_of_not_finite hs]
    rfl
  · exact ⟨.of_count rfl hc, .of_count rfl hc, .of_count rfl hc, .of_count rfl hc⟩
  · obtain ⟨r, hr⟩ := scalevBody_of_finite hc hs (s.regNat rd) (s.regNat rs1)
    exact .of_body (congrArg (finish s) hr)

end Sys2Proof.Machine

/-! # Proofs: the operands of the batched instructions, and the completion of the no-shuffle transforms -/

namespace Sys2Proof.Machine

/-! ## The own checks of the batched instructions, when they pass (42_fft_sr.md R178, 43_fft_prime.md R207) -/

theorem checkSrcomb_of_supported {s : State} {lg : Nat} (h2 : 2 ≤ lg) (h21 : lg ≤ 21) (hmax : lg ≤ s.params.maxLog2) :
    checkSrcomb s lg = .ok () := by
  rw [checkSrcomb_of_le h2]
  exact (checkLg_eq_ok_iff s lg).2 ⟨h21, hmax⟩

theorem checkLength_of_inS {s : State} {n : Nat} (hs : inS n = true) (hmax : n ≤ s.params.maxN) :
    checkLength s n n (inS n) = .ok () :=
  (checkLength_eq_ok_iff s n n (inS n)).2 ⟨Nat.pos_iff_ne_zero.1 (inS_bounds hs).1, hs, hmax⟩

theorem checkPfa_of_supported {s : State} {n1 n2 : Nat} (h2 : 2 ≤ n2) (hg : Nat.gcd n1 n2 = 1) (hs : inS n2 = true)
    (hcap : n1 * n2 ≤ 2 ^ 21) (hmax : n1 * n2 ≤ s.params.maxN) : checkPfa s n1 n2 = .ok () :=
  (checkPfa_eq_ok_iff s n1 n2).2 ⟨by omega, hg, ⟨h2, hs, hcap⟩, hmax⟩

/-- Settles O30: each instruction is one batched body, whose own checks pass. -/
theorem batchedInstructionsCheckTheirViews : Obligations.BatchedInstructionsCheckTheirViews := by
  intro s rd rs1 rs3 lg hb d a n l
  refine ⟨.of_body rfl hb rfl, .of_body rfl hb rfl, .of_body rfl hb rfl, fun h21 hmax => ?_, fun hs hmax => ?_, ?_, ?_⟩
  · have hlg := (checkLg_eq_ok_iff s lg.toNat).2 ⟨h21, hmax⟩
    exact ⟨fun h2 => .of_body rfl hb (checkSrcomb_of_supported h2 h21 hmax), .of_body rfl hb hlg, .of_body rfl hb hlg,
      .of_body rfl hb hlg⟩
  · have hl := checkLength_of_inS hs hmax
    exact ⟨.of_body rfl hb hl, .of_body rfl hb hl⟩
  · simp only [List.forall_mem_cons, List.not_mem_nil, false_imp_iff, implies_true, and_true]
    exact ⟨.of_body rfl hb rfl, .of_body rfl hb rfl, .of_body rfl hb rfl, .of_body rfl hb rfl, .of_body rfl hb rfl,
      .of_body rfl hb rfl, .of_body rfl hb rfl, .of_body rfl hb rfl, .of_body rfl hb rfl, .of_body rfl hb rfl⟩
  · simp only [List.forall_mem_cons, List.not_mem_nil, false_imp_iff, implies_true, and_true]
    refine ⟨?_, ?_, ?_, ?_, ?_, ?_, ?_, ?_, ?_, ?_⟩ <;>
      exact fun h2 hg hs hcap hmax => .of_body rfl hb (checkPfa_of_supported h2 hg hs hcap hmax)

/-! ## FFT2, FFT4, FFT8, SRCOMB and FFTNS (42_fft_sr.md R175 to R179) -/

theorem slotsComb_of_le {lg : Nat} (h2 : 2 ≤ lg) : slotsComb lg = if lg = 2 then [] else [.pow lg] := by
  unfold slotsComb
  split_ifs with h h'
  · rfl
  · omega
  · omega
  · rfl

/-- The tables NS_N reads: T_n for every power of two n with 8 ≤ n ≤ N (42_fft_sr.md R188). -/
theorem mem_slotsNoShuffle {lg : Nat} {x : Slot} : x ∈ slotsNoShuffle lg ↔ ∃ t, 3 ≤ t ∧ t ≤ lg ∧ x = .pow t := by
  simp only [slotsNoShuffle, List.mem_map, List.mem_range]
  constructor
  · rintro ⟨i, hi, rfl⟩
    exact ⟨i + 3, by omega, by omega, rfl⟩
  · rintro ⟨t, h3, ht, rfl⟩
    exact ⟨t - 3, by omega, by rw [Nat.sub_add_cancel h3]⟩

/-- The inputs of group k of COMB_N after the twiddles: as they are in group 0 for N ≤ 8, else multiplied
(42_fft_sr.md R187). -/
theorem combGroup_twiddles (p : Prec) {lg k : Nat} (h2 : 2 ≤ lg) (hk : k < 2 ^ lg / 4) (a0 a1 a2 a3 : Cplx p) :
    combGroup ((combTwiddles p lg).getD k none) a0 a1 a2 a3 =
      let wre := rescale p (.cosPi (2 * k) (2 ^ lg))
      let wim := rescale p (.cosPi (2 * (2 ^ lg / 4 - k)) (2 ^ lg))
      combOutputs a0 a1 (if 2 ^ lg ≤ 8 ∧ k = 0 then a2 else a2.mul ⟨wre, Elem.neg p wim⟩)
        (if 2 ^ lg ≤ 8 ∧ k = 0 then a3 else a3.mul ⟨wre, wim⟩) := by
  rw [combTwiddles_getD p h2 hk]
  split_ifs <;> rfl

/-- Group k of COMB_N writes the entries k, k + q, k + 2q and k + 3q, q = N/4 (42_fft_sr.md R187). -/
theorem atC_comb (p : Prec) {lg k : Nat} (hk : k < 2 ^ lg / 4) (z : List (Cplx p)) {g : Cplx p × Cplx p × Cplx p × Cplx p}
    (hg : combGroup ((combTwiddles p lg).getD k none) (atC z k) (atC z (k + 2 ^ lg / 4)) (atC z (k + 2 * (2 ^ lg / 4)))
      (atC z (k + 3 * (2 ^ lg / 4))) = g) :
    atC (comb p lg z) k = g.1 ∧ atC (comb p lg z) (k + 2 ^ lg / 4) = g.2.1 ∧
      atC (comb p lg z) (k + 2 * (2 ^ lg / 4)) = g.2.2.1 ∧ atC (comb p lg z) (k + 3 * (2 ^ lg / 4)) = g.2.2.2 := by
  subst hg
  unfold comb
  simp only [List.map_map, pow2_eq]
  exact atC_quarters _ _ _ _ hk

/-- Settles O25: each instruction is one batched body; NS by its recursion, and COMB by the quarters of its vector. -/
theorem noShuffleTransformsComplete : Obligations.NoShuffleTransformsComplete := by
  refine ⟨fun s rd lg => ?_, fun lg x => mem_slotsNoShuffle, fun p z => ⟨rfl, rfl, fun m => rfl, fun lg k h2 hk => ?_⟩⟩
  · intro d n
    refine ⟨fun hv => .of_body rfl rfl hv fun _ _ => rfl,
      fun hv => .of_body rfl rfl hv fun _ h => length_noShuffle s.prec 2 h,
      fun hv => .of_body rfl rfl hv fun _ h => length_noShuffle s.prec 3 h, fun h2 h21 hmax hv => ?_,
      fun h21 hmax hv => .of_body rfl ((checkLg_eq_ok_iff s lg.toNat).2 ⟨h21, hmax⟩) hv fun _ h =>
        length_noShuffle s.prec lg.toNat h⟩
    rw [← slotsComb_of_le h2]
    exact .of_body rfl (checkSrcomb_of_supported h2 h21 hmax) hv fun v _ => comb_length s.prec h2 v
  · exact ⟨comb_length p h2 z, atC_comb p hk z (combGroup_twiddles p h2 hk _ _ _ _)⟩

end Sys2Proof.Machine

/-! # Proofs: the odd codelets (43_fft_prime.md R200 to R205) -/

namespace Sys2Proof.Machine

/-! ## The constants of ODD_P (43_fft_prime.md R200) -/

/-- C[r − 1] and S[r − 1] are the cosine and the sine of 2πr/P, for r up to (P − 1)/2. -/
theorem oddConstants_entry (p : Prec) {n r : Nat} (hn : n ∈ [3, 5, 7, 9]) (h1 : 1 ≤ r) (hr : r ≤ (n - 1) / 2) :
    atE (oddConstants p n).1 (r - 1) = rescale p (.cosPi (2 * r) n) ∧
      atE (oddConstants p n).2 (r - 1) = rescale p (.sinPi (2 * r) n) := by
  simp only [List.mem_cons, List.not_mem_nil, or_false] at hn
  rcases hn with rfl | rfl | rfl | rfl <;> simp only [Nat.reduceSub, Nat.reduceDiv] at hr <;> interval_cases r <;>
    exact ⟨rfl, rfl⟩

/-! ## The accumulations of ODD_P (43_fft_prime.md R201) -/

section OddCodelet

variable {p : Prec} (n k : Nat) (x : List (Cplx p))

/-- A round of ODD_P without its match: A takes the sum or its product, B the product, added or subtracted, or nothing. -/
theorem oddStep_eq (c s : List (Elem p)) (sum diff : List (Cplx p)) (acc : Cplx p × Option (Cplx p)) (m : Nat) :
    oddStep n k c s sum diff acc m =
      let j := m * k % n
      let t := Cplx.rmul (atE s (min j (n - j) - 1)) (atC diff m)
      if j = 0 then (acc.1.add (atC sum m), acc.2)
      else (acc.1.add (Cplx.rmul (atE c (min j (n - j) - 1)) (atC sum m)),
        some (acc.2.elim t fun b => if j ≤ (n - 1) / 2 then b.add t else b.sub t)) := by
  unfold oddStep
  obtain ⟨a, b⟩ := acc
  cases b <;> rfl

/-- The sums x[m] + x[P − m]. -/
def oddSum (m : Nat) : Cplx p := (atC x m).add (atC x (n - m))

/-- The differences x[m] − x[P − m]. -/
def oddDiff (m : Nat) : Cplx p := (atC x m).sub (atC x (n - m))

/-- The first m rounds, in increasing m, of a loop of ODD_P that starts with `a`. -/
def oddRounds {α : Type} (f : α → Nat → α) (a : α) (m : Nat) : α := ((List.range m).map (· + 1)).foldl f a

theorem oddRounds_succ {α : Type} (f : α → Nat → α) (a : α) (m : Nat) :
    oddRounds f a (m + 1) = f (oddRounds f a m) (m + 1) := by
  simp [oddRounds, List.range_succ]

/-- A and B of output k after m rounds; B is none before the first product. -/
def oddAcc (m : Nat) : Cplx p × Option (Cplx p) :=
  oddRounds (oddStep n k (oddConstants p n).1 (oddConstants p n).2 ((List.range ((n - 1) / 2 + 1)).map (oddSum n x))
    ((List.range ((n - 1) / 2 + 1)).map (oddDiff n x))) (atC x 0, none) m

/-- A of output k. -/
def oddA (m : Nat) : Cplx p := (oddAcc n k x m).1

/-- B of output k. -/
def oddB (m : Nat) : Cplx p := (oddAcc n k x m).2.getD (Cplx.zero p)

/-- The sum of the inputs in the order of output 0. -/
def oddFirst (m : Nat) : Cplx p :=
  oddRounds (fun acc m => acc.add (atC ((List.range ((n - 1) / 2 + 1)).map (oddSum n x)) m)) (atC x 0) m

/-- ODD_P as its accumulations lay it out. -/
theorem oddFft_eq : oddFft p n x = oddFirst n x ((n - 1) / 2) ::
    (((List.range ((n - 1) / 2)).map fun i => (⟨Elem.add p (oddA n (i + 1) x ((n - 1) / 2)).re
        (oddB n (i + 1) x ((n - 1) / 2)).im, Elem.sub p (oddA n (i + 1) x ((n - 1) / 2)).im
        (oddB n (i + 1) x ((n - 1) / 2)).re⟩ : Cplx p)) ++
      ((List.range ((n - 1) / 2)).map fun i => (⟨Elem.sub p (oddA n (i + 1) x ((n - 1) / 2)).re
        (oddB n (i + 1) x ((n - 1) / 2)).im, Elem.add p (oddA n (i + 1) x ((n - 1) / 2)).im
        (oddB n (i + 1) x ((n - 1) / 2)).re⟩ : Cplx p)).reverse) := by
  simp only [oddFft, List.map_map]
  rfl

variable {n k}

theorem oddFirst_succ {m : Nat} (hm : m < (n - 1) / 2) :
    oddFirst n x (m + 1) = (oddFirst n x m).add (oddSum n x (m + 1)) := by
  rw [oddFirst, oddRounds_succ, atC_map_range _ (by omega)]
  rfl

variable (k)

/-- One round: A takes the sum or its product, B the product or nothing (43_fft_prime.md R201). -/
theorem oddAcc_succ (hn : n ∈ [3, 5, 7, 9]) {m : Nat} (hm : m < (n - 1) / 2) :
    let j := (m + 1) * k % n
    let c := rescale p (.cosPi (2 * min j (n - j)) n)
    let t := Cplx.rmul (rescale p (.sinPi (2 * min j (n - j)) n)) (oddDiff n x (m + 1))
    oddAcc n k x (m + 1) =
      if j = 0 then ((oddA n k x m).add (oddSum n x (m + 1)), (oddAcc n k x m).2)
      else ((oddA n k x m).add (Cplx.rmul c (oddSum n x (m + 1))),
        some ((oddAcc n k x m).2.elim t fun b => if j ≤ (n - 1) / 2 then b.add t else b.sub t)) := by
  have hpos : 0 < n ∧ n - 1 = 2 * ((n - 1) / 2) := by
    simp only [List.mem_cons, List.not_mem_nil, or_false] at hn
    omega
  have hmod := Nat.mod_lt ((m + 1) * k) hpos.1
  simp only [oddAcc, oddRounds_succ, oddStep_eq, atC_map_range _ (show m + 1 < (n - 1) / 2 + 1 by omega)]
  by_cases hj : (m + 1) * k % n = 0
  · rw [if_pos hj, if_pos hj]
    rfl
  · obtain ⟨hc, hs⟩ := oddConstants_entry p hn (r := min ((m + 1) * k % n) (n - (m + 1) * k % n)) (by omega) (by omega)
    rw [if_neg hj, if_neg hj, hc, hs]
    rfl

/-- B of output k after one round: the first product (43_fft_prime.md R201). -/
theorem oddAcc_one (hn : n ∈ [3, 5, 7, 9]) {k : Nat} (h1 : 1 ≤ k) (hk : k ≤ (n - 1) / 2) :
    (oddAcc n k x 1).2 = some (Cplx.rmul (rescale p (.sinPi (2 * k) n)) (oddDiff n x 1)) := by
  have hmod : 1 * k % n = k := by
    rw [Nat.one_mul, Nat.mod_eq_of_lt (by omega)]
  have hmin : min k (n - k) = k := by omega
  rw [oddAcc_succ k x hn (m := 0) (by omega)]
  simp only [Nat.zero_add, hmod, hmin]
  rw [if_neg (by omega)]
  rfl

theorem oddAcc_isSome (hn : n ∈ [3, 5, 7, 9]) {k : Nat} (h1 : 1 ≤ k) (hk : k ≤ (n - 1) / 2) {m : Nat}
    (hm : m < (n - 1) / 2) : (oddAcc n k x (m + 1)).2 = some (oddB n k x (m + 1)) := by
  have hsome : (oddAcc n k x (m + 1)).2.isSome = true := by
    induction m with
    | zero => rw [oddAcc_one x hn h1 hk]; rfl
    | succ m ih =>
      rw [oddAcc_succ k x hn hm]
      split_ifs
      · exact ih (by omega)
      all_goals rfl
  obtain ⟨b, hb⟩ := Option.isSome_iff_exists.1 hsome
  rw [oddB, hb]
  rfl

theorem oddA_succ (hn : n ∈ [3, 5, 7, 9]) {m : Nat} (hm : m < (n - 1) / 2) :
    let j := (m + 1) * k % n
    oddA n k x (m + 1) = (oddA n k x m).add (if j = 0 then oddSum n x (m + 1)
      else Cplx.rmul (rescale p (.cosPi (2 * min j (n - j)) n)) (oddSum n x (m + 1))) := by
  simp only
  rw [oddA, oddAcc_succ k x hn hm]
  split_ifs <;> rfl

theorem oddB_succ (hn : n ∈ [3, 5, 7, 9]) {k : Nat} (h1 : 1 ≤ k) (hk : k ≤ (n - 1) / 2) {m : Nat}
    (hm : m + 1 < (n - 1) / 2) :
    let j := (m + 2) * k % n
    let t := Cplx.rmul (rescale p (.sinPi (2 * min j (n - j)) n)) (oddDiff n x (m + 2))
    oddB n k x (m + 2) = if j = 0 then oddB n k x (m + 1)
      else if j ≤ (n - 1) / 2 then (oddB n k x (m + 1)).add t else (oddB n k x (m + 1)).sub t := by
  simp only
  rw [oddB, oddAcc_succ k x hn hm, oddAcc_isSome x hn h1 hk (by omega)]
  split_ifs <;> rfl

/-- Where ODD_P puts its outputs. -/
theorem atC_oddFft {i : Nat} (hn : n ∈ [3, 5, 7, 9]) (hi : i < (n - 1) / 2) :
    let A := oddA n (i + 1) x ((n - 1) / 2)
    let B := oddB n (i + 1) x ((n - 1) / 2)
    atC (oddFft p n x) (i + 1) = ⟨Elem.add p A.re B.im, Elem.sub p A.im B.re⟩ ∧
      atC (oddFft p n x) (n - (i + 1)) = ⟨Elem.sub p A.re B.im, Elem.add p A.im B.re⟩ := by
  have hodd : n - (i + 1) = 2 * ((n - 1) / 2) - 1 - i + 1 := by
    simp only [List.mem_cons, List.not_mem_nil, or_false] at hn
    omega
  rw [oddFft_eq, hodd]
  exact getD_mirror _ _ (Cplx.zero p) hi

end OddCodelet

theorem length_oddFft_of_mem (p : Prec) {n : Nat} (hn : n ∈ [3, 5, 7, 9]) (x : List (Cplx p)) :
    (oddFft p n x).length = n := by
  rw [length_oddFft]
  simp only [List.mem_cons, List.not_mem_nil, or_false] at hn
  omega

/-- Settles O27: each instruction is one batched body over its own table, with the kernel F_P of its length; the sums and
accumulations of ODD_P are those after each round of its loops. -/
theorem oddCodeletsComplete : Obligations.OddCodeletsComplete := by
  refine ⟨fun s rd rs1 => ?_, fun p x n hn => ?_⟩
  · intro d a back
    have hlen : ∀ {n}, n ∈ [3, 5, 7, 9] → ∀ v : List (Cplx s.prec), (oddFft s.prec n v).length = n := fun hn =>
      length_oddFft_of_mem s.prec hn
    refine ⟨fun hv => ?_, fun hv => ?_, fun hv => ?_, fun hv => ?_, fun hv => ?_⟩
    · exact ⟨.of_body rfl rfl hv fun v _ => hlen (by simp) v, .of_body rfl rfl hv fun v _ => hlen (by simp) _⟩
    · exact ⟨.of_body rfl rfl hv fun v _ => hlen (by simp) v, .of_body rfl rfl hv fun v _ => hlen (by simp) _⟩
    · exact ⟨.of_body rfl rfl hv fun v _ => hlen (by simp) v, .of_body rfl rfl hv fun v _ => hlen (by simp) _⟩
    · exact ⟨.of_body rfl rfl hv fun v _ => hlen (by simp) v, .of_body rfl rfl hv fun v _ => hlen (by simp) _⟩
    · exact ⟨.of_body rfl rfl hv fun v _ => length_pfaWith 3 5 _ _ v,
        .of_body rfl rfl hv fun v _ => length_pfaWith 3 5 _ _ _⟩
  · intro h sum diff c s out
    refine ⟨length_oddFft_of_mem p hn x, ⟨oddFirst n x, rfl, fun m h1 hm => ?_, by simp only [out, oddFft_eq]; rfl⟩,
      fun k h1 hk => ⟨oddA n k x, oddB n k x, rfl, ?_, fun m h1 hm => ?_, fun m h2 hm => ?_, ?_⟩⟩
    · obtain ⟨m, rfl⟩ := Nat.exists_eq_add_of_le' h1
      exact oddFirst_succ x hm
    · rw [oddB, oddAcc_one x hn h1 hk]
      rfl
    · obtain ⟨m, rfl⟩ := Nat.exists_eq_add_of_le' h1
      exact oddA_succ k x hn hm
    · obtain ⟨m, rfl⟩ := Nat.exists_eq_add_of_le' h2
      exact oddB_succ x hn h1 hk hm
    · obtain ⟨i, rfl⟩ := Nat.exists_eq_add_of_le' h1
      exact atC_oddFft x hn hk

end Sys2Proof.Machine

/-! # Proofs: the prime-factor transform (43_fft_prime.md R206, R207) -/

namespace Sys2Proof.Machine

/-! ## Vectors placed by an index list, and vectors in blocks -/

section Lists

variable {α : Type} {d : α}

theorem scatterList_cons (init : List α) (k : Nat) (idx : List Nat) (v : α) (vals : List α) :
    scatterList init (k :: idx) (v :: vals) = scatterList (init.set k v) idx vals := rfl

theorem scatterList_nil (init : List α) (idx : List Nat) : scatterList init idx [] = init := by
  simp [scatterList]

/-- An index that is not in the list keeps its value. -/
theorem getD_scatterList_of_not_mem {i : Nat} {idx : List Nat} (hi : i ∉ idx) (init vals : List α) :
    (scatterList init idx vals).getD i d = init.getD i d := by
  induction idx generalizing init vals with
  | nil => rfl
  | cons k idx ih =>
    obtain ⟨hk, hidx⟩ := not_or.1 (mt List.mem_cons.2 hi)
    cases vals with
    | nil => rw [scatterList_nil]
    | cons v vals =>
      rw [scatterList_cons, ih hidx]
      simp [List.getD_eq_getElem?_getD, List.getElem?_set_ne (Ne.symm hk)]

/-- Index i, at position j of a list without repetition, gets the value at position j, if there is one. -/
theorem getD_scatterList {init : List α} {idx : List Nat} (hnd : idx.Nodup) {i j : Nat} (hi : i < init.length)
    (hj : idx[j]? = some i) (hd : init.getD i d = d) (vals : List α) :
    (scatterList init idx vals).getD i d = vals.getD j d := by
  induction idx generalizing init vals j with
  | nil => simp at hj
  | cons k idx ih =>
    obtain ⟨hk, hnd⟩ := List.nodup_cons.1 hnd
    cases vals with
    | nil => rw [scatterList_nil, hd]; rfl
    | cons v vals =>
      rw [scatterList_cons]
      cases j with
      | zero =>
        obtain rfl : k = i := by simpa using hj
        rw [getD_scatterList_of_not_mem hk]
        simp [List.getD_eq_getElem?_getD, hi]
      | succ j =>
        rw [List.getElem?_cons_succ] at hj
        have hne : k ≠ i := fun h => hk (h ▸ List.mem_of_getElem? hj)
        rw [ih hnd (by simpa using hi) hj]
        · rfl
        · simpa [List.getD_eq_getElem?_getD, List.getElem?_set_ne hne] using hd

/-- Entry k of block r of a vector in blocks of n entries. -/
theorem getElem?_flatMap_blocks {f : Nat → List α} {n : Nat} (hf : ∀ r, (f r).length = n) {b r k : Nat} (hr : r < b)
    (hk : k < n) : ((List.range b).flatMap f)[r * n + k]? = (f r)[k]? := by
  induction b with
  | zero => omega
  | succ b ih =>
    have hlen : ((List.range b).flatMap f).length = b * n := by simp [List.length_flatMap, hf]
    rw [List.range_succ, List.flatMap_append]
    rcases Nat.lt_or_eq_of_le (Nat.le_of_lt_succ hr) with hlt | rfl
    · have hle : (r + 1) * n ≤ b * n := Nat.mul_le_mul_right n hlt
      rw [Nat.add_mul] at hle
      rw [List.getElem?_append_left (by omega), ih hlt]
    · rw [List.getElem?_append_right (by omega), hlen, Nat.add_sub_cancel_left]
      simp

/-- Part r of a vector of b parts of n entries. -/
theorem take_drop_eq_map_range {p : Prec} {g : List (Cplx p)} {n b r : Nat} (hg : g.length = b * n) (hr : r < b) :
    (g.drop (r * n)).take n = (List.range n).map fun i => atC g (r * n + i) := by
  have hle : (r + 1) * n ≤ b * n := Nat.mul_le_mul_right n hr
  rw [Nat.add_mul] at hle
  apply List.ext_getElem
  · simp
    omega
  · intro i hi _
    rw [List.length_take, List.length_drop] at hi
    simp [atC, List.getD_eq_getElem?_getD, List.getElem?_eq_getElem (show r * n + i < g.length by omega)]

end Lists

/-! ## The two maps are one to one (43_fft_prime.md R206) -/

section Maps

variable {n1 n2 : Nat} (hg : Nat.gcd n1 n2 = 1)

include hg

theorem crtIndex_inj {i j : Nat} (hi : i < n1 * n2) (hj : j < n1 * n2) (h : crtIndex n1 n2 i = crtIndex n1 n2 j) :
    i = j := by
  have hpos : 0 < n1 := Nat.pos_of_ne_zero fun h0 => by simp [h0] at hi
  have h1 : i % n1 = j % n1 := by
    simpa [crtIndex, Nat.mul_comm _ n1, Nat.mul_add_mod] using congrArg (· % n1) h
  have h2 : i % n2 = j % n2 := by
    unfold crtIndex at h
    rw [h1] at h
    exact Nat.eq_of_mul_eq_mul_right hpos (Nat.add_right_cancel h)
  have hmod : i ≡ j [MOD n1 * n2] := (Nat.modEq_and_modEq_iff_modEq_mul hg).1 ⟨h1, h2⟩
  exact hmod.eq_of_lt_of_lt hi hj

theorem rurIndex_inj {k1 k2 k1' k2' : Nat} (h1 : k1 < n1) (h2 : k2 < n2) (h1' : k1' < n1) (h2' : k2' < n2)
    (h : rurIndex n1 n2 k1 k2 = rurIndex n1 n2 k1' k2') : k1 = k1' ∧ k2 = k2' := by
  have hmod : n2 * k1 + n1 * k2 ≡ n2 * k1' + n1 * k2' [MOD n1 * n2] := h
  have hleft : n2 * k1 ≡ n2 * k1' [MOD n1] := by
    simpa [Nat.ModEq, Nat.add_mul_mod_self_left] using hmod.of_mul_right n2
  have hright : n1 * k2 ≡ n1 * k2' [MOD n2] := by
    simpa [Nat.ModEq, Nat.mul_add_mod] using hmod.of_mul_left n1
  exact ⟨(hleft.cancel_left_of_coprime hg).eq_of_lt_of_lt h1 h1',
    (hright.cancel_left_of_coprime (by rwa [Nat.gcd_comm])).eq_of_lt_of_lt h2 h2'⟩

theorem nodup_crtIndices : ((List.range (n1 * n2)).map (crtIndex n1 n2)).Nodup :=
  List.nodup_range.map_on fun _ hi _ hj => crtIndex_inj hg (List.mem_range.1 hi) (List.mem_range.1 hj)

theorem nodup_rurIndices : ((List.range n1).flatMap fun k1 => (List.range n2).map (rurIndex n1 n2 k1)).Nodup := by
  refine List.nodup_flatMap.2 ⟨fun k1 h1 => ?_, ?_⟩
  · exact List.nodup_range.map_on fun k2 h2 k2' h2' h =>
      (rurIndex_inj hg (List.mem_range.1 h1) (List.mem_range.1 h2) (List.mem_range.1 h1) (List.mem_range.1 h2') h).2
  · refine List.nodup_range.pairwise_of_forall_ne fun k1 h1 k1' h1' hne => ?_
    intro i hi hi'
    obtain ⟨k2, h2, rfl⟩ := List.mem_map.1 hi
    obtain ⟨k2', h2', he⟩ := List.mem_map.1 hi'
    exact hne (rurIndex_inj hg (List.mem_range.1 h1) (List.mem_range.1 h2) (List.mem_range.1 h1') (List.mem_range.1 h2')
      he.symm).1

end Maps

theorem crtIndex_lt {n1 n2 i : Nat} (hi : i < n1 * n2) : crtIndex n1 n2 i < n1 * n2 := by
  have h1 : 0 < n1 := Nat.pos_of_ne_zero fun h0 => by simp [h0] at hi
  have h2 : 0 < n2 := Nat.pos_of_ne_zero fun h0 => by simp [h0] at hi
  have hle : (i % n2 + 1) * n1 ≤ n2 * n1 := Nat.mul_le_mul_right n1 (Nat.mod_lt i h2)
  have hmod := Nat.mod_lt i h1
  rw [Nat.add_mul, Nat.mul_comm n2] at hle
  unfold crtIndex
  omega

theorem rurIndex_lt {n1 n2 k1 k2 : Nat} (h1 : k1 < n1) (h2 : k2 < n2) : rurIndex n1 n2 k1 k2 < n1 * n2 :=
  Nat.mod_lt _ (Nat.mul_pos (by omega) (by omega))

/-! ## The stages of PFA (43_fft_prime.md R206) -/

section Stages

variable {p : Prec} (n1 n2 : Nat) (f1 f2 : List (Cplx p) → List (Cplx p)) (x : List (Cplx p))

/-- The input after the CRT map. -/
def pfaInput : List (Cplx p) :=
  scatterList (List.replicate (n1 * n2) (Cplx.zero p)) ((List.range (n1 * n2)).map (crtIndex n1 n2)) x

/-- The N2 rows after their transforms of N1 points. -/
def pfaRows : List (Cplx p) :=
  (List.range n2).flatMap fun r => f1 (((pfaInput n1 n2 x).drop (r * n1)).take n1)

/-- Column k1 after its transform of N2 points. -/
def pfaColumn (k1 : Nat) : List (Cplx p) := f2 ((List.range n2).map fun r => atC (pfaRows n1 n2 f1 x) (k1 + n1 * r))

theorem pfaWith_eq : pfaWith n1 n2 f1 f2 x = scatterList (List.replicate (n1 * n2) (Cplx.zero p))
    ((List.range n1).flatMap fun k1 => (List.range n2).map (rurIndex n1 n2 k1))
    ((List.range n1).flatMap fun k1 => (List.range n2).map (atC (pfaColumn n1 n2 f1 f2 x k1))) := by
  simp only [pfaWith, List.flatMap_map]
  rfl

theorem getD_replicate_self {α : Type} (n i : Nat) (d : α) : (List.replicate n d).getD i d = d := by
  rw [List.getD_eq_getElem?_getD, List.getElem?_replicate]
  split_ifs <;> rfl

variable {n1 n2 f1}

theorem atC_pfaInput (hg : Nat.gcd n1 n2 = 1) {i : Nat} (hi : i < n1 * n2) :
    atC (pfaInput n1 n2 x) (crtIndex n1 n2 i) = atC x i :=
  getD_scatterList (nodup_crtIndices hg) (by simpa using crtIndex_lt hi) (by simp [hi]) (getD_replicate_self _ _ _) x

theorem atC_pfaRows (hf : ∀ v, (f1 v).length = n1) {r k : Nat} (hr : r < n2) (hk : k < n1) :
    atC (pfaRows n1 n2 f1 x) (r * n1 + k) = atC (f1 ((List.range n1).map fun i => atC (pfaInput n1 n2 x) (r * n1 + i))) k := by
  have hlen : (pfaInput n1 n2 x).length = n2 * n1 := by simp [pfaInput, length_scatterList, Nat.mul_comm]
  rw [← take_drop_eq_map_range hlen hr]
  simp only [atC, List.getD_eq_getElem?_getD, pfaRows]
  rw [getElem?_flatMap_blocks (fun r => hf _) hr hk]

theorem atC_pfaWith (hg : Nat.gcd n1 n2 = 1) {k1 k2 : Nat} (h1 : k1 < n1) (h2 : k2 < n2) :
    atC (pfaWith n1 n2 f1 f2 x) (rurIndex n1 n2 k1 k2) = atC (pfaColumn n1 n2 f1 f2 x k1) k2 := by
  have hpos : ((List.range n1).flatMap fun k1 => (List.range n2).map (rurIndex n1 n2 k1))[k1 * n2 + k2]? =
      some (rurIndex n1 n2 k1 k2) := by
    rw [getElem?_flatMap_blocks (fun r => by simp) h1 h2]
    simp [h2]
  have hval : ((List.range n1).flatMap fun k1 => (List.range n2).map (atC (pfaColumn n1 n2 f1 f2 x k1)))[k1 * n2 + k2]? =
      some (atC (pfaColumn n1 n2 f1 f2 x k1) k2) := by
    rw [getElem?_flatMap_blocks (fun r => by simp) h1 h2]
    simp [h2]
  have hplace := getD_scatterList (nodup_rurIndices hg) (by simpa using rurIndex_lt h1 h2) hpos
    (getD_replicate_self (n1 * n2) _ (Cplx.zero p))
    ((List.range n1).flatMap fun k1 => (List.range n2).map (atC (pfaColumn n1 n2 f1 f2 x k1)))
  rw [List.getD_eq_getElem?_getD (l := List.flatMap _ _), hval] at hplace
  rw [pfaWith_eq]
  exact hplace

end Stages

/-- Settles O28: each instruction is one batched body; PFA by the maps and stages above. -/
theorem primeFactorTransformsComplete : Obligations.PrimeFactorTransformsComplete := by
  refine ⟨fun s rd rs1 rs2 n1 fwd inv hmem => ?_, fun p x n1 n2 hs1 hs2 hg => ?_⟩
  · intro d a n2 n h2 hg hs hcap hmax hv kernel
    have hargs := checkPfa_of_supported h2 hg hs hcap hmax
    have hlen : ∀ v, (kernel v).length = n := length_pfaWith n1 n2 _ _
    simp only [List.mem_cons, List.not_mem_nil, or_false, Prod.mk.injEq] at hmem
    rcases hmem with ⟨rfl, rfl, rfl⟩ | ⟨rfl, rfl, rfl⟩ | ⟨rfl, rfl, rfl⟩ | ⟨rfl, rfl, rfl⟩ | ⟨rfl, rfl, rfl⟩ <;>
      exact ⟨.of_body rfl hargs hv fun v _ => hlen v, .of_body rfl hargs hv fun v _ => hlen _⟩
  · intro n out
    have hsplit : ∀ {k1 : Nat} (k2 : Nat), k1 < n1 → (k1 + n1 * k2) % n1 = k1 ∧ (k1 + n1 * k2) / n1 = k2 := fun k2 h1 => by
      rw [Nat.add_mul_mod_self_left, Nat.mod_eq_of_lt h1, Nat.add_mul_div_left _ _ (inS_bounds hs1).1, Nat.div_eq_of_lt h1,
        Nat.zero_add]
      exact ⟨rfl, rfl⟩
    refine ⟨length_pfaWith n1 n2 _ _ x, atC (pfaInput n1 n2 x), atC (pfaRows n1 n2 (fftCanon p n1) x),
      fun j => atC (pfaColumn n1 n2 (fftCanon p n1) (fftCanon p n2) x (j % n1)) (j / n1), fun i hi => atC_pfaInput x hg hi,
      fun r k hr hk => atC_pfaRows x (fun v => length_fftCanon p hs1 v) hr hk, fun k1 k2 h1 _ => ?_, fun k1 k2 h1 h2 => ?_⟩
    · simp only [(hsplit k2 h1).1, (hsplit k2 h1).2]
      rfl
    · simp only [(hsplit k2 h1).1, (hsplit k2 h1).2]
      exact atC_pfaWith _ x hg h1 h2

end Sys2Proof.Machine

/-! # Proofs: the real transforms on vectors and in DMEM, and the completion of the MDCT instructions -/

namespace Sys2Proof.Machine

/-! ## Element writes by index (20_memory.md R85) -/

section IndexedWrites

variable {m : Memory} {p : Prec} {base stride : Nat}

theorem aligned_index (hb : base % p.es = 0) (hs : stride % p.es = 0) (j : Nat) : (base + j * stride) % p.es = 0 := by
  rw [Nat.add_mod, hb, Nat.mul_mod, hs]
  simp

/-- An index that is written reads as one of the values written to it. -/
theorem Memory.exists_readEl_indexed (h : Memory.wf m = true) (hb : base % p.es = 0) (hs : stride % p.es = 0)
    (hpos : 0 < stride) {ws : List (Nat × Elem p)} {j : Nat} {v : Elem p} (hmem : (j, v) ∈ ws) :
    ∃ u, (j, u) ∈ ws ∧
      (m.writeEls p (ws.map fun w => (base + w.1 * stride, w.2))).readEl p (base + j * stride) = Elem.canon p u := by
  obtain ⟨u, hu, hread⟩ := Memory.exists_readEl_writeEls h [] (suf := ws.map fun w => (base + w.1 * stride, w.2))
    (List.mem_map.2 ⟨_, hmem, rfl⟩) fun x hx => by
      obtain ⟨w, -, rfl⟩ := List.mem_map.1 hx
      exact aligned_index hb hs w.1
  obtain ⟨⟨j', u'⟩, hw, he⟩ := List.mem_map.1 hu
  obtain ⟨hj, rfl⟩ := Prod.mk.inj he
  obtain rfl : j' = j := Nat.eq_of_mul_eq_mul_right hpos (Nat.add_left_cancel hj)
  exact ⟨u', hw, hread⟩

/-- An index that is written with one value only reads as that value. -/
theorem Memory.readEl_indexed (h : Memory.wf m = true) (hb : base % p.es = 0) (hs : stride % p.es = 0)
    (hpos : 0 < stride) {ws : List (Nat × Elem p)} {j : Nat} {v : Elem p} (hmem : (j, v) ∈ ws)
    (hv : ∀ u, (j, u) ∈ ws → u = v) :
    (m.writeEls p (ws.map fun w => (base + w.1 * stride, w.2))).readEl p (base + j * stride) = Elem.canon p v := by
  obtain ⟨u, hu, hread⟩ := Memory.exists_readEl_indexed h hb hs hpos hmem
  rw [hread, hv u hu]

theorem mem_ascending_iff {vs : List (Elem p)} {j : Nat} {v : Elem p} :
    (j, v) ∈ ascending vs ↔ j < vs.length ∧ v = atE vs j := by
  simp only [ascending, List.mem_iff_getElem?, List.getElem?_zip_eq_some, atE, List.getD_eq_getElem?_getD]
  constructor
  · rintro ⟨i, hi, hv⟩
    obtain ⟨hlt, rfl⟩ := List.getElem?_eq_some_iff.1 hi
    rw [List.getElem_range, hv]
    exact ⟨by simpa using hlt, rfl⟩
  · rintro ⟨hj, rfl⟩
    exact ⟨j, by simp [hj], by simp [hj]⟩

/-- Values written in ascending order are read back, each at its index. -/
theorem Memory.readEl_ascending (h : Memory.wf m = true) (hb : base % p.es = 0) {vs : List (Elem p)} {j : Nat}
    (hj : j < vs.length) : (m.writeEls p ((ascending vs).map fun w => (base + w.1 * p.es, w.2))).readEl p (base + j * p.es) =
      Elem.canon p (atE vs j) :=
  Memory.readEl_indexed h hb (Nat.mod_self _) p.es_pos (mem_ascending_iff.2 ⟨hj, rfl⟩) fun _ hu => (mem_ascending_iff.1 hu).2

end IndexedWrites

/-- An instruction that is a transform body completes with what its writes leave, when its own checks pass and its operands
are in order. -/
theorem CompletesWith.of_transformBody {i : Instr} {s : State} {args : Except Trap Unit} {len : Nat}
    {table input output : Lin} {writes : List (Elem s.prec) → List (Elem s.prec) → List (Nat × Elem s.prec)}
    {q : Memory → Prop} (h : exec i s = finish s (transformBody s args len table input output writes)) (ha : args = .ok ())
    (hl : LinReady s s.prec.es table ∧ LinReady s s.prec.es input ∧ LinReady s s.prec.es output)
    (hindex : ∀ w ∈ writes (s.dmem.readEls s.prec input.addrs) (s.dmem.readEls s.prec table.addrs), w.1 < output.n)
    (hq : Memory.wf s.dmem = true → q (s.dmem.writeEls s.prec
      ((writes (s.dmem.readEls s.prec input.addrs) (s.dmem.readEls s.prec table.addrs)).map
        fun w => (output.base + w.1 * output.stride, w.2)))) :
    CompletesWith i s (slotsFft len) output.addrs s.prec.es q := by
  obtain ⟨ht, hi, ho⟩ := hl
  rw [(transformBody_eq_ok_iff s args len table input output writes _).2 ⟨ha, by simp [ht, hi, ho], rfl⟩] at h
  refine .of_ok h (fun hwf => SameOutside.of_writeEls hwf fun w hw => ?_) hq
  obtain ⟨x, hx, rfl⟩ := List.mem_map.1 hw
  exact (Lin.mem_addrs output _).2 ⟨x.1, hindex x hx, rfl⟩

/-- The same for values written in ascending order, as many as the output takes. -/
theorem CompletesWith.of_ascending {i : Instr} {s : State} {args : Except Trap Unit} {len : Nat}
    {table input : Lin} {d n : Nat} {out : List (Elem s.prec) → List (Elem s.prec) → List (Elem s.prec)}
    {q : Memory → Prop}
    (h : exec i s = finish s (transformBody s args len table input (realLin s.prec d n) fun x t => ascending (out x t)))
    (ha : args = .ok ()) (hl : LinReady s s.prec.es table ∧ LinReady s s.prec.es input ∧ LinReady s s.prec.es (realLin s.prec d n))
    (hlen : (out (s.dmem.readEls s.prec input.addrs) (s.dmem.readEls s.prec table.addrs)).length = n)
    (hq : ∀ m : Memory, (∀ j, j < n → m.readEl s.prec (d + j * s.prec.es) = Elem.canon s.prec
      (atE (out (s.dmem.readEls s.prec input.addrs) (s.dmem.readEls s.prec table.addrs)) j)) → q m) :
    CompletesWith i s (slotsFft len) (addrsFrom d n s.prec.es) s.prec.es q := by
  refine .of_transformBody h ha hl (fun w hw => ?_) fun hwf => hq _ fun j hj =>
    Memory.readEl_ascending hwf hl.2.2.1 (by rw [hlen]; exact hj)
  have := mem_ascending hw
  rw [hlen] at this
  exact this

/-! ## MDCTF, MDCTI and MDCTIF (46_mdct.md R265 to R273) -/

theorem mdctLength_of {n : Nat} (h4 : 4 ≤ n) (hmod : n % 4 = 0) (hs : inS (n / 2) = true) : mdctLength n = true := by
  simp [mdctLength, h4, hmod, hs]

theorem checkMdct_of_supported {s : State} {n : Nat} (h4 : 4 ≤ n) (hmod : n % 4 = 0) (hs : inS (n / 2) = true)
    (hmax : n / 2 ≤ s.params.maxN) : checkMdct s n = .ok () :=
  (checkLength_eq_ok_iff s n (n / 2) (mdctLength n)).2 ⟨by omega, mdctLength_of h4 hmod hs, hmax⟩

section Mdct

variable {p : Prec} {n : Nat} (x : List (Elem p)) (e : List (Cplx p))

/-- MDCTF writes every coefficient (46_mdct.md R270). -/
theorem exists_mem_mdctForward (hmod : n % 4 = 0) {j : Nat} (hj : j < n) : ∃ v, (j, v) ∈ mdctForward n x e := by
  obtain ⟨i, hi, rfl | rfl | rfl | rfl⟩ : ∃ i < n / 4, j = 2 * (n / 4 - 1 - i) + 1 ∨ j = 2 * (n / 4 + i) ∨
      j = 2 * (n / 4 + i) + 1 ∨ j = 2 * (n / 4 - 1 - i) := by
    by_cases hq : n / 4 ≤ j / 2
    · exact ⟨j / 2 - n / 4, by omega, by omega⟩
    · exact ⟨n / 4 - 1 - j / 2, by omega, by omega⟩
  · exact ⟨_, List.mem_flatMap.2 ⟨i, List.mem_range.2 hi, .head _⟩⟩
  · exact ⟨_, List.mem_flatMap.2 ⟨i, List.mem_range.2 hi, .tail _ (.head _)⟩⟩
  · exact ⟨_, List.mem_flatMap.2 ⟨i, List.mem_range.2 hi, .tail _ (.tail _ (.head _))⟩⟩
  · exact ⟨_, List.mem_flatMap.2 ⟨i, List.mem_range.2 hi, .tail _ (.tail _ (.tail _ (.head _)))⟩⟩

/-- MDCTF writes coefficient 0 last (46_mdct.md R270). -/
theorem mdctForward_last (h4 : 4 ≤ n) : ∃ l v, mdctForward n x e = l ++ [(0, v)] := by
  obtain ⟨k, hk⟩ := Nat.exists_eq_succ_of_ne_zero (show n / 4 ≠ 0 by omega)
  simp only [mdctForward, hk, Nat.succ_eq_add_one, List.range_succ, List.flatMap_append, List.flatMap_singleton]
  simp only [Nat.add_sub_cancel, Nat.sub_self, Nat.mul_zero]
  exact ⟨_, _, (List.append_assoc _ [_, _, _] [_]).symm⟩

/-- The writes of MDCTIF: the N values from N/2 on, and their mirrors at both ends (46_mdct.md R273). -/
theorem mem_mdctMirror_iff {y : List (Elem p)} {j : Nat} {v : Elem p} : (j, v) ∈ mdctMirror n y ↔
    (∃ k < n, j = n / 2 + k ∧ v = atE y k) ∨ ∃ i < n / 2, (j = i ∧ v = Elem.neg p (atE y (n / 2 - 1 - i))) ∨
      (j = 2 * n - 1 - i ∧ v = atE y (n / 2 + i)) := by
  simp [mdctMirror, eq_comm]

/-- Each index of MDCTIF is written with one value. -/
theorem eq_of_mem_mdctMirror (h2 : n % 2 = 0) {y : List (Elem p)} {j : Nat} {v : Elem p} (h : (j, v) ∈ mdctMirror n y) :
    v = if j < n / 2 then Elem.neg p (atE y (n / 2 - 1 - j)) else atE y (if j < n / 2 + n then j - n / 2
      else n / 2 + (2 * n - 1 - j)) := by
  rcases mem_mdctMirror_iff.1 h with ⟨k, hk, rfl, rfl⟩ | ⟨i, hi, ⟨rfl, rfl⟩ | ⟨rfl, rfl⟩⟩
  · rw [if_neg (by omega), if_pos (by omega), Nat.add_sub_cancel_left]
  · rw [if_pos hi]
  · rw [if_neg (by omega), if_neg (by omega), show 2 * n - 1 - (2 * n - 1 - i) = i by omega]

end Mdct

theorem reverseIndex_map_range {p : Prec} (n : Nat) (f : Nat → Cplx p) :
    reverseIndex n ((List.range n).map f) = (List.range n).map fun i => f ((n - i) % n) := by
  refine List.map_congr_left fun i hi => ?_
  exact atC_map_range f (Nat.mod_lt _ (by have := List.mem_range.1 hi; omega))

/-- The inverse kernel is the forward one on the reversed-index vector (42_fft_sr.md R173). -/
theorem fftDirected_inverse {p : Prec} (n : Nat) (f : Nat → Cplx p) :
    fftDirected p true n ((List.range n).map f) = fftCanon p n ((List.range n).map fun i => f ((n - i) % n)) :=
  congrArg (fftCanon p n) (reverseIndex_map_range n f)

/-- The post-rotation of MDCTI, by its outputs at 2j and 2j + 1 (46_mdct.md R272). -/
theorem atE_mdctInverse {p : Prec} (n : Nat) (x : List (Elem p)) (e : List (Cplx p)) {j : Nat} (hj : j < n / 2) :
    let h := n / 2
    let pre := fun j => Cplx.mul (p := p) ⟨atE x (n - 1 - 2 * j), atE x (2 * j)⟩ (atC e j)
    let z := fftCanon p h ((List.range h).map fun j => pre ((h - j) % h))
    let c := fun j => (atC z j).swap.mul (atC e j).swap
    atE (mdctInverse n x e) (2 * j) = (c j).re ∧ atE (mdctInverse n x e) (2 * j + 1) = (c (h - 1 - j)).im := by
  intro h pre z c
  have hz : fftDirected p true h ((List.range h).map pre) = z := fftDirected_inverse h pre
  have hc : ∀ i < h, atC ((List.range h).map c) i = c i := fun i hi => atC_map_range c hi
  obtain ⟨heven, hodd⟩ := getD_interleave (fun j => (atC ((List.range h).map c) j).re)
    (fun j => (atC ((List.range h).map c) (h - 1 - j)).im) (Elem.zero p) hj
  rw [hc j hj] at heven
  rw [hc (h - 1 - j) (by omega)] at hodd
  rw [← heven, ← hodd]
  simp only [mdctInverse, atE]
  simp only [c, ← hz]
  exact ⟨rfl, rfl⟩

/-- Settles O43: each instruction is one transform body; what its writes leave, by index; the fold and the rotations. -/
theorem mdctInstructionsComplete : Obligations.MdctInstructionsComplete := by
  refine ⟨fun s rd rs1 rs2 rs3 => ?_, fun p n x e h4 hmod hs => ?_⟩
  · intro n p d stride els e forward inverse h4 hmod hs hmax ht
    have hargs := checkMdct_of_supported h4 hmod hs hmax
    have hinv : inverse.length = n := by
      rw [mdctInverse_length]
      omega
    refine ⟨fun hx hd => ?_, fun hx hd => .of_ascending rfl hargs ⟨ht, hx, hd⟩ hinv fun m hm => hm, fun hx hd => ?_⟩
    · refine .of_transformBody rfl hargs ⟨ht, hx, hd⟩ (fun w hw => mdctForward_index hw) fun hwf =>
        ⟨fun ho j hj => ?_, fun ho => ?_⟩
      · have hpos : 0 < stride := Nat.mul_pos (Nat.pos_of_ne_zero fun h0 => ho (BitVec.eq_of_toNat_eq h0)) p.es_pos
        obtain ⟨v, hv⟩ := exists_mem_mdctForward (els (s.regNat rs1) (2 * n) p.es) e hmod hj
        exact Memory.exists_readEl_indexed hwf hd.1 (Nat.mul_mod_left _ _) hpos hv
      · obtain ⟨l, v, hl⟩ := mdctForward_last (els (s.regNat rs1) (2 * n) p.es) e h4
        refine ⟨v, by simp [forward, hl], ?_⟩
        have hlast := Memory.readEl_writeEls_of_suffix (a := d) hwf (l.map fun w => (d + w.1 * stride, w.2))
          (List.mem_singleton.2 rfl) (by simpa using hd.1) (v := v) (by simp)
        have hws : (mdctForward n (els (s.regNat rs1) (2 * n) p.es) e).map (fun w => (d + w.1 * stride, w.2)) =
            (l.map fun w => (d + w.1 * stride, w.2)) ++ [(d, v)] := by simp [hl]
        rw [← hws] at hlast
        exact hlast
    · refine .of_transformBody rfl hargs ⟨ht, hx, hd⟩ (fun w hw => mdctMirror_index hw) fun hwf => ?_
      have hread := fun {j v} (hv : (j, v) ∈ mdctMirror n inverse) =>
        Memory.readEl_indexed hwf hd.1 (Nat.mod_self p.es) p.es_pos hv fun u hu =>
          (eq_of_mem_mdctMirror (by omega) hu).trans (eq_of_mem_mdctMirror (by omega) hv).symm
      exact ⟨fun j hj => hread (mem_mdctMirror_iff.2 (.inl ⟨j, hj, rfl, rfl⟩)), fun i hi =>
        ⟨hread (mem_mdctMirror_iff.2 (.inr ⟨i, hi, .inl ⟨rfl, rfl⟩⟩)),
          hread (mem_mdctMirror_iff.2 (.inr ⟨i, hi, .inr ⟨rfl, rfl⟩⟩))⟩⟩
  · intro h q v neg fold swap folded rotated c
    refine ⟨rfl, ?_⟩
    intro pre z d
    refine ⟨by rw [mdctInverse_length]; omega, fun i hi => ?_⟩
    intro i0 i1
    obtain ⟨heven1, hodd1⟩ := atE_mdctInverse n x e (j := i1) (by omega)
    obtain ⟨heven0, hodd0⟩ := atE_mdctInverse n x e (j := i0) (by omega)
    rw [show n / 2 - 1 - i1 = i0 by omega] at hodd1
    rw [show n / 2 - 1 - i0 = i1 by omega] at hodd0
    exact ⟨heven1, hodd0, heven0, hodd1⟩

end Sys2Proof.Machine

/-! # Proofs: the real DFT instructions (47_rdft.md R284 to R289) -/

namespace Sys2Proof.Machine

theorem evenLength_of {n : Nat} (h2 : 2 ≤ n) (hmod : n % 2 = 0) (hs : inS (n / 2) = true) : evenLength n = true := by
  simp [evenLength, h2, hmod, hs]

theorem checkLength_half_of_supported {s : State} {n : Nat} (h2 : 2 ≤ n) (hmod : n % 2 = 0) (hs : inS (n / 2) = true)
    (hmax : n / 2 ≤ s.params.maxN) : checkLength s n (n / 2) (evenLength n) = .ok () :=
  (checkLength_eq_ok_iff s n (n / 2) (evenLength n)).2 ⟨by omega, evenLength_of h2 hmod hs, hmax⟩

/-! ## Vectors of bins -/

/-- A first value, m − 1 middle values and a last value, over one range. -/
theorem cons_map_concat_eq {α : Type} {m : Nat} (hm : 1 ≤ m) (a b : α) (f : Nat → α) :
    a :: ((List.range (m - 1)).map (fun i => f (i + 1)) ++ [b]) =
      (List.range (m + 1)).map fun k => if k = 0 then a else if k = m then b else f k := by
  obtain ⟨k, rfl⟩ := Nat.exists_eq_add_of_le' hm
  rw [List.range_succ_eq_map, List.map_cons, List.map_map, List.range_succ, List.map_append, if_pos rfl]
  refine congrArg (a :: ·) (congrArg₂ (· ++ ·) (List.map_congr_left fun i hi => ?_) (by simp))
  have hik : i ≠ k := (List.mem_range.1 hi).ne
  simp [hik]

section Bins

variable {p : Prec} (zs : List (Cplx p)) {k : Nat}

theorem map_range_atC : (List.range zs.length).map (atC zs) = zs :=
  List.ext_getElem (by simp) fun i _ hi => by simp [atC, hi]

theorem map_map_range_atC {α : Type} (f : Cplx p → α) : zs.map f = (List.range zs.length).map fun i => f (atC zs i) := by
  conv_lhs => rw [← map_range_atC zs, List.map_map]
  rfl

theorem atE_parts (hk : k < zs.length) :
    atE (zs.flatMap fun z => [z.re, z.im]) (2 * k) = (atC zs k).re ∧
      atE (zs.flatMap fun z => [z.re, z.im]) (2 * k + 1) = (atC zs k).im := by
  have h := getD_interleave (fun i => (atC zs i).re) (fun i => (atC zs i).im) (Elem.zero p) hk
  rw [← List.flatMap_map (atC zs) (fun z => [z.re, z.im]), map_range_atC] at h
  exact h

theorem length_parts : (zs.flatMap fun z => [z.re, z.im]).length = 2 * zs.length := by
  simp [List.length_flatMap, Nat.mul_comm]

theorem Elem.canon_zero (p : Prec) : Elem.canon p 0 = 0 := by
  cases p <;> decide

/-- Bins written part by part are read as samples. -/
theorem Memory.readC_of_parts {m : Memory} {d : Nat} (hk : k < zs.length)
    (h : ∀ j, j < 2 * zs.length → m.readEl p (d + j * p.es) =
      Elem.canon p (atE (zs.flatMap fun z => [z.re, z.im]) j)) : m.readC p (d + k * p.cs) = (atC zs k).canon := by
  obtain ⟨hre, him⟩ := atE_parts zs hk
  have h0 := h (2 * k) (by omega)
  have h1 := h (2 * k + 1) (by omega)
  have ha : d + 2 * k * p.es = d + k * p.cs := by
    rw [Prec.cs]
    ring
  have hb : d + (2 * k + 1) * p.es = d + k * p.cs + p.es := by
    rw [← ha]
    ring
  rw [ha, hre] at h0
  rw [hb, him] at h1
  rw [Memory.readC, h0, h1]
  rfl

end Bins

/-! ## R2C and C2R (47_rdft.md R285, R287) -/

section RealDft

variable {p : Prec} {n : Nat} (x t : List (Elem p)) (bins : List (Cplx p))

theorem realToComplex_length_eq (h2 : 2 ≤ n) : (realToComplex n x t).length = n / 2 + 1 := by
  rw [realToComplex_length]
  omega

/-- A middle bin of R2C, from the transform of the packed samples (47_rdft.md R285). -/
def realMid {p : Prec} (m : Nat) (t : List (Elem p)) (z : List (Cplx p)) (k : Nat) : Cplx p :=
  let f := atE t 0
  let a := atC z k
  let b := atC z (m - k)
  let odd : Cplx p := ⟨Elem.mul p f (Elem.add p a.im b.im), Elem.mul p f (Elem.sub p b.re a.re)⟩
  let w := odd.mul ⟨atE t (2 + k), Elem.neg p (atE t (2 + m + k))⟩
  ⟨Elem.add p (Elem.mul p f (Elem.add p a.re b.re)) w.re, Elem.add p (Elem.mul p f (Elem.sub p a.im b.im)) w.im⟩

/-- The bins of R2C, over one range. -/
theorem realToComplex_eq (h2 : 2 ≤ n) :
    let m := n / 2
    let g := atE t 1
    let z := fftCanon p m (pairs m x)
    realToComplex n x t = (List.range (m + 1)).map fun k =>
      if k = 0 then ⟨Elem.mul p g (Elem.add p (atC z 0).re (atC z 0).im), 0⟩
      else if k = m then ⟨Elem.mul p g (Elem.sub p (atC z 0).re (atC z 0).im), 0⟩
      else realMid m t z k :=
  cons_map_concat_eq (m := n / 2) (by omega) _ _ (realMid (n / 2) t (fftCanon p (n / 2) (pairs (n / 2) x)))

/-- The end bins of R2C are real. -/
theorem realToComplex_ends_im (h2 : 2 ≤ n) :
    (atC (realToComplex n x t) 0).im = 0 ∧ (atC (realToComplex n x t) (n / 2)).im = 0 := by
  have h1 : n / 2 ≠ 0 := by omega
  rw [realToComplex_eq x t h2, atC_map_range _ (by omega), atC_map_range _ (by omega), if_pos rfl, if_neg h1, if_pos rfl]
  exact ⟨rfl, rfl⟩

/-- The samples of C2R are the parts of the inverse transform of the packed bins. -/
theorem atE_complexToReal {k : Nat} (hk : k < n / 2) :
    let m := n / 2
    let g := atE t 1
    let add := Elem.add p
    let sub := Elem.sub p
    let mul := Elem.mul p
    let bin := fun k => if k = 0 ∨ k = m then (⟨(atC bins k).re, 0⟩ : Cplx p) else atC bins k
    let packed := fun k =>
      let a := bin k
      let b := bin (m - k)
      let w := (⟨mul g (sub a.re b.re), mul g (add a.im b.im)⟩ : Cplx p).mul ⟨atE t (2 + k), atE t (2 + m + k)⟩
      (⟨sub (mul g (add a.re b.re)) w.im, add (mul g (sub a.im b.im)) w.re⟩ : Cplx p)
    let r := fftCanon p m ((List.range m).map fun k => packed ((m - k) % m))
    atE (complexToReal n bins t) (2 * k) = (atC r k).re ∧ atE (complexToReal n bins t) (2 * k + 1) = (atC r k).im := by
  intro m g add sub mul bin packed r
  have hr : fftDirected p true m ((List.range m).map packed) = r := fftDirected_inverse m packed
  have h := getD_interleave (fun k => (atC r k).re) (fun k => (atC r k).im) (Elem.zero p) hk
  rw [← hr] at h ⊢
  exact h

end RealDft

/-- Settles O44: each instruction is one transform body whose values are written in ascending order; the bins of R2C over
one range, the samples of C2R as interleaved parts. -/
theorem realDftInstructionsComplete : Obligations.RealDftInstructionsComplete := by
  refine ⟨fun s rd rs1 rs2 rs3 => ?_, fun p n x t bins h2 hmod hs => ⟨?_, ?_⟩⟩
  · intro n p d els t bins h2 hmod hs hmax ht
    have hargs := checkLength_half_of_supported h2 hmod hs hmax
    have hlen : bins.length = n / 2 + 1 := realToComplex_length_eq _ t h2
    obtain ⟨him0, himm⟩ := realToComplex_ends_im (els (s.regNat rs1) n) t h2
    refine ⟨fun hx => ⟨fun hd => ?_, fun hd => ⟨?_, ?_⟩⟩, fun hx hd => ?_⟩
    · refine .of_ascending rfl hargs ⟨ht, hx, hd⟩ ((length_parts bins).trans (by rw [hlen])) fun m hm k hk => ?_
      rw [← hlen] at hm
      exact Memory.readC_of_parts bins (by omega) hm
    · refine .of_ascending rfl hargs ⟨ht, hx, hd⟩ ((List.length_map _).trans hlen) fun m hm k hk => ?_
      have hread := hm k (by omega)
      rw [map_map_range_atC, atE_map_range _ (by rw [realToComplex_length_eq _ _ h2]; omega)] at hread
      exact hread
    · refine .of_ascending rfl hargs ⟨ht, hx, hd⟩ ((List.length_map _).trans hlen) fun m hm => ?_
      have hread : ∀ k, k ≤ n / 2 → m.readEl p (d + k * p.es) = Elem.canon p (atC bins k).im := fun k hk => by
        have hread := hm k (by omega)
        rw [map_map_range_atC, atE_map_range _ (by rw [realToComplex_length_eq _ _ h2]; omega)] at hread
        exact hread
      refine ⟨hread, ?_, ?_⟩
      · have h0 := hread 0 (Nat.zero_le _)
        rw [him0, Elem.canon_zero, Nat.zero_mul, Nat.add_zero] at h0
        exact h0
      · exact (hread _ le_rfl).trans (by rw [himm, Elem.canon_zero])
    · refine .of_ascending rfl hargs ⟨ht, hx, hd⟩ ((complexToReal_length _ _ _).trans ?_) fun m hm => hm
      omega
  · have hout := realToComplex_eq x t h2
    refine ⟨realToComplex_length_eq x t h2, ?_, ?_, fun k hk1 hk => ?_⟩
    · rw [hout, atC_map_range _ (Nat.succ_pos _), if_pos rfl]
      rfl
    · rw [hout, atC_map_range _ (Nat.lt_succ_self _), if_neg (by omega), if_pos rfl]
      rfl
    · rw [hout, atC_map_range _ (by omega), if_neg (by omega), if_neg (by omega)]
      rfl
  · exact ⟨by rw [complexToReal_length]; omega, fun k hk => atE_complexToReal t bins hk⟩

end Sys2Proof.Machine

/-! # Proofs: the cosine and sine transforms (48_dct.md R300 to R306) -/

namespace Sys2Proof.Machine

theorem atE_drop {p : Prec} (t : List (Elem p)) (k i : Nat) : atE (t.drop k) i = atE t (k + i) := by
  simp [atE, List.getD_eq_getElem?_getD]

theorem atE_of_lt {p : Prec} {x : List (Elem p)} {i : Nat} (h : i < x.length) : atE x i = x[i] :=
  (List.getElem_eq_getD _).symm

/-! ## Mirrors -/

/-- m values and m values in reverse, over one range. -/
theorem map_append_reverse_eq {α : Type} (f g : Nat → α) (m : Nat) :
    (List.range m).map f ++ ((List.range m).map g).reverse =
      (List.range (2 * m)).map fun i => if i < m then f i else g (2 * m - 1 - i) := by
  refine List.ext_getElem (by simp; omega) fun i h1 h2 => ?_
  have hi : i < 2 * m := by simpa using h2
  by_cases h : i < m
  · simp [h]
  · simp [List.getElem_append, h, show m - 1 - (i - m) = 2 * m - 1 - i by omega]

section Mirrors

variable {p : Prec} {n : Nat} {x : List (Elem p)}

/-- The symmetric mirror, over one range (48_dct.md R305). -/
theorem dct1Mirror_eq (h2 : 2 ≤ n) (hx : x.length = n) : dct1Mirror n x =
    (List.range (2 * (n - 1))).map fun i => if i < n then atE x i else atE x (2 * (n - 1) - i) := by
  refine List.ext_getElem (by simp [dct1Mirror, hx]; omega) fun i h1 h2 => ?_
  have hi : i < 2 * (n - 1) := by simpa using h2
  by_cases h : i < n
  · simp [dct1Mirror, hx, h, atE_of_lt]
  · have hlt : 2 * (n - 1) - i < x.length := by omega
    simp only [dct1Mirror, List.getElem_append, hx, h, dite_false, List.getElem_reverse, List.getElem_take,
      List.getElem_drop, List.getElem_map, List.getElem_range, if_false, atE_of_lt hlt]
    congr 1
    simp [hx]
    omega

/-- The antisymmetric mirror, over one range (48_dct.md R306). -/
theorem dst1Mirror_eq (hx : x.length = n) : dst1Mirror x = (List.range (2 * (n + 1))).map fun i =>
    if i = 0 ∨ i = n + 1 then 0 else if i ≤ n then atE x (i - 1) else Elem.neg p (atE x (2 * n + 1 - i)) := by
  refine List.ext_getElem (by simp [dst1Mirror, hx]; omega) fun i h1 h2 => ?_
  have hi : i < 2 * (n + 1) := by simpa using h2
  cases i with
  | zero => simp [dst1Mirror, Elem.zero]
  | succ i =>
    rcases Nat.lt_trichotomy i n with h | rfl | h
    · simp [dst1Mirror, hx, h, h.ne, Nat.succ_le_of_lt h, atE_of_lt]
    · simp [dst1Mirror, hx, Elem.zero]
    · obtain ⟨j, rfl⟩ := Nat.exists_eq_add_of_lt h
      have hback : 2 * n - (n + j + 1) = n - 1 - j := by omega
      have hlt : n - 1 - j < x.length := by omega
      simp [dst1Mirror, List.getElem_append, hx, show ¬ n + j + 1 < n by omega, show n + j + 1 ≠ n by omega,
        show n + j + 1 - n = j + 1 by omega, hback, atE_of_lt hlt]

end Mirrors

/-! ## DCT2 (48_dct.md R301) -/

section Dct2

variable {p : Prec}

/-- The outputs and the running value of the post-rotation of DCT2 after the rounds for k, …, m − 1. -/
def dct2Rounds (t : DctTable p) (e : Nat → Cplx p) (init : Elem p) (m k : Nat) : List (Elem p) × Elem p :=
  (List.range' k (m - k)).foldr (fun j acc => dct2Post t acc (j, e j)) ([], init)

variable (t : DctTable p) (e : Nat → Cplx p) (init : Elem p) {m k : Nat}

theorem dct2Rounds_self : dct2Rounds t e init m m = ([], init) := by
  simp [dct2Rounds]

theorem dct2Rounds_of_lt (hk : k < m) : dct2Rounds t e init m k = dct2Post t (dct2Rounds t e init m (k + 1)) (k, e k) := by
  rw [dct2Rounds, show m - k = (m - (k + 1)) + 1 by omega, List.range'_succ]
  rfl

/-- All rounds are the loop of DCT2. -/
theorem dct2Rounds_zero : dct2Rounds t e init m 0 =
    ((List.range m).map fun k => (k, e k)).reverse.foldl (dct2Post t) ([], init) := by
  rw [List.foldl_reverse, List.foldr_map, List.range_eq_range']
  rfl

/-- A round leaves the outputs of the rounds before it at the end. -/
theorem atE_dct2Rounds (hk : k ≤ m) (i : Nat) :
    atE (dct2Rounds t e init m 0).1 (2 * k + i) = atE (dct2Rounds t e init m k).1 i := by
  induction k generalizing i with
  | zero => rw [Nat.mul_zero, Nat.zero_add]
  | succ k ih =>
    rw [show 2 * (k + 1) + i = 2 * k + (i + 2) by ring, ih (by omega), dct2Rounds_of_lt t e init hk]
    rfl

/-- What a round gives: its two outputs and the next running value. -/
theorem dct2Rounds_round (hk : k < m) :
    let next := fun k => (dct2Rounds t e init m k).2
    let c := atE t.c (2 * k)
    let s := atE t.s (2 * k)
    next k = Elem.add p (next (k + 1)) (Elem.sub p (Elem.mul p s (e k).re) (Elem.mul p c (e k).im)) ∧
      atE (dct2Rounds t e init m 0).1 (2 * k) = Elem.add p (Elem.mul p c (e k).re) (Elem.mul p s (e k).im) ∧
      atE (dct2Rounds t e init m 0).1 (2 * k + 1) = next (k + 1) := by
  have h0 := atE_dct2Rounds t e init hk.le 0
  have h1 := atE_dct2Rounds t e init hk.le 1
  rw [dct2Rounds_of_lt t e init hk] at h0 h1
  exact ⟨congrArg Prod.snd (dct2Rounds_of_lt t e init hk), h0, h1⟩

end Dct2

section Dct

variable {p : Prec} {n : Nat} (x t : List (Elem p))

/-- The pre-rotated input of DCT2, over one range. -/
theorem dct2_eq (heven : n % 2 = 0) :
    let m := n / 2
    let v := atE x
    let add := Elem.add p
    let sub := Elem.sub p
    let mul := Elem.mul p
    let rotated := fun (i j : Nat) (op : Elem p → Elem p → Elem p) =>
      op (mul (atE t 0) (add (v i) (v j))) (mul (atE t (3 + 2 * n + i)) (sub (v i) (v j)))
    let bins := realToComplex n ((List.range n).map fun i =>
      if i < m then rotated i (n - 1 - i) add else rotated (n - 1 - i) i sub) (t.drop (3 + 3 * n))
    dct2 n x (dctFields n t) = (dct2Rounds (dctFields n t)
      (fun k => if k = 0 then ⟨(atC bins 0).re, Elem.neg p (atC bins m).re⟩ else atC bins k)
      (mul (atE t 2) (atC bins m).re) m 0).1 := by
  intro m v add sub mul rotated bins
  have hn : 2 * m = n := by omega
  have hpre : ((List.range m).map (dct2Pre n x (dctFields n t))).map (·.1) ++
      (((List.range m).map (dct2Pre n x (dctFields n t))).map (·.2)).reverse =
      (List.range n).map fun i => if i < m then rotated i (n - 1 - i) add else rotated (n - 1 - i) i sub := by
    rw [List.map_map, List.map_map, map_append_reverse_eq, hn]
    refine List.map_congr_left fun i hi => ?_
    have hi : i < n := List.mem_range.1 hi
    by_cases h : i < m
    · simp only [if_pos h, Function.comp, dct2Pre, dctFields, atE_drop]
      rfl
    · simp only [if_neg h, Function.comp, dct2Pre, dctFields, atE_drop, show n - 1 - (n - 1 - i) = i by omega]
      rfl
  rw [dct2Rounds_zero]
  simp only [dct2]
  rw [hpre]
  rfl

/-- The pre-rotated bins of DCT3, over one range. -/
theorem dct3_eq (h2 : 2 ≤ n) :
    let m := n / 2
    let v := atE x
    let bins := (List.range (m + 1)).map fun k =>
      if k = 0 then (⟨v 0, 0⟩ : Cplx p) else if k = m then ⟨Elem.add p (v (n - 1)) (v (n - 1)), 0⟩
      else dct3Pre x (dctFields n t) k
    let post := dct3Post n (complexToReal n bins (t.drop (3 + 3 * n))) (dctFields n t)
    dct3 n x (dctFields n t) =
      (List.range m).map (fun i => (post i).1) ++ ((List.range m).map fun i => (post i).2).reverse := by
  intro m v bins post
  have hbins := cons_map_concat_eq (m := m) (by omega) (⟨v 0, Elem.zero p⟩ : Cplx p)
    ⟨Elem.add p (v (n - 1)) (v (n - 1)), Elem.zero p⟩ (dct3Pre x (dctFields n t))
  simp only [dct3, List.map_map]
  rw [hbins]
  rfl

theorem dct1_eq (h2 : 2 ≤ n) (hx : x.length = n) : dct1 n x t = (List.range n).map fun k =>
    (atC (realToComplex (2 * (n - 1)) ((List.range (2 * (n - 1))).map fun i =>
      if i < n then atE x i else atE x (2 * (n - 1) - i)) t) k).re := by
  rw [dct1, dct1Mirror_eq h2 hx]

theorem dst1_eq (hx : x.length = n) : dst1 n x t = (List.range n).map fun k =>
    Elem.neg p (atC (realToComplex (2 * (n + 1)) ((List.range (2 * (n + 1))).map fun i =>
      if i = 0 ∨ i = n + 1 then 0 else if i ≤ n then atE x (i - 1) else Elem.neg p (atE x (2 * n + 1 - i))) t)
      (k + 1)).im := by
  rw [dst1, dst1Mirror_eq hx]

end Dct

/-! ## The instructions -/

/-- Settles O45: each instruction is one transform body whose values are written in ascending order; the rounds of DCT2 one
by one, the pair of DCT3 at both ends, the mirrors of DCT1 and DST1 over one range. -/
theorem cosineAndSineTransformsComplete : Obligations.CosineAndSineTransformsComplete := by
  refine ⟨fun s rd rs1 rs2 rs3 => ?_, fun p n x t hx => ⟨fun h2 heven => ?_, fun h2 heven => ?_, fun h2 => dct1_eq x t h2 hx,
    fun _ => dst1_eq x t hx⟩⟩
  · intro n p d els x t table writes hlx hld
    refine ⟨fun h2 hmod hs hmax ht => ?_, fun h2 hs hmax ht => ?_, fun h1 hs hmax ht => ?_⟩
    · have hargs := checkLength_half_of_supported h2 hmod hs hmax
      have hn : 2 * (n / 2) = n := by omega
      exact ⟨.of_ascending rfl hargs ⟨ht, hlx, hld⟩ ((dct2_length _ _ _).trans hn) fun _ hm => hm, fun hp =>
        .of_ascending rfl ((checkDct3_eq_ok_iff s n).2 ⟨hp, hargs⟩) ⟨ht, hlx, hld⟩ ((dct3_length _ _ _).trans hn)
          fun _ hm => hm⟩
    · have hargs : checkLength s n (n - 1) (decide (2 ≤ n) && inS (n - 1)) = .ok () :=
        (checkLength_eq_ok_iff _ _ _ _).2 ⟨by omega, by simp [h2, hs], hmax⟩
      rw [show 2 * (n - 1) + 2 = 2 * n by omega] at ht ⊢
      exact .of_ascending rfl hargs ⟨ht, hlx, hld⟩ (dct1_length _ _ _) fun _ hm => hm
    · have hargs : checkLength s n (n + 1) (inS (n + 1)) = .ok () :=
        (checkLength_eq_ok_iff _ _ _ _).2 ⟨by omega, hs, hmax⟩
      exact .of_ascending rfl hargs ⟨ht, hlx, hld⟩ (dst1_length _ _ _) fun _ hm => hm
  · intro out rotated bins
    let e := fun k => if k = 0 then (⟨(atC bins 0).re, Elem.neg p (atC bins (n / 2)).re⟩ : Cplx p) else atC bins k
    let init := Elem.mul p (atE t 2) (atC bins (n / 2)).re
    have hre : ∀ k, (e k).re = (atC bins k).re := fun k => by
      by_cases hk : k = 0 <;> simp [e, hk]
    have him : ∀ k, (e k).im = if k = 0 then Elem.neg p (atC bins (n / 2)).re else (atC bins k).im := fun k =>
      apply_ite Cplx.im (k = 0) _ _
    have hout : out = (dct2Rounds (dctFields n t) e init (n / 2) 0).1 := dct2_eq x t heven
    refine ⟨by rw [dct2_length]; omega, fun k => (dct2Rounds (dctFields n t) e init (n / 2) k).2,
      congrArg Prod.snd (dct2Rounds_self _ _ _), fun k hk => ?_⟩
    obtain ⟨hnext, hfirst, hsecond⟩ := dct2Rounds_round (dctFields n t) e init hk
    rw [← hout] at hfirst hsecond
    simp only [dctFields, atE_drop, hre, him] at hnext hfirst
    exact ⟨hnext, hfirst, hsecond⟩
  · intro out bins r
    refine ⟨by rw [dct3_length]; omega, fun i hi => ?_⟩
    have hbins : bins = (List.range (n / 2 + 1)).map fun k =>
        if k = 0 then (⟨atE x 0, 0⟩ : Cplx p) else if k = n / 2 then ⟨Elem.add p (atE x (n - 1)) (atE x (n - 1)), 0⟩
        else dct3Pre x (dctFields n t) k := by
      simp only [dct3Pre, dctFields, atE_drop]
      rfl
    have hout : out = _ := dct3_eq x t h2
    rw [← hbins] at hout
    have hends := getD_mirror (fun i => (dct3Post n r (dctFields n t) i).1) (fun i => (dct3Post n r (dctFields n t) i).2)
      (Elem.zero p) hi
    rw [show 2 * (n / 2) - 1 - i = n - 1 - i by omega] at hends
    simp only [dct3Post, dctFields, atE_drop] at hends
    rw [hout]
    simp only [dct3Post, dctFields, atE_drop]
    exact hends

end Sys2Proof.Machine

/-! # Proofs: the encoding (30_encoding.md)

Of each format, `encode i = w` says what the fields of `w` are; of each row, `decode w = .ok i` says the same. So both
directions of "`w` decodes to `i` exactly when `i` is well formed and `w` is its word" compare fields. -/

namespace Sys2Proof.Laws

/-! ## Fields of a word (30_encoding.md R102) -/

/-- A field of a field. -/
theorem extract_extract {v : Nat} (x : BitVec v) {a n b m : Nat} (h : b + m ≤ n) :
    (x.extractLsb' a n).extractLsb' b m = x.extractLsb' (a + b) m := by
  apply BitVec.eq_of_getLsbD_eq
  intro i hi
  have hin : b + i < n := by omega
  simp only [BitVec.getLsbD_extractLsb', hi, hin, decide_true, Bool.true_and, Nat.add_assoc]

/-- Two bit vectors one after the other. -/
theorem append_eq_iff {n m : Nat} {a : BitVec n} {b : BitVec m} {x : BitVec (n + m)} :
    a ++ b = x ↔ x.extractLsb' m n = a ∧ x.extractLsb' 0 m = b := by
  constructor
  · rintro rfl
    exact ⟨BitVec.extractLsb'_append_eq_left, BitVec.extractLsb'_append_eq_right⟩
  · rintro ⟨rfl, rfl⟩
    exact BitVec.extractLsb'_append_extractLsb'

/-- Two neighbouring fields read as one. -/
theorem extract_eq_append_iff {v n m c : Nat} {a : BitVec n} {b : BitVec m} {w : BitVec v} :
    w.extractLsb' c (n + m) = a ++ b ↔ w.extractLsb' (c + m) n = a ∧ w.extractLsb' c m = b := by
  rw [eq_comm, append_eq_iff, extract_extract w (by omega), extract_extract w (by omega), Nat.add_zero]

section Formats

variable {op : BitVec 6} {rd rs1 rs2 rs3 : Reg} {w : Word}

theorem encR_eq_iff {fn : BitVec 10} : encR op rd rs1 rs2 rs3 fn = w ↔
    opOf w = op ∧ rdOf w = rd ∧ rs1Of w = rs1 ∧ rs2Of w = rs2 ∧ rs3Of w = rs3 ∧ fnOf w = fn := by
  rw [encR, append_eq_iff]
  simp only [extract_eq_append_iff, and_assoc]
  rfl

theorem encK_eq_iff {lg selInv : BitVec 5} : encK op rd rs1 rs2 rs3 lg selInv = w ↔
    opOf w = op ∧ rdOf w = rd ∧ rs1Of w = rs1 ∧ rs2Of w = rs2 ∧ rs3Of w = rs3 ∧ lgOf w = lg ∧ selInvOf w = selInv := by
  rw [encK, append_eq_iff]
  simp only [extract_eq_append_iff, and_assoc]
  rfl

theorem encI_eq_iff {imm : BitVec 18} :
    encI op rd rs1 imm = w ↔ opOf w = op ∧ rdOf w = rd ∧ rs1Of w = rs1 ∧ imm18Of w = imm := by
  rw [encI, append_eq_iff]
  simp only [extract_eq_append_iff, and_assoc]
  rfl

theorem encSh_eq_iff {shamt : BitVec 5} : encSh op rd rs1 shamt = w ↔
    opOf w = op ∧ rdOf w = rd ∧ rs1Of w = rs1 ∧ w.extractLsb' 5 13 = 0#13 ∧ shamtOf w = shamt := by
  rw [encSh, append_eq_iff]
  simp only [extract_eq_append_iff, and_assoc]
  rfl

theorem encU_eq_iff {imm : BitVec 22} : encU op rd imm = w ↔ opOf w = op ∧ rdOf w = rd ∧ imm22Of w = imm := by
  rw [encU, append_eq_iff]
  simp only [extract_eq_append_iff, and_assoc]
  rfl

theorem encJ_eq_iff {off : BitVec 26} : encJ op off = w ↔ opOf w = op ∧ off26Of w = off := append_eq_iff

theorem encC_eq_iff {csr : BitVec 8} : encC op rd rs1 csr = w ↔
    opOf w = op ∧ rdOf w = rd ∧ rs1Of w = rs1 ∧ csrOf w = csr ∧ fnOf w = 0#10 := by
  rw [encC, append_eq_iff]
  simp only [extract_eq_append_iff, and_assoc]
  rfl

end Formats

/-! ## Zero fields that the decoder reads as one (30_encoding.md R106) -/

section ZeroFields

variable {w : Word}

theorem rs1_rs2_eq_zero_iff : w.extractLsb' 14 8 = 0#8 ↔ rs1Of w = 0#4 ∧ rs2Of w = 0#4 :=
  extract_eq_append_iff (a := 0#4) (b := 0#4)

theorem rs2_rs3_eq_zero_iff : w.extractLsb' 10 8 = 0#8 ↔ rs2Of w = 0#4 ∧ rs3Of w = 0#4 :=
  extract_eq_append_iff (a := 0#4) (b := 0#4)

theorem rs3_fn_eq_zero_iff : w.extractLsb' 0 14 = 0#14 ↔ rs3Of w = 0#4 ∧ fnOf w = 0#10 :=
  extract_eq_append_iff (a := 0#4) (b := 0#10)

theorem rs3_lg_eq_zero_iff : w.extractLsb' 5 9 = 0#9 ↔ rs3Of w = 0#4 ∧ lgOf w = 0#5 :=
  extract_eq_append_iff (a := 0#4) (b := 0#5)

theorem rs2_rs3_lg_eq_zero_iff : w.extractLsb' 5 13 = 0#13 ↔ rs2Of w = 0#4 ∧ rs3Of w = 0#4 ∧ lgOf w = 0#5 :=
  (extract_eq_append_iff (a := 0#4) (b := 0#9)).trans (and_congr_right' rs3_lg_eq_zero_iff)

theorem rs1_rs2_rs3_eq_zero_iff : w.extractLsb' 10 12 = 0#12 ↔ rs1Of w = 0#4 ∧ rs2Of w = 0#4 ∧ rs3Of w = 0#4 :=
  (extract_eq_append_iff (a := 0#4) (b := 0#8)).trans (and_congr_right' rs2_rs3_eq_zero_iff)

theorem rd_rs1_rs2_rs3_eq_zero_iff :
    w.extractLsb' 10 16 = 0#16 ↔ rdOf w = 0#4 ∧ rs1Of w = 0#4 ∧ rs2Of w = 0#4 ∧ rs3Of w = 0#4 :=
  (extract_eq_append_iff (a := 0#4) (b := 0#12)).trans (and_congr_right' rs1_rs2_rs3_eq_zero_iff)

theorem imm22_eq_zero_iff : imm22Of w = 0#22 ↔
    (rs1Of w = 0#4 ∧ rs2Of w = 0#4 ∧ rs3Of w = 0#4) ∧ lgOf w = 0#5 ∧ selInvOf w = 0#5 :=
  (extract_eq_append_iff (a := 0#12) (b := 0#10)).trans
    (and_congr rs1_rs2_rs3_eq_zero_iff (extract_eq_append_iff (a := 0#5) (b := 0#5)))

/-- sel and inv read as one (30_encoding.md R102). -/
theorem selInvOf_eq_iff {sel : BitVec 4} {inv : BitVec 1} :
    selInvOf w = sel ++ inv ↔ w.extractLsb' 1 4 = sel ∧ w.extractLsb' 0 1 = inv :=
  extract_eq_append_iff (n := 4) (m := 1)

end ZeroFields

/-! ## What the parts of the decoder answer -/

section Parts

variable {w : Word} {zeros : Bool} {i i' j : Instr}

theorem whenZero_eq_ok_iff : whenZero zeros i = .ok j ↔ i = j ∧ zeros = true := by
  cases zeros <;> simp [whenZero]

theorem byFnBit_eq_ok_iff : byFnBit w zeros i i' = .ok j ↔
    i = j ∧ zeros = true ∧ fnOf w = 0#10 ∨ i' = j ∧ zeros = true ∧ fnOf w = 1#10 := by
  unfold byFnBit
  split <;> simp_all

theorem byInvBit_eq_ok_iff : byInvBit w zeros i i' = .ok j ↔
    i = j ∧ zeros = true ∧ selInvOf w = 0#5 ∨ i' = j ∧ zeros = true ∧ selInvOf w = 1#5 := by
  unfold byInvBit
  split <;> simp_all

/-- The inv bit as a field of one bit. -/
theorem inv_eq_zero_iff : w.getLsbD 0 = false ↔ w.extractLsb' 0 1 = 0#1 := by
  simp [← BitVec.toNat_inj, BitVec.getLsbD, Nat.testBit_zero]

theorem bySelector_eq_ok_iff {iP : BitVec 5 → Instr} {i53 i7 i9 : Instr} : bySelector w zeros iP i53 i7 i9 = .ok j ↔
    iP (lgOf w) = j ∧ zeros = true ∧ selInvOf w = 0#5 ∧ 3 ≤ (lgOf w).toNat ∨
    i53 = j ∧ zeros = true ∧ selInvOf w = 2#5 ∧ lgOf w = 0#5 ∨
    i7 = j ∧ zeros = true ∧ selInvOf w = 4#5 ∧ lgOf w = 0#5 ∨
    i9 = j ∧ zeros = true ∧ selInvOf w = 6#5 ∧ lgOf w = 0#5 := by
  have hsel : ∀ sel : BitVec 4, selInvOf w = sel ++ 0#1 ↔ w.extractLsb' 1 4 = sel ∧ w.getLsbD 0 = false :=
    fun sel => by rw [selInvOf_eq_iff, inv_eq_zero_iff]
  have h0 : selInvOf w = 0#5 ↔ _ := hsel 0#4
  have h2 : selInvOf w = 2#5 ↔ _ := hsel 1#4
  have h4 : selInvOf w = 4#5 ↔ _ := hsel 2#4
  have h6 : selInvOf w = 6#5 ↔ _ := hsel 3#4
  rw [h0, h2, h4, h6]
  unfold bySelector
  by_cases hz : (zeros && !w.getLsbD 0) = true
  · rw [if_pos hz]
    simp only [Bool.and_eq_true, Bool.not_eq_true'] at hz
    obtain ⟨rfl, hinv⟩ := hz
    split <;> simp_all [ite_eq_iff, and_comm]
  · rw [if_neg hz]
    simp only [Bool.and_eq_true, Bool.not_eq_true'] at hz
    simp only [reduceCtorEq, false_iff]
    tauto

end Parts

/-! ## Every decoded word is the word of its instruction -/

theorem encode_of_decodeOdd {w : Word} {i : Instr} (hop : opOf w = 0x20#6) (h : decodeOdd w = .ok i) :
    encode i = w := by
  simp only [decodeOdd, rs2_rs3_lg_eq_zero_iff] at h
  split at h
  · next hz => split at h <;> cases h <;> exact encK_eq_iff.2 ⟨hop, rfl, rfl, hz.1, hz.2.1, hz.2.2, ‹_›⟩
  · cases h

theorem encode_of_decodePfa {w : Word} {i : Instr} (hop : opOf w = 0x21#6) (h : decodePfa w = .ok i) :
    encode i = w := by
  simp only [decodePfa, rs3_lg_eq_zero_iff] at h
  split at h
  · next hz => split at h <;> cases h <;> exact encK_eq_iff.2 ⟨hop, rfl, rfl, rfl, hz.1, hz.2, ‹_›⟩
  · cases h

/-- An opcode, its zero fields and the operands read from the other fields are all the fields of a word. The codelet
rows (28, 29) and the opcodes of no row (52) stand apart. -/
theorem encode_of_decode {w : Word} {i : Instr} : decode w = .ok i → encode i = w := by
  revert i
  unfold decode
  simp only
  split
  case h_28 hop => exact @fun i => encode_of_decodeOdd hop
  case h_29 hop => exact @fun i => encode_of_decodePfa hop
  case h_52 => exact nofun
  all_goals
    next hop =>
    simp only [whenZero_eq_ok_iff, byFnBit_eq_ok_iff, byInvBit_eq_ok_iff, bySelector_eq_ok_iff, Except.ok.injEq,
      or_imp, and_imp, forall_and, forall_eq', beq_iff_eq, Bool.and_eq_true, rs1_rs2_eq_zero_iff, rs2_rs3_eq_zero_iff,
      rs3_fn_eq_zero_iff, rs1_rs2_rs3_eq_zero_iff, rd_rs1_rs2_rs3_eq_zero_iff, imm22_eq_zero_iff]
    unfold encode
    simp +contextual only [encR_eq_iff, encK_eq_iff, encI_eq_iff, encSh_eq_iff, encU_eq_iff, encJ_eq_iff, encC_eq_iff,
      hop, and_self, implies_true, BitVec.ofNat_eq_ofNat]

/-! ## Decoding what was encoded -/

theorem beq_zero {n : Nat} {x : BitVec n} (h : x = 0#n) : (x == 0#n) = true := beq_iff_eq.2 h

theorem beq_zero_and {n m : Nat} {x : BitVec n} {y : BitVec m} (h : x = 0#n ∧ y = 0#m) :
    (x == 0#n && y == 0#m) = true := by
  simpa using h

/-- The word of every instruction carries the opcode of its row. -/
theorem opOf_encode (i : Instr) : opOf (encode i) = opcode i := by
  cases i with
  | addi | lw | sw | beq | bne | bltu => exact opOf_encI ..
  | lui => exact opOf_encU ..
  | slli | srli => exact opOf_encSh ..
  | j | halt => exact opOf_encJ ..
  | csrr | csrw => exact opOf_encC ..
  | fft2 | fft4 | fft8 | srcomb | fftns | fft | fftI | fft3 | fft3I | fft5 | fft5I | fft7 | fft7I | fft9 | fft9I | fft15
  | fft15I | pfa3 | pfa3I | pfa5 | pfa5I | pfa7 | pfa7I | pfa9 | pfa9I | pfa15 | pfa15I | pmapsr | pmapsrI | pmapbr
  | tgenP | tgenT53 | tgenT7 | tgenT9 | tcopyP | tcopyT53 | tcopyT7 | tcopyT9 => exact opOf_encK ..
  | _ => exact opOf_encR ..

/-- The fields of the word of an instruction are those that its row asks for, so the decoder takes the row's branch. -/
theorem decode_encode {i : Instr} (hi : i.wellFormed = true) : decode (encode i) = .ok i := by
  have hop := opOf_encode i
  obtain ⟨w, hw⟩ : ∃ w, encode i = w := ⟨_, rfl⟩
  rw [hw] at hop ⊢
  unfold decode
  rw [hop]
  clear hop
  cases i with
  | addi | lw | sw | beq | bne | bltu =>
    obtain ⟨-, rfl, rfl, rfl⟩ := encI_eq_iff.1 hw
    rfl
  | lui =>
    obtain ⟨-, rfl, rfl⟩ := encU_eq_iff.1 hw
    rfl
  | j =>
    obtain ⟨-, rfl⟩ := encJ_eq_iff.1 hw
    rfl
  | halt =>
    obtain ⟨-, hz⟩ := encJ_eq_iff.1 hw
    exact whenZero_eq_ok_iff.2 ⟨rfl, beq_zero hz⟩
  | slli | srli =>
    obtain ⟨-, rfl, rfl, hz, rfl⟩ := encSh_eq_iff.1 hw
    exact whenZero_eq_ok_iff.2 ⟨rfl, beq_zero hz⟩
  | csrr =>
    obtain ⟨-, rfl, hrs1, rfl, hfn⟩ := encC_eq_iff.1 hw
    exact whenZero_eq_ok_iff.2 ⟨rfl, beq_zero_and ⟨hrs1, hfn⟩⟩
  | csrw =>
    obtain ⟨-, hrd, rfl, rfl, hfn⟩ := encC_eq_iff.1 hw
    exact whenZero_eq_ok_iff.2 ⟨rfl, beq_zero_and ⟨hrd, hfn⟩⟩
  | add | sub | mul =>
    obtain ⟨-, rfl, rfl, rfl, hz⟩ := encR_eq_iff.1 hw
    exact whenZero_eq_ok_iff.2 ⟨rfl, beq_zero (rs3_fn_eq_zero_iff.2 hz)⟩
  | bfv =>
    obtain ⟨-, hrd, rfl, rfl, rfl, hfn⟩ := encR_eq_iff.1 hw
    exact whenZero_eq_ok_iff.2 ⟨rfl, beq_zero_and ⟨hrd, hfn⟩⟩
  | scalev | copyv | pinv =>
    obtain ⟨-, rfl, rfl, hrs2, rfl, hfn⟩ := encR_eq_iff.1 hw
    exact whenZero_eq_ok_iff.2 ⟨rfl, beq_zero_and ⟨hrs2, hfn⟩⟩
  | pmapneg | tgrdft | tgdct =>
    obtain ⟨-, rfl, hrs1, hrs2, rfl, hfn⟩ := encR_eq_iff.1 hw
    exact whenZero_eq_ok_iff.2 ⟨rfl, beq_zero_and ⟨rs1_rs2_eq_zero_iff.2 ⟨hrs1, hrs2⟩, hfn⟩⟩
  | pgather | pscatter | mdctf | mdcti | mdctif | rdftf | rdfti | dct2 | dct3 | dct1 | dst1 =>
    obtain ⟨-, rfl, rfl, rfl, rfl, hfn⟩ := encR_eq_iff.1 hw
    exact whenZero_eq_ok_iff.2 ⟨rfl, beq_zero hfn⟩
  | cmulv | cmulvC | rdftrr | rdftri =>
    obtain ⟨-, rfl, rfl, rfl, rfl, hfn⟩ := encR_eq_iff.1 hw
    exact byFnBit_eq_ok_iff.2 (by simp [hfn])
  | fftl | fftlI =>
    obtain ⟨-, rfl, rfl, hrs2, rfl, hfn⟩ := encR_eq_iff.1 hw
    exact byFnBit_eq_ok_iff.2 (by simp [hrs2, hfn])
  | pmapcrt | pmaprur =>
    obtain ⟨-, rfl, rfl, rfl, hrs3, hfn⟩ := encR_eq_iff.1 hw
    exact byFnBit_eq_ok_iff.2 (by simp [hrs3, hfn])
  | tgmdct | tgmdctI =>
    obtain ⟨-, rfl, hrs1, hrs2, rfl, hfn⟩ := encR_eq_iff.1 hw
    exact byFnBit_eq_ok_iff.2 (by simp [rs1_rs2_eq_zero_iff, hrs1, hrs2, hfn])
  | fft2 | fft4 | fft8 =>
    obtain ⟨-, rfl, hrs1, hrs2, hrs3, hlg⟩ := encK_eq_iff.1 hw
    exact whenZero_eq_ok_iff.2 ⟨rfl, beq_zero (imm22_eq_zero_iff.2 ⟨⟨hrs1, hrs2, hrs3⟩, hlg⟩)⟩
  | srcomb | fftns | pmapbr =>
    obtain ⟨-, rfl, hrs1, hrs2, hrs3, rfl, hsel⟩ := encK_eq_iff.1 hw
    exact whenZero_eq_ok_iff.2 ⟨rfl, beq_zero_and ⟨rs1_rs2_rs3_eq_zero_iff.2 ⟨hrs1, hrs2, hrs3⟩, hsel⟩⟩
  | fft | fftI =>
    obtain ⟨-, rfl, rfl, hrs2, hrs3, rfl, hsel⟩ := encK_eq_iff.1 hw
    exact byInvBit_eq_ok_iff.2 (by simp [rs2_rs3_eq_zero_iff, hrs2, hrs3, hsel])
  | pmapsr | pmapsrI =>
    obtain ⟨-, rfl, hrs1, hrs2, hrs3, rfl, hsel⟩ := encK_eq_iff.1 hw
    exact byInvBit_eq_ok_iff.2 (by simp [rs1_rs2_rs3_eq_zero_iff, hrs1, hrs2, hrs3, hsel])
  | fft3 | fft3I | fft5 | fft5I | fft7 | fft7I | fft9 | fft9I | fft15 | fft15I =>
    obtain ⟨-, rfl, rfl, hrs2, hrs3, hlg, hsel⟩ := encK_eq_iff.1 hw
    change decodeOdd w = _
    unfold decodeOdd
    rw [hsel]
    exact if_pos (rs2_rs3_lg_eq_zero_iff.2 ⟨hrs2, hrs3, hlg⟩)
  | pfa3 | pfa3I | pfa5 | pfa5I | pfa7 | pfa7I | pfa9 | pfa9I | pfa15 | pfa15I =>
    obtain ⟨-, rfl, rfl, rfl, hrs3, hlg, hsel⟩ := encK_eq_iff.1 hw
    change decodePfa w = _
    unfold decodePfa
    rw [hsel]
    exact if_pos (rs3_lg_eq_zero_iff.2 ⟨hrs3, hlg⟩)
  | tgenP =>
    obtain ⟨-, hrd, hrs1, hrs2, hrs3, rfl, hsel⟩ := encK_eq_iff.1 hw
    have hz := beq_zero (rd_rs1_rs2_rs3_eq_zero_iff.2 ⟨hrd, hrs1, hrs2, hrs3⟩)
    exact bySelector_eq_ok_iff.2 (.inl ⟨rfl, hz, hsel, of_decide_eq_true hi⟩)
  | tcopyP =>
    obtain ⟨-, rfl, hrs1, hrs2, hrs3, rfl, hsel⟩ := encK_eq_iff.1 hw
    have hz := beq_zero (rs1_rs2_rs3_eq_zero_iff.2 ⟨hrs1, hrs2, hrs3⟩)
    exact bySelector_eq_ok_iff.2 (.inl ⟨rfl, hz, hsel, of_decide_eq_true hi⟩)
  | tgenT53 | tgenT7 | tgenT9 =>
    obtain ⟨-, hrd, hrs1, hrs2, hrs3, hlg, hsel⟩ := encK_eq_iff.1 hw
    exact bySelector_eq_ok_iff.2 (by simp [rd_rs1_rs2_rs3_eq_zero_iff, hrd, hrs1, hrs2, hrs3, hlg, hsel])
  | tcopyT53 | tcopyT7 | tcopyT9 =>
    obtain ⟨-, rfl, hrs1, hrs2, hrs3, hlg, hsel⟩ := encK_eq_iff.1 hw
    exact bySelector_eq_ok_iff.2 (by simp [rs1_rs2_rs3_eq_zero_iff, hrs1, hrs2, hrs3, hlg, hsel])

end Sys2Proof.Laws

namespace Sys2Proof.Machine

open Laws

/-! ## Instructions and their words (30_encoding.md R109) -/

/-- The decoder is the inverse of the encoder on the well-formed instructions (30_encoding.md R109). -/
theorem decode_eq_ok_iff {w : Word} {i : Instr} : decode w = .ok i ↔ i.wellFormed = true ∧ encode i = w := by
  constructor
  · intro h
    exact ⟨decode_wellFormed h, encode_of_decode h⟩
  · rintro ⟨hi, rfl⟩
    exact decode_encode hi

/-- Settles O1: the word of an instruction has the fields that its row asks for. -/
theorem decodeOfEncodeIsTheInstruction : Obligations.DecodeOfEncodeIsTheInstruction :=
  fun _ => decode_encode

/-- Settles O2: what `decode` answers says which instructions have the word. -/
theorem everyWordIsOneInstructionOrIllegal : Obligations.EveryWordIsOneInstructionOrIllegal := by
  intro w
  cases h : decode w with
  | ok i =>
    obtain ⟨hi, hw⟩ := decode_eq_ok_iff.1 h
    refine .inl ⟨i, rfl, hi, hw, fun j hj hjw => ?_⟩
    have hdj : decode w = .ok j := decode_eq_ok_iff.2 ⟨hj, hjw⟩
    exact Except.ok.inj (hdj.symm.trans h)
  | error e =>
    refine .inr ⟨⟨e, rfl⟩, fun j hj hjw => ?_⟩
    rw [decode_eq_ok_iff.2 ⟨hj, hjw⟩] at h
    cases h

/-- Settles O4: each word of R134 is the word of its instruction. -/
theorem decodesTheManualsWords : Obligations.DecodesTheManualsWords := by
  unfold Obligations.DecodesTheManualsWords
  simp only [decode_eq_ok_iff]
  decide

end Sys2Proof.Machine

/-! # Proofs: illegal words, and that every step has a next state (30_encoding.md R110)

The zero fields of each row as a mask are those that the decoder reads, so what `decode` refuses is what R110 lists. -/

namespace Sys2Proof.Machine

open Laws

/-! ## Zero fields as masks (30_encoding.md R106)

Each mask of `zeroFields` is named after the fields that it covers, and is given as the fields that the decoder reads;
`fnHigh` is fn[9:1]. -/

/-- The word whose ones are the `n` bits from bit `a` up. -/
def span (a n : Nat) : Word := (BitVec.allOnes n).setWidth 32 <<< a

theorem getLsbD_and_span (w : Word) (a n i : Nat) :
    (w &&& span a n).getLsbD i = (w.getLsbD i && decide (a ≤ i ∧ i < a + n)) := by
  by_cases hi : i < 32
  · simp [span, hi]
    grind
  · simp [BitVec.getLsbD_of_ge w i (by omega)]

theorem and_span_eq_zero_iff {w : Word} (a n : Nat) : w &&& span a n = 0 ↔ w.extractLsb' a n = 0#n := by
  constructor
  · intro h
    apply BitVec.eq_of_getLsbD_eq
    intro i hi
    have hbit := getLsbD_and_span w a n (a + i)
    rw [h] at hbit
    simpa [hi] using hbit
  · intro h
    apply BitVec.eq_of_getLsbD_eq
    intro i _
    rw [getLsbD_and_span]
    by_cases hin : a ≤ i ∧ i < a + n
    · have hbit := congrArg (BitVec.getLsbD · (i - a)) h
      simpa [hin, show i - a < n by omega] using hbit
    · simp [hin]

/-- A mask of two fields. -/
theorem and_spans_eq_zero_iff {w : Word} (a n b m : Nat) :
    w &&& (span a n ||| span b m) = 0 ↔ w.extractLsb' a n = 0#n ∧ w.extractLsb' b m = 0#m := by
  rw [← and_span_eq_zero_iff, ← and_span_eq_zero_iff, BitVec.and_or_distrib_left]
  exact BitVec.or_eq_zero_iff

section Masks

variable {w : Word}

theorem mask_none : w &&& 0 = 0 ↔ True := iff_true_intro BitVec.and_zero

theorem mask_rd_fn : w &&& 0x3C003FF = 0 ↔ rdOf w = 0#4 ∧ fnOf w = 0#10 := and_spans_eq_zero_iff 22 4 0 10

theorem mask_rs1_fn : w &&& 0x3C03FF = 0 ↔ rs1Of w = 0#4 ∧ fnOf w = 0#10 := and_spans_eq_zero_iff 18 4 0 10

theorem mask_rs2_fn : w &&& 0x3C3FF = 0 ↔ rs2Of w = 0#4 ∧ fnOf w = 0#10 := and_spans_eq_zero_iff 14 4 0 10

theorem mask_rs1_rs2_fn : w &&& 0x3FC3FF = 0 ↔ w.extractLsb' 14 8 = 0#8 ∧ fnOf w = 0#10 :=
  and_spans_eq_zero_iff 14 8 0 10

theorem mask_rs3_fn : w &&& 0x3FFF = 0 ↔ w.extractLsb' 0 14 = 0#14 := and_span_eq_zero_iff 0 14

theorem mask_fn : w &&& 0x3FF = 0 ↔ fnOf w = 0#10 := and_span_eq_zero_iff 0 10

theorem mask_fnHigh : w &&& 0x3FE = 0 ↔ w.extractLsb' 1 9 = 0#9 := and_span_eq_zero_iff 1 9

theorem mask_rs2_fnHigh : w &&& 0x3C3FE = 0 ↔ rs2Of w = 0#4 ∧ w.extractLsb' 1 9 = 0#9 :=
  and_spans_eq_zero_iff 14 4 1 9

theorem mask_rs3_fnHigh : w &&& 0x3FFE = 0 ↔ rs3Of w = 0#4 ∧ w.extractLsb' 1 9 = 0#9 :=
  and_spans_eq_zero_iff 10 4 1 9

theorem mask_rs1_rs2_fnHigh : w &&& 0x3FC3FE = 0 ↔ w.extractLsb' 14 8 = 0#8 ∧ w.extractLsb' 1 9 = 0#9 :=
  and_spans_eq_zero_iff 14 8 1 9

theorem mask_word_17_5 : w &&& 0x3FFE0 = 0 ↔ w.extractLsb' 5 13 = 0#13 := and_span_eq_zero_iff 5 13

theorem mask_rs3_lg : w &&& 0x3FE0 = 0 ↔ w.extractLsb' 5 9 = 0#9 := and_span_eq_zero_iff 5 9

theorem mask_off26 : w &&& 0x3FFFFFF = 0 ↔ off26Of w = 0#26 := and_span_eq_zero_iff 0 26

theorem mask_imm22 : w &&& 0x3FFFFF = 0 ↔ imm22Of w = 0#22 := and_span_eq_zero_iff 0 22

theorem mask_rs1_rs2_rs3_selInv : w &&& 0x3FFC1F = 0 ↔ w.extractLsb' 10 12 = 0#12 ∧ selInvOf w = 0#5 :=
  and_spans_eq_zero_iff 10 12 0 5

theorem mask_rs1_rs2_rs3_sel : w &&& 0x3FFC1E = 0 ↔ w.extractLsb' 10 12 = 0#12 ∧ w.extractLsb' 1 4 = 0#4 :=
  and_spans_eq_zero_iff 10 12 1 4

theorem mask_rs2_rs3_sel : w &&& 0x3FC1E = 0 ↔ w.extractLsb' 10 8 = 0#8 ∧ w.extractLsb' 1 4 = 0#4 :=
  and_spans_eq_zero_iff 10 8 1 4

theorem mask_rs1_rs2_rs3_inv : w &&& 0x3FFC01 = 0 ↔ w.extractLsb' 10 12 = 0#12 ∧ w.extractLsb' 0 1 = 0#1 :=
  and_spans_eq_zero_iff 10 12 0 1

theorem mask_rd_rs1_rs2_rs3_inv : w &&& 0x3FFFC01 = 0 ↔ w.extractLsb' 10 16 = 0#16 ∧ w.extractLsb' 0 1 = 0#1 :=
  and_spans_eq_zero_iff 10 16 0 1

end Masks

/-! ## Illegal words (30_encoding.md R110) -/

/-- What R110 asks of a legal word. -/
def Legal (w : Word) : Prop := (∃ m, zeroFields (opOf w) = some m ∧ w &&& m = 0) ∧ ¬ badSelector w

section Rows

variable {w : Word} {op : BitVec 6} {m : Word}

theorem legal_iff_of_row (hop : opOf w = op) (hm : zeroFields op = some m) :
    Legal w ↔ w &&& m = 0 ∧ ¬ badSelector w := by
  subst hop
  simp [Legal, hm]

/-- Only four rows have a selector condition. -/
theorem not_badSelector (hop : opOf w = op) (h : op ∉ [0x20#6, 0x21#6, 0x2C#6, 0x2D#6]) : ¬ badSelector w := by
  subst hop
  simp only [List.mem_cons, List.not_mem_nil, or_false, not_or, ← BitVec.toNat_inj] at h
  obtain ⟨h20, h21, h2C, h2D⟩ := h
  rintro (⟨h | h, -⟩ | ⟨h | h, -⟩)
  exacts [h20 h, h21 h, h2C h, h2D h]

/-- fn is 0 or 1 exactly when its bits 9 to 1 are 0. -/
theorem fn_eq_zero_or_one_iff : fnOf w = 0#10 ∨ fnOf w = 1#10 ↔ w.extractLsb' 1 9 = 0#9 := by
  have h : ∀ x : BitVec 1, x = 0#1 ∨ x = 1#1 := by decide
  have h0 : fnOf w = 0#10 ↔ _ := extract_eq_append_iff (a := 0#9) (b := 0#1)
  have h1 : fnOf w = 1#10 ↔ _ := extract_eq_append_iff (a := 0#9) (b := 1#1)
  rw [h0, h1, ← and_or_left, and_iff_left (h _)]

/-- The same of sel and inv: only inv is free when sel is 0. -/
theorem selInv_eq_zero_or_one_iff : selInvOf w = 0#5 ∨ selInvOf w = 1#5 ↔ w.extractLsb' 1 4 = 0#4 := by
  have h : ∀ x : BitVec 1, x = 0#1 ∨ x = 1#1 := by decide
  have h0 : selInvOf w = 0#5 ↔ _ := selInvOf_eq_iff (sel := 0#4) (inv := 0#1)
  have h1 : selInvOf w = 1#5 ↔ _ := selInvOf_eq_iff (sel := 0#4) (inv := 1#1)
  rw [h0, h1, ← and_or_left, and_iff_left (h _)]

theorem eq_ofNat_of_toNat_eq {n k : Nat} {x : BitVec n} (h : x.toNat = k) : x = BitVec.ofNat n k := by
  subst h
  simp

/-- sel is the upper part of sel and inv together, inv the lowest bit. -/
theorem toNat_sel (w : Word) : (w.extractLsb' 1 4).toNat = (selInvOf w).toNat / 2 := by
  simp only [selInvOf, BitVec.extractLsb'_toNat, Nat.shiftRight_eq_div_pow]
  omega

theorem toNat_inv (w : Word) : (w.extractLsb' 0 1).toNat = (selInvOf w).toNat % 2 := by
  simp only [selInvOf, BitVec.extractLsb'_toNat, Nat.shiftRight_eq_div_pow]
  omega

/-- The selector condition of the codelets, on sel and inv together. -/
theorem badSelector_iff_of_codelet (hop : opOf w = op) (h : op = 0x20#6 ∨ op = 0x21#6) :
    badSelector w ↔ 10 ≤ (selInvOf w).toNat := by
  subst hop
  rcases h with h | h <;> simp only [badSelector, h, toNat_sel] <;> simp <;> omega

/-- The selector condition of the tables. -/
theorem badSelector_iff_of_table (hop : opOf w = op) (h : op = 0x2C#6 ∨ op = 0x2D#6) : badSelector w ↔
    3 < (w.extractLsb' 1 4).toNat ∨ (w.extractLsb' 1 4).toNat = 0 ∧ (lgOf w).toNat < 3 ∨
      (w.extractLsb' 1 4).toNat ≠ 0 ∧ (lgOf w).toNat ≠ 0 := by
  subst hop
  rcases h with h | h <;> simp only [badSelector, h] <;> simp

theorem decodeOdd_isOk_iff : (∃ i, decodeOdd w = .ok i) ↔ w.extractLsb' 5 13 = 0#13 ∧ ¬ 10 ≤ (selInvOf w).toNat := by
  unfold decodeOdd
  simp only
  split
  · next hz =>
    split
    case h_11 =>
      simp only [imp_false, ← BitVec.toNat_inj, BitVec.toNat_ofNat, reduceCtorEq, exists_false, false_iff] at *
      omega
    all_goals next hsel => simp [hz, hsel]
  · next hz => simp [hz]

theorem decodePfa_isOk_iff : (∃ i, decodePfa w = .ok i) ↔ w.extractLsb' 5 9 = 0#9 ∧ ¬ 10 ≤ (selInvOf w).toNat := by
  unfold decodePfa
  simp only
  split
  · next hz =>
    split
    case h_11 =>
      simp only [imp_false, ← BitVec.toNat_inj, BitVec.toNat_ofNat, reduceCtorEq, exists_false, false_iff] at *
      omega
    all_goals next hsel => simp [hz, hsel]
  · next hz => simp [hz]

theorem bySelector_isOk_iff {zeros : Bool} {iP : BitVec 5 → Instr} {i53 i7 i9 : Instr} :
    (∃ i, bySelector w zeros iP i53 i7 i9 = .ok i) ↔ (zeros = true ∧ w.extractLsb' 0 1 = 0#1) ∧
      ¬ (3 < (w.extractLsb' 1 4).toNat ∨ (w.extractLsb' 1 4).toNat = 0 ∧ (lgOf w).toNat < 3 ∨
        (w.extractLsb' 1 4).toNat ≠ 0 ∧ (lgOf w).toNat ≠ 0) := by
  simp only [bySelector_eq_ok_iff, exists_or, exists_eq_left', ← BitVec.toNat_inj, toNat_sel, toNat_inv, ← and_or_left,
    and_assoc]
  refine and_congr_right fun _ => ?_
  simp only [BitVec.toNat_ofNat]
  omega

end Rows

/-- Row by row the decoder asks for the zero fields of the row's mask. The rows with a selector (28, 29, 37, 38) and the
opcodes of no row (52) stand apart. -/
theorem decode_isOk_iff (w : Word) : (∃ i, decode w = .ok i) ↔ Legal w := by
  unfold decode
  simp only
  split
  case h_28 hop =>
    rw [legal_iff_of_row hop rfl, badSelector_iff_of_codelet hop (.inl rfl), mask_word_17_5]
    exact decodeOdd_isOk_iff
  case h_29 hop =>
    rw [legal_iff_of_row hop rfl, badSelector_iff_of_codelet hop (.inr rfl), mask_rs3_lg]
    exact decodePfa_isOk_iff
  case h_37 hop =>
    rw [legal_iff_of_row hop rfl, badSelector_iff_of_table hop (.inl rfl), mask_rd_rs1_rs2_rs3_inv,
      bySelector_isOk_iff, beq_iff_eq]
  case h_38 hop =>
    rw [legal_iff_of_row hop rfl, badSelector_iff_of_table hop (.inr rfl), mask_rs1_rs2_rs3_inv,
      bySelector_isOk_iff, beq_iff_eq]
  case h_52 =>
    have hnone : zeroFields (opOf w) = none := by
      unfold zeroFields
      split
      case h_52 => rfl
      all_goals
        next hnat =>
        have hop := eq_ofNat_of_toNat_eq hnat
        contradiction
    simp [Legal, hnone]
  all_goals
    next hop =>
    rw [legal_iff_of_row hop rfl, and_iff_left (not_badSelector hop (by decide))]
    simp only [whenZero_eq_ok_iff, byFnBit_eq_ok_iff, byInvBit_eq_ok_iff, Except.ok.injEq, exists_or, exists_eq',
      exists_eq_left', ← and_or_left, true_and, fn_eq_zero_or_one_iff, selInv_eq_zero_or_one_iff, beq_iff_eq,
      Bool.and_eq_true, mask_none, mask_rd_fn, mask_rs1_fn, mask_rs2_fn, mask_rs1_rs2_fn, mask_rs3_fn, mask_fn,
      mask_fnHigh, mask_rs2_fnHigh, mask_rs3_fnHigh, mask_rs1_rs2_fnHigh, mask_word_17_5, mask_off26, mask_imm22,
      mask_rs1_rs2_rs3_selInv, mask_rs1_rs2_rs3_sel, mask_rs2_rs3_sel]

/-- Settles O3: the illegal words are those that `Legal` excludes; word 0 has the unassigned opcode 0. -/
theorem illegalWordsAreTheseAndFault : Obligations.IllegalWordsAreTheseAndFault := by
  refine ⟨fun w => ?_, ⟨.unassignedOpcode, by decide⟩, fun s w e hf hd => runInstruction_of_illegal hf hd⟩
  have herr : (∃ e, decode w = .error e) ↔ ¬ Legal w := by
    rw [← decode_isOk_iff]
    cases decode w <;> simp
  rw [herr]
  unfold Legal
  cases zeroFields (opOf w) <;> simp [imp_iff_not_or]

/-! ## Every step has a next state (60_exceptions.md R350, R374) -/

/-- An instruction that ends in `finish` raises its fault or retires. -/
theorem finish_next (s : State) (r : Except Trap State) : ∃ t, finish s r = .next t := by
  cases r with
  | error x => exact ⟨_, finish_error s x⟩
  | ok u => exact ⟨_, finish_ok s u⟩

/-- Every instruction has a meaning in every state. -/
theorem exec_next (i : Instr) (s : State) : ∃ t, exec i s = .next t := by
  cases i with
  | addi | lui | add | sub | mul | slli | srli | beq | bne | bltu | j | halt | tgenT53 | tgenT7 | tgenT9 =>
    exact ⟨_, rfl⟩
  | _ => exact finish_next s _

theorem runInstruction_next (s : State) : ∃ t, runInstruction s = .next t := by
  cases hf : s.fetch with
  | error x => exact ⟨_, runInstruction_of_fetch_error hf⟩
  | ok w =>
    cases hd : decode w with
    | error e => exact ⟨_, runInstruction_of_illegal hf hd⟩
    | ok i =>
      rw [runInstruction_of_decode hf hd]
      exact exec_next i s

theorem sequencerTurn_next (s : State) : ∃ t, sequencerTurn s = .next t := by
  by_cases hr : s.run = .running
  · rw [sequencerTurn_of_running hr]
    exact runInstruction_next s
  · exact ⟨s, sequencerTurn_of_not_running hr⟩

/-- Settles O7: the host's turn is total, and the sequencer's is a fault, a stutter or an instruction. -/
theorem everyStepHasANextState : Obligations.EveryStepHasANextState := by
  intro s hl
  rw [step_of_legal hl]
  rcases ht : s.turns with _ | ⟨_ | a, rest⟩
  · rw [takeTurn_of_no_turns ht]
    exact sequencerTurn_next s
  · rw [takeTurn_of_sequencer ht]
    exact sequencerTurn_next _
  · exact ⟨_, takeTurn_of_host ht⟩

end Sys2Proof.Machine

/-! # Proofs: the arithmetic of the three precisions (41_numeric.md R140 to R153) -/

namespace Sys2Proof.Machine

/-! ## A sign and a magnitude -/

/-- ± n. -/
def signed (neg : Bool) (n : Nat) : Int := if neg then -(n : Int) else n

@[simp] theorem signed_true (n : Nat) : signed true n = -(n : Int) := rfl

@[simp] theorem signed_false (n : Nat) : signed false n = n := rfl

theorem signed_zero (neg : Bool) : signed neg 0 = 0 := by
  cases neg <;> rfl

theorem natAbs_signed (neg : Bool) (n : Nat) : (signed neg n).natAbs = n := by
  cases neg <;> simp

theorem signed_mul (s t : Bool) (m n : Nat) : signed s m * signed t n = signed (s != t) (m * n) := by
  cases s <;> cases t <;> simp

theorem signed_not (s : Bool) (n : Nat) : signed (!s) n = -signed s n := by
  cases s <;> simp

theorem eq_decide_of_signed_ne_zero {neg : Bool} {n : Nat} (h : signed neg n ≠ 0) : neg = decide (signed neg n < 0) := by
  rw [Bool.eq_iff_iff, decide_eq_true_iff]
  cases neg <;> simp only [signed_true, signed_false, ne_eq, Bool.false_eq_true, true_iff, false_iff] at h ⊢ <;> omega

/-- `pack` and `roundMag` round ± n / 2^k units. -/
theorem Fmt.roundsTo_signed {f : Fmt} (hf : 1 ≤ f.fbits) (he : 1 ≤ f.ebits) (neg : Bool) (n k : Nat) :
    f.RoundsTo (signed neg n) k (f.pack neg (f.roundMag n k)) := by
  have h := Fmt.roundsTo_pack_roundMag hf he (num := signed neg n) k eq_decide_of_signed_ne_zero
  rwa [natAbs_signed] at h

/-! ## What the encodings of the binary formats decode to -/

section Encodings

variable {f : Fmt} {a b m n : Nat} {s t : Bool}

theorem Fmt.signBit_pos (f : Fmt) : 0 < f.signBit := Nat.two_pow_pos _

theorem Fmt.magUnits_zero (f : Fmt) : f.magUnits 0 = 0 := by simp [Fmt.magUnits]

theorem Fmt.roundMag_zero (f : Fmt) (k : Nat) : f.roundMag 0 k = 0 := rfl

/-- A finite value is packed from its sign and its magnitude bits. -/
theorem Fmt.exists_pack_of_decode (ha : a < 2 * f.signBit) (h : f.decode a = .fin s m) :
    ∃ mag, mag < f.infMag ∧ a = f.pack s mag ∧ m = f.magUnits mag := by
  unfold Fmt.decode at h
  simp only at h
  split_ifs at h with hnan hinf
  obtain ⟨rfl, rfl⟩ := FVal.fin.inj h
  refine ⟨a % f.signBit, by omega, ?_, rfl⟩
  by_cases hs : f.signBit ≤ a
  · have hmod := Nat.mod_eq_sub_mod hs
    rw [Nat.mod_eq_of_lt (by omega : a - f.signBit < f.signBit)] at hmod
    simp only [Fmt.pack, hs, decide_true, if_true]
    omega
  · simp [Fmt.pack, hs, Nat.mod_eq_of_lt (Nat.lt_of_not_le hs)]

theorem Fmt.signBit_le_pack_iff (f : Fmt) (s : Bool) {mag : Nat} (h : mag ≤ f.infMag) :
    f.signBit ≤ f.pack s mag ↔ s = true := by
  have := f.infMag_lt_signBit
  cases s <;> simp only [Fmt.pack, Bool.false_eq_true, if_false, if_true, iff_true, iff_false] <;> omega

theorem Fmt.signBit_le_iff (ha : a < 2 * f.signBit) (h : f.decode a = .fin s m) : f.signBit ≤ a ↔ s = true := by
  obtain ⟨mag, hmag, rfl, -⟩ := Fmt.exists_pack_of_decode ha h
  exact f.signBit_le_pack_iff s hmag.le

/-- Only the two zeros have the value 0. -/
theorem Fmt.eq_pack_zero (ha : a < 2 * f.signBit) (h : f.decode a = .fin s 0) : a = f.pack s 0 := by
  obtain ⟨mag, -, rfl, hunits⟩ := Fmt.exists_pack_of_decode ha h
  rw [f.magUnits_strictMono.injective (hunits.symm.trans f.magUnits_zero.symm)]

theorem Fmt.decode_pack_infMag (f : Fmt) (s : Bool) : f.decode (f.pack s f.infMag) = .inf s := by
  rw [f.decode_pack s le_rfl, if_pos rfl]

theorem Fmt.qnan_lt_signBit (hf : 1 ≤ f.fbits) : f.qnan < f.signBit := by
  have hfrac : pow2 (f.fbits - 1) < pow2 f.fbits := Nat.pow_lt_pow_right (by norm_num) (by omega)
  have hpos : 1 ≤ pow2 f.ebits := Nat.two_pow_pos _
  have hsplit : f.signBit = pow2 f.fbits * (pow2 f.ebits - 1) + pow2 f.fbits := by
    rw [← Nat.mul_succ, Nat.succ_eq_add_one, Nat.sub_add_cancel hpos, Nat.mul_comm]
    exact pow_add 2 _ _
  rw [Fmt.qnan, Fmt.infMag, hsplit]
  omega

theorem Fmt.decode_qnan (hf : 1 ≤ f.fbits) : f.decode f.qnan = .nan := by
  have hpos : 0 < pow2 (f.fbits - 1) := Nat.two_pow_pos _
  simp only [Fmt.decode, Nat.mod_eq_of_lt (Fmt.qnan_lt_signBit hf)]
  rw [if_pos (by rw [Fmt.qnan]; omega)]

/-! ## neg (41_numeric.md R143) -/

theorem Fmt.neg_eq (ha : a < 2 * f.signBit) :
    f.neg a = if f.signBit ≤ a then a - f.signBit else a + f.signBit := by
  unfold Fmt.neg
  split
  · next hs => rw [Nat.mod_eq_sub_mod hs, Nat.mod_eq_of_lt (by omega)]
  · rfl

theorem Fmt.neg_lt (ha : a < 2 * f.signBit) : f.neg a < 2 * f.signBit := by
  rw [Fmt.neg_eq ha]
  split <;> omega

theorem Fmt.neg_pack (f : Fmt) (s : Bool) {mag : Nat} (h : mag ≤ f.infMag) : f.neg (f.pack s mag) = f.pack (!s) mag := by
  rw [Fmt.neg_eq (f.pack_lt s h)]
  simp only [f.signBit_le_pack_iff s h]
  cases s <;> simp [Fmt.pack, Nat.add_comm]

theorem Fmt.decode_neg (ha : a < 2 * f.signBit) (h : f.decode a = .fin s m) : f.decode (f.neg a) = .fin (!s) m := by
  obtain ⟨mag, hmag, rfl, rfl⟩ := Fmt.exists_pack_of_decode ha h
  rw [f.neg_pack s hmag.le, f.decode_pack _ hmag.le, if_neg hmag.ne]

/-! ## add (41_numeric.md R141) -/

theorem Fmt.add_fin (ha : f.decode a = .fin s m) (hb : f.decode b = .fin t n) :
    f.add a b = if s = t then f.pack s (f.roundMag (m + n) 0)
      else if m = n then 0
      else if n < m then f.pack s (f.roundMag (m - n) 0)
      else f.pack t (f.roundMag (n - m) 0) := by
  simp only [Fmt.add, ha, hb]

theorem Fmt.add_inf (s : Bool) (ha : f.decode a = .inf s) (hb : f.decode b = .inf s ∨ ∃ t m, f.decode b = .fin t m) :
    f.add a b = f.pack s f.infMag ∧ f.add b a = f.pack s f.infMag := by
  rcases hb with hb | ⟨t, m, hb⟩ <;> simp [Fmt.add, ha, hb]

theorem Fmt.add_nan (h : f.decode a = .nan ∨ f.decode b = .nan) : f.add a b = f.qnan := by
  rcases h with h | h
  · simp only [Fmt.add, h]
  · cases ha : f.decode a <;> simp only [Fmt.add, ha, h]

/-- The sum of two finite values in units, rounded once. -/
theorem Fmt.roundsTo_add (hf : 1 ≤ f.fbits) (he : 1 ≤ f.ebits) (ha : f.decode a = .fin s m)
    (hb : f.decode b = .fin t n) : f.RoundsTo (signed s m + signed t n) 0 (f.add a b) := by
  have hround := Fmt.roundsTo_signed hf he
  rw [Fmt.add_fin ha hb]
  by_cases hst : s = t
  · subst hst
    have hsum : signed s m + signed s n = signed s (m + n) := by
      cases s <;> simp only [signed_true, signed_false] <;> omega
    rw [if_pos rfl, hsum]
    exact hround s (m + n) 0
  · obtain rfl : t = !s := by cases s <;> cases t <;> simp_all
    rw [if_neg hst, signed_not]
    rcases Nat.lt_trichotomy m n with hlt | rfl | hlt
    · have hdiff : signed s m + -signed s n = signed (!s) (n - m) := by
        cases s <;> simp only [signed_true, signed_false, Bool.not_true, Bool.not_false] <;> omega
      rw [if_neg hlt.ne, if_neg hlt.not_gt, hdiff]
      exact hround (!s) (n - m) 0
    · rw [if_pos rfl, Int.add_right_neg]
      exact hround false 0 0
    · have hdiff : signed s m + -signed s n = signed s (m - n) := by
        cases s <;> simp only [signed_true, signed_false] <;> omega
      rw [if_neg hlt.ne', if_pos hlt, hdiff]
      exact hround s (m - n) 0

/-- An exact zero sum is −0 only when both operands are. -/
theorem Fmt.add_eq_zero (ha : a < 2 * f.signBit) (hb : b < 2 * f.signBit) (hda : f.decode a = .fin s m)
    (hdb : f.decode b = .fin t n) (h : signed s m + signed t n = 0) :
    f.add a b = if a = f.signBit ∧ b = f.signBit then f.signBit else 0 := by
  have hpos := f.signBit_pos
  rw [Fmt.add_fin hda hdb]
  by_cases hst : s = t
  · subst hst
    obtain ⟨rfl, rfl⟩ : m = 0 ∧ n = 0 := by
      cases s <;> simp only [signed_true, signed_false] at h <;> omega
    rw [if_pos rfl, f.roundMag_zero, Fmt.eq_pack_zero ha hda, Fmt.eq_pack_zero hb hdb]
    cases s <;> simp [Fmt.pack, hpos.ne]
  · have hmn : m = n := by
      cases s <;> cases t <;> simp only [signed_true, signed_false, not_true] at h hst <;> omega
    have hsa := Fmt.signBit_le_iff ha hda
    have hsb := Fmt.signBit_le_iff hb hdb
    rw [if_neg hst, if_pos hmn, if_neg]
    rintro ⟨rfl, rfl⟩
    exact hst ((hsa.1 le_rfl).trans (hsb.1 le_rfl).symm)

/-! ## mul (41_numeric.md R142) -/

theorem Fmt.mul_fin (ha : f.decode a = .fin s m) (hb : f.decode b = .fin t n) :
    f.mul a b = f.pack (s != t) (f.roundMag (m * n) f.unitExp) := by
  simp only [Fmt.mul, ha, hb]

theorem Fmt.mul_inf (s t : Bool) (ha : f.decode a = .inf s)
    (hb : f.decode b = .inf t ∨ ∃ m, m ≠ 0 ∧ f.decode b = .fin t m) :
    f.mul a b = f.pack (s != t) f.infMag ∧ f.mul b a = f.pack (s != t) f.infMag := by
  rcases hb with hb | ⟨m, hm, hb⟩
  · simp only [Fmt.mul, ha, hb, bne_comm, and_self]
  · simp only [Fmt.mul, ha, hb, if_neg hm, bne_comm, and_self]

theorem Fmt.mul_inf_zero (ha : f.decode a = .inf s) (hb : f.decode b = .fin t 0) :
    f.mul a b = f.qnan ∧ f.mul b a = f.qnan := by
  simp [Fmt.mul, ha, hb]

theorem Fmt.mul_nan (h : f.decode a = .nan ∨ f.decode b = .nan) : f.mul a b = f.qnan := by
  rcases h with h | h
  · simp only [Fmt.mul, h]
  · cases ha : f.decode a <;> simp only [Fmt.mul, ha, h]

/-- The product of two finite values in units, rounded once. -/
theorem Fmt.roundsTo_mul (hf : 1 ≤ f.fbits) (he : 1 ≤ f.ebits) (ha : f.decode a = .fin s m)
    (hb : f.decode b = .fin t n) : f.RoundsTo (signed s m * signed t n) f.unitExp (f.mul a b) := by
  rw [Fmt.mul_fin ha hb, signed_mul]
  exact Fmt.roundsTo_signed hf he (s != t) (m * n) f.unitExp

/-- A zero product has the product of the signs. -/
theorem Fmt.mul_eq_zero (ha : a < 2 * f.signBit) (hb : b < 2 * f.signBit) (hda : f.decode a = .fin s m)
    (hdb : f.decode b = .fin t n) (h : signed s m * signed t n = 0) :
    f.mul a b = if (f.signBit ≤ a ↔ f.signBit ≤ b) then 0 else f.signBit := by
  have hmn : m * n = 0 := by
    rw [← natAbs_signed (s != t) (m * n), ← signed_mul, h]
    rfl
  rw [Fmt.mul_fin hda hdb, hmn, f.roundMag_zero]
  simp only [Fmt.signBit_le_iff ha hda, Fmt.signBit_le_iff hb hdb]
  cases s <;> cases t <;> rfl

/-! ## Results are encodings -/

theorem Fmt.add_lt (hf : 1 ≤ f.fbits) (a b : Nat) : f.add a b < 2 * f.signBit := by
  have hq := Fmt.qnan_lt_signBit hf
  have hinf := fun s => f.pack_lt s le_rfl
  have hround := fun s n => f.pack_lt s (f.roundMag_le_infMag n 0)
  unfold Fmt.add
  split
  · omega
  · omega
  · split
    · exact hinf _
    · omega
  · exact hinf _
  · exact hinf _
  · split_ifs
    · exact hround _ _
    · omega
    · exact hround _ _
    · exact hround _ _

theorem Fmt.mul_lt (hf : 1 ≤ f.fbits) (a b : Nat) : f.mul a b < 2 * f.signBit := by
  have hq := Fmt.qnan_lt_signBit hf
  have hinf := fun s => f.pack_lt s le_rfl
  unfold Fmt.mul
  split
  · omega
  · omega
  · exact hinf _
  · split
    · omega
    · exact hinf _
  · split
    · omega
    · exact hinf _
  · exact f.pack_lt _ (f.roundMag_le_infMag _ _)

/-! ## The canonical NaN (20_memory.md R78) -/

theorem Fmt.canon_of_nan (h : f.decode a = .nan) : f.canon a = f.qnan := by
  simp only [Fmt.canon, h]

theorem Fmt.canon_of_ne_nan (h : f.decode a ≠ .nan) : f.canon a = a := by
  unfold Fmt.canon
  split
  · next hnan => exact absurd hnan h
  · rfl

theorem Fmt.canon_eq_qnan (h : f.decode (f.canon a) = .nan) : f.canon a = f.qnan := by
  by_cases ha : f.decode a = .nan
  · exact Fmt.canon_of_nan ha
  · rw [Fmt.canon_of_ne_nan ha] at h
    exact absurd h ha

theorem Fmt.canon_lt (hf : 1 ≤ f.fbits) (ha : a < 2 * f.signBit) : f.canon a < 2 * f.signBit := by
  have hq := Fmt.qnan_lt_signBit hf
  by_cases h : f.decode a = .nan
  · rw [Fmt.canon_of_nan h]
    omega
  · rwa [Fmt.canon_of_ne_nan h]

end Encodings

/-! ## Elements of the binary formats -/

theorem toNat_ofNat_fmt32 {v : Nat} (h : v < 2 * fmt32.signBit) : (BitVec.ofNat 32 v).toNat = v :=
  (BitVec.toNat_ofNat _ _).trans (Nat.mod_eq_of_lt h)

theorem toNat_ofNat_fmt64 {v : Nat} (h : v < 2 * fmt64.signBit) : (BitVec.ofNat 64 v).toNat = v :=
  (BitVec.toNat_ofNat _ _).trans (Nat.mod_eq_of_lt h)

theorem exists_fin_of_toInt? {v : FVal} {x : Int} (h : v.toInt? = some x) : ∃ s m, v = .fin s m ∧ x = signed s m := by
  cases v with
  | nan => cases h
  | inf s => cases h
  | fin s m => exact ⟨s, m, rfl, (Option.some.inj h).symm⟩

/-- Settles O47: operands are integers of units, and one rounding of their exact sum or product ends the operation. -/
theorem floatOperationsRoundToNearestEven : Obligations.FloatOperationsRoundToNearestEven := by
  refine ⟨fun f hmem a b ha hb => ?_, fun a b => ?_, fun a b => ?_, fun p hp x y z w => ?_⟩
  · obtain ⟨hf, he⟩ : 1 ≤ f.fbits ∧ 1 ≤ f.ebits := by
      simp only [List.mem_cons, List.not_mem_nil, or_false] at hmem
      rcases hmem with rfl | rfl <;> decide
    refine ⟨fun x y hx hy => ?_, Fmt.neg_eq ha, rfl, fun h => ⟨Fmt.add_nan h, Fmt.mul_nan h⟩, fun s hda hdb => ?_,
      fun s hda hdb => ?_, fun s t hda hdb => Fmt.mul_inf_zero hda hdb, fun s t hda hdb => ?_, Fmt.decode_qnan hf,
      Fmt.canon_eq_qnan, Fmt.canon_of_ne_nan⟩
    · obtain ⟨s, m, hda, rfl⟩ := exists_fin_of_toInt? hx
      obtain ⟨t, n, hdb, rfl⟩ := exists_fin_of_toInt? hy
      refine ⟨Fmt.roundsTo_add hf he hda hdb, Fmt.roundsTo_mul hf he hda hdb, Fmt.add_eq_zero ha hb hda hdb,
        Fmt.mul_eq_zero ha hb hda hdb, ?_⟩
      rw [Fmt.decode_neg hb hdb, ← signed_not]
      rfl
    · cases s <;> simp [Fmt.add, hda, hdb]
    · obtain ⟨hab, hba⟩ := Fmt.add_inf s hda hdb
      rw [hab, hba, f.decode_pack_infMag]
      exact ⟨rfl, rfl⟩
    · obtain ⟨hab, hba⟩ := Fmt.mul_inf s t hda hdb
      rw [hab, hba, f.decode_pack_infMag]
      exact ⟨rfl, rfl⟩
  · have hf : 1 ≤ fmt32.fbits := by decide
    exact ⟨toNat_ofNat_fmt32 (Fmt.add_lt hf _ _), toNat_ofNat_fmt32 (Fmt.add_lt hf _ _),
      toNat_ofNat_fmt32 (Fmt.mul_lt hf _ _), toNat_ofNat_fmt32 (Fmt.neg_lt a.isLt),
      toNat_ofNat_fmt32 (Fmt.canon_lt hf a.isLt)⟩
  · have hf : 1 ≤ fmt64.fbits := by decide
    exact ⟨toNat_ofNat_fmt64 (Fmt.add_lt hf _ _), toNat_ofNat_fmt64 (Fmt.add_lt hf _ _),
      toNat_ofNat_fmt64 (Fmt.mul_lt hf _ _), toNat_ofNat_fmt64 (Fmt.neg_lt a.isLt),
      toNat_ofNat_fmt64 (Fmt.canon_lt hf a.isLt)⟩
  · simp only [List.mem_cons, List.not_mem_nil, or_false] at hp
    rcases hp with rfl | rfl <;> exact ⟨rfl, rfl, rfl, rfl, rfl, rfl, rfl⟩

/-! ## Q31 (41_numeric.md R148 to R150, R153) -/

theorem asr_eq_ediv (v : Int) (k : Nat) : asr v k = v / 2 ^ k := Int.shiftRight_eq_div_pow v k

theorem wrap64_eq_bmod (v : Int) : wrap64 v = v.bmod 18446744073709551616 := BitVec.toInt_ofInt v

theorem toInt_q31Round (v : Int) :
    (q31Round v).toInt = ((v + 1073741824) / 2147483648).bmod 4294967296 := by
  rw [q31Round, asr_eq_ediv]
  exact BitVec.toInt_ofInt _

/-- The accumulator of CMUL, rounded (R150). -/
theorem toInt_ofInt_asr_wrap64 (v : Int) :
    (BitVec.ofInt 32 (asr (wrap64 (wrap64 v + 1073741824)) 31)).toInt =
      ((v.bmod 18446744073709551616 + 1073741824).bmod 18446744073709551616 / 2147483648).bmod 4294967296 := by
  rw [wrap64_eq_bmod, wrap64_eq_bmod, asr_eq_ediv]
  exact BitVec.toInt_ofInt _

/-- A wrapped sum shifted right needs no second wrap (R153). -/
theorem toInt_ofInt_asr_wrap32 (v : Int) :
    (BitVec.ofInt 32 (asr (BitVec.ofInt 32 v).toInt 6)).toInt = v.bmod 4294967296 / 64 := by
  have hwrap : (BitVec.ofInt 32 v).toInt = v.bmod 4294967296 := BitVec.toInt_ofInt v
  have hout : ∀ u : Int, (BitVec.ofInt 32 u).toInt = u.bmod 4294967296 := fun u => BitVec.toInt_ofInt u
  have hlo : -2147483648 ≤ v.bmod 4294967296 := Int.le_bmod (by decide)
  have hhi : v.bmod 4294967296 < 2147483648 := Int.bmod_lt (by decide)
  rw [hwrap, hout, asr_eq_ediv]
  generalize v.bmod 4294967296 = u at *
  exact Int.bmod_eq_of_le (by norm_num; omega) (by norm_num; omega)

/-- Settles O48: each operation is its integer formula under the wrap of the bit vector that holds its result. -/
theorem q31OperationsWrapAndRound : Obligations.Q31OperationsWrapAndRound := by
  intro a b z w rounded int wide
  exact ⟨BitVec.toInt_add a b, BitVec.toInt_sub, BitVec.toInt_neg, toInt_q31Round _, toInt_ofInt_asr_wrap64 _,
    toInt_ofInt_asr_wrap64 _, toInt_ofInt_asr_wrap32 _, rfl, rfl, rfl, rfl, rfl, rfl⟩

end Sys2Proof.Machine

/-! # Proofs: RESCALE (41_numeric.md R154) and the tables it fills (45_twiddle.md R244 to R260) -/

namespace Sys2Proof.Machine

/-! ## RESCALE of a dyadic number -/

/-- Both ends of a dyadic number's enclosure are the number, so the first precision decides. -/
theorem rescale_dyadic (p : Prec) (d : Sys2Proof.Machine.Dyadic) :
    rescale p (.dyadic d) = if d.num = 0 then Elem.zero p else rescaleDyadic p d := by
  by_cases hd : d.num = 0
  · simp [rescale, Exact.isZero, hd]
  · have hround : (Exact.encl 192 (.dyadic d)).round? p = some (rescaleDyadic p d) := if_pos rfl
    simp [rescale, Exact.isZero, hd, decideRounding, hround]

/-! ### Binary formats -/

theorem Fmt.ofDyadic_lt (f : Fmt) (d : Sys2Proof.Machine.Dyadic) : f.ofDyadic d < 2 * f.signBit := by
  unfold Fmt.ofDyadic
  split
  · exact Nat.mul_pos two_pos (Nat.two_pow_pos _)
  · exact f.pack_lt _ (f.roundMag_le_infMag _ _)

theorem Fmt.roundsTo_ofDyadic {f : Fmt} (hf : 1 ≤ f.fbits) (he : 1 ≤ f.ebits) (d : Sys2Proof.Machine.Dyadic) :
    f.RoundsTo (signed d.neg d.num * 2 ^ f.unitExp) d.k (f.ofDyadic d) := by
  have hunits : signed d.neg d.num * 2 ^ f.unitExp = signed d.neg (2 ^ f.unitExp * d.num) := by
    rw [← Bool.bne_false d.neg, Nat.mul_comm, ← signed_mul, Bool.bne_false, signed_false]
    push_cast
    rfl
  rw [hunits, Fmt.ofDyadic]
  split
  · next hd =>
    rw [hd, Nat.mul_zero, signed_zero]
    exact Fmt.roundsTo_signed hf he false 0 d.k
  · exact Fmt.roundsTo_signed hf he d.neg _ d.k

theorem toNat_rescale_fp32 (d : Sys2Proof.Machine.Dyadic) :
    (rescale .fp32 (.dyadic d)).toNat = fmt32.ofDyadic d := by
  rw [rescale_dyadic]
  split
  · next hd => rw [Fmt.ofDyadic, if_pos hd]; rfl
  · exact toNat_ofNat_fmt32 (fmt32.ofDyadic_lt d)

theorem toNat_rescale_fp64 (d : Sys2Proof.Machine.Dyadic) :
    (rescale .fp64 (.dyadic d)).toNat = fmt64.ofDyadic d := by
  rw [rescale_dyadic]
  split
  · next hd => rw [Fmt.ofDyadic, if_pos hd]; rfl
  · exact toNat_ofNat_fmt64 (fmt64.ofDyadic_lt d)

/-! ### Q31 -/

/-- `roundShift` is off by at most half a unit, and even when it is off by half a unit. -/
theorem roundGap_roundShift (n d : Nat) : 2 * roundGap n d (roundShift n d) ≤ 2 ^ d ∧
    (2 * roundGap n d (roundShift n d) = 2 ^ d → roundShift n d % 2 = 0) := by
  have hmod := Nat.mod_lt n (Nat.two_pow_pos d)
  have hdiv := Nat.div_add_mod n (2 ^ d)
  have hsucc : 2 ^ d * (n / 2 ^ d + 1) = 2 ^ d * (n / 2 ^ d) + 2 ^ d := Nat.mul_succ _ _
  have hcases := roundShift_cases n d
  unfold roundGap
  generalize roundShift n d = q at *
  have hq : q = n / 2 ^ d ∨ q = n / 2 ^ d + 1 := by omega
  generalize 2 ^ d = D at *
  rcases hq with rfl | rfl
  · generalize D * (n / D) = x at *
    omega
  · rw [hsucc] at *
    generalize D * (n / D) = x at *
    omega

/-- The Q31 integer of a dyadic number, rounded and not yet clamped. -/
def Dyadic.q31Int (d : Sys2Proof.Machine.Dyadic) : Int := signed d.neg (roundShift (2 ^ 31 * d.num) d.k)

theorem Dyadic.natAbs_sub_q31Int (d : Sys2Proof.Machine.Dyadic) :
    (signed d.neg d.num * 2 ^ 31 - d.q31Int * 2 ^ d.k).natAbs =
      roundGap (2 ^ 31 * d.num) d.k (roundShift (2 ^ 31 * d.num) d.k) := by
  unfold Dyadic.q31Int roundGap
  generalize roundShift (2 ^ 31 * d.num) d.k = q
  cases d.neg
  · rw [← Int.natAbs_neg, signed_false, signed_false]
    congr 1
    push_cast
    ring
  · rw [signed_true, signed_true]
    congr 1
    push_cast
    ring

theorem Dyadic.q31Int_emod_two (d : Sys2Proof.Machine.Dyadic) (h : roundShift (2 ^ 31 * d.num) d.k % 2 = 0) :
    d.q31Int % 2 = 0 := by
  unfold Dyadic.q31Int
  cases d.neg <;> simp only [signed_true, signed_false] <;> omega

theorem toInt_q31OfDyadic (d : Sys2Proof.Machine.Dyadic) :
    (q31OfDyadic d).toInt = max (-2147483648) (min d.q31Int 2147483647) := by
  unfold q31OfDyadic Dyadic.q31Int
  simp only [pow2_eq]
  generalize roundShift (2 ^ 31 * d.num) d.k = q
  cases d.neg
  · rw [signed_false, if_neg Bool.false_ne_true, BitVec.toInt_ofNat', Int.bmod_def]
    norm_num
    omega
  · rw [signed_true, if_pos rfl, BitVec.toInt_ofNat', Int.bmod_def]
    norm_num
    omega

theorem toInt_rescale_q31 (d : Sys2Proof.Machine.Dyadic) :
    BitVec.toInt (n := 32) (rescale .q31 (.dyadic d)) = max (-2147483648) (min d.q31Int 2147483647) := by
  rw [rescale_dyadic]
  split
  · next hd =>
    have hq : d.q31Int = 0 := by simp [Dyadic.q31Int, roundShift, hd, pow2_eq, signed_zero]
    rw [hq]
    rfl
  · exact toInt_q31OfDyadic d

/-- Settles O60: a dyadic number's RESCALE is one rounding, by `roundMag` in the binary formats and by `roundShift` in Q31. -/
theorem rescaleRoundsDyadicNumbers : Obligations.RescaleRoundsDyadicNumbers := by
  intro d v
  obtain ⟨hgap, heven⟩ := roundGap_roundShift (2 ^ 31 * d.num) d.k
  rw [← d.natAbs_sub_q31Int] at hgap heven
  refine ⟨fun hv p => ?_, ?_, ?_, d.q31Int, hgap, fun h => d.q31Int_emod_two (heven h), toInt_rescale_q31 d⟩
  · have hd : d.num = 0 := by
      rw [← natAbs_signed d.neg d.num]
      exact Int.natAbs_eq_zero.2 hv
    rw [rescale_dyadic, if_pos hd]
    rfl
  · rw [toNat_rescale_fp32]
    exact Fmt.roundsTo_ofDyadic (by decide) (by decide) d
  · rw [toNat_rescale_fp64]
    exact Fmt.roundsTo_ofDyadic (by decide) (by decide) d

/-! ## RESCALE of a cosine depends on the angle only -/

theorem foldAngle_mul {c : Nat} (hc : 0 < c) (a b : Nat) :
    foldAngle (c * a) (c * b) = ((foldAngle a b).1, c * (foldAngle a b).2) := by
  have hlt : ∀ x y, c * x < c * y ↔ x < y := fun x y => Nat.mul_lt_mul_left hc
  simp only [foldAngle, Nat.mul_left_comm 2 c, Nat.mul_mod_mul_left, hlt, ← Nat.mul_sub, ← mul_ite]
  generalize (if b < a % (2 * b) then 2 * b - a % (2 * b) else a % (2 * b)) = r
  split <;> rfl

theorem cosIsZero_mul {c : Nat} (hc : 0 < c) (a b : Nat) : cosIsZero (c * a) (c * b) = cosIsZero a b := by
  rw [cosIsZero, foldAngle_mul hc, Nat.mul_left_comm, cosIsZero, Bool.eq_iff_iff, beq_iff_eq, beq_iff_eq]
  exact Nat.mul_right_inj hc.ne'

theorem cosEncl_mul {c : Nat} (hc : 0 < c) (w a b : Nat) : cosEncl w (c * a) (c * b) = cosEncl w a b := by
  have hdiv : ∀ x y z, x * (c * y) / (c * z) = x * y / z := fun x y z => by
    rw [Nat.mul_left_comm, Nat.mul_div_mul_left _ _ hc]
  have hle : ∀ x y, c * x ≤ c * y ↔ x ≤ y := fun x y => Nat.mul_le_mul_left_iff hc
  simp only [cosEncl, foldAngle_mul hc, Nat.mul_left_comm 4 c, Nat.mul_left_comm 2 c, hle, ← Nat.mul_sub, hdiv]

/-- RESCALE of a number depends only on whether it is 0 and on its enclosures. -/
theorem rescale_congr {p : Prec} {x y : Exact} (hz : x.isZero = y.isZero) (he : ∀ w, x.encl w = y.encl w) :
    rescale p x = rescale p y := by
  have hdecide : ∀ fuel w, decideRounding p x fuel w = decideRounding p y fuel w := by
    intro fuel
    induction fuel with
    | zero => exact fun _ => rfl
    | succ fuel ih => exact fun w => by simp only [decideRounding, he, ih]
  simp only [rescale, hz, hdecide, he]

theorem rescale_cosPi_mul {c : Nat} (hc : 0 < c) (p : Prec) (a b : Nat) :
    rescale p (.cosPi (c * a) (c * b)) = rescale p (.cosPi a b) :=
  rescale_congr (cosIsZero_mul hc a b) fun w => cosEncl_mul hc w a b

/-! ## Entries of the table store (45_twiddle.md R244) -/

/-- The length of a table from 8 on is eight times a power of two. -/
theorem two_pow_eq_eight_mul {t : Nat} (ht : 3 ≤ t) : 2 ^ t = 2 ^ (t - 3) * 8 := by
  rw [show (8 : Nat) = 2 ^ 3 by norm_num, ← pow_add, Nat.sub_add_cancel ht]

theorem atE_slotTable_pow (p : Prec) {t i : Nat} (hi : i ≤ 2 ^ t / 4) :
    atE (slotTable p (.pow t)) i = rescale p (.cosPi (2 * i) (2 ^ t)) := by
  rw [slotTable_pow, atE_map_range _ (by omega)]

/-- Entry iN/8 of T_N is cos(πi/4). -/
theorem atE_slotTable_eighth (p : Prec) {t : Nat} (ht : 3 ≤ t) {i : Nat} (hi : i ≤ 2) :
    atE (slotTable p (.pow t)) (2 ^ t / 8 * i) = rescale p (.cosPi (2 * i) 8) := by
  have hpos : 0 < 2 ^ (t - 3) := Nat.two_pow_pos _
  have h8 := two_pow_eq_eight_mul ht
  have hle : 2 ^ t / 8 * i ≤ 2 ^ t / 8 * 2 := Nat.mul_le_mul_left _ hi
  rw [atE_slotTable_pow p (by omega), ← rescale_cosPi_mul hpos p (2 * i) 8, ← h8, Nat.mul_left_comm 2,
    show 2 ^ t / 8 = 2 ^ (t - 3) by omega]

theorem rescale_fp32_cosPi_zero : rescale .fp32 (.cosPi 0 8) = 0x3F800000#32 :=
  BitVec.eq_of_toNat_eq (by decide +kernel)

theorem rescale_fp64_cosPi_zero : rescale .fp64 (.cosPi 0 8) = 0x3FF0000000000000#64 :=
  BitVec.eq_of_toNat_eq (by decide +kernel)

theorem rescale_q31_cosPi_zero : rescale .q31 (.cosPi 0 8) = 0x7FFFFFFF#32 :=
  BitVec.eq_of_toNat_eq (by decide +kernel)

theorem rescale_fp32_cosPi_quarter : rescale .fp32 (.cosPi 2 8) = 0x3F3504F3#32 :=
  BitVec.eq_of_toNat_eq (by decide +kernel)

/-- Settles O40: an entry of T_N is a cosine of its angle, which T_8 has at 0, π/4 and π/2. -/
theorem powerOfTwoTablesHaveTheirFixedEntries : Obligations.PowerOfTwoTablesHaveTheirFixedEntries := by
  intro t ht _
  have h8 := two_pow_eq_eight_mul ht
  have hfirst := fun p => atE_slotTable_eighth p ht (i := 0) (by decide)
  have hmid := fun p => atE_slotTable_eighth p ht (i := 1) (by decide)
  have hlast := fun p => atE_slotTable_eighth p ht (i := 2) le_rfl
  simp only [Nat.mul_zero, Nat.mul_one] at hfirst hmid
  rw [show 2 ^ t / 8 * 2 = 2 ^ t / 4 by omega] at hlast
  refine ⟨fun p => ⟨?_, hlast p, fun i hi => atE_slotTable_pow p hi, fun i hi => ?_, rfl, rfl, fun i hi => ?_, fun i hi => ?_,
    (hmid p).trans (atE_slotTable_pow p (t := 3) (i := 1) (by decide)).symm⟩, ?_⟩
  · rw [slotTable_pow, List.length_map, List.length_range]
  · interval_cases i <;> exact ⟨rfl, rfl⟩
  · interval_cases i <;> exact ⟨rfl, rfl⟩
  · interval_cases i <;> exact ⟨rfl, rfl⟩
  · exact ⟨(hfirst _).trans rescale_fp32_cosPi_zero, (hfirst _).trans rescale_fp64_cosPi_zero,
      (hfirst _).trans rescale_q31_cosPi_zero, (hmid _).trans rescale_fp32_cosPi_quarter⟩

/-! ## RESCALE gives no NaN (20_memory.md R78) -/

theorem Fmt.canon_pack (f : Fmt) (neg : Bool) {mag : Nat} (h : mag ≤ f.infMag) :
    f.canon (f.pack neg mag) = f.pack neg mag := by
  unfold Fmt.canon
  rw [f.decode_pack neg h]
  split
  · next hnan => split at hnan <;> cases hnan
  · rfl

theorem Fmt.canon_ofDyadic (f : Fmt) (d : Sys2Proof.Machine.Dyadic) : f.canon (f.ofDyadic d) = f.ofDyadic d := by
  unfold Fmt.ofDyadic
  split
  · exact f.canon_pack false (Nat.zero_le _)
  · exact f.canon_pack d.neg (f.roundMag_le_infMag _ _)

theorem canon_rescaleDyadic (p : Prec) (d : Sys2Proof.Machine.Dyadic) :
    Elem.canon p (rescaleDyadic p d) = rescaleDyadic p d := by
  cases p
  case fp32 =>
    show BitVec.ofNat 32 (fmt32.canon (BitVec.ofNat 32 (fmt32.ofDyadic d)).toNat) = BitVec.ofNat 32 (fmt32.ofDyadic d)
    rw [toNat_ofNat_fmt32 (fmt32.ofDyadic_lt d), fmt32.canon_ofDyadic]
  case fp64 =>
    show BitVec.ofNat 64 (fmt64.canon (BitVec.ofNat 64 (fmt64.ofDyadic d)).toNat) = BitVec.ofNat 64 (fmt64.ofDyadic d)
    rw [toNat_ofNat_fmt64 (fmt64.ofDyadic_lt d), fmt64.canon_ofDyadic]
  case q31 => rfl

/-- What a decided rounding gives is a rounded dyadic number. -/
theorem exists_rescaleDyadic_of_decideRounding {p : Prec} {x : Exact} {fuel w : Nat} {v : Elem p}
    (h : decideRounding p x fuel w = some v) : ∃ d, v = rescaleDyadic p d := by
  induction fuel generalizing w with
  | zero => cases h
  | succ fuel ih =>
    rw [decideRounding] at h
    split at h
    · next u hround =>
      cases h
      unfold Encl.round? at hround
      simp only at hround
      split at hround
      · exact ⟨_, (Option.some.inj hround).symm⟩
      · cases hround
    · exact ih h

/-- RESCALE is +0 or a rounded dyadic number. -/
theorem rescale_cases (p : Prec) (x : Exact) : rescale p x = Elem.zero p ∨ ∃ d, rescale p x = rescaleDyadic p d := by
  unfold rescale
  split
  · exact .inl rfl
  · split
    · next hv => exact .inr (exists_rescaleDyadic_of_decideRounding hv)
    · exact .inr ⟨_, rfl⟩

theorem canon_zero (p : Prec) : Elem.canon p (Elem.zero p) = Elem.zero p := by
  cases p <;> rfl

/-- An element that RESCALE gives is stored as it is. -/
theorem canon_rescale (p : Prec) (x : Exact) : Elem.canon p (rescale p x) = rescale p x := by
  rcases rescale_cases p x with h | ⟨d, h⟩
  · rw [h, canon_zero]
  · rw [h, canon_rescaleDyadic]

/-! ## The generators of tables in DMEM (45_twiddle.md R248 to R260) -/

/-- Instruction `i` writes `count` elements, RESCALE of the exact reals of `table`, from base `d` on. -/
def WritesTable (i : Instr) (s : State) (d count : Nat) (table : List Exact) : Prop :=
  CompletesWith i s [] (addrsFrom d count s.prec.es) s.prec.es fun m =>
    ∀ j, j < count → m.readEl s.prec (d + j * s.prec.es) = atE (table.map (rescale s.prec)) j

/-- A generator whose table has as many entries as its destination writes them all. -/
theorem WritesTable.of_generatorBody {i : Instr} {s : State} {d n len count : Nat} {supported : Bool}
    {table : Sys2Proof.Machine.Dyadic → List Exact} {scale : Sys2Proof.Machine.Dyadic}
    (h : exec i s = finish s (generatorBody s d n len count supported table)) (hn : n ≠ 0) (hsup : supported = true)
    (hlen : len ≤ s.params.maxN) (hd : LinReady s s.prec.es (realLin s.prec d count)) (hscale : s.scale? = some scale)
    (hcount : (table scale).length = count) : WritesTable i s d count (table scale) := by
  have hok := (generatorBody_eq_ok_iff s d n len count supported table _).2 ⟨hn, hsup, hlen, hd, scale, hscale, rfl⟩
  rw [hok] at h
  refine .of_ok h (fun hwf => SameOutside.of_writeEls hwf fun w hw => (List.of_mem_zip hw).1) fun hwf j hj => ?_
  have hj' : j < ((table scale).map (rescale s.prec)).length := by simpa [hcount] using hj
  refine (Memory.readEl_writeEls_addrsFrom hwf s.prec le_rfl _ hj hj').trans ?_
  rw [List.getElem_map, canon_rescale, atE, List.getD_eq_getElem?_getD, List.getElem?_eq_getElem hj', List.getElem_map]
  rfl

theorem mdctLength_eq_true_iff (n : Nat) : mdctLength n = true ↔ 4 ≤ n ∧ n % 4 = 0 ∧ inS (n / 2) = true := by
  simp [mdctLength, and_assoc]

theorem evenLength_eq_true_iff (n : Nat) : evenLength n = true ↔ 2 ≤ n ∧ n % 2 = 0 ∧ inS (n / 2) = true := by
  simp [evenLength, and_assoc]

theorem length_mdctTable {n : Nat} (h : n % 2 = 0) (inv : Bool) (scale : Sys2Proof.Machine.Dyadic) :
    (mdctTable n inv scale).length = n := by
  simp only [mdctTable, length_interleave]
  omega

theorem length_rdftTable {n : Nat} (h : n % 2 = 0) (scale : Sys2Proof.Machine.Dyadic) :
    (rdftTable n scale).length = n + 2 := by
  simp only [rdftTable, List.length_append, List.length_cons, List.length_nil, List.length_map, List.length_range]
  omega

theorem length_dctTable {n : Nat} (h : n % 2 = 0) (scale : Sys2Proof.Machine.Dyadic) :
    (dctTable n scale).length = 4 * n + 5 := by
  simp only [dctTable, List.length_append, List.length_cons, List.length_nil, List.length_map, List.length_range,
    length_rdftTable h]
  omega

/-- Settles O41: each generator is the generator body on the table of its rule. -/
theorem generatorsWriteTheirTables : Obligations.GeneratorsWriteTheirTables := by
  intro s rd rs3 scale hscale d n p writes negative exponents half turns
  refine ⟨fun hn h4 hS hmax hd => ?_, fun hn h2 hS hmax hd => ?_, fun hn h2 hS hmax hd => ?_⟩
  · have hsup := (mdctLength_eq_true_iff n).2 ⟨hn, h4, hS⟩
    have hlen := fun inv => length_mdctTable (n := n) (by omega) inv scale
    exact ⟨WritesTable.of_generatorBody rfl (by omega) hsup hmax hd hscale (hlen false),
      WritesTable.of_generatorBody rfl (by omega) hsup hmax hd hscale (hlen true)⟩
  · have hsup := (evenLength_eq_true_iff n).2 ⟨hn, h2, hS⟩
    have htable : rdftTable n scale = [half 1, half 0] ++ turns := List.append_assoc _ _ _
    rw [← htable]
    exact WritesTable.of_generatorBody rfl (by omega) hsup hmax hd hscale (length_rdftTable h2 scale)
  · have hsup := (evenLength_eq_true_iff n).2 ⟨hn, h2, hS⟩
    have hunit : rdftTable n ⟨false, 1, 0⟩ = [.dyadic ⟨false, 1, 1⟩, .dyadic ⟨false, 1, 0⟩] ++ turns :=
      List.append_assoc _ _ _
    rw [← hunit]
    exact WritesTable.of_generatorBody rfl (by omega) hsup hmax hd hscale (length_dctTable h2 scale)

end Sys2Proof.Machine

/-! # Proofs: SCALEV and COPYV (41_numeric.md R160, R161) -/

namespace Sys2Proof.Machine

/-! ## Moves of whole samples, byte by byte (20_memory.md R75, R78) -/

/-- The bytes of a little-endian number are the bytes it was read from. -/
theorem Memory.ofNat_readLE_div (m : Memory) (a : Nat) {n i : Nat} (hi : i < n) :
    BitVec.ofNat 8 (m.readLE a n / 256 ^ i) = Store.read m (a + i) := by
  induction n generalizing a i with
  | zero => omega
  | succ n ih =>
    have hlt : (Store.read m a).toNat < 256 := (Store.read m a).isLt
    cases i with
    | zero =>
      refine BitVec.eq_of_toNat_eq ?_
      simp [Memory.readLE, Nat.mod_eq_of_lt hlt]
    | succ i =>
      have hdiv : m.readLE a (n + 1) / 256 = m.readLE (a + 1) n := by
        simp only [Memory.readLE]
        omega
      rw [Nat.pow_succ', ← Nat.div_div_eq_div_mul, hdiv, ih (a + 1) (by omega), Nat.add_right_comm, Nat.add_assoc]

/-- Where two memories read the same little-endian number they hold the same bytes. -/
theorem Memory.read_eq_of_readLE_eq {m m' : Memory} {a b n i : Nat} (h : m'.readLE a n = m.readLE b n) (hi : i < n) :
    Store.read m' (a + i) = Store.read m (b + i) := by
  rw [← m'.ofNat_readLE_div a hi, h, m.ofNat_readLE_div b hi]

/-- Contiguous byte moves copy the source as it was before the first of them, whatever the overlap. -/
theorem Memory.read_writeRaws_readRaws {m : Memory} (h : Memory.wf m = true) (d a c : Nat) {size k : Nat}
    (hk : k < c * size) :
    Store.read (m.writeRaws size ((addrsFrom d c size).zip (m.readRaws size (addrsFrom a c size)))) (d + k) =
      Store.read m (a + k) := by
  have hpos : 0 < size := Nat.pos_of_mul_pos_left (by omega : 0 < c * size)
  have hj : k / size < c := (Nat.div_lt_iff_lt_mul hpos).2 hk
  have hlen : k / size < (m.readRaws size (addrsFrom a c size)).length := by simpa [Memory.readRaws, addrsFrom] using hj
  have hmove := Memory.readLE_writeRaws_addrsFrom h (base := d) (le_refl size) _ hj hlen
  have hsrc : (m.readRaws size (addrsFrom a c size))[k / size] = m.readLE (a + k / size * size) size := by
    simp [Memory.readRaws, addrsFrom]
  rw [hsrc, Nat.mod_eq_of_lt (m.readLE_lt _ _)] at hmove
  have hbyte := Memory.read_eq_of_readLE_eq hmove (Nat.mod_lt k hpos)
  rwa [Nat.add_assoc, Nat.add_assoc, Nat.div_add_mod'] at hbyte

/-- Settles O23: every sample is read before the first is written. -/
theorem copyvMovesTheBytes : Obligations.CopyvMovesTheBytes := by
  intro s rd rs1 rs3 c p hc hd ha
  have hok := (copyvBody_eq_ok_iff (s.regNat rd) (s.regNat rs1) c s _).2 ⟨hc, by simp [p, hd, ha], rfl⟩
  exact .of_ok (congrArg (finish s) hok) (fun hwf => SameOutside.of_writeRaws hwf fun w hw => (List.of_mem_zip hw).1)
    fun hwf k hk => Memory.read_writeRaws_readRaws hwf _ _ c hk

/-! ## SCALEV -/

/-- The encoding of SCALE, with the factor 2^32 on the right (10_state.md R36). -/
theorem State.scaleBits_eq (s : State) : s.scaleBits = s.scaleHi.toNat * 2 ^ 32 + s.scaleLo.toNat := by
  rw [State.scaleBits, pow2_eq, Nat.mul_comm]

/-- A finite SCALE is its decoded number of units of 2^(−1074). -/
theorem decode_scaleBits_of_scale? {s : State} {d : Sys2Proof.Machine.Dyadic} (h : s.scale? = some d) :
    fmt64.decode s.scaleBits = .fin d.neg d.num ∧ d.k = 1074 := by
  unfold State.scale? at h
  split at h
  · next neg units hdec =>
    cases h
    exact ⟨hdec, rfl⟩
  · cases h

theorem exists_scale?_of_finite {s : State} (h : ScaleFinite s) : ∃ d, s.scale? = some d :=
  Option.ne_none_iff_exists'.1 fun hnone => (scale?_eq_none_iff s).1 hnone h

/-- Settles O22: every element is read before the first is written. -/
theorem scalevMultipliesByScale : Obligations.ScalevMultipliesByScale := by
  intro s rd rs1 rs3 c p hc hfin hd ha
  obtain ⟨d, hscale⟩ := exists_scale?_of_finite hfin
  obtain ⟨hdec, hk⟩ := decode_scaleBits_of_scale? hscale
  rw [State.scaleBits_eq] at hdec
  refine ⟨d, by rw [hdec]; rfl, hk, ?_⟩
  intro sc
  have hsc : ∀ p, s.scaleMultiplier d p = sc p
    | .fp32 => rfl
    | .fp64 => congrArg (BitVec.ofNat 64) s.scaleBits_eq
    | .q31 => rfl
  have hok := (scalevBody_eq_ok_iff (s.regNat rd) (s.regNat rs1) c s _).2 ⟨hc, by simp [p, hd, ha], d, hscale, rfl⟩
  refine .of_ok (congrArg (finish s) hok) (fun hwf => SameOutside.of_writeEls hwf fun w hw => (List.of_mem_zip hw).1)
    fun hwf j hj => ?_
  have hlen : j < ((s.dmem.readEls p (realLin p (s.regNat rs1) c).addrs).map
      (Elem.mul p (s.scaleMultiplier d p))).length := by
    simpa [Memory.readEls, Lin.addrs, realLin, addrsFrom] using hj
  refine (Memory.readEl_writeEls_addrsFrom hwf p le_rfl _ hj hlen).trans ?_
  simp only [List.getElem_map, Memory.readEls, Lin.addrs, realLin, addrsFrom, List.getElem_range, hsc]

end Sys2Proof.Machine

/-! # Proofs: the length set (42_fft_sr.md R185), and FFTL against the instruction of its length (R181) -/

namespace Sys2Proof.Machine

/-! ## The length set by its canonical splits (42_fft_sr.md R185, R186) -/

/-- The odd parts of the lengths of S (42_fft_sr.md R185). -/
def oddParts : List Nat := [1, 3, 5, 7, 9, 15, 21, 35, 45, 63, 105, 315]

/-- The second part of a canonical split is a length of S. -/
theorem inS_of_canon {n f m : Nat} (hn : n ≤ 2 ^ 21) (h : canon n = some (f, m)) : inS m = true := by
  rw [canon_eq_head? hn, Option.map_eq_some_iff] at h
  obtain ⟨g, hg, he⟩ := h
  have hmem := (List.mem_filter.1 (List.mem_of_mem_head? hg)).2
  simp only [Bool.and_eq_true] at hmem
  cases he
  exact hmem.2

/-- The second part of the canonical split of a length that is no codelet length is at least 2. -/
theorem two_le_of_canon {n n1 n2 : Nat} (hs : inS n = true) (hc : isCodelet n = false) (h : canon n = some (n1, n2)) :
    2 ≤ n2 := by
  have hpos := (inS_bounds (inS_of_canon (inS_bounds hs).2 h)).1
  have hne : n2 ≠ 1 := by
    rintro rfl
    have hmem := mem_of_canon h
    rw [← Nat.mul_one n1, canon_mul h] at hmem
    have hodd : ∀ k ∈ [3, 5, 7, 9], isCodelet k = true := by decide
    exact absurd hc (by simp [hodd n hmem])
  omega

/-- A length of S times a factor of R186 prime to it is a length of S, up to 2^21. -/
theorem inS_mul {f n : Nat} (hf : f ∈ [7, 5, 3, 9]) (hg : Nat.gcd f n = 1) (hn : inS n = true) (hcap : f * n ≤ 2 ^ 21) :
    inS (f * n) = true := by
  have hpos : 0 < f := Nat.pos_of_ne_zero fun h => absurd hf (by simp [h])
  have hmem : f ∈ [7, 5, 3, 9].filter fun g =>
      decide (g ∣ f * n) && decide (Nat.gcd g (f * n / g) = 1) && inS (f * n / g) :=
    List.mem_filter.2 ⟨hf, by simp [Nat.mul_div_cancel_left n hpos, hg, hn]⟩
  have hsome : (canon (f * n)).isSome = true := by
    rw [canon_eq_head? hcap, Option.isSome_map, List.isSome_head?]
    simpa using List.ne_nil_of_mem hmem
  have hone : 1 ≤ f * n := Nat.mul_pos hpos (inS_bounds hn).1
  have hcap' : f * n ≤ lengthCap := hcap
  simp [inS, hone, hcap', hsome]

theorem inS_two_pow {lg : Nat} (h : 2 ^ lg ≤ 2 ^ 21) : inS (2 ^ lg) = true := by
  have hone : 1 ≤ 2 ^ lg := Nat.one_le_two_pow
  have hcap : 2 ^ lg ≤ lengthCap := h
  simp [inS, isPow2_two_pow, hone, hcap]

/-- The odd parts are closed under a factor of R186 prime to the part. -/
theorem mul_mem_oddParts : ∀ f ∈ [7, 5, 3, 9], ∀ m ∈ oddParts, Nat.gcd f m = 1 → f * m ∈ oddParts := by decide

/-- Every odd part but 1 is such a factor times a lesser odd part. -/
theorem exists_factor_of_mem_oddParts : ∀ m ∈ oddParts,
    m = 1 ∨ ∃ f ∈ [7, 5, 3, 9], ∃ k ∈ oddParts, m = f * k ∧ k < m ∧ Nat.gcd f k = 1 := by decide

theorem coprime_two_of_factor : ∀ f ∈ [7, 5, 3, 9], Nat.Coprime f 2 := by decide

/-- A length of S is a power of two times an odd part: a canonical split adds its first part to the odd part of the
second. -/
theorem exists_oddPart_of_inS {n : Nat} (h : inS n = true) : ∃ a m, m ∈ oddParts ∧ n = 2 ^ a * m := by
  induction n using Nat.strong_induction_on with
  | _ n ih =>
    rcases length_cases n with ⟨lg, rfl⟩ | hodd | rfl | ⟨hp, hc⟩
    · exact ⟨lg, 1, by decide, (Nat.mul_one _).symm⟩
    · have hmem : ∀ k ∈ [3, 5, 7, 9], k ∈ oddParts := by decide
      exact ⟨0, n, hmem n hodd, by simp⟩
    · exact ⟨0, 15, by decide, by simp⟩
    · obtain ⟨f, k, hs⟩ := exists_canon_of_inS h hp hc
      obtain ⟨hf, -, -, hg⟩ := canonFuel_eq_some hs
      obtain rfl := canon_mul hs
      have hk := inS_of_canon (inS_bounds h).2 hs
      have h1f : 1 < f := by
        simp only [List.mem_cons, List.not_mem_nil, or_false] at hf
        omega
      obtain ⟨a, m, hm, rfl⟩ := ih k (lt_mul_of_one_lt_left (inS_bounds hk).1 h1f) hk
      exact ⟨a, f * m, mul_mem_oddParts f hf m hm (Nat.Coprime.coprime_mul_left_right hg), by ring⟩

/-- Up to 2^21 a power of two times an odd part is a length of S. -/
theorem inS_of_oddPart (a : Nat) {m : Nat} (hm : m ∈ oddParts) (hcap : 2 ^ a * m ≤ 2 ^ 21) : inS (2 ^ a * m) = true := by
  induction m using Nat.strong_induction_on with
  | _ m ih =>
    rcases exists_factor_of_mem_oddParts m hm with rfl | ⟨f, hf, k, hk, rfl, hlt, hg⟩
    · rw [Nat.mul_one] at hcap ⊢
      exact inS_two_pow hcap
    · have hn := ih k hlt hk ((Nat.mul_le_mul_left _ hlt.le).trans hcap)
      have hcop : Nat.gcd f (2 ^ a * k) = 1 :=
        Nat.Coprime.mul_right (Nat.Coprime.pow_right a (coprime_two_of_factor f hf)) hg
      rw [Nat.mul_left_comm] at hcap ⊢
      exact inS_mul hf hcop hn hcap

/-- Settles O32: by the canonical splits in one direction, by the factors of the odd part in the other. -/
theorem lengthSetIsTheListedProducts : Obligations.LengthSetIsTheListedProducts := by
  intro l
  constructor
  · exact fun h => ⟨(inS_bounds h).2, exists_oddPart_of_inS h⟩
  · rintro ⟨hcap, a, m, hm, rfl⟩
    exact inS_of_oddPart a hm hcap

/-! ## The checks of supported lengths (42_fft_sr.md R180, R181, 43_fft_prime.md R207)

Where its length is supported an instruction is left with the check against MAXN. -/

theorem checkLength_eq_require {s : State} {n : Nat} (hs : inS n = true) :
    checkLength s n n (inS n) = require (decide (n ≤ s.params.maxN)) ⟨.resource, n⟩ := by
  rw [hs, checkLength, check_then_of_ok (requireNonzero_of_ne (Nat.pos_iff_ne_zero.1 (inS_bounds hs).1))]
  rfl

theorem checkLg_eq_require {s : State} {lg : Nat} (h : lg ≤ 21) :
    checkLg s lg = require (decide (2 ^ lg ≤ s.params.maxN)) ⟨.resource, 2 ^ lg⟩ := by
  have hmax : 2 ^ lg ≤ s.params.maxN ↔ lg ≤ s.params.maxLog2 := Nat.pow_le_pow_iff_right (by norm_num)
  rw [checkLg, check_then_of_ok ((require_eq_ok_iff _ _).2 (decide_eq_true h)), pow2_eq]
  simp only [hmax]

theorem checkPfa_eq_require {s : State} {n1 n2 : Nat} (h2 : 2 ≤ n2) (hg : Nat.gcd n1 n2 = 1) (hs : inS n2 = true)
    (hcap : n1 * n2 ≤ 2 ^ 21) :
    checkPfa s n1 n2 = require (decide (n1 * n2 ≤ s.params.maxN)) ⟨.resource, n1 * n2⟩ := by
  have hcap' : n1 * n2 ≤ lengthCap := hcap
  rw [checkPfa, check_then_of_ok (requireNonzero_of_ne (by omega)),
    check_then_of_ok ((require_eq_ok_iff _ _).2 (by simpa using hg)),
    check_then_of_ok ((require_eq_ok_iff _ _).2 (by simp [h2, hs, hcap']))]

/-- MAXN is at least 16 (00_scope.md R6). -/
theorem sixteen_le_maxN {c : Params} (h : c.legal = true) : 16 ≤ c.maxN := by
  simp only [Params.legal, Bool.and_eq_true, decide_eq_true_eq] at h
  exact Nat.pow_le_pow_right (show 0 < 2 by norm_num) h.1.1.1

/-! ## FFTL as another batched body (42_fft_sr.md R181, 43_fft_prime.md R207) -/

section Bodies

variable {s : State} (inv : Bool) (d a : Nat)

theorem fftlBody_two_pow {lg : Nat} (h : lg ≤ 21) : fftlBody inv d a (2 ^ lg) s = fftBody inv d a lg s := by
  have hs := inS_two_pow (Nat.pow_le_pow_right (by norm_num : 0 < 2) h)
  have hk : fftDirected s.prec inv (2 ^ lg) = directed inv (2 ^ lg) (fftPow2 s.prec lg) := by
    rw [← fftCanon_two_pow]
    rfl
  rw [fftlBody, fftBody, checkLength_eq_require hs, checkLg_eq_require h, slotsFft_two_pow, hk, pow2_eq]

theorem fftlBody_codelet (hl : s.params.legal = true) {n : Nat} (hn : n ∈ [3, 5, 7, 9, 15]) :
    fftlBody inv d a n s = codeletBody n inv d a s := by
  have hsup : ∀ k ∈ [3, 5, 7, 9, 15], inS k = true ∧ k ≤ 16 := by decide +kernel
  obtain ⟨hs, h16⟩ := hsup n hn
  rw [fftlBody, checkLength_of_inS hs (h16.trans (sixteen_le_maxN hl)), codeletBody]

theorem fftlBody_of_canon {n n1 n2 : Nat} (hs : inS n = true) (hp : isPow2 n = false) (hc : isCodelet n = false)
    (h : canon n = some (n1, n2)) : fftlBody inv d a n s = pfaBody n1 inv d a n2 s := by
  have hmul := canon_mul h
  have hcap := (inS_bounds hs).2
  have hpfa := checkPfa_eq_require (s := s) (two_le_of_canon hs hc h) (canonFuel_eq_some h).2.2.2
    (inS_of_canon hcap h) (hmul.trans_le hcap)
  have hk : fftDirected s.prec inv n = directed inv n (pfa s.prec n1 n2) := by
    unfold fftDirected pfa
    rw [fftCanon_of_canon s.prec hp hc h]
  rw [fftlBody, pfaBody, hpfa, hmul, checkLength_eq_require hs, slotsFft_of_canon hp hc h, hk]

/-- A slot listed twice is generated once (45_twiddle.md R242). -/
theorem State.ensureSlots_pair_self (s : State) {x : Slot} (hx : x.bit < 32) : s.ensureSlots [x, x] = s.ensureSlots [x] := by
  have hvalid : ((s.ensureBit x.bit).tvalid (s.ensureBit x.bit).prec).getLsbD x.bit = true := by
    simp [State.tvalid_ensureBit s hx]
  exact State.ensureBit_of_valid hvalid

/-- Bodies that differ only in how they list the same slots. -/
theorem batchedBody_congr_slots {n src dst : Nat} {args : Except Trap Unit} {slots slots' : List Slot}
    {kernel : List (Cplx s.prec) → List (Cplx s.prec)} (h : s.ensureSlots slots = s.ensureSlots slots') :
    batchedBody s n src dst args slots kernel = batchedBody s n src dst args slots' kernel := by
  rw [batchedBody, batchedBody, h]

/-- PFA with 3 and 5 reads the table of both twice, FFT15 once. -/
theorem pfaBody_three_five (hl : s.params.legal = true) : pfaBody 3 inv d a 5 s = codeletBody 15 inv d a s := by
  have hargs : checkPfa s 3 5 = .ok () :=
    checkPfa_of_supported (by norm_num) (by norm_num) (by decide +kernel) (by norm_num)
      (le_trans (by norm_num) (sixteen_le_maxN hl))
  have hk : fftDirected s.prec inv 15 = directed inv (3 * 5) (pfa s.prec 3 5) := by
    unfold fftDirected pfa
    rw [fftCanon_fifteen]
  rw [pfaBody, hargs, codeletBody, hk]
  exact batchedBody_congr_slots (s.ensureSlots_pair_self (x := .t53) (by decide))

end Bodies

/-- FFTL and FFTL.i are one body, forward and inverse. -/
theorem exec_fftl_of_body {s : State} {rd rs1 rs3 : Reg} {body : Bool → Except Trap State}
    (h : ∀ inv, fftlBody inv (s.regNat rd) (s.regNat rs1) (s.regNat rs3) s = body inv) :
    exec (.fftl rd rs1 rs3) s = finish s (body false) ∧ exec (.fftlI rd rs1 rs3) s = finish s (body true) :=
  ⟨congrArg (finish s) (h false), congrArg (finish s) (h true)⟩

/-- Settles O31: both instructions of each pair are `finish` of one of the bodies above. -/
theorem fftlIsTheMatchingTransform : Obligations.FftlIsTheMatchingTransform := by
  intro s rd rs1 rs2 rs3 lg hl l
  have hodd : ∀ {n : Nat}, n ∈ [3, 5, 7, 9, 15] → l = n →
      exec (.fftl rd rs1 rs3) s = finish s (codeletBody n false (s.regNat rd) (s.regNat rs1) s) ∧
        exec (.fftlI rd rs1 rs3) s = finish s (codeletBody n true (s.regNat rd) (s.regNat rs1) s) := by
    rintro n hn rfl
    exact exec_fftl_of_body (body := fun inv => codeletBody l inv _ _ s) fun inv => fftlBody_codelet inv _ _ hl hn
  refine ⟨fun hlg h21 => ?_, hodd (by simp), hodd (by simp), hodd (by simp), hodd (by simp), hodd (by simp),
    fun hs hp hc => ?_, fun h5 => ?_⟩
  · exact exec_fftl_of_body (body := fun inv => fftBody inv _ _ lg.toNat s) fun inv =>
      (congrArg (fftlBody inv _ _ · s) hlg).trans (fftlBody_two_pow inv _ _ h21)
  · have hsplit : ∀ n1, canon l = some (n1, s.regNat rs2) →
        exec (.fftl rd rs1 rs3) s = finish s (pfaBody n1 false (s.regNat rd) (s.regNat rs1) (s.regNat rs2) s) ∧
          exec (.fftlI rd rs1 rs3) s = finish s (pfaBody n1 true (s.regNat rd) (s.regNat rs1) (s.regNat rs2) s) :=
      fun n1 h => exec_fftl_of_body (body := fun inv => pfaBody n1 inv _ _ _ s) fun inv =>
        fftlBody_of_canon inv _ _ hs hp hc h
    simp only [List.forall_mem_cons, List.not_mem_nil, false_imp_iff, implies_true, and_true]
    exact ⟨hsplit 3, hsplit 5, hsplit 7, hsplit 9⟩
  · have hbody : ∀ inv, finish s (pfaBody 3 inv (s.regNat rd) (s.regNat rs1) (s.regNat rs2) s) =
        finish s (codeletBody 15 inv (s.regNat rd) (s.regNat rs1) s) := fun inv => by
      rw [h5, pfaBody_three_five inv _ _ hl]
    exact ⟨hbody false, hbody true⟩

end Sys2Proof.Machine

/-! # Proofs: the maps of the power-of-two lengths (44_permute.md R220, R221) -/

namespace Sys2Proof.Machine

/-! ## Map generators (44_permute.md R225) -/

/-- A map generator completes and leaves entry i of its map at word i. -/
theorem CompletesWith.of_mapBody {i : Instr} {s : State} {d n : Nat} {args : Except Trap Unit} {map : Unit → List Nat}
    {q : Memory → Prop} (h : exec i s = finish s (mapBody s d n args map)) (ha : args = .ok ())
    (hl : LinReady s 4 (mapLin d n)) (hlen : (map ()).length = n) (hlt : ∀ x ∈ map (), x < 2 ^ 32)
    (hq : ∀ m : Memory, (∀ j, j < n → m.readLE (d + 4 * j) 4 = (map ()).getD j 0) → q m) :
    CompletesWith i s [] (addrsFrom d n 4) 4 q := by
  have hok := (mapBody_eq_ok_iff s d n args map _).2 ⟨ha, hl, rfl⟩
  rw [Memory.writeWords_eq] at hok
  refine .of_ok (h.trans (congrArg (finish s) hok))
    (fun hwf => SameOutside.of_writeRaws hwf fun w hw => (List.of_mem_zip hw).1) fun hwf => hq _ fun j hj => ?_
  have hj' : j < (map ()).length := hlen ▸ hj
  have hread := Memory.readLE_writeRaws_addrsFrom hwf (base := d) (le_refl 4) (map ()) hj hj'
  rw [Nat.mod_eq_of_lt ((hlt _ (List.getElem_mem hj')).trans_eq (by norm_num)), Nat.mul_comm] at hread
  rw [List.getD_eq_getElem _ _ hj']
  exact hread

/-! ## The split-radix order and the bit reversal (42_fft_sr.md R174, 44_permute.md R221) -/

theorem lt_of_mem_srOrder {lg x : Nat} (h : x ∈ srOrder lg) : x < 2 ^ lg := by
  induction lg using srOrder.induct generalizing x with
  | case1 => simpa [srOrder] using h
  | case2 =>
    simp only [srOrder, List.mem_cons, List.not_mem_nil, or_false] at h
    omega
  | case3 m ih1 ih0 =>
    simp only [srOrder, List.mem_append, List.mem_map, pow2_eq] at h
    have hpow1 : 2 ^ (m + 2) = 2 * 2 ^ (m + 1) := Nat.pow_succ'
    have hpow0 : 2 ^ (m + 2) = 4 * 2 ^ m := by ring
    rcases h with (⟨j, hj, rfl⟩ | ⟨j, hj, rfl⟩) | ⟨j, hj, rfl⟩
    · have := ih1 hj
      omega
    · have := ih0 hj
      omega
    · exact Nat.mod_lt _ (by positivity)

theorem bitrev_lt (lg p : Nat) : bitrev lg p < 2 ^ lg := by
  induction lg generalizing p with
  | zero => exact Nat.one_pos
  | succ lg ih =>
    have hrest := ih (p / 2)
    have hbit : 2 ^ lg * (p % 2) ≤ 2 ^ lg * 1 := Nat.mul_le_mul_left _ (by omega)
    rw [bitrev, pow2_eq, Nat.pow_succ]
    omega

/-- Bit b of the reversal of lg bits is bit lg − 1 − b. -/
theorem testBit_bitrev {lg b : Nat} (h : b < lg) (p : Nat) : (bitrev lg p).testBit b = p.testBit (lg - 1 - b) := by
  induction lg generalizing p with
  | zero => omega
  | succ lg ih =>
    rw [bitrev, pow2_eq, Nat.testBit_two_pow_mul_add _ (bitrev_lt lg (p / 2))]
    split
    · next hb => rw [ih hb, ← Nat.testBit_add_one, show lg - 1 - b + 1 = lg + 1 - 1 - b by omega]
    · obtain rfl : b = lg := by omega
      simp [Nat.testBit_zero]

/-! ## PMAPSR, PMAPSR.i and PMAPBR -/

/-- Settles O33: each map has N entries below N, and N is at most 2^21. -/
theorem powerOfTwoMapsAreWritten : Obligations.PowerOfTwoMapsAreWritten := by
  intro s rd lg d n h21 hmax hl
  have hargs := (checkLg_eq_ok_iff s lg.toNat).2 ⟨h21, hmax⟩
  have hpos : 0 < n := Nat.two_pow_pos _
  have hword : n < 2 ^ 32 := Nat.pow_lt_pow_right (by norm_num) (by omega)
  have hsr : (srOrder lg.toNat).length = n := length_srOrder _
  refine ⟨.of_mapBody rfl hargs hl hsr (fun x hx => (lt_of_mem_srOrder hx).trans hword) fun m hm => hm,
    .of_mapBody rfl hargs hl ((List.length_map _).trans hsr) (fun x hx => ?_) fun m hm i hi => ?_,
    .of_mapBody rfl hargs hl (by simp [n, pow2_eq]) (fun x hx => ?_) fun m hm i hi => ?_⟩
  · obtain ⟨j, -, rfl⟩ := List.mem_map.1 hx
    exact (Nat.mod_lt _ hpos).trans hword
  · have hi' : i < (srOrder lg.toNat).length := hsr ▸ hi
    rw [hm i hi]
    simp [srMap, List.getD_eq_getElem?_getD, hi', n, pow2_eq]
  · obtain ⟨j, -, rfl⟩ := List.mem_map.1 hx
    exact (bitrev_lt _ j).trans hword
  · rw [hm i hi, getD_map_range _ _ (show i < pow2 lg.toNat from hi)]
    exact ⟨bitrev_lt _ i, fun b hb => testBit_bitrev hb i⟩

end Sys2Proof.Machine

/-! # Proofs: the permutation maps (44_permute.md R222 to R229) -/

namespace Sys2Proof.Machine

/-! ## Bijections of [0, N) (44_permute.md R229) -/

section Bijections

variable {n : Nat}

/-- N different entries below N are a bijection of [0, N). -/
theorem perm_range_of_nodup {l : List Nat} (hnd : l.Nodup) (hlt : ∀ x ∈ l, x < n) (hlen : n ≤ l.length) :
    l.Perm (List.range n) :=
  (List.subperm_of_subset hnd fun x hx => List.mem_range.2 (hlt x hx)).perm_of_length_le (by simpa using hlen)

/-- So is the table of an injection of [0, N) into itself. -/
theorem perm_map_range {f : Nat → Nat} (hlt : ∀ i < n, f i < n) (hinj : ∀ i < n, ∀ j < n, f i = f j → i = j) :
    ((List.range n).map f).Perm (List.range n) := by
  refine perm_range_of_nodup (List.nodup_range.map_on fun i hi j hj => ?_) (fun x hx => ?_) (by simp)
  · exact hinj i (List.mem_range.1 hi) j (List.mem_range.1 hj)
  · obtain ⟨i, hi, rfl⟩ := List.mem_map.1 hx
    exact hlt i (List.mem_range.1 hi)

/-- N entries that hold every number below N are a bijection of [0, N). -/
theorem perm_range_of_forall_mem {l : List Nat} (hmem : ∀ i < n, i ∈ l) (hlen : l.length ≤ n) : l.Perm (List.range n) :=
  ((List.subperm_of_subset List.nodup_range fun i hi => hmem i (List.mem_range.1 hi)).perm_of_length_le
    (by simpa using hlen)).symm

theorem lt_of_perm_range {l : List Nat} (h : l.Perm (List.range n)) {x : Nat} (hx : x ∈ l) : x < n :=
  List.mem_range.1 (h.mem_iff.1 hx)

theorem length_of_perm_range {l : List Nat} (h : l.Perm (List.range n)) : l.length = n := by
  simpa using h.length_eq

/-- Negation modulo N is its own inverse. -/
theorem neg_neg_mod {i : Nat} (hi : i < n) : (n - (n - i) % n) % n = i := by
  rcases Nat.eq_zero_or_pos i with rfl | hpos
  · simp
  · rw [Nat.mod_eq_of_lt (show n - i < n by omega), Nat.sub_sub_self hi.le, Nat.mod_eq_of_lt hi]

/-- PMAPNEG's map (44_permute.md R224). -/
theorem perm_negMap (n : Nat) : (negMap n).Perm (List.range n) :=
  perm_map_range (fun _ hi => Nat.mod_lt _ (by omega)) fun i hi j hj h => by
    rw [← neg_neg_mod hi, h, neg_neg_mod hj]

/-- Two numbers of lg bits with the same reversal have the same bits. -/
theorem bitrev_inj {lg i j : Nat} (hi : i < 2 ^ lg) (hj : j < 2 ^ lg) (h : bitrev lg i = bitrev lg j) : i = j := by
  refine Nat.eq_of_testBit_eq fun b => ?_
  rcases Nat.lt_or_ge b lg with hb | hb
  · have hi' := testBit_bitrev (show lg - 1 - b < lg by omega) i
    have hj' := testBit_bitrev (show lg - 1 - b < lg by omega) j
    rw [show lg - 1 - (lg - 1 - b) = b by omega] at hi' hj'
    rw [← hi', h, hj']
  · have hpow : 2 ^ lg ≤ 2 ^ b := Nat.pow_le_pow_right (by norm_num) hb
    rw [Nat.testBit_lt_two_pow (hi.trans_le hpow), Nat.testBit_lt_two_pow (hj.trans_le hpow)]

/-- PMAPBR's map (44_permute.md R221). -/
theorem perm_bitrev (lg : Nat) : ((List.range (2 ^ lg)).map (bitrev lg)).Perm (List.range (2 ^ lg)) :=
  perm_map_range (fun i _ => bitrev_lt lg i) fun _ hi _ hj => bitrev_inj hi hj

end Bijections

/-! ## The split-radix order (42_fft_sr.md R174) -/

/-- An entry 4j − 1 modulo 4q of the last quarter. -/
theorem four_mul_pred_mod {q j : Nat} (hj : j < q) :
    (4 * j + 4 * q - 1) % (4 * q) = if j = 0 then 4 * q - 1 else 4 * j - 1 := by
  split
  · next h =>
    rw [h, Nat.mul_zero, Nat.zero_add]
    exact Nat.mod_eq_of_lt (by omega)
  · rw [show 4 * j + 4 * q - 1 = 4 * j - 1 + 4 * q by omega, Nat.add_mod_right, Nat.mod_eq_of_lt (by omega)]

/-- The three parts hold the entries that are 0 or 2, 1, and 3 modulo 4. -/
theorem nodup_srOrder (lg : Nat) : (srOrder lg).Nodup := by
  induction lg using srOrder.induct with
  | case1 => simp [srOrder]
  | case2 => simp [srOrder]
  | case3 m ih1 ih0 =>
    have hpow : pow2 (m + 2) = 4 * 2 ^ m := by rw [pow2_eq]; ring
    have hlast : ∀ j ∈ srOrder m, (4 * j + pow2 (m + 2) - 1) % pow2 (m + 2) =
        if j = 0 then 4 * 2 ^ m - 1 else 4 * j - 1 := fun j hj => by
      rw [hpow, four_mul_pred_mod (lt_of_mem_srOrder hj)]
    have hlt : ∀ j ∈ srOrder m, j < 2 ^ m := fun j hj => lt_of_mem_srOrder hj
    rw [srOrder, List.map_congr_left hlast]
    refine ((ih1.map_on ?_).append (ih0.map_on ?_) ?_).append (ih0.map_on ?_) ?_
    · intro i _ j _ h
      omega
    · intro i _ j _ h
      omega
    · intro x hx hx'
      obtain ⟨i, hi, rfl⟩ := List.mem_map.1 hx
      obtain ⟨j, hj, h⟩ := List.mem_map.1 hx'
      omega
    · intro i hi j hj h
      have := hlt i hi
      have := hlt j hj
      split_ifs at h <;> omega
    · intro x hx hx'
      obtain ⟨j, hj, rfl⟩ := List.mem_map.1 hx'
      have := hlt j hj
      rcases List.mem_append.1 hx with hx | hx
      · obtain ⟨i, -, h⟩ := List.mem_map.1 hx
        split_ifs at h <;> omega
      · obtain ⟨i, -, h⟩ := List.mem_map.1 hx
        split_ifs at h <;> omega

theorem perm_srOrder (lg : Nat) : (srOrder lg).Perm (List.range (2 ^ lg)) :=
  perm_range_of_nodup (nodup_srOrder lg) (fun _ hx => lt_of_mem_srOrder hx) (length_srOrder lg).ge

/-- PMAPSR's map, and its negation (44_permute.md R220). -/
theorem perm_srMap (inv : Bool) (lg : Nat) : (srMap inv lg).Perm (List.range (2 ^ lg)) := by
  cases inv with
  | false => exact perm_srOrder lg
  | true => exact ((perm_srOrder lg).map fun j => (2 ^ lg - j) % 2 ^ lg).trans (perm_negMap (2 ^ lg))

/-! ## The maps of the prime-factor transform (44_permute.md R222, R223) -/

section Factors

variable {n1 n2 : Nat} (hg : Nat.gcd n1 n2 = 1)

include hg

/-- PMAPCRT's map holds i at (i mod N2)·N1 + (i mod N1). -/
theorem getD_crtMap {i : Nat} (hi : i < n1 * n2) : (crtMap n1 n2).getD (crtIndex n1 n2 i) 0 = i := by
  have hpos : ((List.range (n1 * n2)).map (crtIndex n1 n2))[i]? = some (crtIndex n1 n2 i) := by simp [hi]
  rw [crtMap, getD_scatterList (nodup_crtIndices hg) (by simpa using crtIndex_lt hi) hpos (getD_replicate_self _ _ _)]
  simp [List.getD_eq_getElem?_getD, hi]

theorem perm_crtMap : (crtMap n1 n2).Perm (List.range (n1 * n2)) := by
  have hlen : (crtMap n1 n2).length = n1 * n2 := (length_scatterList _ _ _).trans List.length_replicate
  refine perm_range_of_forall_mem (fun i hi => ?_) hlen.le
  have hget := getD_crtMap hg hi
  rw [List.getD_eq_getElem _ _ (by rw [hlen]; exact crtIndex_lt hi)] at hget
  exact List.mem_of_getElem hget

theorem perm_rurMap : (rurMap n1 n2).Perm (List.range (n1 * n2)) := by
  have hk : ∀ p < n1 * n2, p % n1 < n1 ∧ p / n1 < n2 := fun p hp =>
    ⟨Nat.mod_lt _ (Nat.pos_of_mul_pos_right (by omega : 0 < n1 * n2)), Nat.div_lt_of_lt_mul hp⟩
  refine perm_map_range (fun p hp => rurIndex_lt (hk p hp).1 (hk p hp).2) fun p hp q hq h => ?_
  obtain ⟨hmod, hdiv⟩ := rurIndex_inj hg (hk p hp).1 (hk p hp).2 (hk q hq).1 (hk q hq).2 h
  rw [← Nat.div_add_mod p n1, hmod, hdiv, Nat.div_add_mod]

end Factors

theorem add_mul_lt_mul {n1 n2 k1 k2 : Nat} (h1 : k1 < n1) (h2 : k2 < n2) : k1 + n1 * k2 < n1 * n2 := by
  have hle := Nat.mul_le_mul_left n1 (show k2 + 1 ≤ n2 from h2)
  rw [Nat.mul_add] at hle
  omega

/-- Entry k1 + N1·k2 of PMAPRUR's map. -/
theorem getD_rurMap {n1 n2 k1 k2 : Nat} (h1 : k1 < n1) (h2 : k2 < n2) :
    (rurMap n1 n2).getD (k1 + n1 * k2) 0 = rurIndex n1 n2 k1 k2 := by
  rw [rurMap, getD_map_range _ _ (add_mul_lt_mul h1 h2), Nat.add_mul_mod_self_left, Nat.mod_eq_of_lt h1,
    Nat.add_mul_div_left _ _ (by omega), Nat.div_eq_of_lt h1, Nat.zero_add]

/-- Settles O36: each map holds N different numbers below N, PMAPCRT's each number below N. -/
theorem generatedMapsAreBijections : Obligations.GeneratedMapsAreBijections :=
  ⟨perm_srMap, perm_bitrev, fun _ _ _ _ hg => ⟨perm_crtMap hg, perm_rurMap hg⟩, perm_negMap⟩

/-! ## PMAPCRT, PMAPRUR and PMAPNEG (44_permute.md R222 to R224) -/

theorem checkFactors_eq_ok_iff (s : State) (n1 n2 : Nat) : checkFactors s n1 n2 = .ok () ↔
    n1 ≠ 0 ∧ n2 ≠ 0 ∧ Nat.gcd n1 n2 = 1 ∧ n1 * n2 ≤ s.params.maxN := by
  simp [checkFactors, check_then_eq_ok_iff, requireNonzero_eq_ok_iff, require_eq_ok_iff]

theorem checkNeg_eq_ok_iff (s : State) (n : Nat) : checkNeg s n = .ok () ↔ n ≠ 0 ∧ n ≤ s.params.maxN := by
  simp [checkNeg, check_then_eq_ok_iff, requireNonzero_eq_ok_iff, require_eq_ok_iff]

/-- MAXN is a word (00_scope.md R6). -/
theorem maxN_lt {c : Params} (h : c.legal = true) : c.maxN < 2 ^ 32 := by
  simp only [Params.legal, Bool.and_eq_true, decide_eq_true_eq] at h
  exact Nat.pow_lt_pow_right (show 1 < 2 by norm_num) (by omega)

/-- A map generator whose map is a bijection of [0, N), N at most MAXN. -/
theorem CompletesWith.of_bijection {i : Instr} {s : State} {d n : Nat} {args : Except Trap Unit} {map : Unit → List Nat}
    {q : Memory → Prop} (hlegal : s.params.legal = true) (h : exec i s = finish s (mapBody s d n args map))
    (ha : args = .ok ()) (hmax : n ≤ s.params.maxN) (hl : LinReady s 4 (mapLin d n))
    (hp : (map ()).Perm (List.range n))
    (hq : ∀ m : Memory, (∀ j, j < n → m.readLE (d + 4 * j) 4 = (map ()).getD j 0) → q m) :
    CompletesWith i s [] (addrsFrom d n 4) 4 q :=
  .of_mapBody h ha hl (length_of_perm_range hp)
    (fun _ hx => (lt_of_perm_range hp hx).trans (hmax.trans_lt (maxN_lt hlegal))) hq

/-- Settles O34: the maps are bijections, so their entries are words. -/
theorem factorAndNegationMapsAreWritten : Obligations.FactorAndNegationMapsAreWritten := by
  intro s rd rs1 rs2 rs3 hlegal d n1 n2 n
  refine ⟨fun h1 h2 hg hmax hl => ?_, fun hn hmax hl => ?_⟩
  · have hargs := (checkFactors_eq_ok_iff s n1 n2).2 ⟨h1, h2, hg, hmax⟩
    refine ⟨.of_bijection hlegal rfl hargs hmax hl (perm_crtMap hg) fun m hm i hi => ?_,
      .of_bijection hlegal rfl hargs hmax hl (perm_rurMap hg) fun m hm k1 k2 hk1 hk2 => ?_⟩
    · exact (hm _ (crtIndex_lt hi)).trans (getD_crtMap hg hi)
    · exact (hm _ (add_mul_lt_mul hk1 hk2)).trans (getD_rurMap hk1 hk2)
  · refine .of_bijection hlegal rfl ((checkNeg_eq_ok_iff s n).2 ⟨hn, hmax⟩) hmax hl (perm_negMap n) fun m hm i hi => ?_
    rw [hm i hi]
    exact getD_map_range _ _ hi

end Sys2Proof.Machine

/-! # Proofs: applying and inverting a map (44_permute.md R225 to R228) -/

namespace Sys2Proof.Machine

/-! ## Reading the map, and writes through it (20_memory.md R77, R85) -/

theorem State.readMap_eq (s : State) (base n : Nat) :
    s.readMap base n = (List.range n).map fun i => s.dmem.readLE (base + 4 * i) 4 := by
  simp [State.readMap, Memory.readRaws, Lin.addrs, addrsFrom, mapLin, Nat.mul_comm]

/-- The accesses that a map addresses. -/
theorem mapAddrs_readMap (s : State) (base size m c : Nat) : mapAddrs base size (s.readMap m c) =
    (List.range c).map fun i => base + s.dmem.readLE (m + 4 * i) 4 * size := by
  rw [State.readMap_eq, mapAddrs, List.map_map]
  rfl

theorem Memory.readRaws_map_range (m : Memory) (size c : Nat) (f : Nat → Nat) :
    m.readRaws size ((List.range c).map f) = (List.range c).map fun i => m.readLE (f i) size := List.map_map

/-- Two entries of an array are one or do not overlap. -/
theorem entries_apart (base size : Nat) {a b : Nat} (h : b ≠ a) :
    base + a * size + size ≤ base + b * size ∨ base + b * size + size ≤ base + a * size := by
  rcases Nat.lt_or_gt_of_ne h with hlt | hlt
  · have hle := Nat.mul_le_mul_right size (Nat.succ_le_of_lt hlt)
    rw [Nat.succ_mul] at hle
    omega
  · have hle := Nat.mul_le_mul_right size (Nat.succ_le_of_lt hlt)
    rw [Nat.succ_mul] at hle
    omega

/-- Of the values written in turn to the entries that `f` names, the last one for an entry is read back. -/
theorem Memory.readLE_writeRaws_indexed {m : Memory} (h : Memory.wf m = true) (base size : Nat) (f v : Nat → Nat)
    {c i : Nat} (hi : i < c) (hlast : ∀ j, i < j → j < c → f j ≠ f i) :
    (m.writeRaws size (((List.range c).map fun i => base + f i * size).zip ((List.range c).map v))).readLE
      (base + f i * size) size = v i % 256 ^ size := by
  rw [List.zip_map']
  have hread := Memory.readLE_writeRaws_getElem h (n := size)
    (ws := (List.range c).map fun i => (base + f i * size, v i)) (j := i) (by simpa using hi) fun k hk hik => by
      simpa using entries_apart base size (hlast k hik (by simpa using hk))
  simpa using hread

/-- Of the numbers moved in turn from `g` to the entries that `f` names, the bytes of the last one for an entry. -/
theorem Memory.read_writeRaws_moves {m : Memory} (h : Memory.wf m = true) (base size : Nat) (f g : Nat → Nat) {c i k : Nat}
    (hi : i < c) (hk : k < size) (hlast : ∀ j, i < j → j < c → f j ≠ f i) :
    Store.read (m.writeRaws size (((List.range c).map fun i => base + f i * size).zip
      (m.readRaws size ((List.range c).map g)))) (base + f i * size + k) = Store.read m (g i + k) := by
  have hread := Memory.readLE_writeRaws_indexed h base size f (fun i => m.readLE (g i) size) hi hlast
  rw [Nat.mod_eq_of_lt (m.readLE_lt _ _), ← Memory.readRaws_map_range] at hread
  exact Memory.read_eq_of_readLE_eq hread hk

/-- An instruction that writes values of one size to a list of places and nothing else. -/
theorem CompletesWith.of_writeRaws {i : Instr} {s : State} {starts vals : List Nat} {size : Nat} {q : Memory → Prop}
    (h : exec i s = finish s (.ok (s.setDmem (s.dmem.writeRaws size (starts.zip vals)))))
    (hq : Memory.wf s.dmem = true → q (s.dmem.writeRaws size (starts.zip vals))) : CompletesWith i s [] starts size q :=
  .of_ok h (fun hwf => SameOutside.of_writeRaws hwf fun _ hw => (List.of_mem_zip hw).1) hq

/-! ## PGATHER, PSCATTER and PINV (44_permute.md R226 to R228) -/

/-- Settles O35: the map and every sample are read before the first write, and the last write to an entry stays. -/
theorem mapsAreApplied : Obligations.MapsAreApplied := by
  intro s rd rs1 rs2 rs3 c p d a word map last hc
  refine ⟨fun hd ha ⟨hm, hmfit⟩ hfit hin => ?_, fun hd ha ⟨hm, hmfit⟩ hfit hin => ?_, fun hd ⟨hm, hmfit⟩ hin => ?_⟩
  · have hok := (pgatherBody_eq_ok_iff d a (s.regNat rs2) c s _).2
      ⟨hc, hm, hd, ha, hmfit, hfit, by simpa [mapAddrs_readMap] using hin, rfl⟩
    rw [mapAddrs_readMap] at hok
    exact .of_writeRaws (congrArg (finish s) hok) fun hwf i k hi hk =>
      Memory.read_writeRaws_moves hwf d p.cs id _ hi hk fun j hij _ => hij.ne'
  · have hok := (pscatterBody_eq_ok_iff d a (s.regNat rs2) c s _).2
      ⟨hc, hm, hd, ha, hmfit, hfit, by simpa [mapAddrs_readMap] using hin, rfl⟩
    rw [mapAddrs_readMap] at hok
    exact .of_writeRaws (congrArg (finish s) hok) fun hwf i k hi hk hl =>
      Memory.read_writeRaws_moves hwf d p.cs map _ hi hk hl
  · simp only [Nat.mul_comm 4 (word _ _)] at hin ⊢
    have hok := (pinvBody_eq_ok_iff d a c s _).2
      ⟨hc, hm, hd, hmfit, by simpa [mapAddrs_readMap] using hin, rfl⟩
    rw [mapAddrs_readMap, Memory.writeWords_eq] at hok
    refine .of_writeRaws (congrArg (finish s) hok) fun hwf i hi hl => ?_
    have hread := Memory.readLE_writeRaws_indexed hwf d 4 (word a) id hi hl
    have hword : i < 256 ^ 4 := (hi.trans (s.reg rs3).isLt).trans_eq (by norm_num)
    rwa [List.map_id, id, Nat.mod_eq_of_lt hword] at hread

end Sys2Proof.Machine

/-! # Proofs: the faults of the map instructions (44_permute.md R220 to R228, 60_exceptions.md R353) -/

namespace Sys2Proof.Machine

/-! ## Map generators (44_permute.md R225) -/

section Generators

variable {i : Instr} {s : State} {d n : Nat} {args : Except Trap Unit} {map : Unit → List Nat}

/-- A generator's own checks come first. -/
theorem Faults.of_mapBody {c : Cause} {info : Nat} (h : exec i s = finish s (mapBody s d n args map))
    (ha : args = .error ⟨c, info⟩) : Faults i s c info :=
  .of_error h (by unfold mapBody; exact check_then_of_error ha _)

/-- When they pass it checks where the map goes. -/
theorem OperandFaults.of_mapBody (h : exec i s = finish s (mapBody s d n args map)) (ha : args = .ok ()) :
    OperandFaults i s 4 [mapLin d n] := by
  unfold mapBody at h
  rw [check_then_of_ok ha] at h
  exact .of_body h

/-- The faults of PMAPSR, PMAPSR.i and PMAPBR (44_permute.md R220, R221). -/
theorem Faults.of_mapBody_lg {lg : Nat} (h : exec i s = finish s (mapBody s d (2 ^ lg) (checkLg s lg) map)) :
    (21 < lg → Faults i s .unsupportedLength (2 ^ lg)) ∧
      (lg ≤ 21 → s.params.maxLog2 < lg → Faults i s .resource (2 ^ lg)) ∧
      (lg ≤ 21 → lg ≤ s.params.maxLog2 → OperandFaults i s 4 [mapLin d (2 ^ lg)]) :=
  ⟨fun h21 => .of_mapBody h (checkLg_of_gt h21), fun h21 hmax => .of_mapBody h (checkLg_of_maxLog2_lt h21 hmax),
    fun h21 hmax => .of_mapBody h ((checkLg_eq_ok_iff s lg).2 ⟨h21, hmax⟩)⟩

/-! The checks of PMAPCRT and PMAPRUR, each reached when those before it pass. -/

theorem checkFactors_zero {n1 n2 : Nat} (h : n1 = 0 ∨ n2 = 0) : checkFactors s n1 n2 = .error ⟨.invalidArgument, 0⟩ := by
  unfold checkFactors
  by_cases h1 : n1 = 0
  · rw [h1]
    exact check_then_of_error requireNonzero_zero _
  · rw [check_then_of_ok (requireNonzero_of_ne h1), h.resolve_left h1]
    exact check_then_of_error requireNonzero_zero _

theorem checkFactors_of_gcd {n1 n2 : Nat} (h1 : n1 ≠ 0) (h2 : n2 ≠ 0) (hg : Nat.gcd n1 n2 ≠ 1) :
    checkFactors s n1 n2 = .error ⟨.invalidArgument, n2⟩ := by
  unfold checkFactors
  rw [check_then_of_ok (requireNonzero_of_ne h1), check_then_of_ok (requireNonzero_of_ne h2)]
  exact check_then_of_error ((require_eq_error_iff _ _ _).2 ⟨by simpa using hg, rfl⟩) _

theorem checkFactors_of_maxN_lt {n1 n2 : Nat} (h1 : n1 ≠ 0) (h2 : n2 ≠ 0) (hg : Nat.gcd n1 n2 = 1)
    (hmax : s.params.maxN < n1 * n2) : checkFactors s n1 n2 = .error ⟨.resource, n1 * n2⟩ := by
  unfold checkFactors
  rw [check_then_of_ok (requireNonzero_of_ne h1), check_then_of_ok (requireNonzero_of_ne h2),
    check_then_of_ok ((require_eq_ok_iff _ _).2 (by simpa using hg))]
  exact (require_eq_error_iff _ _ _).2 ⟨by simpa using hmax, rfl⟩

/-- The faults of PMAPCRT and PMAPRUR (44_permute.md R222, R223). -/
theorem Faults.of_mapBody_factors {n1 n2 : Nat}
    (h : exec i s = finish s (mapBody s d (n1 * n2) (checkFactors s n1 n2) map)) :
    (n1 = 0 ∨ n2 = 0 → Faults i s .invalidArgument 0) ∧
      (n1 ≠ 0 → n2 ≠ 0 → Nat.gcd n1 n2 ≠ 1 → Faults i s .invalidArgument n2) ∧
      (n1 ≠ 0 → n2 ≠ 0 → Nat.gcd n1 n2 = 1 → s.params.maxN < n1 * n2 → Faults i s .resource (n1 * n2)) ∧
      (n1 ≠ 0 → n2 ≠ 0 → Nat.gcd n1 n2 = 1 → n1 * n2 ≤ s.params.maxN → OperandFaults i s 4 [mapLin d (n1 * n2)]) :=
  ⟨fun h0 => .of_mapBody h (checkFactors_zero h0), fun h1 h2 hg => .of_mapBody h (checkFactors_of_gcd h1 h2 hg),
    fun h1 h2 hg hmax => .of_mapBody h (checkFactors_of_maxN_lt h1 h2 hg hmax),
    fun h1 h2 hg hmax => .of_mapBody h ((checkFactors_eq_ok_iff s n1 n2).2 ⟨h1, h2, hg, hmax⟩)⟩

theorem checkNeg_zero : checkNeg s 0 = .error ⟨.invalidArgument, 0⟩ := check_then_of_error requireNonzero_zero _

theorem checkNeg_of_maxN_lt (hn : n ≠ 0) (hmax : s.params.maxN < n) : checkNeg s n = .error ⟨.resource, n⟩ := by
  unfold checkNeg
  rw [check_then_of_ok (requireNonzero_of_ne hn)]
  exact (require_eq_error_iff _ _ _).2 ⟨by simpa using hmax, rfl⟩

/-- The faults of PMAPNEG (44_permute.md R224). -/
theorem Faults.of_mapBody_neg (h : exec i s = finish s (mapBody s d n (checkNeg s n) map)) :
    (n = 0 → Faults i s .invalidArgument 0) ∧ (n ≠ 0 → s.params.maxN < n → Faults i s .resource n) ∧
      (n ≠ 0 → n ≤ s.params.maxN → OperandFaults i s 4 [mapLin d n]) :=
  ⟨fun hn => .of_mapBody h (by rw [hn]; exact checkNeg_zero), fun hn hmax => .of_mapBody h (checkNeg_of_maxN_lt hn hmax),
    fun hn hmax => .of_mapBody h ((checkNeg_eq_ok_iff s n).2 ⟨hn, hmax⟩)⟩

end Generators

/-! ## Map applications (44_permute.md R225) -/

/-- A failed alignment check, as the obligation terms say it. -/
theorem checkAligned_of_isLowest {bases : List (Nat × Nat)} {P : Nat → Prop} {a : Nat}
    (hP : ∀ x, P x ↔ ∃ b ∈ bases, b.1 = x ∧ b.1 % b.2 ≠ 0) (h : IsLowest P (some a)) :
    checkAligned bases = .error ⟨.misaligned, a⟩ := by
  have h' := h.congr hP
  cases hc : checkAligned bases with
  | ok u =>
    obtain ⟨⟨b, hb, -, hne⟩, -⟩ := h'
    exact absurd ((checkAligned_eq_ok_iff bases).1 hc b hb) hne
  | error t =>
    obtain ⟨hm, hl⟩ := checkAligned_eq_error hc
    have hinfo := hl.unique h'
    cases t; cases hm; cases hinfo; rfl

/-- A failed range check, as the obligation terms say it. -/
theorem checkRange_of_isLowest {outs : List (Option Nat)} {P : Nat → Prop} {a : Nat} (hP : IsLowest P (lowest outs))
    (h : IsLowest P (some a)) : checkRange outs = .error ⟨.dmemRange, a⟩ := by
  unfold checkRange
  rw [hP.unique h]

/-- The lowest of a first address and the others. -/
theorem isLowest_lowest_cons {P Q : Nat → Prop} {o : Option Nat} {outs : List (Option Nat)} (ho : IsLowest P o)
    (houts : IsLowest Q (lowest outs)) : IsLowest (fun x => P x ∨ Q x) (lowest (o :: outs)) := by
  have hself : IsLowest (fun x => some x = o) o := by
    cases o with
    | none => exact fun _ => nofun
    | some a => exact ⟨rfl, fun y hy => (Option.some.inj hy).ge⟩
  have hcons : lowest (o :: outs) = optMin o (lowest outs) :=
    (isLowest_lowest (o :: outs)).unique
      ((isLowest_optMin hself (isLowest_lowest outs)).congr fun x => List.mem_cons.symm)
  rw [hcons]
  exact isLowest_optMin ho houts

/-- The lowest access that leaves DMEM among those a map addresses. -/
theorem isLowest_lowest_mapAddrs (s : State) (base size m c : Nat) :
    IsLowest (fun x => ∃ j < c, x = base + s.dmem.readLE (m + 4 * j) 4 * size ∧ s.params.dmemBytes < x + size)
      (lowest ((mapAddrs base size (s.readMap m c)).map (accessOut s size))) := by
  rw [mapAddrs_readMap, List.map_map]
  refine (isLowest_lowest _).congr fun x => ?_
  simp only [List.mem_map, List.mem_range, Function.comp_apply, accessOut]
  constructor
  · rintro ⟨j, hj, h⟩
    split at h
    · next hlt =>
      cases h
      exact ⟨j, hj, rfl, hlt⟩
    · cases h
  · rintro ⟨j, hj, rfl, hlt⟩
    exact ⟨j, hj, if_pos hlt⟩

/-- `x` is the start of an access that leaves DMEM: one of the linear operand `lin`, or one of `size` bytes that the map
of c words at `map` addresses from `target` (44_permute.md R225). -/
def LeavesDmem (s : State) (lin : Lin) (map target size c x : Nat) : Prop :=
  (∃ j < lin.n, x = lin.base + j * lin.stride ∧ s.params.dmemBytes < x + lin.size) ∨
    ∃ j < c, x = target + s.dmem.readLE (map + 4 * j) 4 * size ∧ s.params.dmemBytes < x + size

section Applications

variable {i : Instr} {s : State} {map align base target size c : Nat} {lin : Lin} {bases : List (Nat × Nat)}
  {outs : List (Option Nat)} {r : Unit → Except Trap State}

/-- The misaligned among the map and two bases of samples. -/
theorem misaligned_iff (hbases : ∀ b, b ∈ bases ↔ b = (map, 4) ∨ b = (base, align) ∨ b = (target, align)) (x : Nat) :
    (x = map ∧ x % 4 ≠ 0) ∨ ((x = base ∨ x = target) ∧ x % align ≠ 0) ↔ ∃ b ∈ bases, b.1 = x ∧ b.1 % b.2 ≠ 0 := by
  simp only [hbases]
  constructor
  · rintro (⟨rfl, hne⟩ | ⟨rfl | rfl, hne⟩)
    · exact ⟨(x, 4), .inl rfl, rfl, hne⟩
    · exact ⟨(x, align), .inr (.inl rfl), rfl, hne⟩
    · exact ⟨(x, align), .inr (.inr rfl), rfl, hne⟩
  · rintro ⟨b, rfl | rfl | rfl, rfl, hne⟩
    · exact .inl ⟨rfl, hne⟩
    · exact .inr ⟨.inl rfl, hne⟩
    · exact .inr ⟨.inr rfl, hne⟩

theorem checkAligned_of_aligned (hbases : ∀ b, b ∈ bases ↔ b = (map, 4) ∨ b = (base, align) ∨ b = (target, align))
    (h : map % 4 = 0 ∧ base % align = 0 ∧ target % align = 0) : checkAligned bases = .ok () := by
  obtain ⟨hmap, hbase, htarget⟩ := h
  refine (checkAligned_eq_ok_iff bases).2 fun b hb => ?_
  obtain rfl | rfl | rfl := (hbases b).1 hb
  · exact hmap
  · exact hbase
  · exact htarget

/-- The lowest word of the map that leaves DMEM. -/
theorem isLowest_mapLin (map c bytes : Nat) :
    IsLowest (fun x => ∃ j < c, x = map + 4 * j ∧ bytes < x + 4) (lowest [(mapLin map c).lowestOut bytes]) :=
  ((mapLin map c).isLowest_lowestOut bytes).congr fun x => by simp [mapLin, Nat.mul_comm]

/-- The checks of an instruction that reads a map, in their order (44_permute.md R225). -/
theorem Faults.of_mapChecks
    (h : exec i s = finish s (requireNonzero c >>= fun _ => checkAligned bases >>= fun _ =>
      checkRange [(mapLin map c).lowestOut s.params.dmemBytes] >>= fun _ => checkRange outs >>= r))
    (hbases : ∀ b, b ∈ bases ↔ b = (map, 4) ∨ b = (lin.base, align) ∨ b = (target, align))
    (houts : IsLowest (LeavesDmem s lin map target size c) (lowest outs)) :
    (c = 0 → Faults i s .invalidArgument 0) ∧
      (c ≠ 0 → ∀ x, IsLowest (fun x => (x = map ∧ x % 4 ≠ 0) ∨ ((x = lin.base ∨ x = target) ∧ x % align ≠ 0)) (some x) →
        Faults i s .misaligned x) ∧
      (c ≠ 0 → map % 4 = 0 ∧ lin.base % align = 0 ∧ target % align = 0 → ∀ x,
        IsLowest (fun x => ∃ j < c, x = map + 4 * j ∧ s.params.dmemBytes < x + 4) (some x) → Faults i s .dmemRange x) ∧
      (c ≠ 0 → map % 4 = 0 ∧ lin.base % align = 0 ∧ target % align = 0 → (mapLin map c).Fits s.params.dmemBytes → ∀ x,
        IsLowest (LeavesDmem s lin map target size c) (some x) → Faults i s .dmemRange x) := by
  refine ⟨.of_count_zero h, fun hc x hx => .of_error h ?_, fun hc hal x hx => .of_error h ?_,
    fun hc hal hfit x hx => .of_error h ?_⟩
  · rw [check_then_of_ok (requireNonzero_of_ne hc)]
    exact check_then_of_error (checkAligned_of_isLowest (misaligned_iff hbases) hx) _
  · rw [check_then_of_ok (requireNonzero_of_ne hc), check_then_of_ok (checkAligned_of_aligned hbases hal)]
    exact check_then_of_error (checkRange_of_isLowest (isLowest_mapLin _ _ _) hx) _
  · have hmap := (checkRange_eq_ok_iff [(mapLin map c).lowestOut s.params.dmemBytes]).2
      (by simpa [Lin.lowestOut_eq_none_iff] using hfit)
    rw [check_then_of_ok (requireNonzero_of_ne hc), check_then_of_ok (checkAligned_of_aligned hbases hal),
      check_then_of_ok hmap]
    exact check_then_of_error (checkRange_of_isLowest houts hx) _

end Applications

/-- Settles O37: each generator is one `mapBody`, and each application makes the checks above. PINV has no linear operand. -/
theorem mapInstructionsFaultInOrder : Obligations.MapInstructionsFaultInOrder := by
  intro s rd rs1 rs2 rs3 lg n1 n2 c p
  have hlin : ∀ (l : Lin) (target : Nat), IsLowest (LeavesDmem s l n2 target p.cs c) (lowest
      (l.lowestOut s.params.dmemBytes :: (mapAddrs target p.cs (s.readMap n2 c)).map (accessOut s p.cs))) :=
    fun l target => isLowest_lowest_cons (l.isLowest_lowestOut _) (isLowest_lowest_mapAddrs s target p.cs n2 c)
  have hinv : IsLowest (LeavesDmem s ⟨s.regNat rd, 0, 0, 0⟩ n1 (s.regNat rd) 4 c)
      (lowest ((mapAddrs (s.regNat rd) 4 (s.readMap n1 c)).map (accessOut s 4))) :=
    (isLowest_lowest_mapAddrs s (s.regNat rd) 4 n1 c).congr fun x => by simp [LeavesDmem]
  simp only [List.forall_mem_cons, List.not_mem_nil, false_imp_iff, implies_true, and_true]
  refine ⟨⟨Faults.of_mapBody_lg rfl, Faults.of_mapBody_lg rfl, Faults.of_mapBody_lg rfl⟩,
    ⟨Faults.of_mapBody_factors rfl, Faults.of_mapBody_factors rfl⟩, Faults.of_mapBody_neg rfl,
    Faults.of_mapChecks rfl (fun b => ?_) (hlin (complexLin p (s.regNat rd) c) n1),
    Faults.of_mapChecks rfl (fun b => ?_) (hlin (complexLin p n1 c) (s.regNat rd)),
    Faults.of_mapChecks rfl (fun b => ?_) hinv⟩ <;>
    simp only [List.mem_cons, List.not_mem_nil, or_false]
  · exact Iff.rfl
  · exact or_congr_right or_comm
  · exact or_congr_right (or_self_iff).symm

end Sys2Proof.Machine

/-! # Proofs: TGEN, TCOPY and the faults of the table instructions (45_twiddle.md R242 to R248) -/

namespace Sys2Proof.Machine

/-! ## TGEN (45_twiddle.md R245) -/

/-- TGEN whose own checks pass generates its slot on first use (R242) and does nothing else. -/
theorem exists_next_of_tgenBody {i : Instr} {s : State} {x : Slot} {args : Except Trap Unit}
    (h : exec i s = finish s (tgenBody x args s)) (ha : args = .ok ()) (hx : x.bit < 32) :
    ∃ t, exec i s = .next t ∧
      t = { s with tvalidF32 := t.tvalidF32, tvalidF64 := t.tvalidF64, tvalidQ31 := t.tvalidQ31, tgencnt := t.tgencnt,
                   pc := s.pc + 1, instret := s.instret + 1 } ∧
      (∀ p b, (t.tvalid p).getLsbD b = ((s.tvalid p).getLsbD b || (decide (p = s.prec) && decide (b = x.bit)))) ∧
      t.tgencnt = if (s.tvalid s.prec).getLsbD x.bit then s.tgencnt else s.tgencnt + 1 := by
  have hbody : tgenBody x args s = .ok (s.ensureBit x.bit) := check_then_of_ok ha _
  exact ⟨(s.ensureBit x.bit).retire, by rw [h, hbody, finish_ok],
    congrArg State.retire (State.ensureBits_frame s [x.bit]),
    fun p b => by rw [State.tvalid_retire, State.tvalid_ensureBit s hx], State.tgencnt_ensureBit s x.bit⟩

/-- Settles O38: the four forms are the TGEN body of their slot, whose own check the lengths of the premise pass. -/
theorem tgenValidatesItsSlot : Obligations.TgenValidatesItsSlot := by
  intro s lg
  simp only [List.forall_mem_cons, List.not_mem_nil, false_imp_iff, true_imp_iff, implies_true, and_true]
  refine ⟨fun hlg => ?_, fun _ => ?_, fun _ => ?_, fun _ => ?_⟩
  · obtain ⟨-, h21, hmax⟩ := hlg
    exact exists_next_of_tgenBody (x := .pow lg.toNat) rfl ((checkLg_eq_ok_iff s lg.toNat).2 ⟨h21, hmax⟩) lg.isLt
  · exact exists_next_of_tgenBody (x := .t53) (args := .ok ()) rfl rfl (by decide)
  · exact exists_next_of_tgenBody (x := .t7) (args := .ok ()) rfl rfl (by decide)
  · exact exists_next_of_tgenBody (x := .t9) (args := .ok ()) rfl rfl (by decide)

/-! ## TCOPY (45_twiddle.md R247) -/

theorem Slot.length_exact (x : Slot) : x.exact.length = x.length := by
  cases x
  case pow t => simp [Slot.exact, Slot.length]
  all_goals rfl

/-- A table of exact numbers written element after element is read back as RESCALE of each. -/
theorem Memory.readEl_writeEls_rescale {m : Memory} (h : Memory.wf m = true) (p : Prec) (d : Nat) (table : List Exact)
    {j : Nat} (hj : j < table.length) :
    (m.writeEls p ((addrsFrom d table.length p.es).zip (table.map (rescale p)))).readEl p (d + j * p.es) =
      atE (table.map (rescale p)) j := by
  have hj' : j < (table.map (rescale p)).length := by rwa [List.length_map]
  rw [Memory.readEl_writeEls_addrsFrom h p le_rfl _ hj hj', List.getElem_map, canon_rescale, atE,
    List.getD_eq_getElem _ _ hj', List.getElem_map]

/-- TCOPY whose own checks pass and whose destination is in order generates its slot on first use and writes its
contents. -/
theorem CompletesWith.of_tcopyBody {i : Instr} {s : State} {x : Slot} {args : Except Trap Unit} {d : Nat}
    (h : exec i s = finish s (tcopyBody x args d s)) (ha : args = .ok ())
    (hl : LinReady s s.prec.es (realLin s.prec d x.exact.length)) :
    CompletesWith i s [x] (addrsFrom d x.exact.length s.prec.es) s.prec.es fun m => ∀ j, j < x.exact.length →
      m.readEl s.prec (d + j * s.prec.es) = atE (x.exact.map (rescale s.prec)) j ∧
        m.readEl s.prec (d + j * s.prec.es) = atE (slotTable s.prec x) j := by
  rw [(tcopyBody_eq_ok_iff x args d s _).2 ⟨ha, x.length_exact ▸ hl, rfl⟩, ← x.length_exact] at h
  refine .of_ok h (fun hwf => SameOutside.of_writeEls hwf fun w hw => (List.of_mem_zip hw).1) fun hwf j hj => ?_
  have hread := Memory.readEl_writeEls_rescale hwf s.prec d x.exact hj
  exact ⟨hread, hread⟩

/-- Settles O39: the four forms are the TCOPY body of their slot, whose exact numbers are those of R244. -/
theorem tcopyCopiesItsSlot : Obligations.TcopyCopiesItsSlot := by
  intro s rd lg d p n
  simp only [List.forall_mem_cons, List.not_mem_nil, false_imp_iff, true_imp_iff, implies_true, and_true]
  refine ⟨fun hlg hl => ?_, fun _ hl => ?_, fun _ hl => ?_, fun _ hl => ?_⟩
  · obtain ⟨-, h21, hmax⟩ := hlg
    exact .of_tcopyBody rfl ((checkLg_eq_ok_iff s lg.toNat).2 ⟨h21, hmax⟩) hl
  · exact .of_tcopyBody (x := .t53) (args := .ok ()) rfl rfl hl
  · exact .of_tcopyBody (x := .t7) (args := .ok ()) rfl rfl hl
  · exact .of_tcopyBody (x := .t9) (args := .ok ()) rfl rfl hl

/-! ## Faults (45_twiddle.md R246 to R248, 60_exceptions.md R353) -/

section TableFaults

variable {i : Instr} {s : State}

/-- An instruction that checks a length 2^lg first. -/
theorem Faults.of_checkLg_then {lg : Nat} {r : Unit → Except Trap State} (h : exec i s = finish s (checkLg s lg >>= r)) :
    (21 < lg → Faults i s .unsupportedLength (2 ^ lg)) ∧
      (lg ≤ 21 → s.params.maxLog2 < lg → Faults i s .resource (2 ^ lg)) :=
  ⟨fun h21 => .of_error h (check_then_of_error (checkLg_of_gt h21) r),
    fun h21 hmax => .of_error h (check_then_of_error (checkLg_of_maxLog2_lt h21 hmax) r)⟩

/-- TCOPY whose own checks pass checks its destination. -/
theorem OperandFaults.of_tcopyBody {x : Slot} {args : Except Trap Unit} {d : Nat}
    (h : exec i s = finish s (tcopyBody x args d s)) (ha : args = .ok ()) :
    OperandFaults i s s.prec.es [realLin s.prec d x.length] := by
  unfold tcopyBody at h
  rw [check_then_of_ok ha] at h
  exact .of_body h

/-- An instruction that checks a length parameter next. -/
theorem LengthFaults.of_checkLength_then {n len : Nat} {supported : Bool} {r : Unit → Except Trap State}
    (h : exec i s = finish s (checkLength s n len supported >>= r)) : LengthFaults i s n len (supported = true) := by
  refine ⟨?_, fun hn hsup => ?_, fun hn hsup hlen => ?_⟩
  · rintro rfl
    exact .of_error h (check_then_of_error (checkLength_zero s len supported) r)
  · obtain rfl := Bool.eq_false_of_not_eq_true hsup
    exact .of_error h (check_then_of_error (checkLength_of_unsupported hn) r)
  · subst hsup
    exact .of_error h (check_then_of_error (checkLength_of_maxN_lt hn hlen) r)

/-- With N not 0 and SCALE finite a generator checks N, then its destination. -/
theorem generatorBody_of_finite {n : Nat} (hn : n ≠ 0) (h : ScaleFinite s) (d len count : Nat) (supported : Bool)
    (table : Sys2Proof.Machine.Dyadic → List Exact) :
    ∃ r, generatorBody s d n len count supported table = checkLength s n len supported >>= fun _ =>
      checkLins s s.prec.es [realLin s.prec d count] >>= r := by
  obtain ⟨scale, hscale⟩ := exists_scale?_of_finite h
  unfold generatorBody
  rw [check_then_of_ok (requireNonzero_of_ne hn), requireScale, hscale]
  exact ⟨_, rfl⟩

/-- The faults of a generator whose lengths are those with `P`, in their order (R248). -/
theorem Faults.of_generatorBody {d n len count : Nat} {supported : Bool} {table : Sys2Proof.Machine.Dyadic → List Exact}
    {P : Prop} (h : exec i s = finish s (generatorBody s d n len count supported table)) (hsup : supported = true ↔ P)
    (hpos : P → n ≠ 0) :
    (n = 0 → Faults i s .invalidArgument 0) ∧
      (n ≠ 0 → ¬ScaleFinite s → Faults i s .invalidArgument s.scaleHi.toNat) ∧
      (ScaleFinite s → LengthFaults i s n len P) ∧
      (ScaleFinite s → P → len ≤ s.params.maxN → OperandFaults i s s.prec.es [realLin s.prec d count]) := by
  have hzero : n = 0 → Faults i s .invalidArgument 0 := .of_count_zero h
  refine ⟨hzero, fun hn hfin => .of_error h ?_, fun hfin => ?_, fun hfin hP hlen => ?_⟩
  · unfold generatorBody
    rw [check_then_of_ok (requireNonzero_of_ne hn), requireScale_of_not_finite hfin]
    rfl
  · by_cases hn : n = 0
    · exact ⟨hzero, fun hne => absurd hn hne, fun hne => absurd hn hne⟩
    · obtain ⟨r, hr⟩ := generatorBody_of_finite hn hfin d len count supported table
      rw [← propext hsup]
      exact .of_checkLength_then (h.trans (congrArg (finish s) hr))
  · obtain ⟨r, hr⟩ := generatorBody_of_finite (hpos hP) hfin d len count supported table
    rw [check_then_of_ok ((checkLength_eq_ok_iff s n len supported).2 ⟨hpos hP, hsup.2 hP, hlen⟩)] at hr
    exact .of_body (h.trans (congrArg (finish s) hr))

end TableFaults

/-- Settles O42: TGEN and TCOPY check their slot's length first, and the generators share one body. -/
theorem tableInstructionsFaultInOrder : Obligations.TableInstructionsFaultInOrder := by
  intro s rd rs3 lg d n p
  have hmdct := mdctLength_eq_true_iff n
  have heven := evenLength_eq_true_iff n
  simp only [List.forall_mem_cons, List.not_mem_nil, false_imp_iff, implies_true, and_true]
  refine ⟨⟨Faults.of_checkLg_then rfl, Faults.of_checkLg_then rfl⟩,
    fun h21 hmax => .of_tcopyBody (x := .pow lg.toNat) rfl ((checkLg_eq_ok_iff s lg.toNat).2 ⟨h21, hmax⟩),
    .of_tcopyBody (x := .t53) (args := .ok ()) rfl rfl, .of_tcopyBody (x := .t7) (args := .ok ()) rfl rfl,
    .of_tcopyBody (x := .t9) (args := .ok ()) rfl rfl, Faults.of_generatorBody rfl hmdct ?_,
    Faults.of_generatorBody rfl hmdct ?_, Faults.of_generatorBody rfl heven ?_, Faults.of_generatorBody rfl heven ?_⟩ <;>
    omega

end Sys2Proof.Machine

/-! # Proofs: the faults of the MDCT, real DFT, DCT and DST instructions (46_mdct.md R265, 47_rdft.md R284, 48_dct.md
R300 to R306, 60_exceptions.md R353)

Each is one `transformBody`, which makes the instruction's own checks before those of its operands. -/

namespace Sys2Proof.Machine

section TransformFaults

variable {i : Instr} {s : State} {args : Except Trap Unit} {len : Nat} {table input output : Lin}
  {writes : List (Elem s.prec) → List (Elem s.prec) → List (Nat × Elem s.prec)}

/-- A transform body's own checks come first. -/
theorem Faults.of_transformBody {c : Cause} {info : Nat}
    (h : exec i s = finish s (transformBody s args len table input output writes)) (ha : args = .error ⟨c, info⟩) :
    Faults i s c info :=
  .of_error h (by unfold transformBody; exact check_then_of_error ha _)

/-- When they pass it checks its operands. -/
theorem OperandFaults.of_transformBody (h : exec i s = finish s (transformBody s args len table input output writes))
    (ha : args = .ok ()) : OperandFaults i s s.prec.es [table, input, output] := by
  unfold transformBody at h
  rw [check_then_of_ok ha] at h
  exact .of_body h

/-- The faults, in their order, of a transform whose own check is that of the length parameter `n`, with the supported
lengths those with `P` and an inner FFT of `len` points. -/
theorem Faults.of_transformBody_length {n : Nat} {supported : Bool} {P : Prop}
    (h : exec i s = finish s (transformBody s args len table input output writes))
    (ha : args = checkLength s n len supported) (hsup : supported = true ↔ P) :
    LengthFaults i s n len P ∧
      (P → n ≠ 0 → len ≤ s.params.maxN → OperandFaults i s s.prec.es [table, input, output]) := by
  refine ⟨?_, fun hP hn hlen => .of_transformBody h (ha.trans ?_)⟩
  · subst ha
    unfold transformBody at h
    exact propext hsup ▸ .of_checkLength_then h
  · exact (checkLength_eq_ok_iff s n len supported).2 ⟨hn, hsup.2 hP, hlen⟩

end TransformFaults

/-- Outside Q31 the checks of DCT3 are those of DCT2 (48_dct.md R300). -/
theorem checkDct3_of_ne_q31 {s : State} (hp : s.prec ≠ .q31) (n : Nat) :
    checkDct3 s n = checkLength s n (n / 2) (evenLength n) :=
  check_then_of_ok ((require_eq_ok_iff _ _).2 (by simpa using hp)) _

/-- In Q31 there is no DCT3 (48_dct.md R300). -/
theorem checkDct3_of_q31 {s : State} (hp : s.prec = .q31) (n : Nat) :
    checkDct3 s n = .error ⟨.unsupportedCombination, 2⟩ :=
  check_then_of_error ((require_eq_error_iff _ _ _).2 ⟨by simp [hp], rfl⟩) _

/-- Settles O46: each instruction is one transform body whose own check is that of its length; DCT3 checks the precision
before it. -/
theorem realTransformsFaultInOrder : Obligations.RealTransformsFaultInOrder := by
  intro s rd rs1 rs2 rs3 n p lin coefficients checks fourfold even
  have hmdct : mdctLength n = true ↔ fourfold := mdctLength_eq_true_iff n
  have heven : evenLength n = true ↔ even := evenLength_eq_true_iff n
  refine ⟨Faults.of_transformBody_length rfl rfl hmdct, Faults.of_transformBody_length rfl rfl hmdct,
    Faults.of_transformBody_length rfl rfl hmdct, Faults.of_transformBody_length rfl rfl heven,
    Faults.of_transformBody_length rfl rfl heven, Faults.of_transformBody_length rfl rfl heven,
    Faults.of_transformBody_length rfl rfl heven, Faults.of_transformBody_length rfl rfl heven,
    fun hp => Faults.of_transformBody_length rfl (checkDct3_of_ne_q31 hp n) heven,
    fun hp => .of_transformBody rfl (checkDct3_of_q31 hp n), ?_, Faults.of_transformBody_length rfl rfl Iff.rfl⟩
  have hdct1 : (decide (2 ≤ n) && inS (n - 1)) = true ↔ 2 ≤ n ∧ inS (n - 1) = true := by simp
  obtain ⟨hlength, hoperands⟩ := Faults.of_transformBody_length (i := .dct1 rd rs1 rs2 rs3) rfl rfl hdct1
  refine ⟨hlength, fun hsup => ?_⟩
  rw [show 2 * (n - 1) + 2 = 2 * n by omega]
  exact hoperands hsup

end Sys2Proof.Machine

/-! # Proofs: the scalar instructions (49_control.md R320 to R336)

The words decode as the encoder's inverse says; what remains is the number an instruction computes, and for LW, SW, CSRR and
CSRW which of their cases applies. -/

namespace Sys2Proof.Machine

open Laws

/-! ## Words as numbers modulo 2^32 (49_control.md R320 to R327) -/

section Arithmetic

variable (x y : Word)

theorem ofInt_toNat : BitVec.ofInt 32 (x.toNat : Int) = x := by simp

/-- The sum of a word and a sign-extended field is the sum of their numbers, reduced once. -/
theorem add_sext32 {n : Nat} (v : BitVec n) : x + sext32 v = BitVec.ofInt 32 (x.toNat + v.toInt) := by
  rw [BitVec.ofInt_add, ofInt_toNat]
  rfl

theorem sub_eq_ofInt : x - y = BitVec.ofInt 32 ((x.toNat : Int) - y.toNat) := by
  rw [BitVec.sub_eq_add_neg, Int.sub_eq_add_neg, BitVec.ofInt_add, BitVec.ofInt_neg, ofInt_toNat, ofInt_toNat]

theorem mul_eq_ofNat : x * y = BitVec.ofNat 32 (x.toNat * y.toNat) := by
  apply BitVec.eq_of_toNat_eq
  simp

theorem shiftLeft_eq_ofNat (k : Nat) : x <<< k = BitVec.ofNat 32 (x.toNat * 2 ^ k) := by
  apply BitVec.eq_of_toNat_eq
  simp [Nat.shiftLeft_eq]

theorem ushiftRight_eq_ofNat (k : Nat) : x >>> k = BitVec.ofNat 32 (x.toNat / 2 ^ k) := by
  apply BitVec.eq_of_toNat_eq
  rw [BitVec.toNat_ushiftRight, BitVec.toNat_ofNat, Nat.shiftRight_eq_div_pow,
    Nat.mod_eq_of_lt ((Nat.div_le_self _ _).trans_lt x.isLt)]

theorem append_zeros_eq_ofNat (v : BitVec 22) : v ++ 0#10 = BitVec.ofNat 32 (v.toNat * 2 ^ 10) := by
  have hv := v.isLt
  apply BitVec.eq_of_toNat_eq
  rw [BitVec.toNat_append, BitVec.toNat_ofNat]
  simp only [BitVec.toNat_ofNat, Nat.zero_mod, Nat.or_zero, Nat.shiftLeft_eq]
  omega

end Arithmetic

/-! ## Integer arithmetic (49_control.md R320 to R326) -/

/-- An instruction that writes its result to x[rd] completes with the number the result is. -/
theorem CompletesReg.of_writeBack {i : Instr} {s : State} {rd : Reg} {w v : Word} (h : exec i s = writeBack s rd w)
    (hw : w = v) : CompletesReg i s rd v :=
  hw ▸ .of_setReg h

/-- Settles O9: each result is a word operation, which computes the number of its rule modulo 2^32. -/
theorem integerInstructionsWriteTheirResult : Obligations.IntegerInstructionsWriteTheirResult := by
  intro s rd rs1 rs2 imm18 imm22 sh
  exact ⟨⟨decode_encode (i := .addi rd rs1 imm18) rfl, .of_writeBack rfl (add_sext32 _ imm18)⟩,
    ⟨decode_encode (i := .lui rd imm22) rfl, .of_writeBack rfl (append_zeros_eq_ofNat imm22)⟩,
    ⟨decode_encode (i := .add rd rs1 rs2) rfl, .of_writeBack rfl (BitVec.add_def _ _)⟩,
    ⟨decode_encode (i := .sub rd rs1 rs2) rfl, .of_writeBack rfl (sub_eq_ofInt _ _)⟩,
    ⟨decode_encode (i := .mul rd rs1 rs2) rfl, .of_writeBack rfl (mul_eq_ofNat _ _)⟩,
    ⟨decode_encode (i := .slli rd rs1 sh) rfl, .of_writeBack rfl (shiftLeft_eq_ofNat _ sh.toNat)⟩,
    ⟨decode_encode (i := .srli rd rs1 sh) rfl, .of_writeBack rfl (ushiftRight_eq_ofNat _ sh.toNat)⟩⟩

/-! ## LW and SW (49_control.md R327, R328) -/

theorem State.effectiveAddress_eq (s : State) (rs1 : Reg) (imm18 : BitVec 18) :
    s.effectiveAddress rs1 imm18 = (((s.regNat rs1 : Int) + imm18.toInt) % 4294967296).toNat := by
  unfold State.effectiveAddress
  rw [add_sext32, BitVec.toNat_ofInt]
  rfl

section WordChecks

variable {i : Instr} {s : State} {ea : Nat} {r : Unit → Except Trap State}

theorem checkWord_of_ready (h4 : ea % 4 = 0) (hfit : ea + 4 ≤ s.params.dmemBytes) : checkWord s ea = .ok () := by
  simp [checkWord, check_then_eq_ok_iff, require_eq_ok_iff, h4, hfit]

theorem checkWord_of_misaligned (h4 : ea % 4 ≠ 0) : checkWord s ea = .error ⟨.misaligned, ea⟩ :=
  check_then_of_error ((require_eq_error_iff _ _ _).2 ⟨by simpa using h4, rfl⟩) _

theorem checkWord_of_outside (h4 : ea % 4 = 0) (hout : s.params.dmemBytes < ea + 4) :
    checkWord s ea = .error ⟨.dmemRange, ea⟩ :=
  (check_then_of_ok ((require_eq_ok_iff _ _).2 (by simpa using h4)) _).trans
    ((require_eq_error_iff _ _ _).2 ⟨by simpa using hout, rfl⟩)

/-- A load or store ends with the fault of its address check. -/
theorem Faults.of_checkWord {c : Cause} {info : Nat} (h : exec i s = finish s (checkWord s ea >>= r))
    (hc : checkWord s ea = .error ⟨c, info⟩) : Faults i s c info :=
  .of_error h (check_then_of_error hc r)

end WordChecks

/-- A word is its four bytes, least significant first (20_memory.md R75, R77). -/
theorem Memory.readWord_eq (m : Memory) (a : Nat) : m.readWord a = BitVec.ofNat 32
    ((Store.read m a).toNat + 256 * (Store.read m (a + 1)).toNat + 65536 * (Store.read m (a + 2)).toNat +
      16777216 * (Store.read m (a + 3)).toNat) := by
  unfold Memory.readWord
  simp only [Memory.readLE, Nat.add_assoc, Nat.reduceAdd]
  congr 1
  omega

/-- Byte k of a word written is bits 8k + 7 to 8k of it (20_memory.md R75, R77). -/
theorem Memory.read_writeWord {m : Memory} (h : Memory.wf m = true) (a : Nat) (v : Word) {k : Nat} (hk : k < 4) :
    Store.read (m.writeWord a v) (a + k) = v.extractLsb' (8 * k) 8 := by
  unfold Memory.writeWord
  have hpow : 256 ^ k = 2 ^ (8 * k) := (Nat.pow_mul 2 8 k).symm
  rw [Memory.read_writeLE h, if_pos (by omega), Nat.add_sub_cancel_left, hpow, ← Nat.shiftRight_eq_div_pow]
  rfl

/-- Settles O10: the address check has three outcomes, and the accesses read and write the word byte by byte. -/
theorem loadAndStoreWord : Obligations.LoadAndStoreWord := by
  intro s rd rs1 imm18 ea
  have hea : s.effectiveAddress rs1 imm18 = ea := s.effectiveAddress_eq rs1 imm18
  have hlw : exec (.lw rd rs1 imm18) s = finish s (checkWord s ea >>= fun _ => .ok (s.setReg rd (s.dmem.readWord ea))) :=
    hea ▸ rfl
  have hsw : exec (.sw rd rs1 imm18) s =
      finish s (checkWord s ea >>= fun _ => .ok (s.setDmem (s.dmem.writeWord ea (s.reg rd)))) := hea ▸ rfl
  refine ⟨decode_encode (i := .lw rd rs1 imm18) rfl, decode_encode (i := .sw rd rs1 imm18) rfl, ?_⟩
  split_ifs with hmis hout
  · have hc := checkWord_of_misaligned (s := s) hmis
    exact ⟨.of_checkWord hlw hc, .of_checkWord hsw hc⟩
  · have hc := checkWord_of_outside (not_not.1 hmis) hout
    exact ⟨.of_checkWord hlw hc, .of_checkWord hsw hc⟩
  · have hc := checkWord_of_ready (not_not.1 hmis) (not_lt.1 hout)
    rw [check_then_of_ok hc] at hlw hsw
    rw [← Memory.readWord_eq]
    exact ⟨.of_setReg hlw, .of_ok hsw (Memory.sameOutside_writeWord · ea (s.reg rd)) fun hwf _ hk =>
      Memory.read_writeWord hwf ea (s.reg rd) hk⟩

/-! ## Branches, J and HALT (49_control.md R330 to R333, R336) -/

theorem branch_eq (s : State) {taken : Bool} {P : Prop} [Decidable P] (h : taken = true ↔ P) (off18 : BitVec 18) :
    branch s taken off18 = .next { s with
      pc := if P then BitVec.ofInt 32 (s.pc.toNat + off18.toInt) else s.pc + 1
      instret := s.instret + 1 } := by
  unfold branch
  by_cases hP : P
  · rw [if_pos (h.2 hP), if_pos hP, add_sext32]
    rfl
  · rw [if_neg (mt h.1 hP), if_neg hP]
    rfl

/-- Settles O11: a branch is taken as its condition says, and the target is the sum of the numbers. -/
theorem branchesJumpAndHaltSetThePc : Obligations.BranchesJumpAndHaltSetThePc := by
  intro s rs1 rs2 off18 off26 target goes
  have hj : exec (.j off26) s = .next (goes (s.pc + sext32 off26)) := rfl
  rw [add_sext32] at hj
  exact ⟨⟨decode_encode (i := .beq rs1 rs2 off18) rfl, branch_eq s beq_iff_eq off18⟩,
    ⟨decode_encode (i := .bne rs1 rs2 off18) rfl, branch_eq s bne_iff_ne off18⟩,
    ⟨decode_encode (i := .bltu rs1 rs2 off18) rfl, branch_eq s decide_eq_true_iff off18⟩,
    ⟨decode_encode (i := .j off26) rfl, hj⟩, decode_encode (i := .halt) rfl, rfl⟩

/-! ## CSRR (49_control.md R334, 10_state.md R27, R30 to R46) -/

section CsrReads

variable {s : State} {rd : Reg} {n : BitVec 8}

theorem CompletesReg.of_csrr {v : Word} (h : s.programCsr? n = some v) : CompletesReg (.csrr rd n) s rd v := by
  refine .of_setReg ?_
  change execCsrr rd n s = _
  unfold execCsrr
  rw [h]
  rfl

theorem Faults.of_csrr (h : s.programCsr? n = none) : Faults (.csrr rd n) s .illegalCsr n.toNat := by
  refine .of_error (r := .error (illegalCsr n)) ?_ rfl
  change execCsrr rd n s = _
  unfold execCsrr
  rw [h]

/-- Every CSR but STATUS reads the same for the program and the host (10_state.md R34). -/
theorem State.programCsr?_of_ne (s : State) (h : n ≠ 0x03#8) : s.programCsr? n = s.csr? n := if_neg h

theorem State.programStatusWord_eq (s : State) : s.programStatusWord = if s.hosterr then 9 else 1 := by
  unfold State.programStatusWord
  cases s.hosterr <;> rfl

theorem State.programCsr?_of_unassigned (s : State) (h : n.toNat ∉ assignedCsrs) : s.programCsr? n = none := by
  have hne : n ≠ 0x03#8 := by
    rintro rfl
    exact h (by decide)
  have hcsr := csr?_of_unassigned s n.isLt h
  rw [BitVec.ofNat_toNat, BitVec.setWidth_eq] at hcsr
  rw [s.programCsr?_of_ne hne, hcsr]

end CsrReads

/-- Settles O12: the numbers of the map are the assigned ones, and each reads as its rule says. -/
theorem csrReadsReturnTheRegister : Obligations.CsrReadsReturnTheRegister := by
  intro s rd hl cfg mode map
  refine ⟨fun n => decode_encode (i := .csrr rd n) rfl, ?_, fun n hn => .of_csrr (s.programCsr?_of_unassigned ?_)⟩
  · have hmode : s.prec.code = mode := by
      simp only [mode]
      cases s.prec <;> rfl
    have hcause : s.cause.setWidth 32 = BitVec.ofNat 32 s.cause.toNat := (BitVec.ofNat_toNat 32 s.cause).symm
    simp only [map, List.forall_mem_cons, List.not_mem_nil, false_imp_iff, implies_true, and_true]
    refine ⟨.of_csrr rfl, .of_csrr (congrArg some (Params.cfgWord_eq hl)), .of_csrr (congrArg some hmode),
      .of_csrr (congrArg some s.programStatusWord_eq), .of_csrr (congrArg some hcause), ?_⟩
    and_intros <;> exact .of_csrr rfl
  · have hassigned : map.map (fun e => e.1.toNat) = assignedCsrs := rfl
    rw [← hassigned]
    intro hmem
    obtain ⟨e, he, hen⟩ := List.mem_map.1 hmem
    exact hn e he (BitVec.eq_of_toNat_eq hen)

/-! ## CSRW (49_control.md R335, 10_state.md R33, R36, R37, R40 to R43) -/

section CsrWrites

variable {s : State} {rs1 : Reg} {n : BitVec 8}

theorem exec_csrw_of_some {t : State} (h : s.writeCsr? n (s.reg rs1) = some t) : exec (.csrw rs1 n) s = .next t.retire := by
  change execCsrw rs1 n s = _
  unfold execCsrw
  rw [h]
  rfl

theorem Faults.of_csrw (h : s.writeCsr? n (s.reg rs1) = none) : Faults (.csrw rs1 n) s .illegalCsr n.toNat := by
  refine .of_error (r := .error (illegalCsr n)) ?_ rfl
  change execCsrw rs1 n s = _
  unfold execCsrw
  rw [h]

/-- A MODE value selects the precision it names; one that names none is refused (10_state.md R33). -/
theorem State.writeCsr?_mode {v : Word} {p : Option Prec} (h : s.params.precOf v = p) :
    s.writeCsr? 0x02 v = p.map fun p => { s with prec := p } :=
  h ▸ rfl

theorem Params.precOf_eq_none {c : Params} {v : Word} (h : (v.toNat % 4 = 1 ∧ c.hasF64 = false) ∨
    (v.toNat % 4 = 2 ∧ c.hasQ31 = false) ∨ v.toNat % 4 = 3) : c.precOf v = none := by
  rcases h with ⟨h, hf⟩ | ⟨h, hq⟩ | h
  · exact (c.precOf_eq h).trans (if_neg (by simp [hf]))
  · exact (c.precOf_eq h).trans (if_neg (by simp [hq]))
  · exact c.precOf_eq h

/-- SCALEF follows the pair with the written half replaced (10_state.md R36, R37). -/
theorem State.writeScaleLo_eq (s : State) (v : Word) : s.writeScaleLo v =
    { s with scaleLo := v, scalef := scalefOf (s.scaleHi.toNat * 2 ^ 32 + v.toNat) } := by
  rw [Nat.mul_comm]
  rfl

theorem State.writeScaleHi_eq (s : State) (v : Word) : s.writeScaleHi v =
    { s with scaleHi := v, scalef := scalefOf (v.toNat * 2 ^ 32 + s.scaleLo.toNat) } := by
  rw [Nat.mul_comm]
  rfl

end CsrWrites

/-- Settles O13: what a write of each number does, and the refusals of MODE and of the numbers not writable. -/
theorem csrWritesTakeEffectOrFault : Obligations.CsrWritesTakeEffectOrFault := by
  intro s rs1 v retired
  refine ⟨fun n => decode_encode (i := .csrw rs1 n) rfl,
    fun h => exec_csrw_of_some (State.writeCsr?_mode (s.params.precOf_eq h)),
    fun h hf => exec_csrw_of_some (State.writeCsr?_mode ((s.params.precOf_eq h).trans (if_pos hf))),
    fun h hq => exec_csrw_of_some (State.writeCsr?_mode ((s.params.precOf_eq h).trans (if_pos hq))),
    fun h => .of_csrw (State.writeCsr?_mode (Params.precOf_eq_none h)),
    exec_csrw_of_some (congrArg some (s.writeScaleLo_eq v)), exec_csrw_of_some (congrArg some (s.writeScaleHi_eq v)),
    exec_csrw_of_some rfl, exec_csrw_of_some rfl, exec_csrw_of_some rfl, exec_csrw_of_some rfl, fun n hn => .of_csrw ?_⟩
  have hwritable : n.toNat ∉ writableCsrs := fun hmem => hn <| by
    simpa [writableCsrs, BitVec.toNat_eq] using hmem
  have hnone := writeCsr?_of_not_writable s v n.isLt hwritable
  rwa [BitVec.ofNat_toNat, BitVec.setWidth_eq] at hnone

end Sys2Proof.Machine

/-! # Proofs: the fault action, and the host's command of a run (60_exceptions.md R350, R351, R366, R375, R380 to R383) -/

namespace Sys2Proof.Machine

/-! ## STATUS of a faulted and of a running unit (10_state.md R34) -/

theorem State.statusWord_of_faulted {s : State} (h : s.run = .faulted) :
    s.statusWord = bitWord 2 true ||| bitWord 3 s.hosterr := by
  simp [State.statusWord, State.busy, h, bitWord]

theorem State.statusWord_of_running {s : State} (h : s.run = .running) : s.statusWord = if s.hosterr then 9 else 1 := by
  rw [State.statusWord, State.busy, h]
  cases s.hosterr <;> rfl

theorem State.busy_of_running {s : State} (h : s.run = .running) : s.busy = true := by
  simp [State.busy, h]

/-- Settles O8: the fault action and the codes are their definitions; STATUS follows from the run state it leaves. -/
theorem faultActionRecordsAndNothingElse : Obligations.FaultActionRecordsAndNothingElse :=
  ⟨fun _ _ _ => rfl, rfl, fun s => State.statusWord_of_faulted (s.raise_run ⟨.hostAbort, 0⟩)⟩

/-! ## What the host reaches in a run (60_exceptions.md R380, R381) -/

section Busy

variable {s : State} {size : Nat} {offset v : Word} {tgt : HostTarget}

theorem HostTarget.readableBusy_of_writableBusy (h : tgt.writableBusy = true) : tgt.readableBusy = true := by
  cases tgt with
  | ctrl | irqstat => rfl
  | csr n | entry | hpc | reg r | imem w | dmem a => cases h

/-- The four offsets that a host access of a running unit may reach. -/
theorem hostTarget?_of_readableBusy {c : Params} (h : hostTarget? c size offset = some tgt)
    (hr : tgt.readableBusy = true) : size = 4 ∧
      (offset.toNat = 0x400 ∧ tgt = .ctrl ∨ offset.toNat = 0x408 ∧ tgt = .irqstat ∨ offset.toNat = 0x40C ∧ tgt = .hpc ∨
        offset.toNat = 0x0C ∧ tgt = .csr 0x03) := by
  unfold hostTarget? at h
  simp only at h
  split_ifs at h with hform hcsr hctrl hentry hirqstat hhpc <;> cases h
  · have hsize : size = 4 ∧ offset.toNat % 4 = 0 := by tauto
    have hn := congrArg BitVec.toNat (beq_iff_eq.1 hr)
    simp only [BitVec.toNat_ofNat] at hn
    exact ⟨hsize.1, .inr (.inr (.inr ⟨by omega, congrArg _ (beq_iff_eq.1 hr)⟩))⟩
  · exact ⟨by tauto, .inl ⟨hctrl, rfl⟩⟩
  · cases hr
  · exact ⟨by tauto, .inr (.inl ⟨hirqstat, rfl⟩)⟩
  · exact ⟨by tauto, .inr (.inr (.inl ⟨hhpc, rfl⟩))⟩
  · cases hr
  · cases hr
  · cases hr

/-- A read of a target that is closed in a run is refused (R381). -/
theorem hostAccess_read_of_closed (hr : s.run = .running)
    (h : ∀ tgt, hostTarget? s.params size offset = some tgt → tgt.readableBusy = false) :
    s.hostAccess (.read size offset) = { s with hosterr := true, hostReply := some 0 } := by
  cases ht : hostTarget? s.params size offset with
  | none => exact (hostAccess_of_unmapped (v := 0) ht).1
  | some tgt => simp [State.hostAccess, State.hostReadAt?, ht, State.busy_of_running hr, h tgt ht, State.refuse]

theorem hostAccess_write_of_closed (hr : s.run = .running)
    (h : ∀ tgt, hostTarget? s.params size offset = some tgt → tgt.writableBusy = false) :
    s.hostAccess (.write size offset v) = { s with hosterr := true } := by
  cases ht : hostTarget? s.params size offset with
  | none => exact (hostAccess_of_unmapped ht).2
  | some tgt => simp [State.hostAccess, State.hostWriteAt?, ht, State.busy_of_running hr, h tgt ht, State.refuse]

/-- A read of a target that is open in a run is served in any run state. -/
theorem hostAccess_read_of_open (ht : hostTarget? s.params 4 offset = some tgt) (ho : tgt.readableBusy = true) {x : Word}
    (hx : s.hostRead? tgt = some x) : s.hostAccess (.read 4 offset) = { s with hostReply := some x } := by
  simp [State.hostAccess, State.hostReadAt?, ht, ho, hx]

end Busy

/-- Settles O49: an access that is not listed has no target or a closed one, and the listed reads have open targets. -/
theorem hostIsRefusedWhileRunning : Obligations.HostIsRefusedWhileRunning := by
  intro s size offset v hr o
  refine ⟨fun hlisted => hostAccess_read_of_closed hr fun tgt ht => ?_,
    fun hlisted => hostAccess_write_of_closed hr fun tgt ht => ?_,
    hostAccess_read_of_open (hostTarget?_0x400 _) rfl (congrArg some ?_),
    hostAccess_read_of_open (hostTarget?_0x408 _) rfl (congrArg some ?_),
    hostAccess_read_of_open (hostTarget?_0x40C _) rfl rfl,
    hostAccess_read_of_open (hostTarget?_of_csr _ (n := 3) (by decide)) rfl (congrArg some (State.statusWord_of_running hr))⟩
  · rw [Bool.eq_false_iff]
    intro hopen
    obtain ⟨hsize, ho⟩ := hostTarget?_of_readableBusy ht hopen
    exact hlisted ⟨hsize, by tauto⟩
  · rw [Bool.eq_false_iff]
    intro hopen
    obtain ⟨hsize, ⟨ho, -⟩ | ⟨ho, -⟩ | ⟨-, rfl⟩ | ⟨-, rfl⟩⟩ :=
      hostTarget?_of_readableBusy ht (HostTarget.readableBusy_of_writableBusy hopen)
    · exact hlisted ⟨hsize, .inl ho⟩
    · exact hlisted ⟨hsize, .inr ho⟩
    · cases hopen
    · cases hopen
  · unfold State.ctrlWord
    cases s.ie <;> rfl
  · unfold State.irqstatWord
    cases s.irqDone <;> cases s.irqFault <;> rfl

/-! ## A host write of CTRL, command by command (60_exceptions.md R375, R382) -/

section Commands

variable {s : State} {v : Word}

theorem hostAccess_write_ctrl (s : State) (v : Word) : s.hostAccess (.write 4 0x400 v) = s.writeCtrl v :=
  hostAccess_write_of_some (fun _ => rfl) (hostTarget?_0x400 _) rfl

theorem State.ctrlAbort_of_running (hv : v.getLsbD 1 = true) (hr : s.run = .running) :
    s.ctrlAbort v = s.raise ⟨.hostAbort, 0⟩ :=
  if_pos (by rw [hv, State.busy_of_running hr]; rfl)

theorem State.ctrlAbort_of_not (hv : v.getLsbD 1 = false) : s.ctrlAbort v = s :=
  if_neg (by rw [hv]; nofun)

theorem State.ctrlAbort_of_not_running (hr : s.run ≠ .running) : s.ctrlAbort v = s :=
  if_neg (by simp [busy_eq_false hr])

theorem State.ctrlStart_of_not (hv : v.getLsbD 0 = false) : s.ctrlStart v = s :=
  if_neg (by rw [hv]; nofun)

theorem State.ctrlStart_of_running (hv : v.getLsbD 0 = true) (hr : s.run = .running) : s.ctrlStart v = s.refuse :=
  (if_pos hv).trans (if_pos (State.busy_of_running hr))

theorem State.ctrlStart_of_not_running (hv : v.getLsbD 0 = true) (hr : s.run ≠ .running) : s.ctrlStart v = s.start :=
  (if_pos hv).trans (if_neg (by simp [busy_eq_false hr]))

/-- SRESET does not start a unit. -/
theorem State.run_ctrlReset_ne_running (hr : s.run ≠ .running) (v : Word) : (s.ctrlReset v).run ≠ .running := by
  unfold State.ctrlReset
  split
  · exact nofun
  · exact hr

end Commands

/-- Settles O50: SRESET, ABORT, IE and START in this order, of which each clause leaves one command. -/
theorem hostControlWritesAct : Obligations.HostControlWritesAct := by
  intro s v write ie start abort sreset
  have hwrite : write = State.ctrlStart { (s.ctrlReset v).ctrlAbort v with ie := ie } v := hostAccess_write_ctrl s v
  rw [hwrite]
  refine ⟨fun hst hab hre => ?_, fun hst hre hr => ?_, fun hst hab hre hr => ?_, fun hst hab hre hr => ?_,
    fun hst hab hre hr => ?_, fun hst hre => ?_⟩
  · rw [State.ctrlStart_of_not hst, State.ctrlReset_of_not hre, State.ctrlAbort_of_not hab]
  · rw [State.ctrlReset_of_not hre, State.ctrlAbort_of_not_running hr]
    exact State.ctrlStart_of_not_running (s := { s with ie := ie }) hst hr
  · rw [State.ctrlReset_of_not hre, State.ctrlAbort_of_not hab]
    exact State.ctrlStart_of_running (s := { s with ie := ie }) hst hr
  · rw [State.ctrlStart_of_not hst, State.ctrlReset_of_not hre, State.ctrlAbort_of_running hab hr]
    rfl
  · rw [State.ctrlStart_of_not hst, State.ctrlReset_of_not hre, State.ctrlAbort_of_not_running hr]
  · have hidle : s.softReset.run ≠ .running := nofun
    rw [State.ctrlStart_of_not hst, State.ctrlReset_of_sreset hre, State.ctrlAbort_of_not_running hidle]
    rfl

/-! ## What starts the unit (60_exceptions.md R366, 70_reset_and_hazards.md R394, R395) -/

/-- SRESET and ABORT leave a unit that does not run not running, so that only START is left. -/
theorem State.start_of_writeCtrl_running {s : State} {v : Word} (hr : s.run ≠ .running)
    (h : (s.writeCtrl v).run = .running) : v.getLsbD 0 = true := by
  have hidle := State.run_ctrlReset_ne_running hr v
  by_contra hv
  rw [State.writeCtrl, State.ctrlAbort_of_not_running hidle, State.ctrlStart_of_not (Bool.eq_false_iff.2 hv)] at h
  exact hidle h

/-- Of all targets only CTRL reaches the run state. -/
theorem State.run_of_hostWrite? {s t : State} {tgt : HostTarget} {v : Word} (h : s.hostWrite? tgt v = some t) :
    t.run = s.run ∨ tgt = .ctrl ∧ t = s.writeCtrl v := by
  cases tgt with
  | ctrl =>
    cases h
    exact .inr ⟨rfl, rfl⟩
  | csr n =>
    left
    rw [State.writeCsr?_eq_some h]
  | hpc => cases h
  | entry | irqstat | imem w | dmem a =>
    cases h
    exact .inl rfl
  | reg r =>
    cases h
    exact .inl (s.setReg_run r v)

theorem hostAccess_starts {s : State} {a : HostAccess} (hr : s.run ≠ .running) (h : (s.hostAccess a).run = .running) :
    ∃ v : Word, a = .write 4 0x400 v ∧ v.getLsbD 0 = true := by
  rcases hostAccess_cases s a with ⟨e, r, he⟩ | ⟨offset, v, tgt, t, rfl, ht, -, hw, he⟩ <;> rw [he] at h
  · exact absurd h hr
  · rcases State.run_of_hostWrite? hw with hsame | ⟨rfl, rfl⟩
    · exact absurd (hsame.symm.trans h) hr
    · cases hostTarget?_ctrl ht
      exact ⟨v, rfl, State.start_of_writeCtrl_running hr h⟩

/-- Settles O52: the turn of a sequencer that does not run leaves the run state, so the step was a host access. -/
theorem onlyStartMakesTheUnitRun : Obligations.OnlyStartMakesTheUnitRun := by
  intro s t h hr ht
  obtain ⟨-, ⟨hrun, -⟩ | ⟨-, rfl | ⟨rest, -, rfl⟩⟩ | ⟨a, rest, hnext, rfl⟩⟩ := step_cases h
  · exact absurd hrun hr
  · exact absurd ht hr
  · exact absurd ht hr
  · obtain ⟨v, rfl, hv⟩ := hostAccess_starts (s := { s with turns := rest }) hr ht
    exact ⟨v, ⟨rest, hnext⟩, hv⟩

end Sys2Proof.Machine

/-! # Proofs: the reset values (70_reset_and_hazards.md R391)

The soft reset takes everything but the memories, the parameters and the model's own fields from the unit at power-on, so
the unit at power-on is its own soft reset: what the soft reset leaves is said once, and holds after both resets. -/

namespace Sys2Proof.Machine

theorem State.softReset_powerOn (c : Params) : (State.powerOn c).softReset = State.powerOn c := rfl

@[simp] theorem State.reg_softReset (s : State) (r : Reg) : s.softReset.reg r = 0 := by
  rw [State.reg, State.softReset_regs, Vector.getElem_replicate, ite_self]

/-- The unit is idle, so BUSY, DONE and FAULT are clear, and HOSTERR is cleared (10_state.md R34). -/
@[simp] theorem State.statusWord_softReset (s : State) : s.softReset.statusWord = 0 :=
  State.statusWord_of_idle (s := s.softReset) nofun

/-- IE is clear (10_state.md R47). -/
@[simp] theorem State.ctrlWord_softReset (s : State) : s.softReset.ctrlWord = 0 := s.softReset.ctrlWord_eq

/-- Neither event is pending (10_state.md R47, 60_exceptions.md R376). -/
@[simp] theorem State.irqstatWord_softReset (s : State) : s.softReset.irqstatWord = 0 := s.softReset.irqstatWord_eq

@[simp] theorem State.irq_softReset (s : State) : s.softReset.irq = false := by
  rw [State.irq, State.softReset_ie, Bool.false_and]

/-- Settles O55: both resets are soft resets, the one at power-on being of the unit itself. -/
theorem resetLeavesTheStatedValues : Obligations.ResetLeavesTheStatedValues := by
  intro c s t ht
  obtain ⟨u, rfl⟩ : ∃ u : State, t = u.softReset := by
    rcases List.mem_pair.1 ht with rfl | rfl
    · exact ⟨State.powerOn c, (State.softReset_powerOn c).symm⟩
    · exact ⟨s, rfl⟩
  exact ⟨u.reg_softReset, u.softReset_pc, u.softReset_prec, u.statusWord_softReset, u.softReset_cause, u.softReset_fpc,
    u.softReset_finfo, u.softReset_scaleLo, u.softReset_scaleHi, u.softReset_scalef, u.softReset_bcount,
    u.softReset_istride, u.softReset_bstride, u.softReset_ostride, u.tvalid_softReset, u.softReset_tgencnt,
    u.softReset_instret, u.ctrlWord_softReset, u.softReset_entry, u.irqstatWord_softReset, u.irq_softReset, rfl,
    rfl, s.softReset_params, s.softReset_imem, s.softReset_dmem⟩

end Sys2Proof.Machine
